-- ==== Sys2Proof/Word.lean ====
section
/-! DEFINITION. The word types of the frames and counters, and their plainest arithmetic. -/

namespace Sys2Proof

/-- One byte of a frame. -/
abbrev Byte := BitVec 8

/-- A 16-bit field that the part carries or rewrites whole: an angle, Δf, ROCOF, the digital word, a tag. -/
abbrev Half := BitVec 16

/-- A 32-bit field or counter. -/
abbrev Word := BitVec 32

/-- A 32-bit saturating counter's greatest value (00_scope, "Saturating counters"). -/
def Word.top : Word := 0xFFFFFFFF#32

end Sys2Proof
end

