-- ==== Sys2Proof/Syntax.lean ====
section
/-! DEFINITION. The commands and events of the TA-460: one constructor of `Instr` for each row of spec/opcode_table.json.
No row of the table has bits, so an operand below is what the row's rule says the event brings with it. -/

namespace Sys2Proof

/-- The two ingress ports, Path A and Path B (R15). -/
inductive Port where
  | a
  | b
deriving DecidableEq, Repr

/-- Where a resistance lies between two neighbouring nominal values (R201). -/
inductive Nearness where
  | nearerLower
  | midpoint
  | nearerHigher
deriving DecidableEq, Repr

/-- The reading of the NODE strap, as the table of R201 classes it. The nominal values are numbered 0..7 in ascending order
of resistance. `belowLowest` is a resistance above a direct tie and below the lowest nominal value, of which R201 says
nothing. -/
inductive StrapReading where
  | tie
  | belowLowest
  | nominal (i : Fin 8)
  | between (lower : Fin 7) (at_ : Nearness)
  | aboveHighest
deriving DecidableEq, Repr

/-- An Ethernet frame without its link check sequence: addresses, type field and payload (R1, R3). -/
structure EthFrame where
  dst : BitVec 48
  src : BitVec 48
  etype : Half
  payload : List Byte
deriving DecidableEq, Repr

/-- A character as the TIME line receiver sampled it (R104): eight data bits, the parity bit (read only when parity is EVEN
or ODD) and the stop bit (`true` when high). `period` is the line period of `TimeLine` in which the falling edge that began it
was seen (R106, log 25), and `sawHigh` says that the line was high at some moment since the character before it. -/
structure TimeChar where
  data : Byte
  parityBit : Bool
  stopBit : Bool
  period : Nat
  sawHigh : Bool
deriving DecidableEq, Repr

/-- The commands and events of the part, in the order of spec/opcode_table.json. The rows of the Control Unit, from
`stageStream` to `unknownCommand`, execute the frame at the head of the command queue (R173), which holds their arguments.
`damage` lists the offsets at which the image read back after a write differs from the image written, with the byte read
there (R199, log 24). -/
inductive Instr where
  | powerUp (reading : StrapReading)
  | resetAssert
  | resetRelease
  | powerLoss
  | ingressLinkUp (p : Port)
  | ingressLinkDown (p : Port)
  | portOLinkUp
  | portOLinkDown
  | ingressFrameComplete (p : Port) (linkCheckGood : Bool) (f : EthFrame)
  | asetRecordIngest
  | placement (p : Port)
  | silenceTimerExpiry (idx : Nat)
  | deadlineExpiry (ordinal : Nat)
  | composeSet
  | queuePart
  | commitApply
  | transmissionComplete
  | strobePulseEnd
  | epochPulse
  | ppsEdge
  | edgeWatchdogExpiry
  | holdoverLimitReached
  | timeCharacter (c : TimeChar)
  | quiesceEvent
  | elapsedFreeze
  | profileWriteComplete (damage : List (Nat × Byte))
  | stageStream
  | unstageStream
  | stageRange
  | stageParams
  | discardStage
  | commit
  | isolate
  | restore
  | setOverride
  | clearOverride
  | setEmission
  | clearQuiesce
  | readStatus
  | readStream
  | readRanges
  | readOverrides
  | snapshotCounters
  | monitorRun
  | monitorHold
  | saveProfile
  | restart
  | unknownCommand
  | quiesceLineRise
deriving DecidableEq, Repr

end Sys2Proof
end

