-- ==== Sys2Proof/Config.lean ====
section
/-! DEFINITION. The values the manual leaves open, as constants without a body: nothing can be proved of them. -/

namespace Sys2Proof

/-- Which of the nine conditions of the strap a resistance below the lowest nominal value is read as, which R201 does not state:
a resistor of one strap code, or `none` for a direct tie (log 20). -/
opaque Config.strapBelowLowest : Option (Fin 8)

/-- The Δf that READ_OVERRIDES gives for a MARK_INVALID or SUPPRESS override, for which R136 and R186 state none (log 18).
The argument is State's free counter. -/
opaque Config.idleOverrideDf : Nat → Half

/-- The number of phasors that READ_OVERRIDES lists for a MARK_INVALID or SUPPRESS override (log 18). -/
opaque Config.idleOverrideCount : Nat → Fin 17

/-- The magnitude of the i-th of those phasors (log 18). -/
opaque Config.idleOverrideMagnitude : Nat → Nat → Word

/-- The angle of the i-th of those phasors (log 18). -/
opaque Config.idleOverrideAngle : Nat → Nat → Half

/-- The four bytes READ_STATUS gives for a mapping label past the last second of the SOE scale, of which R110 says nothing
(log 21). -/
opaque Config.labelPastScale : Nat → Word

end Sys2Proof
end

