-- ==== Sys2Proof/Machine/State.lean ====
section
/-! DEFINITION. The state of the TA-460 as plain data: every register, queue, counter, mode and line the spec names, block
by block, the queue of waiting commands, and the state after reset. -/

namespace Sys2Proof.Machine

/-! ### Values of frames and records -/

/-- A phasor: magnitude and angle, one angle unit being 1/65536 turn (R4). -/
structure Phasor where
  magnitude : Word
  angle : Half
deriving DecidableEq, Repr

/-- The record flags of R8. -/
structure Flags where
  dataInvalid : Bool
  syncLost : Bool
  timeSuspect : Bool
  uncorrected : Bool
  heldUpstream : Bool
  test : Bool
deriving DecidableEq, Repr

/-- What a contribution cell, a PRESENT record and a hold cache have in common (R26, R48, R128). The residual is in ns. -/
structure Content where
  hop : Nat
  residual : Int
  flags : Flags
  df : Half
  rocof : Half
  digital : Half
  phasors : List Phasor
  analogs : List Word
deriving DecidableEq, Repr

/-- A contribution (R26, R75). Its stream index is absent once it is withdrawn, and `former` is then the index it had (R182). -/
structure Contribution where
  index : Option Nat
  former : Option Nat
  frac : Nat
  arrival : Nat
  content : Content
deriving DecidableEq, Repr

/-! ### Named values -/

/-- A link is UP or DOWN (R15, R150). -/
inductive Link where
  | up
  | down
deriving DecidableEq, Repr

/-- The states of a stream entry that is not VACANT (R33, section 3.2). -/
inductive StreamState where
  | enrolled
  | active
  | suspect
  | silent
  | isolated
deriving DecidableEq, Repr

/-- The states of an epoch record that is not FREE (R74). -/
inductive RecState where
  | opened
  | sealed
  | emitting
deriving DecidableEq, Repr

/-- Why a record was sealed (R94). -/
inductive SealCause where
  | complete
  | deadline
  | crowded
  | flush
  | step
deriving DecidableEq, Repr

/-- The lock states of the Time Reference Unit (R109). -/
inductive LockState where
  | acquiring
  | locked
  | holdover
deriving DecidableEq, Repr

/-- The deadline bases (R91). -/
inductive DeadlineBase where
  | timestamp
  | firstArrival
deriving DecidableEq, Repr

/-- The parities of the TIME line (R104). -/
inductive Parity where
  | even
  | odd
  | none
deriving DecidableEq, Repr

/-- The sources of the STROBE line (R121). -/
inductive StrobeSource where
  | off
  | epoch
  | pps
  | emit
deriving DecidableEq, Repr

/-- The emission modes (R133). -/
inductive EmissionMode where
  | run
  | withhold
  | single
deriving DecidableEq, Repr

/-- The override actions (R136). -/
inductive OverrideAction where
  | substitute
  | markInvalid
  | suppress
deriving DecidableEq, Repr

/-- The record statuses (R7). -/
inductive RecordStatus where
  | present
  | held
  | absent
  | overridden
deriving DecidableEq, Repr

/-- The commit states (R178). -/
inductive CommitState where
  | none
  | pendingBoundary
  | pendingDrain
deriving DecidableEq, Repr

/-- The profile states (R198). -/
inductive ProfileState where
  | good
  | bad
  | writing
deriving DecidableEq, Repr

/-- The three kinds of frame Port O carries (R3, R151). -/
inductive TxKind where
  | part
  | straggler
  | reply
deriving DecidableEq, Repr

/-- The 39 counters of the Monitor, in the order of R189's positions. -/
inductive Ctr where
  | framesInA | framesInB | checkBad | unknownKind | malformed
  | unknownStream | isolatedDrop | shape | badLabel | offGrid
  | duplicate | collision | late | afterSeal | ahead | horizon | storeFull | draining
  | sealComplete | sealDeadline | sealCrowded | sealFlush | sealStep
  | withheld | flushed | setsEmitted | partsEmitted | stragglersOut | stragglerDrop
  | ctrlShed | notMine | loop | hop
  | timeParity | timeFraming | timeOverrun | unlabelled | irregular | steps
deriving DecidableEq, Repr

/-- A counter's place in the SNAPSHOT_COUNTERS reply, counted from 0 (R189). -/
def Ctr.pos : Ctr → Fin 39
  | .framesInA => 0 | .framesInB => 1 | .checkBad => 2 | .unknownKind => 3 | .malformed => 4
  | .unknownStream => 5 | .isolatedDrop => 6 | .shape => 7 | .badLabel => 8 | .offGrid => 9
  | .duplicate => 10 | .collision => 11 | .late => 12 | .afterSeal => 13 | .ahead => 14
  | .horizon => 15 | .storeFull => 16 | .draining => 17
  | .sealComplete => 18 | .sealDeadline => 19 | .sealCrowded => 20 | .sealFlush => 21 | .sealStep => 22
  | .withheld => 23 | .flushed => 24 | .setsEmitted => 25 | .partsEmitted => 26
  | .stragglersOut => 27 | .stragglerDrop => 28
  | .ctrlShed => 29 | .notMine => 30 | .loop => 31 | .hop => 32
  | .timeParity => 33 | .timeFraming => 34 | .timeOverrun => 35 | .unlabelled => 36
  | .irregular => 37 | .steps => 38

/-! ### Configuration: the three tables of the staged set -/

/-- The configuration fields of a stream entry (R33): tolerance in µs, silence timeout in ms. -/
structure StreamCfg where
  id : Nat
  tb : Nat
  rs : Nat
  tol : Nat
  phasors : Nat
  analogs : Nat
  correct : Bool
  optional : Bool
  straggle : Bool
  holdLimit : Nat
  tqMax : Nat
  hysteresis : Nat
  silenceMs : Nat
deriving DecidableEq, Repr

/-- An entry of the range attribute map (R52). -/
structure RangeEntry where
  enable : Bool
  base : Nat
  size : Nat
  optional : Bool
  noCorrect : Bool
  straggle : Bool
  holdDeny : Bool
deriving DecidableEq, Repr

/-- The parameter block (R177): budget, ahead limit and histogram width in ms, holdover limit in s, TIME rate in baud. -/
structure Params where
  rate : Nat
  base : DeadlineBase
  budgetMs : Nat
  aheadMs : Nat
  region : Nat
  payloadType : Half
  burst : Nat
  holdoverS : Nat
  baud : Nat
  parity : Parity
  tqMax : Nat
  strobe : StrobeSource
  widthMs : Nat
  quiesceEnable : Bool
  composite : Bool
deriving DecidableEq, Repr

/-- The eight per-stream counters (R50). -/
structure StreamCounts where
  accepted : Word
  late : Word
  duplicate : Word
  collision : Word
  offGrid : Word
  shape : Word
  absentEmitted : Word
  heldEmitted : Word
deriving DecidableEq, Repr

/-- An entry of the active stream table that is not VACANT, with its index (R33, R34). `timer` is the silence timer's expiry
tick, absent while it is stopped; `isolating` is the condition of R39. -/
structure StreamEntry where
  idx : Nat
  cfg : StreamCfg
  state : StreamState
  isolating : Bool
  timer : Option Nat
  bad : Nat
  good : Nat
  lastEpoch : Option Nat
  hold : Option Content
  holdAge : Nat
  counts : StreamCounts
deriving DecidableEq, Repr

/-- The active set: stream table (ascending index, VACANT indexes not listed), range attribute map and parameter block. -/
structure ActiveSet where
  streams : List StreamEntry
  ranges : Vector RangeEntry 8
  params : Params
deriving DecidableEq, Repr

/-- The staged set: configuration alone (R34, R173). Entries stand in ascending index. -/
structure StagedSet where
  streams : List (Nat × StreamCfg)
  ranges : Vector RangeEntry 8
  params : Params
deriving DecidableEq, Repr

/-! ### Supply, lines and links -/

/-- The supply, the RESET line, and what the NODE strap gave at power-up (R201, R202). -/
structure Power where
  powered : Bool
  resetAsserted : Bool
  strapCode : Nat
  bench : Bool
deriving DecidableEq, Repr

/-- The link states of Path A, Path B (R15) and Port O (R150). -/
structure Links where
  a : Link
  b : Link
  o : Link
deriving DecidableEq, Repr

/-! ### Admission and Composite Ingest -/

/-- A contribution that Admission has built and the ring has not yet answered, with what R27 to R29 need of the version of the
active set it was looked up under (R30): its stream ID, the grid rate of the snap, the effective STRAGGLE attribute, the
original body (absent for a lower-tier record), whether it is a life frame and whether its TQ or SYNC_LOST make it bad time. -/
structure Offer where
  port : Port
  id : Nat
  rate : Nat
  ordinal : Nat
  contribution : Contribution
  straggle : Bool
  body : Option (List Byte)
  life : Bool
  badTime : Bool
deriving DecidableEq, Repr

/-- A record of a received ASET frame (R7); its own residual is not kept (R164). -/
structure WireRecord where
  id : Nat
  hop : Nat
  status : RecordStatus
  holdAge : Nat
  flags : Flags
  df : Half
  rocof : Half
  digital : Half
  phasors : List Phasor
  analogs : List Word
deriving DecidableEq, Repr

/-- The set header of an ASET frame (R6). -/
structure SetHeader where
  rate : Nat
  soe : Nat
  slot : Nat
  cause : SealCause
  fallback : Bool
  test : Bool
  stepped : Bool
  clock : LockState
  quality : Nat
  partIndex : Nat
  partCount : Nat
  recordCount : Nat
deriving DecidableEq, Repr

/-- An ASET frame under treatment at Composite Ingest: set header, port, arrival tick and the records not yet handed on
(R160). -/
structure IngestFrame where
  port : Port
  arrival : Nat
  header : SetHeader
  records : List WireRecord
deriving DecidableEq, Repr

/-- What is in admission: offers that wait for their placement, in the order in which they were built, and ASET frames under
treatment, in the order in which dispatch handed them on. -/
structure Admission where
  offers : List Offer
  ingest : List IngestFrame
deriving DecidableEq, Repr

/-! ### The Alignment Ring and the Contribution Store -/

/-- An epoch record that is not FREE (R73). Its contributions stand in ascending stream index, withdrawn ones last (R76, R182);
their number is the present count, and each of them is a taken cell (R75). -/
structure EpochRec where
  ordinal : Nat
  state : RecState
  openTick : Nat
  deadline : Nat
  sealTick : Option Nat
  cause : Option SealCause
  contributions : List Contribution
  requiredPresent : Nat
  fallback : Bool
  stepped : Bool
deriving DecidableEq, Repr

/-- The departure memory of one slot (R73): departed ordinal and departure tick. The slot is the ordinal modulo 512. -/
structure Departed where
  ordinal : Nat
  tick : Nat
deriving DecidableEq, Repr

/-- The ring (R73 to R78, R100, R101): the records that are not FREE in ascending ordinal, the departure memory in ascending
slot, the emission floor and its tick, the drains under way and the step mark. -/
structure Ring where
  recs : List EpochRec
  memory : List Departed
  floor : Option Nat
  floorTick : Option Nat
  stepDrain : Bool
  commitDrain : Bool
  stepMark : Bool
deriving DecidableEq, Repr

/-! ### The Time Reference Unit -/

/-- The mapping: the local tick of an edge and the second it began (R108). -/
structure Mapping where
  label : Nat
  tick : Nat
deriving DecidableEq, Repr

/-- Source quality and source state of a time message, `holdover` for `H` (R105). -/
structure MsgQuality where
  quality : Nat
  holdover : Bool
deriving DecidableEq, Repr

/-- A complete time message (R105). -/
structure TimeMsg where
  label : Nat
  source : MsgQuality
deriving DecidableEq, Repr

/-- The unit's fields of R109. `mismatch` holds the pending label while the mismatch count is 1. `lastMsg` is the last applied
message; the last message quality is computed from it (R119). -/
structure Tru where
  state : LockState
  edgeRef : Option Nat
  streak : Nat
  streakLabel : Nat
  mapping : Option Mapping
  watchdog : Option Nat
  mismatch : Option Nat
  holdEntry : Option Nat
  lastMsg : Option MsgQuality
deriving DecidableEq, Repr

/-- The TIME line: the characters of the message in progress, the message buffer (R105, R106), whether the receiver waits for
the line to return high (R104), and the line period, the model's count of the starts and of the changes of the line's setting, each of
which abandons the character in reception (R106, log 25). -/
structure TimeLine where
  chars : List Byte
  buffer : Option TimeMsg
  waitHigh : Bool
  period : Nat
deriving DecidableEq, Repr

/-- The STROBE line: the tick at which the pulse in progress ends (R121), and the last pulsed ordinal (R122). -/
structure Strobe where
  endTick : Option Nat
  lastPulsed : Option Nat
deriving DecidableEq, Repr

/-! ### The Composer -/

/-- An override: its action, with a Δf and a phasor list for SUBSTITUTE (R136). -/
structure Override where
  action : OverrideAction
  df : Half
  phasors : List Phasor
deriving DecidableEq, Repr

/-- A pending override change (R136). -/
inductive OverrideChange where
  | set (o : Override)
  | clear
deriving DecidableEq, Repr

/-- An occupied entry of the override table (R136). -/
structure OverrideEntry where
  id : Nat
  inForce : Option Override
  change : Option OverrideChange
deriving DecidableEq, Repr

/-- A record of a set in composition: the stream's index and ID, status, hop, hold age and, unless it is ABSENT, content (R7). -/
structure SetRecord where
  idx : Nat
  id : Nat
  hop : Nat
  status : RecordStatus
  holdAge : Nat
  content : Option Content
deriving DecidableEq, Repr

/-- A part of a set: its records, and the frame built from them (R9, R3). -/
structure SetPart where
  records : List SetRecord
  frame : EthFrame
deriving DecidableEq, Repr

/-- The set in composition: the EMITTING head's ordinal, its parts, and how many of them are queued (R124). -/
structure Composition where
  ordinal : Nat
  parts : List SetPart
  queued : Nat
deriving DecidableEq, Repr

/-- The Composer's state (R124), with the level of the QUIESCE line (R140). -/
structure Composer where
  overrides : List OverrideEntry
  mode : EmissionMode
  seen : Bool
  quiesced : Bool
  lineLow : Bool
  set : Option Composition
deriving DecidableEq, Repr

/-! ### Egress -/

/-- A frame in transmission, and the tick at which it was granted (R151). -/
structure Tx where
  kind : TxKind
  frame : EthFrame
  start : Nat
deriving DecidableEq, Repr

/-- The three queues of the Egress Arbiter, the reservations in M, the consecutive-O-grant count and Port O's transmission
(R146 to R153). -/
structure Egress where
  o : List EthFrame
  l : List EthFrame
  m : List EthFrame
  reserved : Nat
  grants : Nat
  tx : Option Tx
deriving DecidableEq, Repr

/-! ### The Control Unit -/

/-- Whom a reply answers: requester, tag and command code as received (R13). -/
structure ReplyTo where
  requester : Half
  tag : Half
  code : Byte
deriving DecidableEq, Repr

/-- An accepted control frame: what its reply echoes, and its arguments (R12, R172). -/
structure CtrlFrame where
  re : ReplyTo
  args : List Byte
deriving DecidableEq, Repr

/-- The Control Unit's state (R173), with whom the pending commit's reply answers. -/
structure Control where
  queue : List CtrlFrame
  commit : CommitState
  commitFor : Option ReplyTo
  generation : Nat
  staged : StagedSet
deriving DecidableEq, Repr

/-! ### The Monitor and the Profile Store -/

/-- The Monitor (R189 to R193). `hold` is the condition HOLD. -/
structure Monitor where
  counters : Vector Word 39
  bins : Vector Word 16
  early : Word
  elapsed : Word
  remainder : Nat
  hold : Bool
  frozen : Bool
deriving DecidableEq, Repr

/-- The items of a profile image (R198). -/
structure Image where
  params : Params
  mode : EmissionMode
  streams : List (Nat × StreamCfg)
  ranges : Vector RangeEntry 8
deriving DecidableEq, Repr

/-- What the nonvolatile storage holds: nothing written yet; an image that a write has begun to overwrite and that has not ended, whose
check is wrong (R200); or the bytes that a write left, the last four of them the check (R198, log 24). -/
inductive Stored where
  | blank
  | broken
  | bytes (bs : List Byte)
deriving DecidableEq, Repr

/-- The Profile Store: the stored image, the profile state, and the snapshot of a write under way with whom its reply answers
(R198, R199). -/
structure ProfileStore where
  image : Stored
  state : ProfileState
  writing : Option Image
  saveFor : Option ReplyTo
deriving DecidableEq, Repr

/-! ### The whole part -/

/-- The state of the part. `pending` is the queue of commands that wait for the model's step, and `free` counts the free values
drawn so far (log 18): both are the model's own. -/
structure State where
  pending : List Instr
  power : Power
  tick : Nat
  links : Links
  adm : Admission
  table : ActiveSet
  ring : Ring
  tru : Tru
  time : TimeLine
  strobe : Strobe
  comp : Composer
  egress : Egress
  ctl : Control
  mon : Monitor
  store : ProfileStore
  free : Nat
deriving DecidableEq, Repr

/-- No event of the part is a fault: the spec names none that stops it, so there is nothing to raise. -/
inductive Fault where
deriving DecidableEq, Repr

/-- The host's refusal of a command that has no meaning yet, raised by `exec` alone. Every command has its meaning, so no arm
raises it. It would be safe. -/
inductive Refusal where
  | notModelled (mnemonic : String)
deriving DecidableEq, Repr

/-- A range entry after a start without a profile (R52). -/
def blankRange : RangeEntry where
  enable := false
  base := 0
  size := 1
  optional := false
  noCorrect := false
  straggle := false
  holdDeny := false

/-- The parameter reset values of R203. -/
def resetParams : Params where
  rate := 50
  base := .timestamp
  budgetMs := 200
  aheadMs := 500
  region := 0
  payloadType := 0x9A41#16
  burst := 16
  holdoverS := 300
  baud := 9600
  parity := .even
  tqMax := 3
  strobe := .off
  widthMs := 20
  quiesceEnable := true
  composite := false

/-- The state right after a start without a profile (R202, R203): every block at its start values. The strap reading, the blank
storage and the high QUIESCE line are the model's choices (logs 3, 4, 5). -/
def State.reset : State where
  pending := []
  power := { powered := true, resetAsserted := false, strapCode := 0, bench := false }
  tick := 0
  links := { a := .down, b := .down, o := .down }
  adm := { offers := [], ingest := [] }
  table := { streams := [], ranges := .replicate 8 blankRange, params := resetParams }
  ring := { recs := [], memory := [], floor := none, floorTick := none,
            stepDrain := false, commitDrain := false, stepMark := false }
  tru := { state := .acquiring, edgeRef := none, streak := 0, streakLabel := 0, mapping := none,
           watchdog := none, mismatch := none, holdEntry := none, lastMsg := none }
  time := { chars := [], buffer := none, waitHigh := false, period := 0 }
  strobe := { endTick := none, lastPulsed := none }
  comp := { overrides := [], mode := .run, seen := false, quiesced := false, lineLow := false, set := none }
  egress := { o := [], l := [], m := [], reserved := 0, grants := 0, tx := none }
  ctl := { queue := [], commit := .none, commitFor := none, generation := 0,
           staged := { streams := [], ranges := .replicate 8 blankRange, params := resetParams } }
  mon := { counters := .replicate 39 0, bins := .replicate 16 0, early := 0, elapsed := 0, remainder := 0,
           hold := false, frozen := false }
  store := { image := .blank, state := .bad, writing := none, saveFor := none }
  free := 0

end Sys2Proof.Machine
end

