-- ==== Sys2Proof/Machine/Operands.lean ====
section
/-! DEFINITION. The operand forms of frames: byte order, field widths, lists of phasors and analogs, the CRC-32 of R2, and the
argument encodings of R12. -/

namespace Sys2Proof.Machine

/-! ### Writing fields, most significant byte first (R1) -/

/-- An unsigned field of `w` bytes, most significant byte first (R1, R12). -/
def be : Nat → Nat → List Byte
  | 0, _ => []
  | w + 1, v => BitVec.ofNat 8 (v / 256 ^ w) :: be w v

/-- A signed field of `w` bytes in two's complement (R1). -/
def beInt (w : Nat) (v : Int) : List Byte := be w (v % (256 ^ w : Nat)).toNat

/-- An on/off setting: 00H for off, 01H for on (R12). -/
def onOff (b : Bool) : List Byte := [if b then 1 else 0]

/-- A value that may be absent: a presence flag, 00H for absent and 01H for present, and then the value, for an absent one the
field's greatest value, every bit set (R185, log 15). -/
def optField (w : Nat) : Option Nat → List Byte
  | none => 0 :: List.replicate w 0xFF
  | some v => 1 :: be w v

/-- A phasor: magnitude in 4 bytes and angle in 2 (R14). -/
def phasorBytes (p : Phasor) : List Byte := be 4 p.magnitude.toNat ++ be 2 p.angle.toNat

/-- A phasor list and then an analog list, in station order (R4, R14). -/
def valueBytes (ps : List Phasor) (as : List Word) : List Byte :=
  ps.flatMap phasorBytes ++ as.flatMap fun a => be 4 a.toNat

/-! ### Reading fields -/

/-- The unsigned value of bytes that stand most significant first (R1). -/
def beNat (bs : List Byte) : Nat := bs.foldl (fun acc b => acc * 256 + b.toNat) 0

/-- The unsigned field of `n` bytes at offset `at_` of a body (R14). -/
def field (bs : List Byte) (at_ n : Nat) : Nat := beNat ((bs.drop at_).take n)

/-- A 16-bit field that is carried whole. -/
def field16 (bs : List Byte) (at_ : Nat) : Half := BitVec.ofNat 16 (field bs at_ 2)

/-- The first `n` phasors of a list of bytes (R14). -/
def readPhasors : Nat → List Byte → List Phasor
  | 0, _ => []
  | n + 1, bs => { magnitude := BitVec.ofNat 32 (field bs 0 4), angle := field16 bs 4 } :: readPhasors n (bs.drop 6)

/-- The first `n` analogs of a list of bytes (R14). -/
def readAnalogs : Nat → List Byte → List Word
  | 0, _ => []
  | n + 1, bs => BitVec.ofNat 32 (field bs 0 4) :: readAnalogs n (bs.drop 4)

/-- A byte that may stand for an on/off setting (R12). -/
def isOnOff (bs : List Byte) (at_ : Nat) : Bool := field bs at_ 1 ≤ 1

/-- An on/off setting that has passed `isOnOff`. -/
def readOnOff (bs : List Byte) (at_ : Nat) : Bool := field bs at_ 1 == 1

/-! ### The frame check (R2) -/

/-- The generator polynomial 04C11DB7H of R2, its bits in reverse, for a register whose least significant bit holds the highest
power (log 7). -/
def crcPoly : Word := 0xEDB88320#32

/-- One bit into the CRC register (R2, log 7). -/
def crcBit (r : Word) (b : Bool) : Word :=
  if (r.getLsbD 0) != b then (r >>> 1) ^^^ crcPoly else r >>> 1

/-- One byte into the CRC register, least significant bit first (R2). -/
def crcByte (r : Word) (b : Byte) : Word :=
  (List.range 8).foldl (fun r i => crcBit r (b.getLsbD i)) r

/-- The CRC-32 of R2: register preset to FFFFFFFFH, final value complemented. -/
def crc32 (bs : List Byte) : Word := ~~~ (bs.foldl crcByte Word.top)

/-! ### The common header and trailer (R1, R14) -/

/-- Kind codes of the common header (R14). -/
abbrev kindMeas : Nat := 1
abbrev kindAset : Nat := 2
abbrev kindLate : Nat := 3
abbrev kindCtrl : Nat := 4
abbrev kindRply : Nat := 5

/-- Common header and body, then the frame check over both (R1, R2). -/
def checkedFrame (kind origin : Nat) (body : List Byte) : List Byte :=
  let covered := be 1 kind ++ [0] ++ be 2 origin ++ be 2 body.length ++ body
  covered ++ be 4 (crc32 covered).toNat

/-- Zero bytes until the Ethernet payload is 46 bytes long (R3). -/
def padded (bs : List Byte) : List Byte := bs ++ List.replicate (46 - bs.length) 0

/-- The Ethernet frame of a frame the part originates: all-stations destination, source 02H 00H 00H 00H 00H and the node ID,
and the payload type (R3). -/
def outFrame (payloadType : Half) (node kind : Nat) (body : List Byte) : EthFrame where
  dst := 0xFFFFFFFFFFFF#48
  src := BitVec.ofNat 48 (0x020000000000 + node)
  etype := payloadType
  payload := padded (checkedFrame kind node body)

/-- The largest payload length a frame may state (R1). -/
abbrev maxBody : Nat := 9000

/-- A frame's kind-specific body, once its form has been checked (R17). -/
def bodyOf (payload : List Byte) : List Byte := (payload.drop 6).take (field payload 4 2)

end Sys2Proof.Machine
end

