-- ==== Sys2Proof/Machine/Flags.lean ====
section
/-! DEFINITION. Every flag computation of the part: the record flags of R8 and their byte, the station flags, TIME_SUSPECT, the
flags a lower-tier record brings, and the codes of named values. -/

namespace Sys2Proof.Machine

/-! ### Record flags (R8, R14) -/

/-- No flag set, as in a substituted record (R131). -/
def Flags.clear : Flags := ⟨false, false, false, false, false, false⟩

/-- The record flags byte (R14). -/
def flagsByte (f : Flags) : Byte :=
  BitVec.ofNat 8 (f.dataInvalid.toNat + 2 * f.syncLost.toNat + 4 * f.timeSuspect.toNat + 8 * f.uncorrected.toNat
    + 16 * f.heldUpstream.toNat + 32 * f.test.toNat)

/-- The record flags of a received record; its bits 7..6 are disregarded (R14). -/
def flagsOf (b : Byte) : Flags :=
  ⟨b.getLsbD 0, b.getLsbD 1, b.getLsbD 2, b.getLsbD 3, b.getLsbD 4, b.getLsbD 5⟩

/-- The flags a phasor frame brings: DATA_INVALID, SYNC_LOST and TEST of its TQ and flags byte, bits 3, 4 and 5 (R5, R26). -/
def stationFlags (b : Byte) : Flags :=
  { Flags.clear with dataInvalid := b.getLsbD 3, syncLost := b.getLsbD 4, test := b.getLsbD 5 }

/-- The time quality code, bits 2..0 of the TQ and flags byte (R14). -/
def stationTq (b : Byte) : Nat := b.toNat % 8

/-- Bad time by TQ or SYNC_LOST: the tests that R26 and R29 (for a record R166) have in common. -/
def badTimeOf (tq tqMax : Nat) (syncLost : Bool) : Bool := decide (tq > tqMax) || syncLost

/-- The flags of a built contribution: those it brought, with UNCORRECTED from the snap and TIME_SUSPECT by TQ or SYNC_LOST added;
none is cleared (R26, R167). -/
def builtFlags (brought : Flags) (badTime uncorrected : Bool) : Flags :=
  { brought with timeSuspect := brought.timeSuspect || badTime, uncorrected := brought.uncorrected || uncorrected }

/-- The flags that a lower-tier record brings: its own, with HELD_UPSTREAM added when it is HELD (R167, R168). -/
def recordFlags (f : Flags) (st : RecordStatus) : Flags :=
  { f with heldUpstream := f.heldUpstream || st == .held }

/-! ### Codes of named values (R12, R14) -/

/-- Seal cause codes (R14). -/
def SealCause.code : SealCause → Nat
  | .complete => 1 | .deadline => 2 | .crowded => 3 | .flush => 4 | .step => 5

/-- The seal cause a code names (R14). -/
def sealCauseOf : Nat → Option SealCause
  | 1 => some .complete | 2 => some .deadline | 3 => some .crowded | 4 => some .flush | 5 => some .step | _ => none

/-- The counter that counts a seal of this cause (R94, R189). -/
def SealCause.ctr : SealCause → Ctr
  | .complete => .sealComplete | .deadline => .sealDeadline | .crowded => .sealCrowded
  | .flush => .sealFlush | .step => .sealStep

/-- Clock state codes (R14); the same positions name the state in READ_STATUS (R12). -/
def LockState.code : LockState → Nat
  | .acquiring => 0 | .locked => 1 | .holdover => 2

/-- The clock state a code names (R14). -/
def clockOf : Nat → Option LockState
  | 0 => some .acquiring | 1 => some .locked | 2 => some .holdover | _ => none

/-- Record status codes, bits 1..0 (R14). -/
def RecordStatus.code : RecordStatus → Nat
  | .present => 0 | .held => 1 | .absent => 2 | .overridden => 3

/-- The record status of bits 1..0 (R14). -/
def recordStatusOf : Nat → RecordStatus
  | 0 => .present | 1 => .held | 2 => .absent | _ => .overridden

/-- Deadline base as a named value, in the order of R91. -/
def deadlineBaseOf : Nat → Option DeadlineBase
  | 0 => some .timestamp | 1 => some .firstArrival | _ => none

/-- Parity as a named value, in the order of R104 and R177. -/
def parityOf : Nat → Option Parity
  | 0 => some .even | 1 => some .odd | 2 => some .none | _ => none

/-- STROBE source as a named value, in the order of R121. -/
def strobeOf : Nat → Option StrobeSource
  | 0 => some .off | 1 => some .epoch | 2 => some .pps | 3 => some .emit | _ => none

/-- The position of a deadline base in that list. -/
def DeadlineBase.code : DeadlineBase → Nat
  | .timestamp => 0 | .firstArrival => 1

/-- The position of a parity in that list. -/
def Parity.code : Parity → Nat
  | .even => 0 | .odd => 1 | .none => 2

/-- The position of a STROBE source in that list. -/
def StrobeSource.code : StrobeSource → Nat
  | .off => 0 | .epoch => 1 | .pps => 2 | .emit => 3

/-- Emission mode as a named value, in the order of R133. -/
def EmissionMode.code : EmissionMode → Nat
  | .run => 0 | .withhold => 1 | .single => 2

/-- The emission mode a named value names (R133). -/
def modeOf : Nat → Option EmissionMode
  | 0 => some .run | 1 => some .withhold | 2 => some .single | _ => none

/-- Override action as a named value, in the order of R136. -/
def OverrideAction.code : OverrideAction → Nat
  | .substitute => 0 | .markInvalid => 1 | .suppress => 2

/-- The override action a named value names (R136). -/
def actionOf : Nat → Option OverrideAction
  | 0 => some .substitute | 1 => some .markInvalid | 2 => some .suppress | _ => none

/-- Stream state as a named value: VACANT stands first in R33's list. -/
def StreamState.code : StreamState → Nat
  | .enrolled => 1 | .active => 2 | .suspect => 3 | .silent => 4 | .isolated => 5

/-- Commit state as a named value (R178). -/
def CommitState.code : CommitState → Nat
  | .none => 0 | .pendingBoundary => 1 | .pendingDrain => 2

/-- Profile state as a named value (R198). -/
def ProfileState.code : ProfileState → Nat
  | .good => 0 | .bad => 1 | .writing => 2

/-- Link state as a named value (R15: "UP or DOWN"). -/
def Link.code : Link → Nat
  | .up => 0 | .down => 1

/-- The status codes of R14. -/
inductive Status where
  | ok | applied | badField | misaligned | noRoom | commitPending | busy | unknownStream
  | lineAsserted | storeBusy | storeFault | unknownCommand | badLength
deriving DecidableEq, Repr

/-- The byte of a status (R14). -/
def Status.code : Status → Nat
  | .ok => 0x00 | .applied => 0x01 | .badField => 0x10 | .misaligned => 0x11 | .noRoom => 0x12
  | .commitPending => 0x13 | .busy => 0x15 | .unknownStream => 0x16 | .lineAsserted => 0x17
  | .storeBusy => 0x18 | .storeFault => 0x19 | .unknownCommand => 0x1A | .badLength => 0x1B

end Sys2Proof.Machine
end

