-- ==== Sys2Proof/Machine/Snap.lean ====
section
/-! DEFINITION. The epoch grid (R54 to R56) and the Snap Unit (R57 to R68, R70): exact integer arithmetic with named roundings. -/

namespace Sys2Proof.Machine

/-- The seven grid rates (R54). -/
def gridRates : List Nat := [10, 25, 30, 50, 60, 100, 120]

/-- The greatest second of the SOE scale (R54). -/
abbrev maxSoe : Nat := 4294967295

/-- Ceil of a quotient of naturals. -/
def ceilDiv (a b : Nat) : Nat := (a + b - 1) / b

/-- The nearest integer to `num / den`, at an exact half the one of greater magnitude (00_scope, "Rounding"). -/
def roundHalfAway (num : Int) (den : Nat) : Int :=
  if 0 ≤ num then ((2 * num.natAbs + den) / (2 * den) : Nat) else -((2 * num.natAbs + den) / (2 * den) : Nat)

/-- The instant of an epoch ordinal in whole microseconds of the SOE scale (R55). -/
def instantUs (rate ordinal : Nat) : Nat :=
  ordinal / rate * 1000000 + ceilDiv (ordinal % rate * 1000000) rate

/-- The ordinal of the new grid that an ordinal of the old grid becomes (R56). -/
def convertOrdinal (r1 r2 e : Nat) : Nat := e / r1 * r2 + e % r1 * r2 / r1

/-- A snap request (R57). -/
structure SnapRequest where
  soe : Nat
  frac : Nat
  tb : Nat
  rate : Nat
  tol : Nat
  correction : Bool
  df : Half
  angles : List Half
deriving DecidableEq, Repr

/-- The result of a snap (R58). -/
inductive SnapResult where
  | badLabel
  | offGrid
  | snapped (ordinal : Nat) (residual : Int) (angles : List Half) (uncorrected : Bool)
deriving DecidableEq, Repr

/-- The slot k₀ nearest a label, the later of two at equal distance (R61). -/
def nearestSlot (frac tb rate : Nat) : Nat := (2 * (frac * rate) + tb) / (2 * tb)

/-- The residual in ns of a label against slot k₀ (R63). -/
def residualNs (frac tb rate : Nat) : Int :=
  roundHalfAway ((((frac * rate : Nat) : Int) - ((nearestSlot frac tb rate * tb : Nat) : Int)) * 1000000000) (tb * rate)

/-- The epoch ordinal of a label: slot 0 of the next second when k₀ equals R (R61, R62). -/
def labelOrdinal (soe frac tb rate : Nat) : Nat := soe * rate + nearestSlot frac tb rate

/-- Whether a label names no instant the grid can hold: FRAC is not below TB (R60), or it rolls past the last second (R62). -/
def isBadLabel (q : SnapRequest) : Bool :=
  decide (q.tb ≤ q.frac) || (nearestSlot q.frac q.tb q.rate == q.rate && q.soe == maxSoe)

/-- Whether correction applies (R66). -/
def correctionApplies (q : SnapRequest) (d : Int) : Bool :=
  q.correction && q.df != 0x8000#16 && d != 0

/-- Δθ in units of 1/65536 turn (R67). -/
def angleShift (df : Half) (d : Int) : Int := -(roundHalfAway (df.toInt * d * 65536) 1000000000000)

/-- An angle after correction, wrapped modulo 65536 into −32768..32767 (R68). -/
def shiftAngle (shift : Int) (angle : Half) : Half := BitVec.ofInt 16 (angle.toInt + shift)

/-- The Snap Unit: label check, slot, residual, tolerance and angle correction, in that order (R58). -/
def snap (q : SnapRequest) : SnapResult :=
  let d := residualNs q.frac q.tb q.rate
  if isBadLabel q then .badLabel
  else if d.natAbs > q.tol * 1000 then .offGrid
  else if correctionApplies q d then
    .snapped (labelOrdinal q.soe q.frac q.tb q.rate) d (q.angles.map (shiftAngle (angleShift q.df d))) false
  else .snapped (labelOrdinal q.soe q.frac q.tb q.rate) d q.angles (d != 0)

/-- A stream of reporting rate Rs is expected at the slot of an ordinal when slot × Rs is a multiple of R (R45, R71). -/
def expectedAt (rs rate ordinal : Nat) : Bool := ordinal % rate * rs % rate == 0

end Sys2Proof.Machine
end

