-- ==== Sys2Proof/Machine/Frames.lean ====
section
/-! DEFINITION. Reading received frames: the framer's form checks (R17), MEAS bodies (R4, R20), ASET set headers and records (R6, R7,
R10), and the wire form of records and set headers that the part builds (R14). -/

namespace Sys2Proof.Machine

/-! ### Form (R17) -/

/-- What the framer finds of a frame's form. -/
inductive Form where
  | malformed
  | bad
  | good
deriving DecidableEq, Repr

/-- The three checks of R17: length field, room, frame check. A payload too short for the common header has no length field and no
room (R1, log 31). -/
def formOf (payload : List Byte) : Form :=
  let l := field payload 4 2
  if payload.length < 6 then .malformed
  else if maxBody < l then .malformed
  else if payload.length < 6 + l + 4 then .malformed
  else if field payload (6 + l) 4 = (crc32 (payload.take (6 + l))).toNat then .good
  else .bad

/-! ### MEAS (R4, R14, R20) -/

/-- The fields of a MEAS frame that admission reads. -/
structure Meas where
  id : Nat
  soe : Nat
  frac : Nat
  tq : Nat
  flags : Flags
  df : Half
  rocof : Half
  digital : Half
  phasors : List Phasor
  analogs : List Word
deriving DecidableEq, Repr

/-- A MEAS frame's fields, or none when it is malformed (R20). -/
def readMeas (origin : Nat) (body : List Byte) : Option Meas :=
  let n := field body 14 1
  let m := field body 15 1
  let tq := BitVec.ofNat 8 (field body 7 1)
  if origin = 0 ∨ origin = 65535 ∨ 16 < n ∨ 8 < m ∨ body.length ≠ 16 + 6 * n + 4 * m then none
  else some {
    id := origin, soe := field body 0 4, frac := field body 4 3, tq := stationTq tq, flags := stationFlags tq
    df := field16 body 8, rocof := field16 body 10, digital := field16 body 12
    phasors := readPhasors n (body.drop 16), analogs := readAnalogs m (body.drop (16 + 6 * n)) }

/-! ### ASET (R6, R7, R10, R14) -/

/-- One record at the start of some bytes, and the bytes after it; none where it does not lie wholly within them or R10 calls it
malformed. -/
def readRecord (bs : List Byte) : Option (WireRecord × List Byte) :=
  let id := field bs 0 2
  let st := field bs 2 1
  let n := field bs 14 1
  let m := field bs 15 1
  let status := recordStatusOf (st % 4)
  let size := if status = .absent then 3 else 16 + 6 * n + 4 * m
  if bs.length < 3 ∨ id = 0 ∨ id = 65535 ∨ (status = .held ↔ st / 16 = 0) then none
  else if status = .absent then
    some ({ id, hop := st / 4 % 4, status, holdAge := 0, flags := Flags.clear, df := 0, rocof := 0, digital := 0,
            phasors := [], analogs := [] }, bs.drop 3)
  else if bs.length < 16 ∨ 16 < n ∨ 8 < m ∨ bs.length < size then none
  else some ({
    id, hop := st / 4 % 4, status, holdAge := st / 16, flags := flagsOf (BitVec.ofNat 8 (field bs 3 1))
    df := field16 bs 8, rocof := field16 bs 10, digital := field16 bs 12
    phasors := readPhasors n (bs.drop 16), analogs := readAnalogs m (bs.drop (16 + 6 * n)) }, bs.drop size)

/-- `k` records that fill the bytes exactly (R10). -/
def readRecords : Nat → List Byte → Option (List WireRecord)
  | 0, bs => if bs.isEmpty then some [] else none
  | k + 1, bs => do
    let (r, rest) ← readRecord bs
    let rs ← readRecords k rest
    pure (r :: rs)

/-- An ASET frame's set header and records, or none when it is malformed (R10). -/
def readAset (origin : Nat) (body : List Byte) : Option (SetHeader × List WireRecord) := do
  let cause ← sealCauseOf (field body 6 1)
  let clock ← clockOf (field body 8 1 % 4)
  let rate := field body 0 1
  let h : SetHeader := {
    rate, soe := field body 1 4, slot := field body 5 1, cause
    fallback := (BitVec.ofNat 8 (field body 7 1)).getLsbD 0
    test := (BitVec.ofNat 8 (field body 7 1)).getLsbD 1
    stepped := (BitVec.ofNat 8 (field body 7 1)).getLsbD 2
    clock, quality := field body 8 1 / 4 % 8
    partIndex := field body 9 1, partCount := field body 10 1, recordCount := field body 11 2 }
  if 255 < origin ∨ ¬ gridRates.contains rate ∨ rate ≤ h.slot ∨ h.partIndex = 0 ∨ h.partCount < h.partIndex
      ∨ body.length < 13 then none
  else
    let rs ← readRecords h.recordCount (body.drop 13)
    pure (h, rs)

/-! ### Building ASET bodies -/

/-- A record's bytes (R14). An ABSENT record ends after its status byte. -/
def recordBytes (r : SetRecord) : List Byte :=
  be 2 r.id ++ be 1 (r.status.code + 4 * r.hop + 16 * r.holdAge) ++
    match r.content with
    | none => []
    | some c =>
      flagsByte c.flags :: beInt 4 c.residual ++ be 2 c.df.toNat ++ be 2 c.rocof.toNat ++ be 2 c.digital.toNat
        ++ be 1 c.phasors.length ++ be 1 c.analogs.length ++ valueBytes c.phasors c.analogs

/-- The bytes a record occupies (R7). -/
def recordSize (r : SetRecord) : Nat :=
  match r.content with
  | none => 3
  | some c => 16 + 6 * c.phasors.length + 4 * c.analogs.length

/-- The 13 bytes of a set header (R14). -/
def headerBytes (h : SetHeader) : List Byte :=
  be 1 h.rate ++ be 4 h.soe ++ be 1 h.slot ++ be 1 h.cause.code
    ++ be 1 (h.fallback.toNat + 2 * h.test.toNat + 4 * h.stepped.toNat)
    ++ be 1 (h.clock.code + 4 * h.quality) ++ be 1 h.partIndex ++ be 1 h.partCount ++ be 2 h.recordCount

end Sys2Proof.Machine
end

