-- ==== Sys2Proof/Machine/Table.lean ====
section
/-! DEFINITION. Questions asked of the active set: lookup, effective attributes (R53), expectation and the required set (R45,
R46), node identity (R158), the bounds that staged values must meet (R33, R52, R177), and writes to one stream entry. -/

namespace Sys2Proof.Machine

/-! ### Whether events are taken -/

/-- The part takes events while it has supply and its RESET line is not asserted (R15, R103, R104, R107, R140, R202). -/
def State.operating (s : State) : Bool := s.power.powered && !s.power.resetAsserted

/-- An event acts while the part takes events, and is disregarded otherwise (log 1). -/
def whileOperating (s : State) (t : State) : State := if s.operating then t else s

/-! ### Lookup -/

/-- The active entry that holds a stream ID (R21, R34). -/
def State.stream (s : State) (id : Nat) : Option StreamEntry := s.table.streams.find? fun e => e.cfg.id == id

/-- The active entry at an index, unless it is VACANT (R34). -/
def State.streamAt (s : State) (idx : Nat) : Option StreamEntry := s.table.streams.find? fun e => e.idx == idx

/-- The grid rate R of the active parameter block. -/
def State.rate (s : State) : Nat := s.table.params.rate

/-- The node ID: region × 8 + strap code (R158). -/
def State.nodeId (s : State) : Nat := s.table.params.region * 8 + s.power.strapCode

/-! ### Effective attributes (R53) -/

/-- An enabled range contains a stream ID when it lies in base .. base + size − 1. -/
def RangeEntry.contains (r : RangeEntry) (id : Nat) : Bool := r.enable && decide (r.base ≤ id) && decide (id < r.base + r.size)

/-- Whether any enabled range that contains the ID sets an attribute. -/
def anyRange (rs : Vector RangeEntry 8) (id : Nat) (attr : RangeEntry → Bool) : Bool :=
  rs.toList.any fun r => r.contains id && attr r

/-- Effective optional attribute. -/
def optionalOn (a : ActiveSet) (c : StreamCfg) : Bool := c.optional || anyRange a.ranges c.id (·.optional)

/-- Effective STRAGGLE attribute. -/
def straggleOn (a : ActiveSet) (c : StreamCfg) : Bool := c.straggle || anyRange a.ranges c.id (·.straggle)

/-- Effective correction attribute. -/
def correctionOn (a : ActiveSet) (c : StreamCfg) : Bool := c.correct && !anyRange a.ranges c.id (·.noCorrect)

/-- Whether hold is allowed. -/
def holdAllowed (a : ActiveSet) (c : StreamCfg) : Bool := decide (0 < c.holdLimit) && !anyRange a.ranges c.id (·.holdDeny)

/-! ### Required for completeness (R45, R46) -/

/-- A stream is required at an ordinal: ACTIVE, not optional, and expected at its slot. -/
def requiredAt (a : ActiveSet) (ordinal : Nat) (e : StreamEntry) : Bool :=
  e.state == .active && !optionalOn a e.cfg && expectedAt e.cfg.rs a.params.rate ordinal

/-- The number of streams required at an ordinal. -/
def requiredCount (a : ActiveSet) (ordinal : Nat) : Nat := a.streams.countP (requiredAt a ordinal)

/-- A contribution counts as present at an ordinal: it is of a stream required there and does not carry HELD_UPSTREAM. A withdrawn
one is of no stream (R182). -/
def countsPresent (a : ActiveSet) (ordinal : Nat) (c : Contribution) : Bool :=
  !c.content.flags.heldUpstream && a.streams.any fun e => c.index == some e.idx && requiredAt a ordinal e

/-! ### Writing one entry -/

/-- Apply a change to the active entry that holds a stream ID; nothing where none does. -/
def State.mapStream (s : State) (id : Nat) (f : StreamEntry → StreamEntry) : State :=
  { s with table := { s.table with streams := s.table.streams.map fun e => if e.cfg.id == id then f e else e } }

/-- A 32-bit saturating counter raised by 1 (00_scope, "Saturating counters"). -/
def satInc (w : Word) : Word := if w == Word.top then w else w + 1

/-- All eight per-stream counters at 0. -/
def StreamCounts.zero : StreamCounts := ⟨0, 0, 0, 0, 0, 0, 0, 0⟩

/-! ### Bounds -/

/-- Powers of two from 1 to 65536, the sizes a range may have (R52). -/
def rangeSizes : List Nat := (List.range 17).map (2 ^ ·)

/-- A stream ID that a stream can hold (R33). -/
def validId (id : Nat) : Bool := decide (1 ≤ id) && decide (id ≤ 65534)

/-- The ranges of R33. -/
def StreamCfg.inRange (c : StreamCfg) : Bool :=
  validId c.id && decide (1 ≤ c.tb) && decide (c.tb ≤ 16777215) && decide (1 ≤ c.rs) && decide (c.rs ≤ 240)
    && decide (c.tol ≤ 50000) && decide (c.phasors ≤ 16) && decide (c.analogs ≤ 8) && decide (c.holdLimit ≤ 15)
    && decide (c.tqMax ≤ 7) && decide (1 ≤ c.hysteresis) && decide (c.hysteresis ≤ 15)
    && decide (10 ≤ c.silenceMs) && decide (c.silenceMs ≤ 60000)

/-- A base that is a multiple of the size (R52). -/
def RangeEntry.aligned (r : RangeEntry) : Bool := r.base % r.size == 0

/-- The ranges of R52: a size that is a power of two up to 65536, and a base of 0..65535. -/
def RangeEntry.inRange (r : RangeEntry) : Bool := rangeSizes.contains r.size && decide (r.base ≤ 65535)

/-- The ranges of R177. -/
def Params.inRange (p : Params) : Bool :=
  gridRates.contains p.rate && decide (1 ≤ p.budgetMs) && decide (p.budgetMs ≤ 4000) && decide (p.aheadMs ≤ 2000)
    && decide (p.region ≤ 31) && decide (0x0600 ≤ p.payloadType.toNat) && decide (1 ≤ p.burst) && decide (p.burst ≤ 255)
    && decide (p.holdoverS ≤ 3600) && [4800, 9600, 19200, 38400].contains p.baud && decide (p.tqMax ≤ 7)
    && decide (1 ≤ p.widthMs) && decide (p.widthMs ≤ 255)

/-- The content test of R198: no stream ID twice, region not 31, every field in the range its staging command accepts. -/
def Image.acceptable (i : Image) : Bool :=
  decide ((i.streams.map fun p => p.2.id).Nodup) && i.params.region != 31 && i.params.inRange
    && i.streams.all (fun p => p.2.inRange) && i.ranges.toList.all fun r => r.inRange && r.aligned

end Sys2Proof.Machine
end

