-- ==== Sys2Proof/Machine/Monitor.lean ====
section
/-! DEFINITION. The Alignment Monitor: reports (R189, R190, R192), ELAPSED (R191), the latency histogram's counts (R193) and the
snapshot (R195, R196). -/

namespace Sys2Proof.Machine

/-- Reports raise counters in RUN while no freeze stands (R190, R192). -/
def Monitor.counting (m : Monitor) : Bool := !m.hold && !m.frozen

/-- The value of a counter. -/
def Monitor.count (m : Monitor) (c : Ctr) : Word := m.counters[c.pos]

/-- A report of one event to the Monitor (R189). -/
def report (c : Ctr) (s : State) : State :=
  if s.mon.counting then
    { s with mon := { s.mon with counters := s.mon.counters.set c.pos (satInc s.mon.counters[c.pos]) } }
  else s

/-- A report of `n` events of one kind (R189: a discard or a crowding placement raises its counter once per record). -/
def reportMany (c : Ctr) : Nat → State → State
  | 0, s => s
  | n + 1, s => reportMany c n (report c s)

/-- ELAPSED and its remainder over one local tick (R191). -/
def Monitor.advance (m : Monitor) : Monitor :=
  if m.counting && m.elapsed != Word.top then
    if m.remainder + 1 ≥ 1000 then { m with remainder := 0, elapsed := m.elapsed + 1 }
    else { m with remainder := m.remainder + 1 }
  else m

/-- A latency in µs, of which a negative one is `none`, recorded by the histogram width in ms (R193). -/
def recordLatency (widthMs : Nat) (latency : Option Nat) (s : State) : State :=
  if s.mon.counting then
    match latency with
    | none => { s with mon := { s.mon with early := satInc s.mon.early } }
    | some us =>
      let bin : Fin 16 := Fin.ofNat 16 (min 15 (us / 1000 / widthMs))
      { s with mon := { s.mon with bins := s.mon.bins.set bin (satInc s.mon.bins[bin]) } }
  else s

/-- Every count and ELAPSED at 0, the freeze lifted, the condition kept (R195). -/
def Monitor.cleared (m : Monitor) : Monitor :=
  { m with counters := .replicate 39 0, bins := .replicate 16 0, early := 0, elapsed := 0, remainder := 0, frozen := false }

/-- The result fields of SNAPSHOT_COUNTERS (R196). -/
def snapshotBytes (m : Monitor) (widthMs : Nat) : List Byte :=
  onOff m.hold ++ be 1 widthMs ++ be 4 m.elapsed.toNat ++ m.counters.toList.flatMap (fun w => be 4 w.toNat)
    ++ be 4 m.early.toNat ++ m.bins.toList.flatMap fun w => be 4 w.toNat

end Sys2Proof.Machine
end

