-- ==== Sys2Proof/Machine/TimeRef.lean ====
section
/-! DEFINITION. What the Time Reference Unit answers (R108, R118 to R120), the STROBE line's pulses (R121 to R123), and the passage
to ACQUIRING (R117). -/

namespace Sys2Proof.Machine

/-! ### Reference now and conversion (R118) -/

/-- Reference now in µs, while a mapping exists. It runs on past the last second of the SOE scale, unwrapped (log 43). -/
def State.refNow (s : State) : Option Nat :=
  s.tru.mapping.map fun m => m.label * 1000000 + (s.tick - m.tick)

/-- The local tick at which reference now reaches an instant; 0 where that lies below 0. -/
def Mapping.tickOf (m : Mapping) (instant : Nat) : Nat := m.tick + instant - m.label * 1000000

/-- The flywheel label of an edge at a tick (R108). -/
def Mapping.flywheel (m : Mapping) (edge : Nat) : Nat := m.label + (edge - m.tick + 500000) / 1000000

/-! ### Clock quality (R119, R120) -/

/-- Message quality: the digit, one worse up to 7 when the source is in holdover. -/
def MsgQuality.value (q : MsgQuality) : Nat := if q.holdover then min 7 (q.quality + 1) else q.quality

/-- The last message quality; 7 where no message was ever applied, which no LOCKED or HOLDOVER unit reaches (log 27). -/
def Tru.lastQuality (t : Tru) : Nat := (t.lastMsg.map MsgQuality.value).getD 7

/-- Holdover time: the current tick minus the holdover entry tick (R117). -/
def State.holdoverTime (s : State) : Option Nat := s.tru.holdEntry.map fun e => s.tick - e

/-- The clock quality by the table of R119. -/
def State.clockQuality (s : State) : Nat :=
  match s.tru.state with
  | .locked => s.tru.lastQuality
  | .holdover => min 7 (s.tru.lastQuality + s.holdoverTime.getD 0 / 60000000)
  | .acquiring => 7

/-- The clock-degraded indication (R120). -/
def State.degraded (s : State) : Bool := decide (s.clockQuality > s.table.params.tqMax)

/-! ### STROBE (R121 to R123) -/

/-- A pulse that falls due: high for 10 µs from now, or absorbed into a pulse in progress. One that falls due exactly 10 µs after the
start of a pulse whose end has not been taken yet begins a pulse of its own (DESIGN CHOICE, log 40). -/
def strobePulse (s : State) : State :=
  match s.strobe.endTick with
  | some e => if s.tick < e then s else { s with strobe := { s.strobe with endTick := some (s.tick + 10) } }
  | none => { s with strobe := { s.strobe with endTick := some (s.tick + 10) } }

/-- A pulse of a source, produced when that source is selected. -/
def strobeFrom (src : StrobeSource) (s : State) : State :=
  if s.table.params.strobe == src then strobePulse s else s

/-- The greatest ordinal whose instant reference now has reached: `floor(µs × R / 10⁶)` slots into the second (R55, R122). -/
def ordinalReached (rate now : Nat) : Nat := now / 1000000 * rate + now % 1000000 * rate / 1000000

/-- The ordinal of the pulse that is due at a reference now, if one is: the one above the last pulsed ordinal once its instant is
reached, or, where that is absent, an ordinal whose instant is now (R122). -/
def pulseDueAt (rate now : Nat) : Option Nat → Option Nat
  | some e => if instantUs rate (e + 1) ≤ now then some (e + 1) else none
  | none => if instantUs rate (ordinalReached rate now) = now then some (ordinalReached rate now) else none

/-- The ordinal of the EPOCH pulse that is due now, if one is (R122). Reference now runs on past the last second of the SOE scale, where
R54's grid ends, and the pulses go on at ordinals of that rate beyond it (DESIGN CHOICE, log 43). -/
def State.epochDue (s : State) : Option Nat :=
  match s.refNow with
  | some now => if s.table.params.strobe == .epoch then pulseDueAt s.rate now s.strobe.lastPulsed else none
  | none => none

/-- The ordinal whose instant is next due at a reference now: the one above the last pulsed ordinal, or, where that is absent, the
first grid instant at or after it (R122). -/
def nextPulse (rate now : Nat) : Option Nat → Nat
  | some e => e + 1
  | none => if instantUs rate (ordinalReached rate now) = now then ordinalReached rate now else ordinalReached rate now + 1

/-- Whether reference now has moved forward past the instant next due (R122). -/
def jumpsPast (rate was now : Nat) (last : Option Nat) : Bool :=
  decide (was < now) && decide (instantUs rate (nextPulse rate was last) ≤ now)

/-- After a change of the mapping other than a step has moved reference now forward from `before` past the instant next due: one
pulse, and the last pulsed ordinal is the greatest reached (R122), also past the last second of the SOE scale (log 43). -/
def epochJump (before : Option Nat) (s : State) : State :=
  match before, s.refNow with
  | some was, some now =>
    if s.table.params.strobe == .epoch && jumpsPast s.rate was now s.strobe.lastPulsed then
      strobePulse { s with strobe := { s.strobe with lastPulsed := some (ordinalReached s.rate now) } }
    else s
  | _, _ => s

/-- The last pulsed ordinal made absent (R122). -/
def forgetPulse (s : State) : State := { s with strobe := { s.strobe with lastPulsed := none } }

/-! ### Passages -/

/-- Holdover time has reached the limit in the active parameter block (R117). -/
def State.holdoverOver (s : State) : Bool :=
  s.tru.state == .holdover && decide (s.table.params.holdoverS * 1000000 ≤ s.holdoverTime.getD 0)

/-- The passage from HOLDOVER to ACQUIRING (R117, R122). -/
def dropMapping (s : State) : State :=
  forgetPulse { s with tru := { s.tru with state := .acquiring, mapping := none, holdEntry := none, streak := 0,
                                            streakLabel := 0, mismatch := none } }

end Sys2Proof.Machine
end

