-- ==== Sys2Proof/Machine/Egress.lean ====
section
/-! DEFINITION. The Egress Arbiter: the three queues of Port O, the grant (R146 to R154), the replies of the Control Unit in M
(R13, R148, R173), and the frames the part originates (R3). -/

namespace Sys2Proof.Machine

/-- The capacities of the O, L and M queues (R146, R147, R148) and of the command queue (R172). -/
abbrev oCapacity : Nat := 16
abbrev lCapacity : Nat := 64
abbrev mCapacity : Nat := 8
abbrev queueCapacity : Nat := 8

/-- The bytes a frame occupies on the wire: payload, 14-byte header, 4-byte link check, 8-byte preamble and 12-byte gap (R151). -/
def wireBytes (f : EthFrame) : Nat := f.payload.length + 38

/-- A transmission's wire time, 0.8 ns a byte, has passed (R151, log 23). -/
def Tx.over (t : Tx) (now : Nat) : Bool := decide (wireBytes t.frame * 8 ≤ (now - t.start) * 10000)

/-- A frame the part originates, with its node ID and payload type of this moment (R3). -/
def State.originate (s : State) (kind : Nat) (body : List Byte) : EthFrame :=
  outFrame s.table.params.payloadType s.nodeId kind body

/-! ### The grant (R152, R153) -/

/-- Which queue the table of R152 grants, if any holds a frame. -/
def Egress.choice (e : Egress) (burst : Nat) : Option TxKind :=
  match e.o, e.m, e.l with
  | [], [], [] => none
  | [], _ :: _, _ => some .reply
  | [], [], _ :: _ => some .straggler
  | _ :: _, [], [] => some .part
  | _ :: _, m, _ =>
    if e.grants < burst then some .part
    else if m.isEmpty then some .straggler else some .reply

/-- The grant itself: the frame leaves the head of its queue, its transmission begins, and the consecutive-O-grant count moves
(R152, R153). -/
def Egress.granted (e : Egress) (now : Nat) : TxKind → Egress
  | .part => match e.o with
    | f :: o => { e with o := o, grants := min 255 (e.grants + 1), tx := some ⟨.part, f, now⟩ }
    | [] => e
  | .straggler => match e.l with
    | f :: l => { e with l := l, grants := 0, tx := some ⟨.straggler, f, now⟩ }
    | [] => e
  | .reply => match e.m with
    | f :: m => { e with m := m, grants := 0, tx := some ⟨.reply, f, now⟩ }
    | [] => e

/-- A grant is decided whenever Port O is UP, no transmission is in progress and a queue holds a frame (R150, R152). -/
def grant (s : State) : State :=
  if s.links.o == .up && s.egress.tx.isNone then
    match s.egress.choice s.table.params.burst with
    | some k => { s with egress := s.egress.granted s.tick k }
    | none => s
  else s

/-! ### Joining the queues -/

/-- A part joins the tail of the O queue (R147). -/
def joinO (f : EthFrame) (s : State) : State :=
  grant { s with egress := { s.egress with o := s.egress.o ++ [f] } }

/-- A straggler frame joins the tail of the L queue, or is dropped and counted when 64 wait (R146). -/
def joinL (f : EthFrame) (s : State) : State :=
  if s.egress.l.length < lCapacity then grant { s with egress := { s.egress with l := s.egress.l ++ [f] } }
  else report .stragglerDrop s

/-- The occupancy of M: reservations and waiting replies together (R148). -/
def Egress.mOccupancy (e : Egress) : Nat := e.reserved + e.m.length

/-- A reply: requester, tag and command code as received, the status, and the results (R13). -/
def replyBody (to_ : ReplyTo) (st : Status) (results : List Byte) : List Byte :=
  be 2 to_.requester.toNat ++ be 2 to_.tag.toNat ++ [to_.code] ++ be 1 st.code ++ results

/-- The Control Unit builds a reply: it fills the oldest reservation and joins M (R148, R173). -/
def reply (to_ : ReplyTo) (st : Status) (results : List Byte) (s : State) : State :=
  grant { s with egress := { s.egress with
    m := s.egress.m ++ [s.originate kindRply (replyBody to_ st results)], reserved := s.egress.reserved - 1 } }

/-- The aligned-set parts that wait are discarded, uncounted (R142, R147). -/
def discardParts (s : State) : State := { s with egress := { s.egress with o := [] } }

/-! ### Straggler frames (R144) -/

/-- Reason codes of a straggler frame (R14). -/
abbrev reasonLate : Nat := 1
abbrev reasonAfterSeal : Nat := 2

/-- Arrival path codes of a straggler frame (R14). -/
def Port.pathCode : Port → Nat
  | .a => 0
  | .b => 1

/-- The body of a straggler frame (R11): reason, arrival path, grid rate, ordinal, lateness, stream ID and original body. -/
def stragglerBody (reason : Nat) (p : Port) (rate ordinal lateness id : Nat) (body : List Byte) : List Byte :=
  be 1 reason ++ be 1 (Port.pathCode p) ++ be 1 rate ++ be 6 ordinal ++ be 4 lateness ++ be 2 id ++ body

/-- The lateness from a tick to now, stopping at its largest value (R144). -/
def lateness (since now : Nat) : Nat := min (now - since) 4294967295

/-- The Straggler Path takes an offer: it builds the frame and offers it to the L queue (R144, R146). -/
def straggler (reason : Nat) (since : Nat) (o : Offer) (body : List Byte) (s : State) : State :=
  joinL (s.originate kindLate (stragglerBody reason o.port o.rate o.ordinal (lateness since s.tick) o.id body)) s

end Sys2Proof.Machine
end

