-- ==== Sys2Proof/Machine/Commit.lean ====
section
/-! DEFINITION. The application of a commit as one event (R181): the Stream Table's new active copy (R51), the ring's renumbering
(R96, R182), the conversions of a grid change (R183), and what each changed parameter does at that moment. -/

namespace Sys2Proof.Machine

/-! ### Re-evaluation and sealing (R94, R95) -/

/-- A record sealed with a cause at a tick: its deadline is disarmed by leaving OPEN (R94). -/
def EpochRec.seal (cause : SealCause) (now : Nat) (r : EpochRec) : EpochRec :=
  { r with state := .sealed, sealTick := some now, cause := some cause }

/-- The required-present count recomputed from the list (R95). -/
def EpochRec.recount (a : ActiveSet) (r : EpochRec) : EpochRec :=
  { r with requiredPresent := r.contributions.countP (countsPresent a r.ordinal) }

/-- An OPEN record whose required-present count equals the number of required streams. -/
def EpochRec.isComplete (a : ActiveSet) (r : EpochRec) : Bool :=
  r.state == .opened && r.requiredPresent == requiredCount a r.ordinal

/-- Seal every OPEN record that satisfies `p`, and count the seals by their cause (R94). -/
def sealWhere (cause : SealCause) (p : EpochRec → Bool) (s : State) : State :=
  let hit := fun (r : EpochRec) => r.state == .opened && p r
  reportMany cause.ctr (s.ring.recs.countP hit)
    { s with ring := { s.ring with recs := s.ring.recs.map fun r => if hit r then r.seal cause s.tick else r } }

/-- The re-evaluation of every OPEN record, without the head's offer to the Composer that follows it (R95). -/
def recountAll (s : State) : State :=
  sealWhere .complete (fun r => r.isComplete s.table)
    { s with ring := { s.ring with recs := s.ring.recs.map fun r => if r.state == .opened then r.recount s.table else r } }

/-! ### The new active copy (R36, R49, R51) -/

/-- A stream that the old active copy did not hold: ENROLLED, its timer loaded, everything else at its start value (R36). -/
def freshEntry (now : Nat) (p : Nat × StreamCfg) : StreamEntry where
  idx := p.1
  cfg := p.2
  state := .enrolled
  isolating := false
  timer := some (now + p.2.silenceMs * 1000)
  bad := 0
  good := 0
  lastEpoch := none
  hold := none
  holdAge := 0
  counts := StreamCounts.zero

/-- A kept stream's hold cache is lost when the grid rate or its shape changes (R49). -/
def holdLost (rateChanged : Bool) (old new : StreamCfg) : Bool :=
  rateChanged || old.phasors != new.phasors || old.analogs != new.analogs

/-- A kept stream under its staged configuration, at the staged index (R51, R49). -/
def keptEntry (rateChanged : Bool) (e : StreamEntry) (p : Nat × StreamCfg) : StreamEntry :=
  { e with
    idx := p.1
    cfg := p.2
    hold := if holdLost rateChanged e.cfg p.2 then none else e.hold
    holdAge := if holdLost rateChanged e.cfg p.2 then 0 else min e.holdAge p.2.holdLimit }

/-- The active entry that a staged entry becomes (R51). -/
def committedEntry (s : State) (p : Nat × StreamCfg) : StreamEntry :=
  match s.stream p.2.id with
  | some e => keptEntry (s.rate != s.ctl.staged.params.rate) e p
  | none => freshEntry s.tick p

/-! ### Renumbering held contributions (R96, R182) -/

/-- The staged index of a stream ID, unless the staged copy does not hold it. -/
def StagedSet.indexOf (g : StagedSet) (id : Nat) : Option Nat := (g.streams.find? fun p => p.2.id == id).map (·.1)

/-- The new index of the stream at an old index: none for a removed stream. -/
def newIndex (s : State) (old : Option Nat) : Option Nat :=
  old.bind fun i => (s.streamAt i).bind fun e => s.ctl.staged.indexOf e.cfg.id

/-- A contribution under its stream's new index; one of a removed stream is withdrawn, and keeps the index it had as its former one
(R96, R182). -/
def renumbered (s : State) (c : Contribution) : Contribution :=
  match newIndex s c.index with
  | some i => { c with index := some i }
  | none => { c with index := none, former := if c.index.isSome then c.index else c.former }

/-- Whether a contribution's place is ahead of another's: by stream index, withdrawn contributions after every other, and among
themselves by former index (R76, R182). -/
def Contribution.precedes (c d : Contribution) : Bool :=
  match c.index, d.index with
  | some i, some j => decide (i < j)
  | some _, none => true
  | none, some _ => false
  | none, none => decide (c.former.getD 0 < d.former.getD 0)

/-- A contribution inserted at its place, after those it does not precede (R76, R182, log 12). -/
def insertContribution (c : Contribution) : List Contribution → List Contribution
  | [] => [c]
  | d :: ds => if c.precedes d then c :: d :: ds else d :: insertContribution c ds

/-- A contribution list restored to ascending index order, withdrawn contributions last in the order of their former indexes (R96,
R182). -/
def sortContributions (cs : List Contribution) : List Contribution := cs.foldl (fun acc c => insertContribution c acc) []

/-- A record's list after a commit. -/
def EpochRec.renumber (s : State) (r : EpochRec) : EpochRec :=
  { r with contributions := sortContributions (r.contributions.map (renumbered s)) }

/-! ### The application (R181) -/

/-- The tables and the contributions under the staged set (R51, R96, R182). -/
def commitTables (s : State) : State :=
  { s with
    table := { streams := s.ctl.staged.streams.map (committedEntry s), ranges := s.ctl.staged.ranges, params := s.ctl.staged.params }
    ring := { s.ring with recs := s.ring.recs.map (EpochRec.renumber s) }
    adm := { s.adm with offers := s.adm.offers.map fun o => { o with contribution := renumbered s o.contribution } } }

/-- The conversions of a change of grid rate (R56, R183). -/
def commitGrid (old : Params) (s : State) : State :=
  if old.rate == s.rate then s
  else
    { s with
      ring := { s.ring with floor := s.ring.floor.map (convertOrdinal old.rate s.rate), memory := [] }
      table := { s.table with
        streams := s.table.streams.map fun e => { e with lastEpoch := e.lastEpoch.map (convertOrdinal old.rate s.rate) } } }

/-- A changed TIME line rate or parity abandons the character in reception and the message in progress (R106). -/
def commitTimeLine (old : Params) (s : State) : State :=
  if old.baud == s.table.params.baud && old.parity == s.table.params.parity then s
  else { s with time := { s.time with chars := [], period := s.time.period + 1 } }

/-- A changed holdover limit is compared with the holdover time at once (R117). -/
def commitHoldover (old : Params) (s : State) : State :=
  if old.holdoverS != s.table.params.holdoverS && s.holdoverOver then dropMapping s else s

/-- A change of the STROBE source or of the grid rate resets the EPOCH count (R122, R181). -/
def commitStrobe (old : Params) (s : State) : State :=
  if old.strobe == s.table.params.strobe && old.rate == s.rate then s else forgetPulse s

/-- QUIESCE_ENABLE turned on with quiesce-seen set latches QUIESCED and discards the waiting parts (R141, R142). The departure of an
EMITTING head follows when the head is next considered. -/
def commitQuiesce (old : Params) (s : State) : State :=
  if !old.quiesceEnable && s.table.params.quiesceEnable && s.comp.seen then
    discardParts { s with comp := { s.comp with quiesced := true } }
  else s

/-- The commit generation rises, the commit state becomes NONE, and the reply APPLIED is built into the commit's reservation
(R181). It comes last in the event, so the reply has the node ID and payload type of the new table (DESIGN CHOICE, log 28). -/
def commitReply (s : State) : State :=
  let g := (s.ctl.generation + 1) % 65536
  let s' := { s with ctl := { s.ctl with generation := g, commit := .none, commitFor := none } }
  match s.ctl.commitFor with
  | some r => reply r .applied (be 2 g) s'
  | none => s'

/-- The application of the commit that the Control Unit holds (R181). -/
def applyCommit (s : State) : State :=
  let old := s.table.params
  commitReply (recountAll (commitQuiesce old (commitStrobe old (commitHoldover old (commitTimeLine old
    (commitGrid old (commitTables s)))))))

end Sys2Proof.Machine
end

