-- ==== Sys2Proof/Machine/Ops.lean ====
section
/-! DEFINITION. The shared operations of the ring: the departure of an epoch with all that its emission boundary brings (R98, R139,
R180), the empty ring (R100, R101), withholding (R125, R135, R142), the re-evaluation (R95), and the flushes (R100, R101). -/

namespace Sys2Proof.Machine

/-! ### Departure memory (R73, R98) -/

/-- The number of epoch records, and of consecutive ordinals in the ring's span (R73, R77). -/
abbrev slots : Nat := 512

/-- The departure memory with a slot's new departed ordinal and tick. -/
def remember (d : Departed) : List Departed → List Departed
  | [] => [d]
  | m :: ms =>
    if m.ordinal % slots = d.ordinal % slots then d :: ms
    else if d.ordinal % slots < m.ordinal % slots then d :: m :: ms
    else m :: remember d ms

/-- The departure memory of the slot of an ordinal. -/
def memoryOf (ms : List Departed) (ordinal : Nat) : Option Departed := ms.find? fun m => m.ordinal % slots == ordinal % slots

/-! ### Overrides coming into force (R139) -/

/-- An entry after its pending part has taken effect; none where it becomes free. -/
def OverrideEntry.comeIntoForce (e : OverrideEntry) : Option OverrideEntry :=
  match e.change with
  | none => some e
  | some (.set o) => some { e with inForce := some o, change := none }
  | some .clear => none

/-- Every pending override change takes effect. -/
def overridesIntoForce (s : State) : State :=
  { s with comp := { s.comp with overrides := s.comp.overrides.filterMap OverrideEntry.comeIntoForce } }

/-! ### Departure (R98) -/

/-- The record at the head of the ring: the lowest ordinal that is not FREE (R74). -/
def Ring.head (r : Ring) : Option EpochRec := r.recs.head?

/-- The head leaves the ring: FREE, its memory written, its cells released, F and the floor tick moved. The set in composition was
the head's, if there was one. -/
def leaveRing (r : EpochRec) (rest : List EpochRec) (s : State) : State :=
  { s with
    ring := { s.ring with recs := rest, memory := remember ⟨r.ordinal, s.tick⟩ s.ring.memory,
                          floor := some r.ordinal, floorTick := some s.tick }
    comp := { s.comp with set := none } }

/-- What the Composer does in the departure event: it reports the set emitted, and SINGLE becomes WITHHOLD; or it reports the epoch
withheld (R132, R134, R135, R142). -/
def reportDeparture (emitted : Bool) (s : State) : State :=
  if emitted then
    report .setsEmitted
      { s with comp := { s.comp with mode := if s.comp.mode = .single then .withhold else s.comp.mode } }
  else report .withheld s

/-- A commit in PENDING_BOUNDARY applies at an emission boundary (R180). -/
def commitAtBoundary (s : State) : State := if s.ctl.commit = .pendingBoundary then applyCommit s else s

/-- The end of a step drain: F, the floor tick, the departure memory and every `last_epoch` become absent, and the step mark is set
(R100). -/
def endStepDrain (s : State) : State :=
  { s with
    ring := { s.ring with floor := none, floorTick := none, memory := [], stepDrain := false, stepMark := true }
    table := { s.table with streams := s.table.streams.map fun e => { e with lastEpoch := none } } }

/-- What follows from the ring being empty: drains end, and a commit in PENDING_DRAIN applies (R100, R101, R180). -/
def whenEmpty (s : State) : State :=
  if s.ring.recs.isEmpty then
    let s1 := if s.ring.stepDrain then endStepDrain s else s
    let s2 := { s1 with ring := { s1.ring with commitDrain := false } }
    if s2.ctl.commit = .pendingDrain then applyCommit s2 else s2
  else s

/-- The departure of the head, emitted or withheld, with its emission boundary: one event (R98). -/
def depart (emitted : Bool) (s : State) : State :=
  match s.ring.recs with
  | [] => s
  | r :: rest =>
    whenEmpty (commitAtBoundary (strobeFrom .emit (overridesIntoForce (reportDeparture emitted (leaveRing r rest s)))))

/-! ### The head and the Composer's decision (R97, R125) -/

/-- The Composer's decision on an offered head: withheld under QUIESCED or WITHHOLD, emitted otherwise (R125). -/
def Composer.withholds (c : Composer) : Bool := c.quiesced || c.mode == .withhold

/-- The head must leave withheld: it is SEALED and decided withheld (R135), or EMITTING when QUIESCED stops its set (R142). -/
def State.headMustLeave (s : State) : Bool :=
  match s.ring.recs with
  | [] => false
  | r :: _ => (r.state == .sealed && s.comp.withholds) || (r.state == .emitting && s.comp.quiesced)

/-- Heads leave withheld, one after another, while the decision says so: at most `n` of them. -/
def settleBy : Nat → State → State
  | 0, s => s
  | n + 1, s => if s.headMustLeave then settleBy n (depart false s) else s

/-- The head is considered, and each head after it that is withheld in its turn (R97, R98, R125). -/
def settle (s : State) : State := settleBy s.ring.recs.length s

/-- The re-evaluation that a report of R42 prompts, with the offer of a head that it seals (R95). -/
def reevaluate (s : State) : State := settle (recountAll s)

/-! ### Flushes -/

/-- The flush for a confirmed reference step: every OPEN record sealed STEP, and a step drain (R100). -/
def flushStep (s : State) : State :=
  let s' := sealWhere .step (fun _ => true) s
  whenEmpty (settle { s' with ring := { s'.ring with stepDrain := true } })

/-- The flush for a commit that changes the grid rate or the deadline base: every OPEN record sealed FLUSH, and a commit drain
(R101, R183). -/
def flushCommit (s : State) : State :=
  let s' := sealWhere .flush (fun _ => true) s
  whenEmpty (settle { s' with ring := { s'.ring with commitDrain := true } })

/-! ### Occupancy (R75) -/

/-- The number of cells (R75). -/
abbrev cells : Nat := 8192

/-- The number of taken cells: the sum of the present counts (R75). -/
def Ring.occupancy (r : Ring) : Nat := (r.recs.map fun e => e.contributions.length).sum

end Sys2Proof.Machine
end

