-- ==== Sys2Proof/Machine/Streams.lean ====
section
/-! DEFINITION. The stream state machine: life frames (R24, R37), the silence timer (R38), isolation (R39, R40), time-quality
hysteresis (R43, R44), and the reports to the ring (R42). -/

namespace Sys2Proof.Machine

/-- The expiry tick that loading the silence timer at a tick gives (R38). -/
def StreamEntry.expiry (e : StreamEntry) (now : Nat) : Nat := now + e.cfg.silenceMs * 1000

/-- A passage into or out of ACTIVE is reported to the ring, and no other (R42). -/
def reportPassage (before after : StreamState) (s : State) : State :=
  if (before == .active) != (after == .active) then reevaluate s else s

/-- Change the entry that holds a stream ID, and report its passage (R42). -/
def changeStream (id : Nat) (f : StreamEntry → StreamEntry) (s : State) : State :=
  match s.stream id with
  | none => s
  | some e => reportPassage e.state (f e).state (s.mapStream id f)

/-- The entry after a life frame: timer reloaded; ENROLLED and SILENT pass to ACTIVE (R24, R37). An ISOLATED stream has none. -/
def StreamEntry.lifeFrame (now : Nat) (e : StreamEntry) : StreamEntry :=
  match e.state with
  | .isolated => e
  | .enrolled | .silent => { e with state := .active, timer := some (e.expiry now) }
  | .active | .suspect => { e with timer := some (e.expiry now) }

/-- The report of a life frame to the Stream Table (R24, R37). -/
def lifeFrame (id : Nat) (s : State) : State := changeStream id (StreamEntry.lifeFrame s.tick) s

/-- The streaks after a report (R43). -/
def StreamEntry.moveStreaks (bad : Bool) (e : StreamEntry) : StreamEntry :=
  if bad then { e with bad := min 15 (e.bad + 1), good := 0 } else { e with good := min 15 (e.good + 1), bad := 0 }

/-- The passage that the streaks cause, tested against the hysteresis (R44). -/
def StreamEntry.testStreaks (e : StreamEntry) : StreamEntry :=
  match e.state with
  | .active => if e.cfg.hysteresis ≤ e.bad then { e with state := .suspect } else e
  | .suspect => if e.cfg.hysteresis ≤ e.good then { e with state := .active } else e
  | _ => e

/-- The entry after a time-quality report: ignored in ISOLATED, tested in ACTIVE and SUSPECT alone (R43, R44). -/
def StreamEntry.timeReport (bad : Bool) (e : StreamEntry) : StreamEntry :=
  match e.state with
  | .isolated => e
  | _ => (e.moveStreaks bad).testStreaks

/-- A time-quality report for the stream that holds an ID; discarded where none does (R29, R41, R43). -/
def timeReport (id : Nat) (bad : Bool) (s : State) : State := changeStream id (StreamEntry.timeReport bad) s

/-- The entry after its silence timer has expired (R38). -/
def StreamEntry.silence (e : StreamEntry) : StreamEntry := { e with state := .silent, timer := none, bad := 0, good := 0 }

/-- The silence timer of an entry has reached its expiry tick: it runs in ENROLLED, ACTIVE and SUSPECT (R38). -/
def StreamEntry.silenceDue (now : Nat) (e : StreamEntry) : Bool :=
  (e.state == .enrolled || e.state == .active || e.state == .suspect) &&
    match e.timer with
    | some t => decide (t ≤ now)
    | none => false

/-- The entry after its passage to ISOLATED (R39). -/
def StreamEntry.isolate (e : StreamEntry) : StreamEntry :=
  { e with state := .isolated, isolating := false, timer := none, bad := 0, good := 0 }

/-- The entry after RESTORE: an ISOLATED stream passes to ENROLLED with its timer loaded (R40). -/
def StreamEntry.restore (now : Nat) (e : StreamEntry) : StreamEntry :=
  if e.state = .isolated then { e with state := .enrolled, timer := some (e.expiry now) } else e

/-- The entry after RESTART: ENROLLED unless ISOLATED (R35, R188). -/
def StreamEntry.restart (now : Nat) (e : StreamEntry) : StreamEntry :=
  if e.state = .isolated then { e with timer := none, bad := 0, good := 0 }
  else { e with state := .enrolled, timer := some (e.expiry now), bad := 0, good := 0 }

/-- A frame or record of a stream has passed R22 and has been neither placed nor refused (R39). -/
def State.inAdmission (s : State) (id : Nat) : Bool :=
  s.adm.offers.any fun o => o.id == id && o.contribution.index.isSome

/-- An isolating stream passes to ISOLATED once no frame of it is left in admission (R39). -/
def finishIsolating (id : Nat) (s : State) : State :=
  match s.stream id with
  | none => s
  | some e => if e.isolating && !s.inAdmission id then changeStream id StreamEntry.isolate s else s

end Sys2Proof.Machine
end

