-- ==== Sys2Proof/Machine/Place.lean ====
section
/-! DEFINITION. Placement in the Alignment Ring: the eight tests of R79 with their answers (R80 to R88), what each answer changes
(R83, R84, R89 to R92), its counts (R27, R193), the straggler hand-off (R28) and the time-quality report (R29). -/

namespace Sys2Proof.Machine

/-- The ring's answer to an offered contribution (R79). LATE and AFTER_SEAL carry the tick from which lateness counts. HORIZON says
whether the ring crowds (R83), advances its floor (R84) or does neither (R85). -/
inductive Answer where
  | draining
  | duplicate
  | late (since : Nat)
  | ahead
  | crowds
  | advances
  | belowSpan
  | afterSeal (since : Nat)
  | collision
  | storeFull
  | accepted
deriving DecidableEq, Repr

/-! ### The tests -/

/-- Test 1: a drain is under way, or the grid rate differs (R69, R80). -/
def isDraining (s : State) (o : Offer) : Bool := s.ring.stepDrain || s.ring.commitDrain || o.rate != s.rate

/-- The epoch lies at or below the floor. -/
def belowFloor (r : Ring) (ordinal : Nat) : Bool :=
  match r.floor with
  | some f => decide (ordinal ≤ f)
  | none => false

/-- The EMITTING record that an ordinal lies below, if there is one (R81). -/
def belowEmitting (r : Ring) (ordinal : Nat) : Option EpochRec :=
  r.recs.find? fun e => e.state == .emitting && decide (ordinal < e.ordinal)

/-- Test 2: the epoch has gone, or can no longer be emitted in order (R81). -/
def isLate (r : Ring) (ordinal : Nat) : Bool := belowFloor r ordinal || (belowEmitting r ordinal).isSome

/-- The tick from which the lateness of a LATE frame counts (R81). -/
def lateSince (r : Ring) (ordinal : Nat) : Nat :=
  match memoryOf r.memory ordinal with
  | some m => if m.ordinal = ordinal then m.tick else lateElse
  | none => lateElse
where
  /-- The floor tick when the epoch lies at or below the floor, else the seal tick of the EMITTING record. -/
  lateElse : Nat :=
    if belowFloor r ordinal then r.floorTick.getD 0 else ((belowEmitting r ordinal).bind (·.sealTick)).getD 0

/-- Test 3: the instant lies beyond reference now plus the ahead limit; not applied without a mapping (R82). -/
def isAhead (s : State) (ordinal : Nat) : Bool :=
  match s.refNow with
  | some now => decide (now + s.table.params.aheadMs * 1000 < instantUs s.rate ordinal)
  | none => false

/-- Test 4: what the span answers to an ordinal, if it does not fit (R83, R84, R85). -/
def spanAnswer (r : Ring) (ordinal : Nat) : Option Answer :=
  match r.recs.head?, r.recs.getLast? with
  | some lo, some hi =>
    if lo.ordinal + 511 < ordinal then some .crowds
    else if ordinal + 511 < hi.ordinal then some .belowSpan
    else none
  | _, _ =>
    match r.floor with
    | some f => if f + slots < ordinal then some .advances else none
    | none => none

/-- The record that holds an ordinal. -/
def Ring.recordOf (r : Ring) (ordinal : Nat) : Option EpochRec := r.recs.find? fun e => e.ordinal == ordinal

/-- The contribution a record holds from the stream of another contribution; a withdrawn one is of no stream (R87, R182). -/
def EpochRec.sameStream (e : EpochRec) (c : Contribution) : Option Contribution :=
  e.contributions.find? fun d => d.index.isSome && d.index == c.index

/-- Tests 7 and 8 (R88, R89). -/
def roomAnswer (r : Ring) : Answer := if cells ≤ r.occupancy then .storeFull else .accepted

/-- Tests 5 to 8 (R86 to R89). -/
def recordAnswer (r : Ring) (o : Offer) : Answer :=
  match r.recordOf o.ordinal with
  | none => roomAnswer r
  | some e =>
    if e.state = .opened then
      match e.sameStream o.contribution with
      | some d => if d.frac = o.contribution.frac then .duplicate else .collision
      | none => roomAnswer r
    else .afterSeal (e.sealTick.getD 0)

/-- The answer to an offered contribution: the first test that matches (R79). -/
def answer (s : State) (o : Offer) : Answer :=
  if isDraining s o then .draining
  else if isLate s.ring o.ordinal then
    if (s.stream o.id).bind (·.lastEpoch) = some o.ordinal then .duplicate else .late (lateSince s.ring o.ordinal)
  else if isAhead s o.ordinal then .ahead
  else
    match spanAnswer s.ring o.ordinal with
    | some a => a
    | none => recordAnswer s.ring o

/-! ### Acceptance (R89 to R92) -/

/-- The deadline tick and FALLBACK of a record that opens (R91). -/
def deadlineOf (s : State) (ordinal openTick : Nat) : Nat × Bool :=
  match s.table.params.base, s.tru.mapping with
  | .firstArrival, _ => (openTick + s.table.params.budgetMs * 1000, false)
  | .timestamp, some m => (m.tickOf (instantUs s.rate ordinal + s.table.params.budgetMs * 1000), false)
  | .timestamp, none => (openTick + s.table.params.budgetMs * 1000, true)

/-- A record that opens for an ordinal (R89). -/
def openRecord (s : State) (ordinal openTick : Nat) : EpochRec where
  ordinal := ordinal
  state := .opened
  openTick := openTick
  deadline := (deadlineOf s ordinal openTick).1
  sealTick := none
  cause := none
  contributions := []
  requiredPresent := 0
  fallback := (deadlineOf s ordinal openTick).2
  stepped := false

/-- A record put into the ring at the place its ordinal gives. -/
def insertRecord (e : EpochRec) : List EpochRec → List EpochRec
  | [] => [e]
  | d :: ds => if e.ordinal < d.ordinal then e :: d :: ds else d :: insertRecord e ds

/-- A contribution taken into a record: the list, and the required-present count when it counts (R89). -/
def EpochRec.take (a : ActiveSet) (c : Contribution) (e : EpochRec) : EpochRec :=
  { e with
    contributions := insertContribution c e.contributions
    requiredPresent := e.requiredPresent + if countsPresent a e.ordinal c then 1 else 0 }

/-- What becomes of a record right after it took a contribution: COMPLETE by the test of R90, or DEADLINE when it opened past its
deadline (R92). -/
def afterTaking (a : ActiveSet) (now : Nat) (opened : Bool) (e : EpochRec) : Option SealCause :=
  if e.requiredPresent = requiredCount a e.ordinal then some .complete
  else if opened && decide (e.deadline ≤ now) then some .deadline
  else none

/-- The record a contribution goes to, as it stands before it. -/
def targetRecord (s : State) (o : Offer) : EpochRec :=
  (s.ring.recordOf o.ordinal).getD (openRecord s o.ordinal o.contribution.arrival)

/-- The record a contribution goes to, after it: taken in, and sealed where R90 or R92 says so. -/
def takenRecord (s : State) (o : Offer) : EpochRec :=
  let e := (targetRecord s o).take s.table o.contribution
  match afterTaking s.table s.tick (s.ring.recordOf o.ordinal).isNone e with
  | some cause => e.seal cause s.tick
  | none => e

/-- The ring's records with the taken record in its place. -/
def putRecord (e : EpochRec) (r : Ring) : List EpochRec :=
  if (r.recordOf e.ordinal).isSome then r.recs.map fun d => if d.ordinal = e.ordinal then e else d else insertRecord e r.recs

/-- Acceptance as one event of the ring (R89, R90, R92): the record, the stream's `last_epoch`, and the seal's count. -/
def accept (s : State) (o : Offer) : State :=
  let e := takenRecord s o
  let s' := ({ s with ring := { s.ring with recs := putRecord e s.ring } }).mapStream o.id fun x =>
    { x with lastEpoch := some (max (x.lastEpoch.getD 0) o.ordinal) }
  match e.cause with
  | some cause => report cause.ctr s'
  | none => s'

/-- What an answer changes at the ring, before the head is considered again. -/
def ringEffect (a : Answer) (o : Offer) (s : State) : State :=
  match a with
  | .accepted => accept s o
  | .crowds => sealWhere .crowded (fun e => decide (e.ordinal + slots ≤ o.ordinal)) s
  | .advances => { s with ring := { s.ring with floor := some (o.ordinal - slots), floorTick := some s.tick } }
  | _ => s

/-! ### Counts, latency and straggler hand-off (R27, R28, R193) -/

/-- The Monitor counter of an answer; acceptance has none (R27). -/
def Answer.ctr : Answer → Option Ctr
  | .draining => some .draining
  | .duplicate => some .duplicate
  | .late _ => some .late
  | .ahead => some .ahead
  | .crowds | .advances | .belowSpan => some .horizon
  | .afterSeal _ => some .afterSeal
  | .collision => some .collision
  | .storeFull => some .storeFull
  | .accepted => none

/-- The per-stream counter of an answer (R27, R50). -/
def Answer.countIn (a : Answer) (c : StreamCounts) : StreamCounts :=
  match a with
  | .accepted => { c with accepted := satInc c.accepted }
  | .late _ | .afterSeal _ => { c with late := satInc c.late }
  | .duplicate => { c with duplicate := satInc c.duplicate }
  | .collision => { c with collision := satInc c.collision }
  | _ => c

/-- The latency of an epoch now, `none` for a negative one (R118, R193). -/
def latencyOf (rate now ordinal : Nat) : Option Nat :=
  if instantUs rate ordinal ≤ now then some (now - instantUs rate ordinal) else none

/-- Admission counts the outcome, and an acceptance is reported for the latency histogram (R27, R193). -/
def countAnswer (a : Answer) (o : Offer) (s : State) : State :=
  let s' := s.mapStream o.id fun x => { x with counts := a.countIn x.counts }
  match a.ctr with
  | some c => report c s'
  | none =>
    match s'.refNow with
    | some now => recordLatency s'.table.params.widthMs (latencyOf s'.rate now o.ordinal) s'
    | none => s'

/-- The straggler hand-off of a LATE or AFTER_SEAL phasor frame whose stream straggles (R28, R11). -/
def handOff (a : Answer) (o : Offer) (s : State) : State :=
  match o.straggle, o.body, a with
  | true, some body, .late since => straggler reasonLate since o body s
  | true, some body, .afterSeal since => straggler reasonAfterSeal since o body s
  | _, _, _ => s

/-- The time-quality report of a life frame, AHEAD counting as bad time (R29, R166). -/
def reportTime (a : Answer) (o : Offer) (s : State) : State :=
  if o.life then timeReport o.id (o.badTime || a == .ahead) s else s

/-! ### One placement -/

/-- TIME_SUSPECT for a stream that is SUSPECT at the moment of the offer (R26, R166). -/
def suspectNow (s : State) (o : Offer) : Offer :=
  let suspect := (s.stream o.id).any fun e => e.state == .suspect
  { o with contribution := { o.contribution with content := { o.contribution.content with
      flags := { o.contribution.content.flags with timeSuspect := o.contribution.content.flags.timeSuspect || suspect } } } }

/-- The placement of an offer of a stream that the active table holds (R79, R27 to R29, R39). -/
def placeHeld (o : Offer) (s : State) : State :=
  let a := answer s o
  reportTime a o (finishIsolating o.id (settle (handOff a o (countAnswer a o (ringEffect a (suspectNow s o) s)))))

/-- The placement of one offer, taken out of admission. A stream removed since the lookup is unknown: its contribution is not
offered to the ring, and its report is discarded (R30, R41). -/
def placeOffer (o : Offer) (s : State) : State :=
  if o.contribution.index.isNone then report .unknownStream s else placeHeld o s

/-- The oldest offer of a port, taken out of admission and placed; nothing where there is none. -/
def placeNext (p : Port) (s : State) : State :=
  match s.adm.offers.find? fun o => o.port == p with
  | none => s
  | some o => placeOffer o { s with adm := { s.adm with offers := s.adm.offers.eraseP fun x => x.port == p } }

end Sys2Proof.Machine
end

