-- ==== Sys2Proof/Machine/Admit.lean ====
section
/-! DEFINITION. Admission: the sequence of checks from the stream lookup to the built contribution, for phasor frames (R20 to R26) and
for lower-tier records (R162 to R169), Composite Ingest (R160 to R163), the acceptance of control frames (R171, R172), and dispatch
by kind (R19). -/

namespace Sys2Proof.Machine

/-- A measurement that enters the admission sequence at the stream lookup. `label` is the time base a lower-tier record brings, and
absent for a phasor frame, whose time base is its stream's (R70). -/
structure Measurement where
  port : Port
  arrival : Nat
  id : Nat
  soe : Nat
  frac : Nat
  label : Option Nat
  tq : Nat
  hop : Nat
  flags : Flags
  df : Half
  rocof : Half
  digital : Half
  phasors : List Phasor
  analogs : List Word
  body : Option (List Byte)
  life : Bool
deriving DecidableEq, Repr

/-- A phasor frame as a measurement (R25, R26). -/
def Meas.measurement (m : Meas) (p : Port) (arrival : Nat) (body : List Byte) : Measurement where
  port := p
  arrival := arrival
  id := m.id
  soe := m.soe
  frac := m.frac
  label := none
  tq := m.tq
  hop := 0
  flags := m.flags
  df := m.df
  rocof := m.rocof
  digital := m.digital
  phasors := m.phasors
  analogs := m.analogs
  body := some body
  life := true

/-- A lower-tier record as a measurement: the frame's second and slot on its grid rate, its clock quality for a TQ, the hop raised by
one; a HELD record is no life frame (R70, R163, R164, R166 to R168). -/
def WireRecord.measurement (r : WireRecord) (f : IngestFrame) : Measurement where
  port := f.port
  arrival := f.arrival
  id := r.id
  soe := f.header.soe
  frac := f.header.slot
  label := some f.header.rate
  tq := f.header.quality
  hop := r.hop + 1
  flags := recordFlags r.flags r.status
  df := r.df
  rocof := r.rocof
  digital := r.digital
  phasors := r.phasors
  analogs := r.analogs
  body := none
  life := r.status != .held

/-- The snap request of a measurement under an active set (R25, R70). -/
def Measurement.request (m : Measurement) (a : ActiveSet) (c : StreamCfg) : SnapRequest where
  soe := m.soe
  frac := m.frac
  tb := m.label.getD c.tb
  rate := a.params.rate
  tol := c.tol
  correction := correctionOn a c
  df := m.df
  angles := m.phasors.map (·.angle)

/-- The contribution built from a snapped measurement (R26, R164). SYNC_LOST and TQ are read as the measurement brought them. -/
def Measurement.contribution (m : Measurement) (c : StreamCfg) (idx : Option Nat) (residual : Int) (angles : List Half)
    (uncorrected : Bool) : Contribution where
  index := idx
  former := none
  frac := m.frac
  arrival := m.arrival
  content := {
    hop := m.hop
    residual := residual
    flags := builtFlags m.flags (badTimeOf m.tq c.tqMax m.flags.syncLost) uncorrected
    df := m.df
    rocof := m.rocof
    digital := m.digital
    phasors := List.zipWith (fun p a => { p with angle := a }) m.phasors angles
    analogs := m.analogs }

/-- The offer of a snapped measurement, under the version of the active set it was looked up under (R28, R30). Its report is classed by
the TQ threshold of that version, also where a commit changes the threshold before the report is taken; the hysteresis N is the one that
stands then, as R44 says (DEDUCED, log 42). -/
def Measurement.offer (m : Measurement) (a : ActiveSet) (c : StreamCfg) (idx : Option Nat) (ordinal : Nat) (residual : Int)
    (angles : List Half) (uncorrected : Bool) : Offer where
  port := m.port
  id := m.id
  rate := a.params.rate
  ordinal := ordinal
  contribution := m.contribution c idx residual angles uncorrected
  straggle := straggleOn a c
  body := m.body
  life := m.life
  badTime := badTimeOf m.tq c.tqMax m.flags.syncLost

/-- The report of a life frame that the snap refused (R25, R29). -/
def refusedReport (m : Measurement) (c : StreamCfg) (s : State) : State :=
  if m.life then timeReport m.id (badTimeOf m.tq c.tqMax m.flags.syncLost) s else s

/-- From the snap on: BAD_LABEL and OFF_GRID are counted, and a snapped measurement's contribution waits for its placement (R25,
R26). `a` is the version of the active set that the lookup read (R30). -/
def snapAndBuild (m : Measurement) (a : ActiveSet) (c : StreamCfg) (s : State) : State :=
  match snap (m.request a c) with
  | .badLabel => refusedReport m c (report .badLabel s)
  | .offGrid =>
    refusedReport m c (report .offGrid (s.mapStream m.id fun e => { e with counts := { e.counts with offGrid := satInc e.counts.offGrid } }))
  | .snapped ordinal residual angles uncorrected =>
    let o := m.offer a c ((s.stream m.id).map (·.idx)) ordinal residual angles uncorrected
    { s with adm := { s.adm with offers := s.adm.offers ++ [o] } }

/-- The admission sequence from the stream lookup (R21 to R26, R165): unknown streams, ISOLATED and isolating ones and shape mismatches
are counted and dropped, and a life frame is reported before the snap. -/
def admitOne (m : Measurement) (s : State) : State :=
  match s.stream m.id with
  | none => report .unknownStream s
  | some e =>
    if e.state == .isolated || e.isolating then report .isolatedDrop s
    else if m.phasors.length ≠ e.cfg.phasors ∨ m.analogs.length ≠ e.cfg.analogs then
      report .shape (s.mapStream m.id fun e => { e with counts := { e.counts with shape := satInc e.counts.shape } })
    else snapAndBuild m s.table e.cfg (if m.life then lifeFrame m.id s else s)

/-! ### Composite Ingest (R160 to R163) -/

/-- One record of an admitted aligned-set frame: ABSENT is skipped, hop 3 refused, anything else admitted (R162, R163). -/
def ingestRecord (f : IngestFrame) (r : WireRecord) (s : State) : State :=
  if r.status = .absent then s
  else if r.hop = 3 then report .hop s
  else admitOne (r.measurement f) s

/-- Every offer of a port that waits, placed in the order in which it was built: at most `n` of them (R18). -/
def placeAll (p : Port) : Nat → State → State
  | 0, s => s
  | n + 1, s => if s.adm.offers.any (fun o => o.port == p) then placeAll p n (placeNext p s) else s

/-- The next record of the frame under treatment. Earlier contributions of its port are placed first, so that outcomes keep the order
of arrival (R18, R160, log 9). A frame's last record ends its treatment. -/
def ingestNext (s : State) : State :=
  match s.adm.ingest with
  | [] => s
  | f :: fs =>
    let s1 := placeAll f.port s.adm.offers.length s
    match f.records with
    | [] => { s1 with adm := { s1.adm with ingest := fs } }
    | [r] => ingestRecord f r { s1 with adm := { s1.adm with ingest := fs } }
    | r :: rs => ingestRecord f r { s1 with adm := { s1.adm with ingest := { f with records := rs } :: fs } }

/-- Whether a frame of a port is still in admission. -/
def Admission.busy (a : Admission) (p : Port) : Bool :=
  a.offers.any (fun o => o.port == p) || a.ingest.any fun f => f.port == p

/-- One step of what is left in admission before a port's next frame: an offer of the port, else the next record under treatment. -/
def catchUpStep (p : Port) (s : State) : State :=
  if s.adm.offers.any (fun o => o.port == p) then placeNext p s else ingestNext s

/-- The earlier frames of a port are decided before its next frame is taken (R18, log 9): at most `n` steps. -/
def catchUpBy (p : Port) : Nat → State → State
  | 0, s => s
  | n + 1, s => if s.adm.busy p then catchUpBy p n (catchUpStep p s) else s

/-- An upper bound on the steps that empty admission: an offer takes one, a record two. -/
def Admission.work (a : Admission) : Nat :=
  a.offers.length + (a.ingest.map fun f => 2 * f.records.length + 1).sum

/-- The earlier frames of a port are decided before its next frame is taken (R18, log 9). -/
def catchUp (p : Port) (s : State) : State := catchUpBy p s.adm.work s

/-! ### Dispatch (R19) -/

/-- The target that addresses every part (R171). -/
abbrev everyPart : Nat := 255

/-- A control frame that reaches the Control Unit: NOT_MINE, shed, or accepted with a reservation in M (R171, R172). -/
def acceptControl (origin : Nat) (body : List Byte) (s : State) : State :=
  let target := field body 0 1
  if target ≠ s.nodeId ∧ target ≠ everyPart then report .notMine s
  else if s.ctl.queue.length < queueCapacity ∧ s.egress.mOccupancy < mCapacity then
    let f : CtrlFrame := {
      re := { requester := BitVec.ofNat 16 origin, tag := field16 body 2, code := BitVec.ofNat 8 (field body 1 1) }
      args := body.drop 4 }
    { s with
      ctl := { s.ctl with queue := s.ctl.queue ++ [f] }
      egress := { s.egress with reserved := s.egress.reserved + 1 } }
  else report .ctrlShed s

/-- A well-formed ASET frame at Composite Ingest: the part's own output is dropped whole as LOOP; another frame's records wait for
their treatment (R160, R161). -/
def acceptAset (p : Port) (arrival origin : Nat) (h : SetHeader) (rs : List WireRecord) (s : State) : State :=
  if origin = s.nodeId then report .loop s
  else if rs.isEmpty then s
  else { s with adm := { s.adm with ingest := s.adm.ingest ++ [{ port := p, arrival := arrival, header := h, records := rs }] } }

/-- Dispatch by kind code (R19). -/
def dispatch (p : Port) (arrival : Nat) (payload : List Byte) (s : State) : State :=
  let kind := field payload 0 1
  let origin := field payload 2 2
  let body := bodyOf payload
  if kind = kindMeas then
    match readMeas origin body with
    | none => report .malformed s
    | some m => admitOne (m.measurement p arrival body) s
  else if kind = kindAset ∧ s.table.params.composite then
    match readAset origin body with
    | none => report .malformed s
    | some (h, rs) => acceptAset p arrival origin h rs s
  else if kind = kindCtrl then
    if body.length < 4 then report .malformed s else acceptControl origin body s
  else report .unknownKind s

/-- A frame that has passed the framer's checks of link and type: counted, checked for form, and dispatched (R16, R17, R19). -/
def frameIn (p : Port) (payload : List Byte) (s : State) : State :=
  let s1 := report (match p with | .a => .framesInA | .b => .framesInB) s
  match formOf payload with
  | .malformed => report .malformed s1
  | .bad => report .checkBad s1
  | .good => dispatch p s.tick payload (catchUp p s1)

end Sys2Proof.Machine
end

