-- ==== Sys2Proof/Machine/Control.lean ====
section
/-! DEFINITION. The Control Unit's shared operations: execution of the head of the command queue with its checks (R173), the reading of
command arguments (R12, R174), the staged set (R34, R175 to R178), and the override table's writes (R137, R138). -/

namespace Sys2Proof.Machine

/-- What every command of this model answers. -/
abbrev Result := Host.Outcome State Fault Refusal

/-! ### Execution (R173) -/

/-- The listed command codes (R14). -/
def listedCodes : List Nat :=
  [0x10, 0x11, 0x12, 0x13, 0x14, 0x15, 0x20, 0x21, 0x22, 0x23, 0x24, 0x25, 0x30, 0x31, 0x32, 0x33, 0x40, 0x41, 0x42,
   0x50, 0x51]

/-- The Control Unit executes the frame at the head of the command queue when its code satisfies `p`: the frame leaves the queue and
acts (R173). -/
def executeIf (p : Nat → Bool) (act : CtrlFrame → State → State) (s : State) : State :=
  match s.ctl.queue with
  | [] => s
  | f :: q => if p f.re.code.toNat then act f { s with ctl := { s.ctl with queue := q } } else s

/-- The execution of a listed command, while the part takes events. -/
def execute (code : Nat) (act : CtrlFrame → State → State) (s : State) : State :=
  whileOperating s (executeIf (· == code) act s)

/-- The checks of R173 before a command acts: its arguments' length, then its on/off and named-value bytes. -/
def checked (f : CtrlFrame) (lengthGood encodingGood : Bool) (act : State → State) (s : State) : State :=
  if !lengthGood then reply f.re .badLength [] s
  else if !encodingGood then reply f.re .badField [] s
  else act s

/-- A staging command's first own test: no commit may be pending (R178). -/
def whenNoCommit (f : CtrlFrame) (act : State → State) (s : State) : State :=
  if s.ctl.commit = .none then act s else reply f.re .commitPending [] s

/-! ### Arguments (R12, R174) -/

/-- The arguments of STAGE_STREAM. -/
def readStreamCfg (a : List Byte) : StreamCfg where
  id := field a 0 2
  tb := field a 2 4
  rs := field a 6 1
  tol := field a 7 2
  phasors := field a 9 1
  analogs := field a 10 1
  correct := readOnOff a 11
  optional := readOnOff a 12
  straggle := readOnOff a 13
  holdLimit := field a 14 1
  tqMax := field a 15 1
  hysteresis := field a 16 1
  silenceMs := field a 17 2

/-- The range fields of STAGE_RANGE, after the map index. Its four attributes, which are set or clear (R52), are taken as on/off
bytes, 01H for set: R12 names no encoding of set and clear (DESIGN CHOICE, log 44). -/
def readRangeEntry (a : List Byte) : RangeEntry where
  enable := readOnOff a 1
  base := field a 2 2
  size := field a 4 4
  optional := readOnOff a 8
  noCorrect := readOnOff a 9
  straggle := readOnOff a 10
  holdDeny := readOnOff a 11

/-- The arguments of STAGE_PARAMS, in the order of R177; none where a named value or an on/off byte lies beyond its list. -/
def readParams (a : List Byte) : Option Params := do
  let base ← deadlineBaseOf (field a 1 1)
  let parity ← parityOf (field a 14 1)
  let strobe ← strobeOf (field a 16 1)
  if isOnOff a 18 && isOnOff a 19 then
    some {
      rate := field a 0 1, base, budgetMs := field a 2 2, aheadMs := field a 4 2, region := field a 6 1
      payloadType := field16 a 7, burst := field a 9 1, holdoverS := field a 10 2, baud := field a 12 2, parity
      tqMax := field a 15 1, strobe, widthMs := field a 17 1, quiesceEnable := readOnOff a 18, composite := readOnOff a 19 }
  else none

/-! ### Configuration written as its arguments (R12, R174) -/

/-- The configuration fields of R33 after the stream ID, encoded as in STAGE_STREAM. -/
def cfgBytes (c : StreamCfg) : List Byte :=
  be 4 c.tb ++ be 1 c.rs ++ be 2 c.tol ++ be 1 c.phasors ++ be 1 c.analogs ++ onOff c.correct ++ onOff c.optional
    ++ onOff c.straggle ++ be 1 c.holdLimit ++ be 1 c.tqMax ++ be 1 c.hysteresis ++ be 2 c.silenceMs

/-- A map entry with the fields of STAGE_RANGE after the map index, its attributes as on/off bytes, 01H for set (log 44). -/
def rangeBytes (r : RangeEntry) : List Byte :=
  onOff r.enable ++ be 2 r.base ++ be 4 r.size ++ onOff r.optional ++ onOff r.noCorrect ++ onOff r.straggle ++ onOff r.holdDeny

/-- The fields of the parameter block as in STAGE_PARAMS. -/
def paramBytes (p : Params) : List Byte :=
  be 1 p.rate ++ be 1 p.base.code ++ be 2 p.budgetMs ++ be 2 p.aheadMs ++ be 1 p.region ++ be 2 p.payloadType.toNat
    ++ be 1 p.burst ++ be 2 p.holdoverS ++ be 2 p.baud ++ be 1 p.parity.code ++ be 1 p.tqMax ++ be 1 p.strobe.code
    ++ be 1 p.widthMs ++ onOff p.quiesceEnable ++ onOff p.composite

/-! ### The staged set (R34, R175, R176) -/

/-- The staged set as an exact copy of the active set, index for index (R34, R176). -/
def ActiveSet.copy (a : ActiveSet) : StagedSet where
  streams := a.streams.map fun e => (e.idx, e.cfg)
  ranges := a.ranges
  params := a.params

/-- The lowest VACANT staged index, unless all 256 are occupied (R34). -/
def StagedSet.lowestVacant (g : StagedSet) : Option Nat :=
  (List.range 256).find? fun i => !g.streams.any fun p => p.1 == i

/-- A staged entry written at its index, in ascending index. -/
def writeEntry (i : Nat) (c : StreamCfg) : List (Nat × StreamCfg) → List (Nat × StreamCfg)
  | [] => [(i, c)]
  | p :: ps => if i < p.1 then (i, c) :: p :: ps else if i = p.1 then (i, c) :: ps else p :: writeEntry i c ps

/-- Where STAGE_STREAM writes: the index of the staged entry that holds the stream ID, or the lowest VACANT one (R34). -/
def StagedSet.indexFor (g : StagedSet) (id : Nat) : Option Nat :=
  match g.indexOf id with
  | some i => some i
  | none => g.lowestVacant

/-- The state with another staged set. -/
def State.stage (s : State) (g : StagedSet) : State := { s with ctl := { s.ctl with staged := g } }

/-! ### The override table (R136 to R138) -/

/-- The number of entries of the override table (R136). -/
abbrev overrideEntries : Nat := 16

/-- The entry of a stream ID after SET_OVERRIDE: in force at once with sync off, pending with sync on (R137). -/
def OverrideEntry.put (e : OverrideEntry) (sync : Bool) (o : Override) : OverrideEntry :=
  if sync then { e with change := some (.set o) } else { e with inForce := some o, change := none }

/-- The table after an accepted SET_OVERRIDE: the stream's entry, or a free one (R137, log 19). -/
def putOverride (id : Nat) (sync : Bool) (o : Override) (es : List OverrideEntry) : List OverrideEntry :=
  if es.any fun e => e.id == id then es.map fun e => if e.id == id then e.put sync o else e
  else es ++ [OverrideEntry.put { id := id, inForce := none, change := none } sync o]

/-- The table after CLEAR_OVERRIDE: the entry freed with sync off, a pending clear with sync on (R138). -/
def dropOverride (id : Nat) (sync : Bool) (es : List OverrideEntry) : List OverrideEntry :=
  if sync then es.map fun e => if e.id == id then { e with change := some .clear } else e
  else es.filter fun e => e.id != id

/-- The state with another override table; pending changes come into force at once when the ring holds no epoch (R139). -/
def setOverrides (es : List OverrideEntry) (s : State) : State :=
  let s' := { s with comp := { s.comp with overrides := es } }
  if s.ring.recs.isEmpty then overridesIntoForce s' else s'

end Sys2Proof.Machine
end

