-- ==== Sys2Proof/Machine/Profile.lean ====
section
/-! DEFINITION. The profile image as the Profile Store keeps it (R198): its content as bytes, the check that ends it, the read-back
after a write (R199), and what a start finds in the storage. R198 lists the content and leaves its layout open (log 24). -/

namespace Sys2Proof.Machine

/-! ### The image as bytes -/

/-- `n` stream-table indexes from `i` on: 00H for a VACANT index, 01H and the arguments of STAGE_STREAM for an entry. -/
def slotsBytes : Nat → Nat → List (Nat × StreamCfg) → List Byte
  | 0, _, _ => []
  | n + 1, i, [] => 0 :: slotsBytes n (i + 1) []
  | n + 1, i, (j, c) :: es =>
    if j = i then 1 :: (be 2 c.id ++ cfgBytes c) ++ slotsBytes n (i + 1) es else 0 :: slotsBytes n (i + 1) ((j, c) :: es)

/-- The content of an image: parameter block, emission mode, the 256 stream-table indexes and the range map (R198, log 24). -/
def Image.content (i : Image) : List Byte :=
  paramBytes i.params ++ be 1 i.mode.code ++ slotsBytes 256 0 i.streams ++ i.ranges.toList.flatMap rangeBytes

/-- An image as it is written: its content, and the CRC-32 of R2 over all of it (R198). -/
def Image.bytes (i : Image) : List Byte := i.content ++ be 4 (crc32 i.content).toNat

/-- An image as it is read back after its write: `damage` lists the bytes that differ from those written (R199, log 24). -/
def readBack (damage : List (Nat × Byte)) (i : Image) : List Byte := damage.foldl (fun bs d => bs.set d.1 d.2) i.bytes

/-! ### The image read -/

/-- The check of R198: the last four bytes are the CRC-32 of R2 over all before them. -/
def profileCheckGood (bs : List Byte) : Bool :=
  decide (4 ≤ bs.length) && field bs (bs.length - 4) 4 == (crc32 (bs.take (bs.length - 4))).toNat

/-- The occupied ones of `n` stream-table indexes from `i` on, and the bytes after them; none where a byte is no encoding of R12. -/
def readSlots : Nat → Nat → List Byte → Option (List (Nat × StreamCfg) × List Byte)
  | 0, _, bs => some ([], bs)
  | _ + 1, _, [] => none
  | n + 1, i, b :: bs =>
    if b = 0 then readSlots n (i + 1) bs
    else if b = 1 ∧ 19 ≤ bs.length ∧ isOnOff bs 11 ∧ isOnOff bs 12 ∧ isOnOff bs 13 then
      (readSlots n (i + 1) (bs.drop 19)).map fun r => ((i, readStreamCfg bs) :: r.1, r.2)
    else none

/-- The bytes of a map entry hold settings that are on or off alone. -/
def rangeEncodingGood (bs : List Byte) : Bool :=
  isOnOff bs 0 && isOnOff bs 7 && isOnOff bs 8 && isOnOff bs 9 && isOnOff bs 10

/-- The content of an image read; none where its bytes are no image (R198). -/
def readImage (bs : List Byte) : Option Image := do
  let params ← readParams bs
  let mode ← modeOf (field bs 20 1)
  let (streams, rest) ← readSlots 256 0 (bs.drop 21)
  let entry := fun (i : Nat) => (rest.drop (11 * i)).take 11
  if rest.length = 88 ∧ ((List.range 8).all fun i => rangeEncodingGood (entry i)) = true then
    some { params, mode, streams, ranges := Vector.ofFn fun i : Fin 8 => readRangeEntry (0 :: entry i) }
  else none

/-- The image that a start finds GOOD: its check is correct and its content acceptable (R198). -/
def Stored.goodImage : Stored → Option Image
  | .bytes bs =>
    if profileCheckGood bs then (readImage (bs.take (bs.length - 4))).filter Image.acceptable else none
  | _ => none

end Sys2Proof.Machine
end

