-- ==== Sys2Proof/Machine/Supply.lean ====
section
/-! DEFINITION. Supply, RESET line and start (R200 to R203), and the link states of the ports (R15, R150). -/

namespace Sys2Proof.Machine

/-! ### The NODE strap (R201) -/

/-- The one of the nine conditions of 00_scope ("The NODE strap is read as one of nine conditions") that a reading is taken as: a
resistor of one strap code, or `none` for a direct tie. R201 does not place a resistance below the lowest nominal value (log 20). -/
def strapCondition : StrapReading → Option (Fin 8)
  | .tie => none
  | .belowLowest => Config.strapBelowLowest
  | .nominal i => some i
  | .between i .nearerLower => some i.castSucc
  | .between i .midpoint => some i.succ
  | .between i .nearerHigher => some i.succ
  | .aboveHighest => some 7

/-- The strap code of a reading: 0 for a direct tie. -/
def strapCode (r : StrapReading) : Nat := (strapCondition r).elim 0 (·.val)

/-- Whether a reading selects bench mode: a direct tie does. -/
def strapBench (r : StrapReading) : Bool := (strapCondition r).isNone

/-! ### The start (R202) -/

/-- The image that a start loads: a GOOD one, off the bench (R202). -/
def State.loadable (s : State) : Option Image := if s.power.bench then none else s.store.image.goodImage

/-- The active set of a start without a profile (R202, R203). -/
def blankSet : ActiveSet where
  streams := []
  ranges := .replicate 8 blankRange
  params := resetParams

/-- The active set that an image becomes, index for index; each stream is ENROLLED with its timer loaded (R35, R202). -/
def Image.activeSet (i : Image) : ActiveSet where
  streams := i.streams.map (freshEntry 0)
  ranges := i.ranges
  params := i.params

/-- The active set after a start. -/
def startSetOf (i : Option Image) : ActiveSet := i.elim blankSet Image.activeSet

/-- The start that power-up and the release of the RESET line share: every block at its start values, with the image or without one
(R202). What lies outside the part or is nonvolatile stays: the QUIESCE line's level, the strap reading, the stored image. -/
def start (s : State) : State where
  pending := s.pending
  power := s.power
  tick := 0
  links := { a := .down, b := .down, o := .down }
  adm := { offers := [], ingest := [] }
  table := startSetOf s.loadable
  ring := { recs := [], memory := [], floor := none, floorTick := none,
            stepDrain := false, commitDrain := false, stepMark := false }
  tru := { state := .acquiring, edgeRef := none, streak := 0, streakLabel := 0, mapping := none,
           watchdog := none, mismatch := none, holdEntry := none, lastMsg := none }
  time := { chars := [], buffer := none, waitHigh := false, period := s.time.period + 1 }
  strobe := { endTick := none, lastPulsed := none }
  comp := { overrides := [], mode := s.loadable.elim .run (·.mode), seen := false, quiesced := false,
            lineLow := s.comp.lineLow, set := none }
  egress := { o := [], l := [], m := [], reserved := 0, grants := 0, tx := none }
  ctl := { queue := [], commit := .none, commitFor := none, generation := 0, staged := (startSetOf s.loadable).copy }
  mon := { counters := .replicate 39 0, bins := .replicate 16 0, early := 0, elapsed := 0, remainder := 0,
           hold := false, frozen := false }
  store := { image := s.store.image, state := if s.store.image.goodImage.isSome then .good else .bad,
             writing := none, saveFor := none }
  free := s.free

/-- A profile write under way is cut off: the stored image keeps the wrong check it has had since the write began (R200). -/
def cutWrite (s : State) : State :=
  if s.store.writing.isSome then { s with store := { image := .broken, state := .bad, writing := none, saveFor := none } }
  else s

/-- Power-up: the strap is sensed, and then the start is taken (R201, R202). Supply that is established anew has been lost before, so a
write that was under way is cut off (log 33). -/
def powerUp (r : StrapReading) (s : State) : State :=
  let s1 := cutWrite s
  start { s1 with power := { s1.power with powered := true, strapCode := strapCode r, bench := strapBench r } }

/-- POWER_UP (R202). -/
def execPowerUp (r : StrapReading) (s : State) : Result := .next (powerUp r s)

/-- POWER_LOSS: a profile write is cut off, and the part takes no event until the next power-up (R200, log 37). -/
def execPowerLoss (s : State) : Result :=
  let s1 := cutWrite s
  .next { s1 with power := { s1.power with powered := false } }

/-- What assertion of the RESET line ends: admissions, the transmission in progress, the queues with their reservations, a pending
commit, a STROBE pulse and a profile write; the framers' ports are DOWN and the tick counter is at 0 (R15, R32, R103, R121, R149,
R151, R172, R180, R200). -/
def resetHold (s : State) : State :=
  let s1 := cutWrite s
  { s1 with
    tick := 0
    links := { s1.links with a := .down, b := .down }
    adm := { offers := [], ingest := [] }
    strobe := { s1.strobe with endTick := none }
    egress := { s1.egress with o := [], l := [], m := [], reserved := 0, tx := none }
    ctl := { s1.ctl with queue := [], commit := .none, commitFor := none } }

/-- RESET_ASSERT (R32). Without supply only the line's level moves. -/
def execResetAssert (s : State) : Result :=
  let s1 := if s.operating then resetHold s else s
  .next { s1 with power := { s1.power with resetAsserted := true } }

/-- RESET_RELEASE: the start of power-up, without sensing the strap again (R201, R202). -/
def execResetRelease (s : State) : Result :=
  let s1 := { s with power := { s.power with resetAsserted := false } }
  .next (if s.power.powered && s.power.resetAsserted then start s1 else s1)

/-! ### Links (R15, R150) -/

/-- The link states with a framer's port in a state. -/
def Links.set (l : Links) (p : Port) (v : Link) : Links :=
  match p with
  | .a => { l with a := v }
  | .b => { l with b := v }

/-- The link state of a framer's port. -/
def Links.get (l : Links) (p : Port) : Link :=
  match p with
  | .a => l.a
  | .b => l.b

/-- INGRESS_LINK_UP (R15). -/
def execIngressLinkUp (p : Port) (s : State) : Result :=
  .next (whileOperating s { s with links := s.links.set p .up })

/-- INGRESS_LINK_DOWN: a frame whose reception is under way never completes; one already handed to Admission is not affected (R15). -/
def execIngressLinkDown (p : Port) (s : State) : Result :=
  .next (whileOperating s { s with links := s.links.set p .down })

/-- PORT_O_LINK_UP: a grant is made at once if a queue holds a frame (R150). -/
def execPortOLinkUp (s : State) : Result :=
  .next (whileOperating s (grant { s with links := { s.links with o := .up } }))

/-- PORT_O_LINK_DOWN: a transmission in progress ends unfinished and its frame is lost, uncounted (R150). -/
def execPortOLinkDown (s : State) : Result :=
  .next (whileOperating s { s with links := { s.links with o := .down }, egress := { s.egress with tx := none } })

end Sys2Proof.Machine
end

