-- ==== Sys2Proof/Machine/Ingress.lean ====
section
/-! DEFINITION. The events of ingress and of the ring: a completed frame (R16), a record's ingest (R162), a placement (R79), a silence
timer's expiry (R38) and a deadline's expiry (R93). -/

namespace Sys2Proof.Machine

/-- INGRESS_FRAME_COMPLETE: a frame on an UP port whose link check is good and whose type is the payload type is taken in; any other is
discarded uncounted (R15, R16). -/
def execIngressFrameComplete (p : Port) (linkCheckGood : Bool) (f : EthFrame) (s : State) : Result :=
  .next (whileOperating s
    (if s.links.get p = .up ∧ linkCheckGood ∧ f.etype = s.table.params.payloadType then frameIn p f.payload s else s))

/-- ASET_RECORD_INGEST: the next record of the frame under treatment (R160, R162). -/
def execAsetRecordIngest (s : State) : Result := .next (whileOperating s (ingestNext s))

/-- PLACEMENT: the oldest contribution that waits from a port is offered to the ring (R18, R79). -/
def execPlacement (p : Port) (s : State) : Result := .next (whileOperating s (placeNext p s))

/-- The stream at an index passes to SILENT when its silence timer has reached its expiry tick (R38). -/
def silenceExpiry (idx : Nat) (s : State) : State :=
  match s.streamAt idx with
  | none => s
  | some e => if e.silenceDue s.tick then changeStream e.cfg.id StreamEntry.silence s else s

/-- SILENCE_TIMER_EXPIRY (R38). -/
def execSilenceTimerExpiry (idx : Nat) (s : State) : Result := .next (whileOperating s (silenceExpiry idx s))

/-- The deadline of a record has expired: it is OPEN and its deadline tick is reached (R93). -/
def EpochRec.deadlineDue (now : Nat) (e : EpochRec) : Bool := e.state == .opened && decide (e.deadline ≤ now)

/-- The record of an ordinal re-evaluated, and no other (R93, R95). -/
def recountAt (ordinal : Nat) (s : State) : State :=
  { s with ring := { s.ring with
      recs := s.ring.recs.map fun e => if e.ordinal = ordinal ∧ e.state = .opened then e.recount s.table else e } }

/-- The expiry of a deadline: the re-evaluated record seals COMPLETE when it is complete and DEADLINE otherwise; a head so sealed is
considered (R93, R97). -/
def expireDeadline (ordinal : Nat) (s : State) : State :=
  let s1 := recountAt ordinal s
  match s1.ring.recordOf ordinal with
  | none => s
  | some e =>
    if e.deadlineDue s.tick then
      settle (sealWhere (if e.isComplete s1.table then .complete else .deadline) (fun d => d.ordinal == ordinal) s1)
    else s

/-- DEADLINE_EXPIRY (R93). -/
def execDeadlineExpiry (ordinal : Nat) (s : State) : Result := .next (whileOperating s (expireDeadline ordinal s))

end Sys2Proof.Machine
end

