-- ==== Sys2Proof/Machine/Compose.lean ====
section
/-! DEFINITION. The Composer: which streams receive which record (R127 to R131), the cutting into parts (R9), the start of a
composition (R126), and the queueing of a part (R132). -/

namespace Sys2Proof.Machine

/-! ### Records of a set (R127 to R131) -/

/-- The head's contribution of the stream at an index (R127). -/
def EpochRec.contributionOf (r : EpochRec) (idx : Nat) : Option Contribution :=
  r.contributions.find? fun c => c.index == some idx

/-- A PRESENT record (R128). -/
def presentRecord (e : StreamEntry) (c : Contribution) : SetRecord where
  idx := e.idx
  id := e.cfg.id
  hop := c.content.hop
  status := .present
  holdAge := 0
  content := some c.content

/-- A HELD record where hold is allowed, the cache exists and the age is below the limit; an ABSENT record otherwise (R129, R130). -/
def missingRecord (a : ActiveSet) (e : StreamEntry) : SetRecord :=
  match e.hold with
  | some h =>
    if holdAllowed a e.cfg && decide (e.holdAge < e.cfg.holdLimit) then
      { idx := e.idx, id := e.cfg.id, hop := h.hop, status := .held, holdAge := e.holdAge + 1, content := some h }
    else { idx := e.idx, id := e.cfg.id, hop := 0, status := .absent, holdAge := 0, content := none }
  | none => { idx := e.idx, id := e.cfg.id, hop := 0, status := .absent, holdAge := 0, content := none }

/-- The record of a stream before overrides: PRESENT with a contribution; HELD or ABSENT when it is expected and not ISOLATED; none
otherwise (R127). -/
def plainRecord (a : ActiveSet) (ordinal : Nat) (e : StreamEntry) (c : Option Contribution) : Option SetRecord :=
  match c with
  | some c => some (presentRecord e c)
  | none =>
    if e.state != .isolated && expectedAt e.cfg.rs a.params.rate ordinal then some (missingRecord a e) else none

/-- The substituted content of an override (R131). -/
def substitutedContent (e : StreamEntry) (o : Override) : Content where
  hop := 0
  residual := 0
  flags := Flags.clear
  df := o.df
  rocof := 0
  digital := 0
  phasors := o.phasors
  analogs := List.replicate e.cfg.analogs 0

/-- A record that an override turned OVERRIDDEN (R7, R131). -/
def overriddenRecord (e : StreamEntry) (c : Content) : SetRecord where
  idx := e.idx
  id := e.cfg.id
  hop := c.hop
  status := .overridden
  holdAge := 0
  content := some c

/-- The override in force for a stream ID (R136). -/
def Composer.overrideFor (c : Composer) (id : Nat) : Option Override :=
  (c.overrides.find? fun e => e.id == id).bind (·.inForce)

/-- The record of a stream under the override in force for it, if there is one (R131). A substitute of another phasor count than the
stream's expected one is disregarded. -/
def streamRecord (a : ActiveSet) (ordinal : Nat) (e : StreamEntry) (c : Option Contribution) (o : Option Override) : Option SetRecord :=
  match o with
  | none => plainRecord a ordinal e c
  | some o =>
    match o.action with
    | .suppress => none
    | .substitute =>
      if o.phasors.length = e.cfg.phasors then
        (plainRecord a ordinal e c).map fun _ => overriddenRecord e (substitutedContent e o)
      else plainRecord a ordinal e c
    | .markInvalid =>
      match c with
      | some c => some (overriddenRecord e { c.content with flags := { c.content.flags with dataInvalid := true } })
      | none => plainRecord a ordinal e none

/-- The records of the set of a head: the active streams in ascending index (R127). -/
def setRecords (s : State) (r : EpochRec) : List SetRecord :=
  s.table.streams.filterMap fun e =>
    streamRecord s.table r.ordinal e (r.contributionOf e.idx) (s.comp.overrideFor e.cfg.id)

/-! ### Parts (R9) -/

/-- The 13-byte set header's size. -/
abbrev headerSize : Nat := 13

/-- Cutting: a part closes when the next record would take its body beyond 9,000 bytes. `cur` is the open part in reverse and `size`
its body so far. -/
def cutFrom (cur : List SetRecord) (size : Nat) : List SetRecord → List (List SetRecord)
  | [] => [cur.reverse]
  | r :: rs =>
    if maxBody < size + recordSize r then cur.reverse :: cutFrom [r] (headerSize + recordSize r) rs
    else cutFrom (r :: cur) (size + recordSize r) rs

/-- The records of a set cut into parts; a set without records is one empty part (R9). -/
def cutParts (rs : List SetRecord) : List (List SetRecord) := cutFrom [] headerSize rs

/-- The header of a set, but for what differs between parts (R126). -/
def setHeader (s : State) (r : EpochRec) : SetHeader where
  rate := s.rate
  soe := r.ordinal / s.rate
  slot := r.ordinal % s.rate
  cause := r.cause.getD .complete
  fallback := r.fallback
  test := s.power.bench
  stepped := s.ring.stepMark
  clock := s.tru.state
  quality := s.clockQuality
  partIndex := 1
  partCount := 1
  recordCount := 0

/-- The parts of a set with their frames (R6, R9, R126). -/
def setParts (s : State) (r : EpochRec) : List SetPart :=
  let groups := cutParts (setRecords s r)
  (groups.zipIdx 1).map fun g =>
    let h := { setHeader s r with partIndex := g.2, partCount := groups.length, recordCount := g.1.length }
    { records := g.1, frame := s.originate kindAset (headerBytes h ++ g.1.flatMap recordBytes) }

/-! ### The start of a composition (R126) -/

/-- A SEALED head to be emitted and a free O slot (R97, R125). -/
def State.composeDue (s : State) : Bool :=
  match s.ring.recs with
  | [] => false
  | r :: _ => r.state == .sealed && !s.comp.withholds && decide (s.egress.o.length < oCapacity)

/-- The head passes to EMITTING and everything its set will carry is fixed (R126); STEPPED goes on it when the step mark is set, which
is then cleared (R100). -/
def startSet (s : State) : State :=
  match s.ring.recs with
  | [] => s
  | r :: rest =>
    { s with
      ring := { s.ring with recs := { r with state := .emitting, stepped := s.ring.stepMark } :: rest, stepMark := false }
      comp := { s.comp with set := some { ordinal := r.ordinal, parts := setParts s r, queued := 0 } } }

/-! ### Queueing a part (R132) -/

/-- A stream entry after a record of it was placed in a queued part (R48, R50, R132). -/
def StreamEntry.queued (r : SetRecord) (e : StreamEntry) : StreamEntry :=
  match r.status with
  | .present => { e with hold := r.content, holdAge := 0 }
  | .held => { e with holdAge := r.holdAge, counts := { e.counts with heldEmitted := satInc e.counts.heldEmitted } }
  | .absent => { e with counts := { e.counts with absentEmitted := satInc e.counts.absentEmitted } }
  | .overridden => e

/-- A stream entry after a part that may hold a record of it was queued. -/
def StreamEntry.queuedIn (rs : List SetRecord) (e : StreamEntry) : StreamEntry :=
  match rs.find? fun r => r.idx == e.idx with
  | some r => e.queued r
  | none => e

/-- The hold caches, hold ages and counters of every record in a queued part (R132). -/
def moveRecords (rs : List SetRecord) (s : State) : State :=
  { s with table := { s.table with streams := s.table.streams.map (StreamEntry.queuedIn rs) } }

/-- The next part of the EMITTING head, when a slot is free (R97, R132). -/
def State.partDue (s : State) : Option (Composition × SetPart) :=
  match s.ring.recs, s.comp.set with
  | r :: _, some c =>
    if r.state == .emitting && decide (s.egress.o.length < oCapacity) then
      (c.parts[c.queued]?).map fun p => (c, p)
    else none
  | _, _ => none

/-- A part is placed in the O queue; with the last part queued the head leaves the ring emitted (R98, R132). -/
def queueNext (s : State) : State :=
  match s.partDue with
  | none => s
  | some (c, p) =>
    let s1 := { s with comp := { s.comp with set := some { c with queued := c.queued + 1 } } }
    let s2 := joinO p.frame (moveRecords p.records s1)
    if c.queued + 1 = c.parts.length then settle (depart true s2) else s2

end Sys2Proof.Machine
end

