-- ==== Sys2Proof/Machine/Output.lean ====
section
/-! DEFINITION. The events of the output side: the start of a composition (R126), the queueing of a part (R132), the end of a
transmission (R151), and the QUIESCE line (R140, R142, R143). -/

namespace Sys2Proof.Machine

/-- COMPOSE_SET: a SEALED head to be emitted passes to EMITTING when an O slot is free (R97, R126). -/
def execComposeSet (s : State) : Result := .next (whileOperating s (if s.composeDue then startSet s else s))

/-- QUEUE_PART: the next part of the EMITTING head into a free O slot (R97, R132). -/
def execQueuePart (s : State) : Result := .next (whileOperating s (queueNext s))

/-- The Monitor counter of a completed transmission; a reply has none (R151). -/
def TxKind.ctr : TxKind → Option Ctr
  | .part => some .partsEmitted
  | .straggler => some .stragglersOut
  | .reply => none

/-- A transmission has completed: its frame has left the part and is counted, and the next grant is decided (R151, R152). -/
def endTransmission (s : State) : State :=
  match s.egress.tx with
  | none => s
  | some t =>
    let s1 := { s with egress := { s.egress with tx := none } }
    grant (match t.kind.ctr with
      | some c => report c s1
      | none => s1)

/-- TRANSMISSION_COMPLETE (R151). -/
def execTransmissionComplete (s : State) : Result := .next (whileOperating s (endTransmission s))

/-- QUIESCED latches: the waiting parts are discarded, an EMITTING head leaves withheld, and so does each SEALED head after it (R142,
R125). -/
def latchQuiesce (s : State) : State :=
  settle (discardParts { s with comp := { s.comp with quiesced := true } })

/-- A quiesce event sets quiesce-seen, and latches QUIESCED when QUIESCE_ENABLE is on (R140). -/
def quiesceFall (s : State) : State :=
  let s1 := { s with comp := { s.comp with seen := true } }
  if s.table.params.quiesceEnable then latchQuiesce s1 else s1

/-- QUIESCE_EVENT: the line falls. While the part takes no events the edge is disregarded, and only the line's level moves (R140). -/
def execQuiesceEvent (s : State) : Result :=
  let s1 := { s with comp := { s.comp with lineLow := true } }
  .next (if s.operating then quiesceFall s1 else s1)

/-- QUIESCE_LINE_RISE: the line returns high (R143). -/
def execQuiesceLineRise (s : State) : Result := .next { s with comp := { s.comp with lineLow := false } }

end Sys2Proof.Machine
end

