-- ==== Sys2Proof/Machine/Reads.lean ====
section
/-! DEFINITION. The commands that read the part (R185, R186), the Monitor's commands (R187, R190, R195), SAVE_PROFILE (R187, R199),
RESTART (R188) and the answer to an unlisted command code (R173). -/

namespace Sys2Proof.Machine

/-! ### READ_STATUS (R185) -/

/-- A second of the SOE scale in 4 bytes; past the scale's last second the bytes are open (log 21). -/
def labelField (label : Nat) : Nat := if label ≤ maxSoe then label else (Config.labelPastScale label).toNat

/-- The drain and its cause: NONE, STEP, COMMIT, BOTH (R185). -/
def Ring.drainCode (r : Ring) : Nat := r.stepDrain.toNat + 2 * r.commitDrain.toNat

/-- How many records are in a state (R99). -/
def Ring.countState (r : Ring) (st : RecState) : Nat := r.recs.countP fun e => e.state == st

/-- Identity and links (R185). -/
def identityBytes (s : State) : List Byte :=
  be 1 s.nodeId ++ be 1 s.power.strapCode ++ onOff s.power.bench ++ be 1 s.table.params.region
    ++ be 1 s.links.a.code ++ be 1 s.links.b.code ++ be 1 s.links.o.code

/-- The Time Reference Unit's report (R110). -/
def timeBytes (s : State) : List Byte :=
  be 1 s.tru.state.code ++ be 1 s.clockQuality ++ onOff s.degraded
    ++ optField 4 (s.tru.mapping.map fun m => labelField m.label)
    ++ optField 2 (s.holdoverTime.map (· / 1000000))
    ++ be 1 s.tru.streak ++ be 1 (if s.tru.mismatch.isSome then 1 else 0)
    ++ optField 1 (s.tru.lastMsg.map (·.quality)) ++ optField 1 (s.tru.lastMsg.map (·.holdover.toNat))

/-- The ring's report (R99), with the floor tick of R77 beside F (log 17). At most one record is EMITTING (R74). -/
def ringBytes (r : Ring) : List Byte :=
  be 2 (r.countState .opened) ++ be 2 (r.countState .sealed) ++ be 1 (r.countState .emitting)
    ++ optField 6 (r.recs.head?.map (·.ordinal)) ++ optField 6 (r.recs.getLast?.map (·.ordinal))
    ++ optField 6 r.floor ++ optField 8 r.floorTick ++ be 2 r.occupancy ++ be 1 r.drainCode

/-- The Composer's report (R124). The line's level is given as an on/off setting, on for high (log 15), and quiesce-seen and QUIESCED,
which are set or clear, as on/off settings too, 01H for set (DESIGN CHOICE, log 44). -/
def composerBytes (c : Composer) : List Byte :=
  be 1 c.mode.code ++ onOff c.seen ++ onOff c.quiesced ++ onOff (!c.lineLow)
    ++ optField 6 (c.set.map (·.ordinal)) ++ optField 1 (c.set.map (·.parts.length)) ++ optField 1 (c.set.map (·.queued))

/-- The Control Unit's and the Profile Store's report (R185). -/
def controlBytes (s : State) : List Byte :=
  be 1 s.ctl.commit.code ++ be 2 s.ctl.generation ++ be 1 s.ctl.queue.length ++ be 1 s.egress.mOccupancy
    ++ be 1 s.store.state.code

/-- The results of READ_STATUS (R185). -/
def statusBytes (s : State) : List Byte :=
  identityBytes s ++ timeBytes s ++ ringBytes s.ring ++ composerBytes s.comp ++ controlBytes s

/-- The act of READ_STATUS (R185). -/
def readStatusAct (f : CtrlFrame) (s : State) : State :=
  checked f (f.args.length == 0) true (fun s => reply f.re .ok (statusBytes s) s) s

/-- READ_STATUS (R185). -/
def execReadStatus (s : State) : Result := .next (execute 0x30 readStatusAct s)

/-! ### READ_STREAM (R34, R186) -/

/-- The eight per-stream counters in the order of R50. -/
def countsBytes (c : StreamCounts) : List Byte :=
  [c.accepted, c.late, c.duplicate, c.collision, c.offGrid, c.shape, c.absentEmitted, c.heldEmitted].flatMap
    fun w => be 4 w.toNat

/-- The results of READ_STREAM, in the order of R34 (log 16). Whether a hold cache exists is given as an on/off setting (log 44). -/
def streamBytes (now : Nat) (e : StreamEntry) : List Byte :=
  be 2 e.cfg.id ++ be 1 e.idx ++ cfgBytes e.cfg ++ be 1 e.state.code ++ optField 2 (e.timer.map fun t => (t - now) / 1000)
    ++ be 1 e.bad ++ be 1 e.good ++ optField 6 e.lastEpoch ++ onOff e.hold.isSome ++ be 1 e.holdAge ++ countsBytes e.counts

/-- The act of READ_STREAM: the counters are cleared in the same event when asked (R50, R186). -/
def readStreamAct (f : CtrlFrame) (s : State) : State :=
  checked f (f.args.length == 3) (isOnOff f.args 2)
    (fun s =>
      match s.stream (field f.args 0 2) with
      | none => reply f.re .unknownStream [] s
      | some e =>
        reply f.re .ok (streamBytes s.tick e)
          (if readOnOff f.args 2 then s.mapStream (field f.args 0 2) fun e => { e with counts := StreamCounts.zero } else s)) s

/-- READ_STREAM (R186). -/
def execReadStream (s : State) : Result := .next (execute 0x31 readStreamAct s)

/-! ### READ_RANGES and READ_OVERRIDES (R186) -/

/-- The act of READ_RANGES: the active map, then the staged map (R186), their attributes as on/off bytes (log 44). -/
def readRangesAct (f : CtrlFrame) (s : State) : State :=
  checked f (f.args.length == 0) true
    (fun s => reply f.re .ok (s.table.ranges.toList.flatMap rangeBytes ++ s.ctl.staged.ranges.toList.flatMap rangeBytes) s) s

/-- READ_RANGES (R186). -/
def execReadRanges (s : State) : Result := .next (execute 0x32 readRangesAct s)

/-- The Δf and phasors that an override gives in READ_OVERRIDES: its own for SUBSTITUTE, free values for the other actions, for which
R136 keeps none (log 18). -/
def Override.shown (free : Nat) (o : Override) : Half × List Phasor :=
  match o.action with
  | .substitute => (o.df, o.phasors)
  | _ => (Config.idleOverrideDf free,
      (List.range (Config.idleOverrideCount free)).map fun i =>
        { magnitude := Config.idleOverrideMagnitude free i, angle := Config.idleOverrideAngle free i })

/-- An override as in SET_OVERRIDE: action, Δf and list of phasors (R186). -/
def overrideBytes (free : Nat) (o : Override) : List Byte :=
  be 1 o.action.code ++ be 2 (o.shown free).1.toNat ++ be 1 (o.shown free).2.length ++ (o.shown free).2.flatMap phasorBytes

/-- An occupied entry: stream ID, in-force part or absent, pending part (R186). `free` numbers the entry's free values. -/
def overrideEntryBytes (free : Nat) (e : OverrideEntry) : List Byte :=
  be 2 e.id
    ++ (match e.inForce with
        | none => [0]
        | some o => 1 :: overrideBytes (2 * free) o)
    ++ match e.change with
       | none => [0]
       | some (.set o) => 1 :: overrideBytes (2 * free + 1) o
       | some .clear => [2]

/-- The list of the occupied entries of the override table (R186). -/
def overrideListBytes (free : Nat) (es : List OverrideEntry) : List Byte :=
  be 1 es.length ++ (es.zipIdx free).flatMap fun e => overrideEntryBytes e.2 e.1

/-- The act of READ_OVERRIDES; the free counter moves past the entries shown (R186, log 18). -/
def readOverridesAct (f : CtrlFrame) (s : State) : State :=
  checked f (f.args.length == 0) true
    (fun s => reply f.re .ok (overrideListBytes s.free s.comp.overrides) { s with free := s.free + s.comp.overrides.length }) s

/-- READ_OVERRIDES (R186). -/
def execReadOverrides (s : State) : Result := .next (execute 0x33 readOverridesAct s)

/-! ### The Monitor's commands (R187) -/

/-- The act of SNAPSHOT_COUNTERS: captured and cleared in one event (R195, R196). -/
def snapshotAct (f : CtrlFrame) (s : State) : State :=
  checked f (f.args.length == 0) true
    (fun s => reply f.re .ok (snapshotBytes s.mon s.table.params.widthMs) { s with mon := s.mon.cleared }) s

/-- SNAPSHOT_COUNTERS (R195). -/
def execSnapshotCounters (s : State) : Result := .next (execute 0x40 snapshotAct s)

/-- A change of the Monitor's condition, replying with the former one, RUN 0 or HOLD 1 (R190). -/
def setCondition (hold : Bool) (f : CtrlFrame) (s : State) : State :=
  checked f (f.args.length == 0) true
    (fun s => reply f.re .ok (onOff s.mon.hold) { s with mon := { s.mon with hold := hold } }) s

/-- MONITOR_RUN (R190). -/
def execMonitorRun (s : State) : Result := .next (execute 0x41 (setCondition false) s)

/-- MONITOR_HOLD (R190). -/
def execMonitorHold (s : State) : Result := .next (execute 0x42 (setCondition true) s)

/-! ### SAVE_PROFILE and the end of its write (R199) -/

/-- The snapshot of the active set and the emission mode (R199). -/
def State.image (s : State) : Image where
  params := s.table.params
  mode := s.comp.mode
  streams := s.table.streams.map fun e => (e.idx, e.cfg)
  ranges := s.table.ranges

/-- The write begins to overwrite the stored image, whose check is wrong until the write ends (R199, R200). -/
def beginWrite (re : ReplyTo) (s : State) : State :=
  { s with store := { image := .broken, state := .writing, writing := some s.image, saveFor := some re } }

/-- The act of SAVE_PROFILE (R187, R199). -/
def saveProfileAct (f : CtrlFrame) (s : State) : State :=
  checked f (f.args.length == 0) true
    (fun s => if s.store.state = .writing then reply f.re .storeBusy [] s else beginWrite f.re s) s

/-- SAVE_PROFILE (R199). -/
def execSaveProfile (s : State) : Result := .next (execute 0x50 saveProfileAct s)

/-- The write has ended: the storage holds the bytes read back, and their check decides GOOD or BAD (R199). -/
def endWrite (bs : List Byte) (s : State) : State :=
  { s with store := { image := .bytes bs, state := if profileCheckGood bs then .good else .bad, writing := none, saveFor := none } }

/-- The end of the profile write and its read-back, with the reply of its SAVE_PROFILE (R199). -/
def writeComplete (damage : List (Nat × Byte)) (s : State) : State :=
  match s.store.writing with
  | none => s
  | some i =>
    let bs := readBack damage i
    match s.store.saveFor with
    | some re => reply re (if profileCheckGood bs then .ok else .storeFault) [] (endWrite bs s)
    | none => endWrite bs s

/-- PROFILE_WRITE_COMPLETE (R199). -/
def execProfileWriteComplete (damage : List (Nat × Byte)) (s : State) : Result :=
  .next (whileOperating s (writeComplete damage s))

/-! ### RESTART (R188) -/

/-- Step 1: a commit in PENDING_BOUNDARY applies, and the head is considered under what it changed. -/
def restartCommit (s : State) : State :=
  if s.ctl.commit = .pendingBoundary then settle (applyCommit s) else s

/-- Step 2: the ring's contents are discarded and counted FLUSHED, the set in composition is abandoned, pending override changes come
into force, and the empty ring ends a drain (R102, R139). -/
def restartRing (s : State) : State :=
  whenEmpty (overridesIntoForce (reportMany .flushed s.ring.recs.length
    { s with ring := { s.ring with recs := [] }, comp := { s.comp with set := none } }))

/-- Step 3: the O and L queues are emptied, uncounted (R149). -/
def restartQueues (s : State) : State := { s with egress := { s.egress with o := [], l := [] } }

/-- Steps 4 and 5: streams ENROLLED unless ISOLATED, and the staged set a copy of the active set (R35, R188). The ring is empty, so the
passages out of ACTIVE re-evaluate nothing. -/
def restartStreams (s : State) : State :=
  let t := { s.table with streams := s.table.streams.map (StreamEntry.restart s.tick) }
  ({ s with table := t }).stage t.copy

/-- The act of RESTART (R188). -/
def restartAct (f : CtrlFrame) (s : State) : State :=
  checked f (f.args.length == 0) true
    (fun s => reply f.re .ok [] (restartStreams (restartQueues (restartRing (restartCommit s))))) s

/-- RESTART (R188). -/
def execRestart (s : State) : Result := .next (execute 0x51 restartAct s)

/-! ### UNKNOWN_COMMAND (R173) -/

/-- The execution of a frame with an unlisted command code (R173). -/
def execUnknownCommand (s : State) : Result :=
  .next (whileOperating s (executeIf (fun c => !listedCodes.contains c) (fun f s => reply f.re .unknownCommand [] s) s))

end Sys2Proof.Machine
end

