-- ==== Sys2Proof/Machine/Running.lean ====
section
/-! DEFINITION. The short commands on the running part (R184): ISOLATE, RESTORE, the override commands, SET_EMISSION and
CLEAR_QUIESCE. -/

namespace Sys2Proof.Machine

/-- ISOLATE: at once, or isolating while a frame of the stream is in admission (R39). -/
def isolateStream (id : Nat) (s : State) : State :=
  match s.stream id with
  | none => s
  | some e =>
    if e.state = .isolated then s
    else if s.inAdmission id then s.mapStream id fun e => { e with isolating := true }
    else changeStream id StreamEntry.isolate s

/-- The act of ISOLATE (R39). -/
def isolateAct (f : CtrlFrame) (s : State) : State :=
  checked f (f.args.length == 2) true
    (fun s =>
      if (s.stream (field f.args 0 2)).isSome then reply f.re .ok [] (isolateStream (field f.args 0 2) s)
      else reply f.re .unknownStream [] s) s

/-- ISOLATE (R39). -/
def execIsolate (s : State) : Result := .next (execute 0x20 isolateAct s)

/-- The act of RESTORE (R40). -/
def restoreAct (f : CtrlFrame) (s : State) : State :=
  checked f (f.args.length == 2) true
    (fun s =>
      if (s.stream (field f.args 0 2)).isSome then
        reply f.re .ok [] (changeStream (field f.args 0 2) (StreamEntry.restore s.tick) s)
      else reply f.re .unknownStream [] s) s

/-- RESTORE (R40). -/
def execRestore (s : State) : Result := .next (execute 0x21 restoreAct s)

/-- The refusal of a SET_OVERRIDE, in the order of R137, or none where it is accepted. -/
def overrideRefusal (s : State) (id : Nat) (o : Override) : Option Status :=
  if !validId id then some .badField
  else if o.action = .substitute ∧ (s.stream id).isNone then some .unknownStream
  else if o.action = .substitute ∧ (s.stream id).any (fun e => e.cfg.phasors != o.phasors.length) then some .badField
  else if !(s.comp.overrides.any fun e => e.id == id) ∧ overrideEntries ≤ s.comp.overrides.length then some .noRoom
  else none

/-- The act of SET_OVERRIDE (R137). The required length follows the list's count, and a body that ends before the count is BAD_LENGTH
(R173). -/
def setOverrideAct (f : CtrlFrame) (s : State) : State :=
  let n := field f.args 6 1
  let good := decide (7 ≤ f.args.length) && f.args.length == 7 + 6 * n
  match actionOf (field f.args 2 1) with
  | none => checked f good false id s
  | some action =>
    checked f good (isOnOff f.args 3)
      (fun s =>
        let o : Override := { action := action, df := field16 f.args 4, phasors := readPhasors n (f.args.drop 7) }
        match overrideRefusal s (field f.args 0 2) o with
        | some st => reply f.re st [] s
        | none => reply f.re .ok []
            (setOverrides (putOverride (field f.args 0 2) (readOnOff f.args 3) o s.comp.overrides) s)) s

/-- SET_OVERRIDE (R137). -/
def execSetOverride (s : State) : Result := .next (execute 0x22 setOverrideAct s)

/-- The act of CLEAR_OVERRIDE (R138). -/
def clearOverrideAct (f : CtrlFrame) (s : State) : State :=
  checked f (f.args.length == 3) (isOnOff f.args 2)
    (fun s =>
      if validId (field f.args 0 2) then
        reply f.re .ok [] (setOverrides (dropOverride (field f.args 0 2) (readOnOff f.args 2) s.comp.overrides) s)
      else reply f.re .badField [] s) s

/-- CLEAR_OVERRIDE (R138). -/
def execClearOverride (s : State) : Result := .next (execute 0x23 clearOverrideAct s)

/-- The emission mode set at once, and a waiting head decided again (R125, R133). -/
def setMode (m : EmissionMode) (s : State) : State := settle { s with comp := { s.comp with mode := m } }

/-- The act of SET_EMISSION (R133). -/
def setEmissionAct (f : CtrlFrame) (s : State) : State :=
  match modeOf (field f.args 0 1) with
  | none => checked f (f.args.length == 1) false id s
  | some m => checked f (f.args.length == 1) true (fun s => reply f.re .ok [] (setMode m s)) s

/-- SET_EMISSION (R133). -/
def execSetEmission (s : State) : Result := .next (execute 0x24 setEmissionAct s)

/-- The act of CLEAR_QUIESCE; the head is considered again under the emission mode (R143). -/
def clearQuiesceAct (f : CtrlFrame) (s : State) : State :=
  checked f (f.args.length == 0) true
    (fun s =>
      if s.comp.lineLow then reply f.re .lineAsserted [] s
      else reply f.re .ok [] (settle { s with comp := { s.comp with seen := false, quiesced := false } })) s

/-- CLEAR_QUIESCE (R143). -/
def execClearQuiesce (s : State) : Result := .next (execute 0x25 clearQuiesceAct s)

end Sys2Proof.Machine
end

