-- ==== Sys2Proof/Machine/Staging.lean ====
section
/-! DEFINITION. The staging commands and COMMIT: R175 to R179. -/

namespace Sys2Proof.Machine

/-- STAGE_STREAM writes a staged entry by stream ID and replies with its index (R34, R175). -/
def stageStreamAct (f : CtrlFrame) (s : State) : State :=
  checked f (f.args.length == 19) (isOnOff f.args 11 && isOnOff f.args 12 && isOnOff f.args 13)
    (whenNoCommit f fun s =>
      let c := readStreamCfg f.args
      if c.inRange then
        match s.ctl.staged.indexFor c.id with
        | some i => reply f.re .ok (be 1 i) (s.stage { s.ctl.staged with streams := writeEntry i c s.ctl.staged.streams })
        | none => reply f.re .noRoom [] s
      else reply f.re .badField [] s) s

/-- STAGE_STREAM (R175). -/
def execStageStream (s : State) : Result := .next (execute 0x10 stageStreamAct s)

/-- UNSTAGE_STREAM makes the staged entry of a stream ID VACANT and replies with its index (R34, R176). -/
def unstageStreamAct (f : CtrlFrame) (s : State) : State :=
  checked f (f.args.length == 2) true
    (whenNoCommit f fun s =>
      match s.ctl.staged.indexOf (field f.args 0 2) with
      | some i => reply f.re .ok (be 1 i)
          (s.stage { s.ctl.staged with streams := s.ctl.staged.streams.filter fun p => p.1 != i })
      | none => reply f.re .unknownStream [] s) s

/-- UNSTAGE_STREAM (R176). -/
def execUnstageStream (s : State) : Result := .next (execute 0x11 unstageStreamAct s)

/-- STAGE_RANGE writes every field of one staged map entry (R52, R176). An entry that is out of range and misaligned as well is answered
BAD_FIELD: R52 and R176 give the two refusals without an order (DESIGN CHOICE, log 41). An attribute byte other than 00H and 01H is
BAD_FIELD, as for an on/off setting (log 44). -/
def stageRangeAct (f : CtrlFrame) (s : State) : State :=
  checked f (f.args.length == 12)
    (isOnOff f.args 1 && isOnOff f.args 8 && isOnOff f.args 9 && isOnOff f.args 10 && isOnOff f.args 11)
    (whenNoCommit f fun s =>
      let r := readRangeEntry f.args
      if h : field f.args 0 1 < 8 ∧ r.inRange then
        if r.aligned then
          reply f.re .ok [] (s.stage { s.ctl.staged with ranges := s.ctl.staged.ranges.set (field f.args 0 1) r h.1 })
        else reply f.re .misaligned [] s
      else reply f.re .badField [] s) s

/-- STAGE_RANGE (R52). -/
def execStageRange (s : State) : Result := .next (execute 0x12 stageRangeAct s)

/-- STAGE_PARAMS writes every field of the staged parameter block (R177). -/
def stageParamsAct (f : CtrlFrame) (s : State) : State :=
  match readParams f.args with
  | none => checked f (f.args.length == 20) false id s
  | some p =>
    checked f (f.args.length == 20) true
      (whenNoCommit f fun s =>
        if p.inRange then reply f.re .ok [] (s.stage { s.ctl.staged with params := p })
        else reply f.re .badField [] s) s

/-- STAGE_PARAMS (R177). -/
def execStageParams (s : State) : Result := .next (execute 0x13 stageParamsAct s)

/-- DISCARD_STAGE makes the staged set an exact copy of the active set (R34, R176). -/
def discardStageAct (f : CtrlFrame) (s : State) : State :=
  checked f (f.args.length == 0) true
    (whenNoCommit f fun s => reply f.re .ok [] (s.stage s.table.copy)) s

/-- DISCARD_STAGE (R176). -/
def execDiscardStage (s : State) : Result := .next (execute 0x14 discardStageAct s)

/-- Whether the staged parameter block changes the grid rate or the deadline base (R179). -/
def State.needsDrain (s : State) : Bool :=
  s.ctl.staged.params.rate != s.rate || s.ctl.staged.params.base != s.table.params.base

/-- A valid commit placed by the ring and by what it changes (R179, R183). -/
def placeCommit (re : ReplyTo) (s : State) : State :=
  let s1 := { s with ctl := { s.ctl with commitFor := some re } }
  if s.ring.recs.isEmpty then applyCommit s1
  else if s.needsDrain then flushCommit { s1 with ctl := { s1.ctl with commit := .pendingDrain } }
  else { s1 with ctl := { s1.ctl with commit := .pendingBoundary } }

/-- COMMIT: BUSY while one is pending, BAD_FIELD for region 31, else placed (R179). -/
def commitAct (f : CtrlFrame) (s : State) : State :=
  checked f (f.args.length == 0) true
    (fun s =>
      if s.ctl.commit ≠ .none then reply f.re .busy [] s
      else if s.ctl.staged.params.region = 31 then reply f.re .badField [] s
      else placeCommit f.re s) s

/-- COMMIT (R179). -/
def execCommit (s : State) : Result := .next (execute 0x15 commitAct s)

/-- A pending commit finds the ring empty: nothing is left that it waits for (R139, R180, log 13). -/
def State.commitDue (s : State) : Bool := s.ctl.commit != .none && s.ring.recs.isEmpty

/-- COMMIT_APPLY: the pending commit replaces the active set in one event (R181). A departure, the RESTART discard and a COMMIT with the
ring empty apply a commit inside their own events (R179, R180); this event applies one that still waits with the ring empty. -/
def execCommitApply (s : State) : Result :=
  .next (whileOperating s (if s.commitDue then applyCommit s else s))

end Sys2Proof.Machine
end

