-- ==== Sys2Proof/Machine/TimeEvents.lean ====
section
/-! DEFINITION. The events of the Time Reference Unit: TIME characters and messages (R104 to R106), PPS edges in each lock state (R107 to
R116), the edge watchdog (R114), the holdover limit (R117), STROBE pulses (R121, R122) and the Monitor's freeze (R192). -/

namespace Sys2Proof.Machine

/-! ### TIME characters (R104) -/

/-- The nine sampled bits have the parity set; with NONE there is nothing to test. -/
def charParityGood (c : TimeChar) (p : Parity) : Bool :=
  let ones := ((List.range 8).countP fun i => c.data.getLsbD i) + c.parityBit.toNat
  match p with
  | .even => ones % 2 == 0
  | .odd => ones % 2 == 1
  | .none => true

/-- The receiver takes a character begun in the present line period, and not before the line was high after a framing error (R104,
R106, log 25). -/
def State.takesChar (s : State) (c : TimeChar) : Bool :=
  c.period == s.time.period && (!s.time.waitHigh || c.sawHigh)

/-! ### The message assembler (R105) -/

/-- The start and end characters, `<` and `>`. -/
abbrev startChar : Byte := 0x3C
abbrev endChar : Byte := 0x3E

/-- A decimal digit whose value is at most `top`. -/
def isDigitUpTo (top : Nat) (b : Byte) : Bool := decide (0x30 ≤ b.toNat) && decide (b.toNat ≤ 0x30 + top)

/-- Whether a character fits a position, counted from 1. -/
def fitsPosition (pos : Nat) (b : Byte) : Bool :=
  if pos ≤ 11 then isDigitUpTo 9 b
  else if pos = 12 then isDigitUpTo 7 b
  else if pos = 13 then b == 0x4C || b == 0x48
  else b == endChar

/-- The second that ten decimal digits name. -/
def digitsValue (bs : List Byte) : Nat := bs.foldl (fun acc b => acc * 10 + (b.toNat - 0x30)) 0

/-- The content of a message of fourteen characters (R105). -/
def messageOf (chars : List Byte) : TimeMsg where
  label := digitsValue ((chars.drop 1).take 10)
  source := { quality := field chars 11 1 - 0x30, holdover := field chars 12 1 == 0x48 }

/-- The assembler with the characters of the message in progress. -/
def setChars (cs : List Byte) (s : State) : State := { s with time := { s.time with chars := cs } }

/-- A completed message is placed in the buffer; a message it replaces is an overrun (R106). -/
def bufferMessage (m : TimeMsg) (s : State) : State :=
  let s1 := if s.time.buffer.isSome then report .timeOverrun s else s
  { s1 with time := { s1.time with chars := [], buffer := some m } }

/-- The end character has arrived in its place: a SOE past the scale discards the message (R105). -/
def completeMessage (chars : List Byte) (s : State) : State :=
  if maxSoe < (messageOf chars).label then report .timeFraming (setChars [] s) else bufferMessage (messageOf chars) s

/-- A delivered character at the message assembler (R105). -/
def deliver (b : Byte) (s : State) : State :=
  if s.time.chars.isEmpty then (if b = startChar then setChars [b] s else s)
  else if b = startChar then report .timeFraming (setChars [b] s)
  else if fitsPosition (s.time.chars.length + 1) b then
    if s.time.chars.length + 1 = 14 then completeMessage (s.time.chars ++ [b]) s else setChars (s.time.chars ++ [b]) s
  else report .timeFraming (setChars [] s)

/-- A character at the receiver: a framing error, alone where there are both faults; a parity error; or a good character (R104). -/
def receiveChar (c : TimeChar) (s : State) : State :=
  if !c.stopBit then report .timeFraming { s with time := { s.time with chars := [], waitHigh := true } }
  else
    let s1 := { s with time := { s.time with waitHigh := false } }
    if charParityGood c s.table.params.parity then deliver c.data s1 else report .timeParity (setChars [] s1)

/-- TIME_CHARACTER (R104). -/
def execTimeCharacter (c : TimeChar) (s : State) : Result :=
  .next (whileOperating s (if s.takesChar c then receiveChar c s else s))

/-! ### PPS edges (R107) -/

/-- The interval class of an edge. -/
inductive EdgeClass where
  | first
  | regular
  | irregular
deriving DecidableEq, Repr

/-- The window W, in µs (R107). -/
abbrev windowLow : Nat := 999000
abbrev windowHigh : Nat := 1001000

/-- The class of an edge at a tick, by its interval from the edge reference (R107). -/
def edgeClass (ref : Option Nat) (now : Nat) : EdgeClass :=
  match ref with
  | none => .first
  | some r => if windowLow ≤ now - r ∧ now - r ≤ windowHigh then .regular else .irregular

/-- The edge watchdog armed from an edge (R111, R112). -/
def watchdogAt (edge : Nat) : Nat := edge + windowHigh

/-- The unit LOCKED with a mapping from an edge at a tick: watchdog armed, mismatch count 0, no holdover (R111, R115, R116). -/
def Tru.lock (t : Tru) (label now : Nat) (msg : Option MsgQuality) : Tru :=
  { t with state := .locked, edgeRef := some now, mapping := some { label := label, tick := now }, watchdog := some (watchdogAt now)
           mismatch := none, holdEntry := none, streak := 0, streakLabel := 0, lastMsg := msg }

/-- The acquisition streak after an edge (R111). -/
def Tru.nextStreak (t : Tru) (c : EdgeClass) (label : Nat) : Nat :=
  if c = .regular ∧ t.streak ≠ 0 ∧ label = t.streakLabel + 1 then t.streak + 1 else 1

/-- An edge in ACQUIRING (R111). -/
def edgeAcquiring (c : EdgeClass) (m : Option TimeMsg) (s : State) : State :=
  match m with
  | none => { s with tru := { s.tru with edgeRef := some s.tick, streak := 0, streakLabel := 0 } }
  | some m =>
    if s.tru.nextStreak c m.label = 3 then
      forgetPulse { s with tru := s.tru.lock m.label s.tick (some m.source) }
    else
      { s with tru := { s.tru with edgeRef := some s.tick, streak := s.tru.nextStreak c m.label, streakLabel := m.label } }

/-- A labelled edge that differs from its flywheel label confirms a step when the label follows the pending one (R113). -/
def Tru.confirms (t : Tru) (label : Nat) : Bool := t.mismatch.any fun p => label == p + 1

/-- A confirmed mismatch: the step, its count, and the ring's flush (R115, R122). -/
def referenceStep (m : TimeMsg) (s : State) : State :=
  flushStep (report .steps (forgetPulse { s with tru := s.tru.lock m.label s.tick (some m.source) }))

/-- A renewal of the mapping in LOCKED by an edge, with the mismatch count and the last applied message after it (R112, R113). -/
def renew (label : Nat) (mismatch : Option Nat) (msg : Option MsgQuality) (s : State) : State :=
  epochJump s.refNow { s with tru := { s.tru with
    edgeRef := some s.tick, mapping := some { label := label, tick := s.tick }, watchdog := some (watchdogAt s.tick)
    mismatch := mismatch, lastMsg := msg } }

/-- A regular edge in LOCKED (R112, R113). -/
def regularLocked (mp : Mapping) (m : Option TimeMsg) (s : State) : State :=
  let fly := mp.flywheel s.tick
  match m with
  | none => renew fly none s.tru.lastMsg s
  | some m =>
    if m.label = fly then renew fly none (some m.source) s
    else if s.tru.confirms m.label then referenceStep m s
    else renew fly (some m.label) s.tru.lastMsg s

/-- The return from HOLDOVER to LOCKED on the flywheel scale (R116). -/
def holdoverReturn (label : Nat) (msg : Option MsgQuality) (s : State) : State :=
  epochJump s.refNow { s with tru := s.tru.lock label s.tick msg }

/-- A regular edge in HOLDOVER (R113, R116). -/
def regularHoldover (mp : Mapping) (m : Option TimeMsg) (s : State) : State :=
  let fly := mp.flywheel s.tick
  match m with
  | none => holdoverReturn fly s.tru.lastMsg s
  | some m =>
    if m.label = fly then holdoverReturn fly (some m.source) s
    else if s.tru.confirms m.label then referenceStep m s
    else { s with tru := { s.tru with edgeRef := some s.tick, mismatch := some m.label } }

/-- An edge by the rule for the lock state (R111, R112 to R114, R116). An edge that is not regular is disregarded in LOCKED and becomes
the edge reference in HOLDOVER. -/
def edgeByState (c : EdgeClass) (m : Option TimeMsg) (s : State) : State :=
  match s.tru.state, s.tru.mapping with
  | .acquiring, _ => edgeAcquiring c m s
  | .locked, some mp => if c = .regular then regularLocked mp m s else s
  | .holdover, some mp =>
    if c = .regular then regularHoldover mp m s else { s with tru := { s.tru with edgeRef := some s.tick } }
  | _, none => s

/-- A PPS edge: classed, counted, its label taken from the buffer, a pulse for source PPS when it is regular, and handled by the lock
state (R107, R123). -/
def ppsEdge (s : State) : State :=
  let c := edgeClass s.tru.edgeRef s.tick
  let m := s.time.buffer
  let s1 := { s with time := { s.time with buffer := none } }
  let s2 := if c = .irregular then report .irregular s1 else s1
  let s3 := if m.isNone then report .unlabelled s2 else s2
  let s4 := if c = .regular then strobeFrom .pps s3 else s3
  edgeByState c m s4

/-- PPS_EDGE (R107). -/
def execPpsEdge (s : State) : Result := .next (whileOperating s (ppsEdge s))

/-! ### Watchdog and holdover limit (R114, R117) -/

/-- The edge watchdog has reached its expiry tick in LOCKED (R114). -/
def State.watchdogDue (s : State) : Bool := s.tru.state == .locked && s.tru.watchdog.any fun w => decide (w ≤ s.tick)

/-- The passage from LOCKED to HOLDOVER, and with a holdover limit of 0 on to ACQUIRING in the one event (R114, R117). -/
def enterHoldover (s : State) : State :=
  let s1 := { s with tru := { s.tru with state := .holdover, watchdog := none, holdEntry := some s.tick, mismatch := none } }
  if s1.holdoverOver then dropMapping s1 else s1

/-- EDGE_WATCHDOG_EXPIRY (R114). -/
def execEdgeWatchdogExpiry (s : State) : Result :=
  .next (whileOperating s (if s.watchdogDue then enterHoldover s else s))

/-- HOLDOVER_LIMIT_REACHED (R117). -/
def execHoldoverLimitReached (s : State) : Result :=
  .next (whileOperating s (if s.holdoverOver then dropMapping s else s))

/-! ### STROBE and freeze (R121, R122, R192) -/

/-- The pulse in progress has lasted its 10 µs (R121). -/
def State.strobeOver (s : State) : Bool := s.strobe.endTick.any fun e => decide (e ≤ s.tick)

/-- STROBE_PULSE_END (R121). -/
def execStrobePulseEnd (s : State) : Result :=
  .next (whileOperating s (if s.strobeOver then { s with strobe := { s.strobe with endTick := none } } else s))

/-- The EPOCH pulse that is due (R122). -/
def epochPulse (s : State) : State :=
  match s.epochDue with
  | none => s
  | some e => strobePulse { s with strobe := { s.strobe with lastPulsed := some e } }

/-- EPOCH_PULSE (R122). -/
def execEpochPulse (s : State) : Result := .next (whileOperating s (epochPulse s))

/-- ELAPSED has reached its largest value and the Monitor is not frozen yet (R192). -/
def Monitor.freezeDue (m : Monitor) : Bool := m.elapsed == Word.top && !m.frozen

/-- ELAPSED_FREEZE (R192). -/
def execElapsedFreeze (s : State) : Result :=
  .next (whileOperating s
    (if s.mon.freezeDue then { s with mon := { s.mon with frozen := true, remainder := 0 } } else s))

end Sys2Proof.Machine
end

