-- ==== Sys2Proof/Machine/Due.lean ====
section
/-! DEFINITION. What the part does of itself when no command waits (log 2): the next of its own events that is due, in one fixed order,
or else one local tick. -/

namespace Sys2Proof.Machine

/-- The row that executes a control frame of a command code (R14, R173). -/
def commandRow (code : Nat) : Instr :=
  match code with
  | 0x10 => .stageStream
  | 0x11 => .unstageStream
  | 0x12 => .stageRange
  | 0x13 => .stageParams
  | 0x14 => .discardStage
  | 0x15 => .commit
  | 0x20 => .isolate
  | 0x21 => .restore
  | 0x22 => .setOverride
  | 0x23 => .clearOverride
  | 0x24 => .setEmission
  | 0x25 => .clearQuiesce
  | 0x30 => .readStatus
  | 0x31 => .readStream
  | 0x32 => .readRanges
  | 0x33 => .readOverrides
  | 0x40 => .snapshotCounters
  | 0x41 => .monitorRun
  | 0x42 => .monitorHold
  | 0x50 => .saveProfile
  | 0x51 => .restart
  | _ => .unknownCommand

/-- What is left in admission (R18). -/
def admissionDue (s : State) : Option Instr :=
  match s.adm.offers, s.adm.ingest with
  | o :: _, _ => some (.placement o.port)
  | [], _ :: _ => some .asetRecordIngest
  | [], [] => none

/-- Timers that the tick counter has reached (R38, R93, R114, R117, R121, R122, R192). -/
def timersDue (s : State) : List Instr :=
  ((s.table.streams.filter fun e => e.silenceDue s.tick).map fun e => .silenceTimerExpiry e.idx)
    ++ ((s.ring.recs.filter fun e => e.deadlineDue s.tick).map fun e => .deadlineExpiry e.ordinal)
    ++ (if s.watchdogDue then [.edgeWatchdogExpiry] else [])
    ++ (if s.holdoverOver then [.holdoverLimitReached] else [])
    ++ (if s.strobeOver then [.strobePulseEnd] else [])
    ++ (if s.epochDue.isSome then [.epochPulse] else [])
    ++ (if s.mon.freezeDue then [.elapsedFreeze] else [])

/-- What the output side and the Control Unit can go on with (R97, R132, R151, R173, R180). -/
def workDue (s : State) : List Instr :=
  (if s.commitDue then [.commitApply] else [])
    ++ (if s.composeDue then [.composeSet] else [])
    ++ (if s.partDue.isSome then [.queuePart] else [])
    ++ (if s.egress.tx.any fun t => t.over s.tick then [.transmissionComplete] else [])
    ++ (s.ctl.queue.head?.toList.map fun f => commandRow f.re.code.toNat)

/-- The part's own next event, if one is due (log 2). -/
def ownEvent (s : State) : Option Instr :=
  if s.operating then
    match admissionDue s with
    | some i => some i
    | none => (timersDue s ++ workDue s).head?
  else none

/-- One local tick (R103, R191). The counter stands at 0 while the RESET line is asserted, and without supply nothing runs. -/
def oneTick (s : State) : State := whileOperating s { s with tick := s.tick + 1, mon := s.mon.advance }

end Sys2Proof.Machine
end

