-- ==== Sys2Proof/Machine/Dispatch.lean ====
section
/-! DEFINITION. Dispatch: one arm for each command, each a direct call of its meaning. -/

namespace Sys2Proof.Machine

def exec (i : Instr) (s : State) : Host.Outcome State Fault Refusal :=
  match i with
  | .powerUp reading => Sys2Proof.Machine.execPowerUp reading s
  | .resetAssert => Sys2Proof.Machine.execResetAssert s
  | .resetRelease => Sys2Proof.Machine.execResetRelease s
  | .powerLoss => Sys2Proof.Machine.execPowerLoss s
  | .ingressLinkUp p => Sys2Proof.Machine.execIngressLinkUp p s
  | .ingressLinkDown p => Sys2Proof.Machine.execIngressLinkDown p s
  | .portOLinkUp => Sys2Proof.Machine.execPortOLinkUp s
  | .portOLinkDown => Sys2Proof.Machine.execPortOLinkDown s
  | .ingressFrameComplete p linkCheckGood f => Sys2Proof.Machine.execIngressFrameComplete p linkCheckGood f s
  | .asetRecordIngest => Sys2Proof.Machine.execAsetRecordIngest s
  | .placement p => Sys2Proof.Machine.execPlacement p s
  | .silenceTimerExpiry idx => Sys2Proof.Machine.execSilenceTimerExpiry idx s
  | .deadlineExpiry ordinal => Sys2Proof.Machine.execDeadlineExpiry ordinal s
  | .composeSet => Sys2Proof.Machine.execComposeSet s
  | .queuePart => Sys2Proof.Machine.execQueuePart s
  | .commitApply => Sys2Proof.Machine.execCommitApply s
  | .transmissionComplete => Sys2Proof.Machine.execTransmissionComplete s
  | .strobePulseEnd => Sys2Proof.Machine.execStrobePulseEnd s
  | .epochPulse => Sys2Proof.Machine.execEpochPulse s
  | .ppsEdge => Sys2Proof.Machine.execPpsEdge s
  | .edgeWatchdogExpiry => Sys2Proof.Machine.execEdgeWatchdogExpiry s
  | .holdoverLimitReached => Sys2Proof.Machine.execHoldoverLimitReached s
  | .timeCharacter c => Sys2Proof.Machine.execTimeCharacter c s
  | .quiesceEvent => Sys2Proof.Machine.execQuiesceEvent s
  | .elapsedFreeze => Sys2Proof.Machine.execElapsedFreeze s
  | .profileWriteComplete damage => Sys2Proof.Machine.execProfileWriteComplete damage s
  | .stageStream => Sys2Proof.Machine.execStageStream s
  | .unstageStream => Sys2Proof.Machine.execUnstageStream s
  | .stageRange => Sys2Proof.Machine.execStageRange s
  | .stageParams => Sys2Proof.Machine.execStageParams s
  | .discardStage => Sys2Proof.Machine.execDiscardStage s
  | .commit => Sys2Proof.Machine.execCommit s
  | .isolate => Sys2Proof.Machine.execIsolate s
  | .restore => Sys2Proof.Machine.execRestore s
  | .setOverride => Sys2Proof.Machine.execSetOverride s
  | .clearOverride => Sys2Proof.Machine.execClearOverride s
  | .setEmission => Sys2Proof.Machine.execSetEmission s
  | .clearQuiesce => Sys2Proof.Machine.execClearQuiesce s
  | .readStatus => Sys2Proof.Machine.execReadStatus s
  | .readStream => Sys2Proof.Machine.execReadStream s
  | .readRanges => Sys2Proof.Machine.execReadRanges s
  | .readOverrides => Sys2Proof.Machine.execReadOverrides s
  | .snapshotCounters => Sys2Proof.Machine.execSnapshotCounters s
  | .monitorRun => Sys2Proof.Machine.execMonitorRun s
  | .monitorHold => Sys2Proof.Machine.execMonitorHold s
  | .saveProfile => Sys2Proof.Machine.execSaveProfile s
  | .restart => Sys2Proof.Machine.execRestart s
  | .unknownCommand => Sys2Proof.Machine.execUnknownCommand s
  | .quiesceLineRise => Sys2Proof.Machine.execQuiesceLineRise s

end Sys2Proof.Machine
end

