-- ==== Sys2Proof/Safety.lean ====
section
/-! DEFINITION. What holds of the part between any two events while it takes events: the invariants that the spec states of its blocks,
in the terms the obligations use. Each is asked only of a part that takes events, since a part without supply or with its RESET line
asserted does nothing until its next start (R202). -/

namespace Sys2Proof.Machine

/-! ### The Time Reference Unit (R108, R109, R111, R114, R117, R122) -/

/-- The mapping exists in LOCKED and HOLDOVER, the watchdog is armed in LOCKED, the holdover entry tick stands in HOLDOVER, and a unit
that has left ACQUIRING has applied a message; in ACQUIRING no label is pending and no ordinal is pulsed. A message in progress has
at most 13 characters. -/
structure State.TimeOk (s : State) : Prop where
  mapping : s.tru.mapping.isSome = true ↔ s.tru.state ≠ .acquiring
  watchdog : s.tru.watchdog.isSome = true ↔ s.tru.state = .locked
  holdEntry : s.tru.holdEntry.isSome = true ↔ s.tru.state = .holdover
  streak : s.tru.streak ≤ 2
  settled : s.tru.state ≠ .acquiring → s.tru.streak = 0 ∧ s.tru.lastMsg.isSome = true
  acquiring : s.tru.state = .acquiring → s.tru.mismatch = none ∧ s.strobe.lastPulsed = none
  chars : s.time.chars.length ≤ 13

/-! ### Queues and replies (R146, R147, R148, R152, R153, R172, R173, R199) -/

/-- 1 for a value that stands, 0 for one that does not. -/
def held {α : Type} (o : Option α) : Nat := o.elim 0 fun _ => 1

/-- No queue holds more than its capacity; every reservation in M belongs to a command that is not yet answered; a port that could
send has nothing waiting. -/
structure State.QueuesOk (s : State) : Prop where
  o : s.egress.o.length ≤ oCapacity
  l : s.egress.l.length ≤ lCapacity
  m : s.egress.mOccupancy ≤ mCapacity
  queue : s.ctl.queue.length ≤ queueCapacity
  grants : s.egress.grants ≤ 255
  reserved : s.egress.reserved = s.ctl.queue.length + held s.ctl.commitFor + held s.store.saveFor
  commit : s.ctl.commitFor.isSome = true ↔ s.ctl.commit ≠ .none
  save : s.store.saveFor.isSome = true ↔ s.store.writing.isSome = true
  writing : s.store.state = .writing ↔ s.store.writing.isSome = true
  idle : s.links.o = .up → s.egress.tx = none → s.egress.o = [] ∧ s.egress.l = [] ∧ s.egress.m = []

/-! ### The ring and its records (R73 to R77, R80, R94, R100, R101, R124, R126) -/

/-- An epoch record's own fields agree with its state: it holds a contribution, and seal tick and seal cause are absent exactly while
it is OPEN. -/
structure EpochRec.Ok (r : EpochRec) : Prop where
  nonempty : r.contributions ≠ []
  sealTick : r.sealTick.isSome = true ↔ r.state ≠ .opened
  cause : r.cause.isSome = true ↔ r.state ≠ .opened

/-- The set in composition is the EMITTING head's, with at least one part not yet queued, and its HELD records keep within the hold
limits of their streams; there is no set otherwise. -/
def State.setOk (s : State) : Prop :=
  match s.comp.set with
  | none => ∀ r ∈ s.ring.recs, r.state ≠ .emitting
  | some c =>
    c.queued < c.parts.length ∧ (∃ r, s.ring.recs.head? = some r ∧ r.state = .emitting ∧ r.ordinal = c.ordinal) ∧
      ∀ p ∈ c.parts, ∀ r ∈ p.records, r.status = .held →
        ∀ e ∈ s.table.streams, e.idx = r.idx → r.holdAge ≤ e.cfg.holdLimit

/-- The ring's records stand in ascending ordinal within one span of 512, above the floor, with no more cells than there are; only the
head is EMITTING; a drain lasts only while the ring holds sealed records; a commit waits only while the ring holds an epoch. -/
structure State.RingOk (s : State) : Prop where
  ascending : s.ring.recs.Pairwise fun a b => a.ordinal < b.ordinal
  span : ∀ a ∈ s.ring.recs, ∀ b ∈ s.ring.recs, b.ordinal ≤ a.ordinal + 511
  aboveFloor : ∀ f, s.ring.floor = some f → ∀ r ∈ s.ring.recs, f < r.ordinal
  floorTick : s.ring.floorTick.isSome = s.ring.floor.isSome
  records : ∀ r ∈ s.ring.recs, r.Ok
  emitting : ∀ r ∈ s.ring.recs.tail, r.state ≠ .emitting
  cells : s.ring.occupancy ≤ cells
  memory : s.ring.memory.Pairwise fun a b => a.ordinal % slots < b.ordinal % slots
  drain : s.ring.stepDrain = true ∨ s.ring.commitDrain = true →
    s.ring.recs ≠ [] ∧ ∀ r ∈ s.ring.recs, r.state ≠ .opened
  commitDrain : s.ring.commitDrain = true ↔ s.ctl.commit = .pendingDrain
  boundary : s.ctl.commit = .pendingBoundary → s.ring.recs ≠ [] ∧ s.needsDrain = false
  set : s.setOk

/-! ### The tables (R33, R34, R38, R39, R43, R48, R52, R136, R139, R177) -/

/-- Entries stand at ascending indexes below 256, no stream ID twice, every configuration field in its range. -/
structure entriesOk (es : List (Nat × StreamCfg)) : Prop where
  ascending : es.Pairwise fun a b => a.1 < b.1
  below : ∀ p ∈ es, p.1 < 256
  ids : (es.map fun p => p.2.id).Nodup
  inRange : ∀ p ∈ es, p.2.inRange = true

/-- A stream entry's run-time fields: streaks at most 15, the hold age within the hold limit, the silence timer running exactly in
ENROLLED, ACTIVE and SUSPECT, and isolation pending only before it is made. -/
structure StreamEntry.Ok (e : StreamEntry) : Prop where
  bad : e.bad ≤ 15
  good : e.good ≤ 15
  holdAge : e.holdAge ≤ e.cfg.holdLimit
  timer : e.timer.isSome = true ↔ e.state = .enrolled ∨ e.state = .active ∨ e.state = .suspect
  isolating : e.isolating = true → e.state ≠ .isolated
  isolatedStreaks : e.state = .isolated → e.bad = 0 ∧ e.good = 0

/-- A range map whose entries STAGE_RANGE would accept (R52). -/
def rangesOk (rs : Vector RangeEntry 8) : Prop := ∀ r ∈ rs.toList, r.inRange = true ∧ r.aligned = true

/-- The active and the staged tables hold what the staging commands accept; no node ID is FFH's (R158). -/
structure State.TablesOk (s : State) : Prop where
  active : entriesOk (s.table.streams.map fun e => (e.idx, e.cfg))
  entries : ∀ e ∈ s.table.streams, e.Ok
  ranges : rangesOk s.table.ranges
  params : s.table.params.inRange = true
  region : s.table.params.region ≤ 30
  staged : entriesOk s.ctl.staged.streams
  stagedRanges : rangesOk s.ctl.staged.ranges
  stagedParams : s.ctl.staged.params.inRange = true
  stagedRegion : s.ctl.commit ≠ .none → s.ctl.staged.params.region ≤ 30

/-- The image that a start would find GOOD, and the one being written, stand at ascending indexes below 256 (R198), with supply or
without. -/
structure State.StoreOk (s : State) : Prop where
  stored : ∀ i, s.store.image.goodImage = some i →
    i.streams.Pairwise (fun a b => a.1 < b.1) ∧ ∀ p ∈ i.streams, p.1 < 256
  writing : ∀ i, s.store.writing = some i →
    i.streams.Pairwise (fun a b => a.1 < b.1) ∧ ∀ p ∈ i.streams, p.1 < 256

/-- The override table has at most 16 entries, one for a stream ID, none of them free, and no change pends while the ring is empty
(R136, R139). -/
structure State.OverridesOk (s : State) : Prop where
  capacity : s.comp.overrides.length ≤ overrideEntries
  ids : (s.comp.overrides.map fun e => e.id).Nodup
  occupied : ∀ e ∈ s.comp.overrides, e.inForce.isSome = true ∨ e.change.isSome = true
  emptyRing : s.ring.recs = [] → ∀ e ∈ s.comp.overrides, e.change = none

/-! ### Contributions and completeness (R76, R87, R90, R95, R125, R135, R142) -/

/-- A contribution stands before another: ascending stream index, withdrawn contributions last in the order of their former indexes
(R76, R182). -/
def Contribution.before (a b : Contribution) : Prop :=
  match a.index, b.index with
  | some i, some j => i < j
  | some _, none => True
  | none, none => a.former.getD 0 ≤ b.former.getD 0
  | none, some _ => False

/-- Every record's list is in the order of R76, at most one contribution from a stream index. -/
def State.ListsOk (s : State) : Prop := ∀ r ∈ s.ring.recs, r.contributions.Pairwise Contribution.before

/-- Every OPEN record's required-present count is that of its list, and none of them is complete: a completion seals in the event
that brings it about (R90, R95). -/
def State.CountsOk (s : State) : Prop :=
  ∀ r ∈ s.ring.recs, r.state = .opened →
    r.requiredPresent = r.contributions.countP (countsPresent s.table r.ordinal) ∧ r.isComplete s.table = false

/-- No head that is to be withheld waits: it leaves the ring in the event that decides it (R125, R135, R142). -/
def State.HeadOk (s : State) : Prop := s.headMustLeave = false

/-! ### Ticks (R103, R144) and the Monitor (R191, R192) -/

/-- Every tick from which a lateness, an interval or a holdover time counts lies at or before the present tick, so none of them is
negative. -/
structure State.TicksOk (s : State) : Prop where
  mapping : ∀ m, s.tru.mapping = some m → m.tick ≤ s.tick
  edgeRef : ∀ t, s.tru.edgeRef = some t → t ≤ s.tick
  holdEntry : ∀ t, s.tru.holdEntry = some t → t ≤ s.tick
  floorTick : ∀ t, s.ring.floorTick = some t → t ≤ s.tick
  memory : ∀ m ∈ s.ring.memory, m.tick ≤ s.tick
  seals : ∀ r ∈ s.ring.recs, ∀ t, r.sealTick = some t → t ≤ s.tick
  tx : ∀ t, s.egress.tx = some t → t.start ≤ s.tick

/-- The remainder beneath ELAPSED is below 1000, and a frozen Monitor holds ELAPSED at its largest value with remainder 0. -/
structure State.MonitorOk (s : State) : Prop where
  remainder : s.mon.remainder < 1000
  frozen : s.mon.frozen = true → s.mon.elapsed = Word.top ∧ s.mon.remainder = 0

/-! ### Terms of the obligations -/

/-- The part after the Control Unit has taken the head of its command queue off it (R173). -/
def State.popped (s : State) (q : List CtrlFrame) : State := { s with ctl := { s.ctl with queue := q } }

/-- The arrival counter of a port (R16, R189). -/
def framesIn : Port → Ctr
  | .a => .framesInA
  | .b => .framesInB

/-- The part right after a start (R202): every block at its start value, with an active set and an emission mode, and with what a start
leaves alone: the waiting commands, the supply and its strap reading, the level of the QUIESCE line, the stored image. The TIME line's
period is the next one: no character begun before the start is in reception (R106, log 25). -/
def startValues (a : ActiveSet) (mode : EmissionMode) (power : Power) (store : ProfileStore) (s : State) : State :=
  { State.reset with
    pending := s.pending
    power := power
    table := a
    time := { State.reset.time with period := s.time.period + 1 }
    comp := { State.reset.comp with mode := mode, lineLow := s.comp.lineLow }
    ctl := { State.reset.ctl with staged := { streams := a.streams.map fun e => (e.idx, e.cfg), ranges := a.ranges, params := a.params } }
    store := store
    free := s.free }

/-- The Profile Store after a start that a power-up begins: a write that was under way has left a wrong check, and the state is GOOD for
an image whose check is correct and whose content is acceptable (R198, R200). -/
def ProfileStore.started (p : ProfileStore) : ProfileStore where
  image := if p.writing.isSome then .broken else p.image
  state := if p.writing.isNone && p.image.goodImage.isSome then .good else .bad
  writing := none
  saveFor := none

/-- The Profile Store after a write was cut off, if one was under way (R200). -/
def ProfileStore.cut (p : ProfileStore) : ProfileStore :=
  if p.writing.isSome then { image := .broken, state := .bad, writing := none, saveFor := none } else p

/-- A stream entry at the start values of R35 and R36: ENROLLED, its timer loaded at a tick. -/
def enrolledEntry (now idx : Nat) (c : StreamCfg) : StreamEntry where
  idx := idx
  cfg := c
  state := .enrolled
  isolating := false
  timer := some (now + c.silenceMs * 1000)
  bad := 0
  good := 0
  lastEpoch := none
  hold := none
  holdAge := 0
  counts := ⟨0, 0, 0, 0, 0, 0, 0, 0⟩

/-- The commands with arguments of one length: the row, the command code of R14 and the length of R174. -/
def argumentLengths : List (Instr × Nat × Nat) :=
  [(.stageStream, 0x10, 19), (.unstageStream, 0x11, 2), (.stageRange, 0x12, 12), (.stageParams, 0x13, 20),
   (.discardStage, 0x14, 0), (.commit, 0x15, 0), (.isolate, 0x20, 2), (.restore, 0x21, 2), (.clearOverride, 0x23, 3),
   (.setEmission, 0x24, 1), (.clearQuiesce, 0x25, 0), (.readStatus, 0x30, 0), (.readStream, 0x31, 3), (.readRanges, 0x32, 0),
   (.readOverrides, 0x33, 0), (.snapshotCounters, 0x40, 0), (.monitorRun, 0x41, 0), (.monitorHold, 0x42, 0),
   (.saveProfile, 0x50, 0), (.restart, 0x51, 0)]

/-- The part with what one PPS edge does in every state (R107, R123): the buffer emptied, an irregular and an unlabelled edge counted,
and a pulse for source PPS at a regular one. -/
def edgeTaken (regular irregular : Bool) (s : State) : State :=
  let s1 := { s with time := { s.time with buffer := none } }
  let s2 := if irregular then report .irregular s1 else s1
  let s3 := if s.time.buffer = none then report .unlabelled s2 else s2
  if regular then strobeFrom .pps s3 else s3

/-! ### All of them -/

/-- What holds of a part that takes events. -/
structure State.Sound (s : State) : Prop where
  time : s.TimeOk
  queues : s.QueuesOk
  ring : s.RingOk
  tables : s.TablesOk
  overrides : s.OverridesOk
  lists : s.ListsOk
  counts : s.CountsOk
  head : s.HeadOk
  ticks : s.TicksOk
  monitor : s.MonitorOk

/-- The invariant of the part: its storage is in order, and while it takes events every block is. -/
structure State.Inv (s : State) : Prop where
  store : s.StoreOk
  running : s.operating = true → s.Sound

end Sys2Proof.Machine
end

