-- ==== Sys2Proof/Certificates/Slice0/Obligations.lean ====
section
/-! DEFINITION. The statements for the provers, from the numbered rules of spec/. -/

open Sys2Proof Sys2Proof.Machine

/-! ### The step and the queue -/

/-- The command at the front of the queue is what a step runs, on the state with the queue's rest (log 2). -/
def Obligations.StepRunsTheFrontCommand : Prop :=
  ∀ (c : Instr) (rest : List Instr) (s : State),
    step { s with pending := c :: rest } = exec c { s with pending := rest }

/-- With the queue empty a step takes the part's own next event, or else one local tick passes (log 2, R103, R191). No
command ends in a fault or a refusal, and none touches the commands that wait (log 2). The part's own next event is the first
that is due of these, in the order that is the model's choice (log 2): the placement of the oldest contribution in admission, else
the next record under treatment (R18, R160); silence timers (R38) and record deadlines (R93) at or past their ticks; the edge
watchdog (R114); the holdover limit (R117); the end of a STROBE pulse (R121); an EPOCH pulse (R122); the Monitor's freeze (R192); a
commit that waits at an empty ring (log 13); a SEALED head to be emitted with a free O slot (R97, R125); the next part of an
EMITTING head (R132); a transmission whose wire time has passed (R151, log 23); the command at the head of the command queue, by
R14's codes (R173). A part that takes no events has none. That an EPOCH pulse is due also past the last second of the SOE scale is
the model's choice (log 43). -/
def Obligations.TheQueueIsTheStepsAlone : Prop :=
  (∀ s : State, s.pending = [] →
      step s = match ownEvent s with
        | some c => exec c s
        | none => .next (if s.operating then { s with tick := s.tick + 1, mon := s.mon.advance } else s)) ∧
  (∀ (c : Instr) (s : State), ∃ t, exec c s = .next t ∧ t.pending = s.pending) ∧
  (∀ s : State, s.operating = false → ownEvent s = none) ∧
  (∀ (s : State) (pulseDue : Bool), s.operating = true → s.table.params.rate ∈ [10, 25, 30, 50, 60, 100, 120] →
    (pulseDue = true ↔ s.table.params.strobe = .epoch ∧ ∃ now, s.refNow = some now ∧
      ((∃ e, s.strobe.lastPulsed = some e ∧ instantUs s.table.params.rate (e + 1) ≤ now) ∨
        (s.strobe.lastPulsed = none ∧ ∃ e, instantUs s.table.params.rate e = now))) →
    let reached := fun (o : Option Nat) => o.any fun t => decide (t ≤ s.tick)
    let when := fun (due : Bool) (i : Instr) => if due then [i] else []
    let silent := fun (e : StreamEntry) => decide (e.state = .enrolled ∨ e.state = .active ∨ e.state = .suspect) && reached e.timer
    let row := fun (f : CtrlFrame) => if f.re.code = 0x22#8 then .setOverride else
      match argumentLengths.find? fun x => x.2.1 == f.re.code.toNat with | some x => x.1 | none => .unknownCommand
    let timers := (s.table.streams.filter silent).map (fun e => Instr.silenceTimerExpiry e.idx)
      ++ (s.ring.recs.filter fun r => decide (r.state = .opened ∧ r.deadline ≤ s.tick)).map (fun r => .deadlineExpiry r.ordinal)
      ++ when (decide (s.tru.state = .locked) && reached s.tru.watchdog) .edgeWatchdogExpiry
      ++ when (decide (s.tru.state = .holdover ∧ s.table.params.holdoverS * 1000000 ≤ s.tru.holdEntry.elim 0 fun e => s.tick - e))
        .holdoverLimitReached
      ++ when (reached s.strobe.endTick) .strobePulseEnd ++ when pulseDue .epochPulse
      ++ when (decide (s.mon.elapsed = 0xFFFFFFFF#32 ∧ s.mon.frozen = false)) .elapsedFreeze
    let head := fun (p : EpochRec → Bool) => s.ring.recs.head?.any p && decide (s.egress.o.length < 16)
    let work := when (decide (s.ctl.commit ≠ .none ∧ s.ring.recs = [])) .commitApply
      ++ when (head fun r => decide (r.state = .sealed ∧ s.comp.quiesced = false ∧ s.comp.mode ≠ .withhold)) .composeSet
      ++ when (head fun r => decide (r.state = .emitting) && s.comp.set.any fun c => decide (c.queued < c.parts.length)) .queuePart
      ++ when (s.egress.tx.any fun x => decide ((x.frame.payload.length + 38) * 8 ≤ (s.tick - x.start) * 10000)) .transmissionComplete
      ++ s.ctl.queue.head?.toList.map row
    ownEvent s = match s.adm.offers, s.adm.ingest with
      | o :: _, _ => some (.placement o.port)
      | [], _ :: _ => some .asetRecordIngest
      | [], [] => (timers ++ work).head?)

/-- A part takes events while it has supply and its RESET line is not asserted. Without supply or with the RESET line asserted,
only supply, RESET and the QUIESCE line's level move (log 1; R15, R103, R104, R107, R140, R202). -/
def Obligations.HeldPartTakesNoOtherEvent : Prop :=
  (∀ s : State, s.operating = true ↔ s.power.powered = true ∧ s.power.resetAsserted = false) ∧
  (∀ (c : Instr) (s : State), s.operating = false → (∀ r, c ≠ .powerUp r) → c ≠ .resetAssert → c ≠ .resetRelease →
    c ≠ .powerLoss → c ≠ .quiesceEvent → c ≠ .quiesceLineRise → exec c s = .next s)

/-! ### Supply, RESET line, links -/

/-- A start without a profile gives every block its start value, and the parameters their reset values (R202, R203): after
power-up on the bench or without a GOOD image, and after the RESET line likewise, the strap then standing as it was. A start with
a GOOD image off the bench loads it: the image's tables, parameters and emission mode, every stream ENROLLED with its timer
loaded, and everything else at its start value (R202). The start values stand field by field, and with them those of
State.reset: R203's parameters, every index VACANT and every range entry blank (R202), and R109's and R197's values.
The model's choices in it: power-up while a write is under way has lost
its image (log 33), power-up with the RESET line asserted takes the start (log 29), the level of the QUIESCE line stays as it
is (log 5), the TIME line enters its next period (log 25), the streak label is 0 (log 27) and the last pulsed ordinal absent
(log 36); and in State.reset the supply, strap and RESET line (log 3), the blank storage (log 4), the high QUIESCE line (log 5),
the first line period (log 25) and the count of free values (log 18). -/
def Obligations.StartsGiveTheirValues : Prop :=
  (let vacant : ActiveSet :=
      { streams := []
        ranges := .replicate 8 { enable := false, base := 0, size := 1, optional := false, noCorrect := false, straggle := false
                                 holdDeny := false }
        params := { rate := 50, base := .timestamp, budgetMs := 200, aheadMs := 500, region := 0, payloadType := 0x9A41#16, burst := 16
                    holdoverS := 300, baud := 9600, parity := .even, tqMax := 3, strobe := .off, widthMs := 20
                    quiesceEnable := true, composite := false } }
    let started := fun (pending : List Instr) (power : Power) (a : ActiveSet) (period : Nat) (mode : EmissionMode) (lineLow : Bool)
        (store : ProfileStore) (free : Nat) =>
      ({ pending := pending, power := power, tick := 0
         links := { a := .down, b := .down, o := .down }
         adm := { offers := [], ingest := [] }
         table := a
         ring := { recs := [], memory := [], floor := none, floorTick := none, stepDrain := false, commitDrain := false
                   stepMark := false }
         tru := { state := .acquiring, edgeRef := none, streak := 0, streakLabel := 0, mapping := none, watchdog := none
                  mismatch := none, holdEntry := none, lastMsg := none }
         time := { chars := [], buffer := none, waitHigh := false, period := period }
         strobe := { endTick := none, lastPulsed := none }
         comp := { overrides := [], mode := mode, seen := false, quiesced := false, lineLow := lineLow, set := none }
         egress := { o := [], l := [], m := [], reserved := 0, grants := 0, tx := none }
         ctl := { queue := [], commit := .none, commitFor := none, generation := 0
                  staged := { streams := a.streams.map fun e => (e.idx, e.cfg), ranges := a.ranges, params := a.params } }
         mon := { counters := .replicate 39 0, bins := .replicate 16 0, early := 0, elapsed := 0, remainder := 0, hold := false
                  frozen := false }
         store := store, free := free } : State)
    State.reset = started [] { powered := true, resetAsserted := false, strapCode := 0, bench := false } vacant 0 .run false
        { image := .blank, state := .bad, writing := none, saveFor := none } 0 ∧
      ∀ (a : ActiveSet) (mode : EmissionMode) (power : Power) (store : ProfileStore) (s : State),
        startValues a mode power store s = started s.pending power a (s.time.period + 1) mode s.comp.lineLow store s.free) ∧
  ((∀ (r : StrapReading) (s : State),
      (strapBench r = true ∨ s.store.writing.isSome = true ∨ s.store.image.goodImage = none) →
      exec (.powerUp r) s = .next (startValues State.reset.table .run
        { powered := true, resetAsserted := s.power.resetAsserted, strapCode := strapCode r, bench := strapBench r }
        s.store.started s)) ∧
    (∀ s : State, s.power.powered = true → s.power.resetAsserted = true → s.store.writing = none →
      (s.power.bench = true ∨ s.store.image.goodImage = none) →
      exec .resetRelease s = .next (startValues State.reset.table .run { s.power with resetAsserted := false } s.store.started s))) ∧
  ((∀ (r : StrapReading) (s : State) (i : Image), strapBench r = false → s.store.writing = none → s.store.image.goodImage = some i →
      exec (.powerUp r) s = .next (startValues
        { streams := i.streams.map fun p => enrolledEntry 0 p.1 p.2, ranges := i.ranges, params := i.params } i.mode
        { powered := true, resetAsserted := s.power.resetAsserted, strapCode := strapCode r, bench := false }
        { image := s.store.image, state := .good, writing := none, saveFor := none } s)) ∧
    (∀ (s : State) (i : Image), s.power.powered = true → s.power.resetAsserted = true → s.power.bench = false →
      s.store.writing = none → s.store.image.goodImage = some i →
      exec .resetRelease s = .next (startValues
        { streams := i.streams.map fun p => enrolledEntry 0 p.1 p.2, ranges := i.ranges, params := i.params } i.mode
        { s.power with resetAsserted := false } { image := s.store.image, state := .good, writing := none, saveFor := none } s)))

/-- The strap code and bench mode of each reading of R201's table. Below the lowest nominal value the part reads one of the nine
conditions of the strap, and which one is a free value: a direct tie, with strap code 0 and bench mode on, or a resistor of a code
0..7 off the bench (log 20). In bench mode the node ID is therefore region × 8 (R201), after every reading. -/
def Obligations.StrapReadingsGiveTheirCodes : Prop :=
  ∀ (r : StrapReading) (s t : State), exec (.powerUp r) s = .next t →
    (t.power.bench = true → t.table.params.region * 8 + t.power.strapCode = t.table.params.region * 8) ∧
    match r with
    | .tie => t.power.strapCode = 0 ∧ t.power.bench = true
    | .nominal i => t.power.strapCode = i.val ∧ t.power.bench = false
    | .between i .nearerLower => t.power.strapCode = i.val ∧ t.power.bench = false
    | .between i .nearerHigher => t.power.strapCode = i.val + 1 ∧ t.power.bench = false
    | .between i .midpoint => t.power.strapCode = i.val + 1 ∧ t.power.bench = false
    | .aboveHighest => t.power.strapCode = 7 ∧ t.power.bench = false
    | .belowLowest => (t.power.strapCode = 0 ∧ t.power.bench = true) ∨ (t.power.strapCode ≤ 7 ∧ t.power.bench = false)

/-- Assertion of the RESET line ends admissions, the transmission, the queues with their reservations, a pending commit, a
STROBE pulse and a profile write, and holds the framers' ports and the tick counter down; loss of supply cuts a write off;
each leaves the rest as it stands (R15, R32, R103, R121, R149, R151, R172, R180, R200, R202). The model's choices in it: what
loss of supply leaves (log 37), and Port O's link, which the assertion leaves as it stands (log 32). -/
def Obligations.ResetLineAndLossOfSupply : Prop :=
  (∀ s : State, s.operating = true → exec .resetAssert s = .next
    { s with
      power := { s.power with resetAsserted := true }
      tick := 0
      links := { a := .down, b := .down, o := s.links.o }
      adm := { offers := [], ingest := [] }
      strobe := { s.strobe with endTick := none }
      egress := { o := [], l := [], m := [], reserved := 0, grants := s.egress.grants, tx := none }
      ctl := { s.ctl with queue := [], commit := .none, commitFor := none }
      store := s.store.cut }) ∧
  (∀ s : State, exec .powerLoss s = .next { s with power := { s.power with powered := false }, store := s.store.cut })

/-- The framers' link states (R15). Port O's link states: a grant at once when it comes UP, and a transmission lost uncounted
when it goes DOWN (R150). -/
def Obligations.LinkStatesOfThePorts : Prop :=
  (∀ s : State, s.operating = true →
      exec (.ingressLinkUp .a) s = .next { s with links := { s.links with a := .up } } ∧
      exec (.ingressLinkUp .b) s = .next { s with links := { s.links with b := .up } } ∧
      exec (.ingressLinkDown .a) s = .next { s with links := { s.links with a := .down } } ∧
      exec (.ingressLinkDown .b) s = .next { s with links := { s.links with b := .down } }) ∧
  (∀ s : State, s.operating = true →
      exec .portOLinkUp s = .next (grant { s with links := { s.links with o := .up } }) ∧
      exec .portOLinkDown s = .next { s with links := { s.links with o := .down }, egress := { s.egress with tx := none } })

/-! ### The Egress Arbiter -/

/-- The grant by R152's table, with the count of R153; nothing is granted while Port O is DOWN, during a transmission, or
with no frame waiting (a reservation is no frame). -/
def Obligations.GrantFollowsTheTable : Prop :=
  ∀ s : State,
    ((s.links.o = .down ∨ s.egress.tx.isSome = true ∨ (s.egress.o = [] ∧ s.egress.m = [] ∧ s.egress.l = [])) → grant s = s) ∧
    (s.links.o = .up → s.egress.tx = none →
      (∀ f o, s.egress.o = f :: o → s.egress.grants < s.table.params.burst ∨ (s.egress.m = [] ∧ s.egress.l = []) →
        grant s = { s with egress := { s.egress with o := o, grants := min 255 (s.egress.grants + 1), tx := some ⟨.part, f, s.tick⟩ } }) ∧
      (∀ f m, s.egress.m = f :: m → s.egress.o = [] ∨ s.table.params.burst ≤ s.egress.grants →
        grant s = { s with egress := { s.egress with m := m, grants := 0, tx := some ⟨.reply, f, s.tick⟩ } }) ∧
      (∀ f l, s.egress.l = f :: l → s.egress.m = [] → s.egress.o = [] ∨ s.table.params.burst ≤ s.egress.grants →
        grant s = { s with egress := { s.egress with l := l, grants := 0, tx := some ⟨.straggler, f, s.tick⟩ } }))

/-- A completed transmission frees the port, is counted by its kind, and lets the next grant be decided (R151). How frames
join their queues: a reply fills a reservation and joins M's tail with the frame of R13 and R3; a straggler frame joins L's
tail while fewer than 64 wait, and is dropped and counted otherwise (R146, R148). The model's choices in it: a transmission
ends whenever TRANSMISSION_COMPLETE is commanded (log 23), and a grant is decided inside each join (log 30). The status byte
of a reply is that of R14's table of status codes. -/
def Obligations.TransmissionsAndQueues : Prop :=
  (∀ (s : State) (x : Tx), s.operating = true → s.egress.tx = some x →
      exec .transmissionComplete s = .next (grant (match x.kind with
        | .part => report .partsEmitted { s with egress := { s.egress with tx := none } }
        | .straggler => report .stragglersOut { s with egress := { s.egress with tx := none } }
        | .reply => { s with egress := { s.egress with tx := none } }))) ∧
  (∀ (s : State),
      (∀ (re : ReplyTo) (st : Status) (res : List Byte),
        reply re st res s = grant { s with egress := { s.egress with
          m := s.egress.m ++ [outFrame s.table.params.payloadType (s.table.params.region * 8 + s.power.strapCode) 5
            (be 2 re.requester.toNat ++ be 2 re.tag.toNat ++ [re.code] ++ be 1 st.code ++ res)]
          reserved := s.egress.reserved - 1 } }) ∧
      (∀ f : EthFrame, s.egress.l.length < 64 → joinL f s = grant { s with egress := { s.egress with l := s.egress.l ++ [f] } }) ∧
      (∀ f : EthFrame, 64 ≤ s.egress.l.length → joinL f s = report .stragglerDrop s)) ∧
  (∀ st : Status, st.code = match st with
    | .ok => 0x00 | .applied => 0x01 | .badField => 0x10 | .misaligned => 0x11 | .noRoom => 0x12 | .commitPending => 0x13
    | .busy => 0x15 | .unknownStream => 0x16 | .lineAsserted => 0x17 | .storeBusy => 0x18 | .storeFault => 0x19
    | .unknownCommand => 0x1A | .badLength => 0x1B)

/-- Every frame the part builds is one that a framer accepts: its length field, its room and its frame check are right, its
padding of zeros makes it at least 46 bytes long, its spare byte is 00H, and its kind and origin read back (R1, R2, R3, R17). A
field is read and written most significant byte first, a signed one in two's complement (R1), and an on/off setting is 01H or
00H (R12); the frame check is the CRC-32 of R2, in the bit order that is the model's choice (log 7). -/
def Obligations.BuiltFramesPassTheFormChecks : Prop :=
  (∀ (pt : Half) (node kind : Nat) (body : List Byte), node < 256 → kind < 256 → body.length ≤ 9000 →
    let f := outFrame pt node kind body
    formOf f.payload = .good ∧ f.payload.length = max 46 (body.length + 10) ∧ field f.payload 0 1 = kind ∧
      field f.payload 1 1 = 0 ∧ field f.payload 2 2 = node ∧ field f.payload 4 2 = body.length ∧ bodyOf f.payload = body ∧
      f.payload.drop (body.length + 10) = List.replicate (36 - body.length) 0 ∧
      f.etype = pt ∧ f.dst = 0xFFFFFFFFFFFF#48 ∧ f.src.toNat = 0x020000000000 + node) ∧
  (∀ (bs : List Byte) (i n : Nat), field bs i n = ((bs.drop i).take n).foldl (fun v b => v * 256 + b.toNat) 0) ∧
  (∀ bs : List Byte, bodyOf bs = (bs.drop 6).take (field bs 4 2)) ∧
  (∀ w v : Nat, (be w v).length = w ∧ field (be w v) 0 w = v % 256 ^ w) ∧
  (∀ (w : Nat) (v : Int), (beInt w v).length = w ∧ (field (beInt w v) 0 w : Int) = v % 256 ^ w) ∧
  onOff true = [1#8] ∧ onOff false = [0#8] ∧
  (∀ bs : List Byte, crc32 bs = ~~~ bs.foldl (fun (r : Word) (b : Byte) => (List.range 8).foldl (fun r i =>
    if (r.getLsbD 0) != b.getLsbD i then (r >>> 1) ^^^ 0xEDB88320#32 else r >>> 1) r) 0xFFFFFFFF#32)

/-- A record the Composer builds occupies the bytes R7 gives, and reads back as it was built when its fields are in R7's
ranges; its residual stands at offset 4 in two's complement (R7, R14), and is not read back, because a receiver uses none (R164).
The bits that name no field are zero. A set header occupies 13 bytes, and with the records that follow it, as many as it counts,
reads back as it was built when its fields are in R6's ranges (R6, R10, R14). -/
def Obligations.RecordsReadBackAsBuilt : Prop :=
  let inRange := fun (r : SetRecord) => 1 ≤ r.id ∧ r.id ≤ 65534 ∧ r.hop ≤ 3 ∧ (r.content = none ↔ r.status = .absent) ∧
    (if r.status = .held then 1 ≤ r.holdAge ∧ r.holdAge ≤ 15 else r.holdAge = 0) ∧
    ∀ c, r.content = some c → c.phasors.length ≤ 16 ∧ c.analogs.length ≤ 8
  let read := fun (r : SetRecord) =>
    ({ id := r.id, hop := r.hop, status := r.status, holdAge := r.holdAge
       flags := (r.content.map (·.flags)).getD ⟨false, false, false, false, false, false⟩
       df := (r.content.map (·.df)).getD 0, rocof := (r.content.map (·.rocof)).getD 0
       digital := (r.content.map (·.digital)).getD 0, phasors := (r.content.map (·.phasors)).getD []
       analogs := (r.content.map (·.analogs)).getD [] } : WireRecord)
  (∀ (r : SetRecord) (rest : List Byte), inRange r →
    (recordBytes r).length = recordSize r ∧ readRecord (recordBytes r ++ rest) = some (read r, rest)) ∧
  (∀ r : SetRecord, (r.content = none → recordSize r = 3) ∧
    ∀ c, r.content = some c → recordSize r = 16 + 6 * c.phasors.length + 4 * c.analogs.length ∧
      (field (recordBytes r) 4 4 : Int) = c.residual % 4294967296 ∧ field (recordBytes r) 3 1 < 64) ∧
  (∀ (h : SetHeader) (rs : List SetRecord) (origin : Nat), origin ≤ 255 → h.rate ∈ [10, 25, 30, 50, 60, 100, 120] →
    h.soe ≤ 4294967295 → h.slot < h.rate → h.quality ≤ 7 → 1 ≤ h.partIndex → h.partIndex ≤ h.partCount → h.partCount ≤ 255 →
    h.recordCount = rs.length → rs.length ≤ 256 → (∀ r ∈ rs, inRange r) →
    (headerBytes h).length = 13 ∧ field (headerBytes h) 7 1 < 8 ∧ field (headerBytes h) 8 1 < 32 ∧
      readAset origin (headerBytes h ++ rs.flatMap recordBytes) = some (h, rs.map read))

/-! ### Ingress and admission -/

/-- A frame that completes on a DOWN port, fails the link's own check, or is of another type than the payload type is
discarded uncounted (R15, R16). The three form checks in their order, each failure counted once, and a frame that passes them
dispatched (R17); what dispatch counts: malformed bodies, and every kind that has no use here (R19, R20, R10, R12). A MEAS body is
malformed by R20's four conditions and an ASET body by R10's, and nothing else; otherwise each field is read at the offset, with
the size and by the codes of R14. The records of a set are read in turn and must fill the body exactly (R10). The model's choices
in it: a payload shorter than a header is malformed (log 31), and a frame is dispatched after the earlier frames of its port have
been decided (log 9, from R18). -/
def Obligations.FramersDiscardAndCount : Prop :=
  (∀ (p : Port) (good : Bool) (f : EthFrame) (s : State),
      ((match p with | .a => s.links.a | .b => s.links.b) = .down ∨ good = false ∨ f.etype ≠ s.table.params.payloadType) →
      exec (.ingressFrameComplete p good f) s = .next s) ∧
  ((∀ (p : Port) (f : EthFrame) (s : State), s.operating = true → (match p with | .a => s.links.a | .b => s.links.b) = .up →
      f.etype = s.table.params.payloadType →
      let l := field f.payload 4 2
      let checkGood := field f.payload (6 + l) 4 = (crc32 (f.payload.take (6 + l))).toNat
      (f.payload.length < 6 ∨ 9000 < l ∨ f.payload.length < 6 + l + 4 →
        exec (.ingressFrameComplete p true f) s = .next (report .malformed (report (framesIn p) s))) ∧
      (6 ≤ f.payload.length → l ≤ 9000 → 6 + l + 4 ≤ f.payload.length → ¬ checkGood →
        exec (.ingressFrameComplete p true f) s = .next (report .checkBad (report (framesIn p) s))) ∧
      (6 ≤ f.payload.length → l ≤ 9000 → 6 + l + 4 ≤ f.payload.length → checkGood →
        exec (.ingressFrameComplete p true f) s = .next (dispatch p s.tick f.payload (catchUp p (report (framesIn p) s))))) ∧
    (∀ (p : Port) (arrival : Nat) (payload : List Byte) (u : State),
      let kind := field payload 0 1
      (kind = 1 → readMeas (field payload 2 2) (bodyOf payload) = none → dispatch p arrival payload u = report .malformed u) ∧
      (kind = 2 → u.table.params.composite = false → dispatch p arrival payload u = report .unknownKind u) ∧
      (kind = 2 → u.table.params.composite = true → readAset (field payload 2 2) (bodyOf payload) = none →
        dispatch p arrival payload u = report .malformed u) ∧
      (kind = 4 → (bodyOf payload).length < 4 → dispatch p arrival payload u = report .malformed u) ∧
      (kind ≠ 1 → kind ≠ 2 → kind ≠ 4 → dispatch p arrival payload u = report .unknownKind u))) ∧
  (let half := fun (bs : List Byte) (i : Nat) => BitVec.ofNat 16 (field bs i 2)
    let bit := fun (bs : List Byte) (i b : Nat) => decide (field bs i 1 / 2 ^ b % 2 = 1)
    let phasors := fun (bs : List Byte) (n : Nat) => (List.range n).map fun i =>
      ({ magnitude := BitVec.ofNat 32 (field bs (16 + 6 * i) 4), angle := half bs (20 + 6 * i) } : Phasor)
    let analogs := fun (bs : List Byte) (n m : Nat) => (List.range m).map fun i => BitVec.ofNat 32 (field bs (16 + 6 * n + 4 * i) 4)
    (∀ (origin : Nat) (bs : List Byte),
      let n := field bs 14 1
      let m := field bs 15 1
      readMeas origin bs = if origin = 0 ∨ origin = 65535 ∨ 16 < n ∨ 8 < m ∨ bs.length ≠ 16 + 6 * n + 4 * m then none
        else some { id := origin, soe := field bs 0 4, frac := field bs 4 3, tq := field bs 7 1 % 8
                    flags := { dataInvalid := bit bs 7 3, syncLost := bit bs 7 4, timeSuspect := false, uncorrected := false
                               heldUpstream := false, test := bit bs 7 5 }
                    df := half bs 8, rocof := half bs 10, digital := half bs 12, phasors := phasors bs n, analogs := analogs bs n m }) ∧
    (∀ bs : List Byte,
      let status := match field bs 2 1 % 4 with
        | 0 => RecordStatus.present | 1 => .held | 2 => .absent | _ => .overridden
      let hop := field bs 2 1 / 4 % 4
      let age := field bs 2 1 / 16
      let n := field bs 14 1
      let m := field bs 15 1
      let bad := bs.length < 3 ∨ field bs 0 2 = 0 ∨ field bs 0 2 = 65535 ∨ (status = .held ∧ age = 0) ∨ (status ≠ .held ∧ age ≠ 0)
      (bad → readRecord bs = none) ∧
      (¬ bad → status = .absent → readRecord bs = some
        ({ id := field bs 0 2, hop := hop, status := .absent, holdAge := 0, flags := ⟨false, false, false, false, false, false⟩
           df := 0, rocof := 0, digital := 0, phasors := [], analogs := [] }, bs.drop 3)) ∧
      (¬ bad → status ≠ .absent → readRecord bs =
        if bs.length < 16 ∨ 16 < n ∨ 8 < m ∨ bs.length < 16 + 6 * n + 4 * m then none
        else some ({ id := field bs 0 2, hop := hop, status := status, holdAge := age
                     flags := ⟨bit bs 3 0, bit bs 3 1, bit bs 3 2, bit bs 3 3, bit bs 3 4, bit bs 3 5⟩
                     df := half bs 8, rocof := half bs 10, digital := half bs 12, phasors := phasors bs n, analogs := analogs bs n m },
          bs.drop (16 + 6 * n + 4 * m)))) ∧
    (∀ (origin : Nat) (bs : List Byte),
      let bad := 255 < origin ∨ field bs 0 1 ∉ [10, 25, 30, 50, 60, 100, 120] ∨ field bs 0 1 ≤ field bs 5 1 ∨
        field bs 6 1 ∉ [1, 2, 3, 4, 5] ∨ field bs 8 1 % 4 = 3 ∨ field bs 9 1 = 0 ∨ field bs 10 1 < field bs 9 1 ∨ bs.length < 13
      let header : SetHeader :=
        { rate := field bs 0 1, soe := field bs 1 4, slot := field bs 5 1
          cause := match field bs 6 1 with | 1 => .complete | 2 => .deadline | 3 => .crowded | 4 => .flush | _ => .step
          fallback := bit bs 7 0, test := bit bs 7 1, stepped := bit bs 7 2
          clock := match field bs 8 1 % 4 with | 0 => .acquiring | 1 => .locked | _ => .holdover
          quality := field bs 8 1 / 4 % 8, partIndex := field bs 9 1, partCount := field bs 10 1, recordCount := field bs 11 2 }
      (bad → readAset origin bs = none) ∧
      (¬ bad → readAset origin bs = (readRecords (field bs 11 2) (bs.drop 13)).map fun rs => (header, rs))) ∧
    (∀ (k : Nat) (bs : List Byte),
      readRecords 0 bs = (if bs = [] then some [] else none) ∧
      readRecords (k + 1) bs = match readRecord bs with
        | none => none
        | some (r, rest) => (readRecords k rest).map fun rs => r :: rs))

/-- A control frame for another target is counted NOT_MINE; one for this part or for FFH is accepted with a reservation in M
while both have room, and is shed and counted otherwise (R171, R172). It is dispatched after the earlier frames of its port have
been decided, which is the model's choice (log 9, from R18). -/
def Obligations.ControlFramesAreAcceptedOrShed : Prop :=
  ∀ (p : Port) (f : EthFrame) (s : State), s.operating = true → (match p with | .a => s.links.a | .b => s.links.b) = .up →
    f.etype = s.table.params.payloadType → formOf f.payload = .good → field f.payload 0 1 = 4 → 4 ≤ (bodyOf f.payload).length →
    let u := catchUp p (report (framesIn p) s)
    let mine := field (bodyOf f.payload) 0 1 = u.table.params.region * 8 + u.power.strapCode ∨ field (bodyOf f.payload) 0 1 = 255
    let room := u.ctl.queue.length < 8 ∧ u.egress.reserved + u.egress.m.length < 8
    (¬ mine → exec (.ingressFrameComplete p true f) s = .next (report .notMine u)) ∧
    (mine → room → exec (.ingressFrameComplete p true f) s = .next { u with
      ctl := { u.ctl with queue := u.ctl.queue ++
        [{ re := { requester := BitVec.ofNat 16 (field f.payload 2 2), tag := BitVec.ofNat 16 (field (bodyOf f.payload) 2 2)
                   code := BitVec.ofNat 8 (field (bodyOf f.payload) 1 1) }
           args := (bodyOf f.payload).drop 4 }] }
      egress := { u.egress with reserved := u.egress.reserved + 1 } }) ∧
    (mine → ¬ room → exec (.ingressFrameComplete p true f) s = .next (report .ctrlShed u))

/-- Admission from the stream lookup on: a measurement of an unknown, an ISOLATED or isolating stream, or of the wrong shape, is
counted under its one name and dropped, and no timer or streak moves (R21, R22, R23). One that the snap refuses is counted
BAD_LABEL, or OFF_GRID with its stream's off-grid counter, and gives the life frame and the time-quality report of R24 and R29
where it is a life frame, and no contribution (R25). One that the snap takes, of a phasor frame or of a lower-tier record, gives
one offer with what R26 to R30 need of it, and no count; its time quality is classed by the threshold that stood at the lookup
(log 42). A well-formed phasor frame enters admission as such a measurement (R19);
that the earlier frames of its port are decided first is the model's choice (log 9, from R18). -/
def Obligations.AdmissionCountsItsRefusals : Prop :=
  (∀ (m : Measurement) (s : State),
    (s.stream m.id = none → admitOne m s = report .unknownStream s) ∧
    (∀ e, s.stream m.id = some e →
      (e.state = .isolated ∨ e.isolating = true → admitOne m s = report .isolatedDrop s) ∧
      (e.state ≠ .isolated → e.isolating = false →
        (m.phasors.length ≠ e.cfg.phasors ∨ m.analogs.length ≠ e.cfg.analogs →
          admitOne m s = report .shape
            (s.mapStream m.id fun x => { x with counts := { x.counts with shape := satInc x.counts.shape } })) ∧
        (m.phasors.length = e.cfg.phasors → m.analogs.length = e.cfg.analogs →
          let t := if m.life then lifeFrame m.id s else s
          let answered := fun (u : State) =>
            if m.life then timeReport m.id (decide (m.tq > e.cfg.tqMax) || m.flags.syncLost) u else u
          let snapped := snap { soe := m.soe, frac := m.frac, tb := m.label.getD e.cfg.tb, rate := s.table.params.rate, tol := e.cfg.tol
                                correction := correctionOn s.table e.cfg, df := m.df, angles := m.phasors.map (·.angle) }
          (snapped = .badLabel → admitOne m s = answered (report .badLabel t)) ∧
          (snapped = .offGrid → admitOne m s = answered (report .offGrid
            (t.mapStream m.id fun x => { x with counts := { x.counts with offGrid := satInc x.counts.offGrid } }))) ∧
          (∀ ordinal d angles u, snapped = .snapped ordinal d angles u →
            let suspect := decide (m.tq > e.cfg.tqMax) || m.flags.syncLost
            admitOne m s = { t with adm := { t.adm with offers := t.adm.offers ++
              [{ port := m.port, id := m.id, rate := s.table.params.rate, ordinal := ordinal
                 contribution := {
                   index := (t.stream m.id).map (·.idx), former := none, frac := m.frac, arrival := m.arrival
                   content := {
                     hop := m.hop, residual := d
                     flags := { m.flags with timeSuspect := m.flags.timeSuspect || suspect, uncorrected := m.flags.uncorrected || u }
                     df := m.df, rocof := m.rocof, digital := m.digital
                     phasors := List.zipWith (fun q a => { q with angle := a }) m.phasors angles, analogs := m.analogs } }
                 straggle := straggleOn s.table e.cfg, body := m.body, life := m.life, badTime := suspect }] } }))))) ∧
  (∀ (p : Port) (f : EthFrame) (s : State) (m : Meas), s.operating = true →
    (match p with | .a => s.links.a | .b => s.links.b) = .up → f.etype = s.table.params.payloadType →
    formOf f.payload = .good → field f.payload 0 1 = 1 → readMeas (field f.payload 2 2) (bodyOf f.payload) = some m →
    exec (.ingressFrameComplete p true f) s = .next (admitOne
      { port := p, arrival := s.tick, id := m.id, soe := m.soe, frac := m.frac, label := none, tq := m.tq, hop := 0, flags := m.flags
        df := m.df, rocof := m.rocof, digital := m.digital, phasors := m.phasors, analogs := m.analogs
        body := some (bodyOf f.payload), life := true } (catchUp p (report (framesIn p) s))))

/-- A phasor frame of a known stream that fits it is reported as a life frame, snapped, and becomes one contribution that
waits for its placement with the fields of R26; nothing else changes (R24, R25, R26). The model's choices in it: the earlier
frames of its port are decided first (log 9, from R18), and the time quality that its report will give is classed by the
threshold that stood at the lookup (log 42, from R30). -/
def Obligations.PhasorFrameBecomesContribution : Prop :=
  ∀ (p : Port) (f : EthFrame) (s : State) (m : Meas) (e : StreamEntry) (ordinal : Nat) (d : Int) (angles : List Half) (u : Bool),
    s.operating = true → (match p with | .a => s.links.a | .b => s.links.b) = .up → f.etype = s.table.params.payloadType →
    formOf f.payload = .good → field f.payload 0 1 = 1 → readMeas (field f.payload 2 2) (bodyOf f.payload) = some m →
    let w := catchUp p (report (framesIn p) s)
    w.stream m.id = some e → e.state ≠ .isolated → e.isolating = false →
    m.phasors.length = e.cfg.phasors → m.analogs.length = e.cfg.analogs →
    snap { soe := m.soe, frac := m.frac, tb := e.cfg.tb, rate := w.table.params.rate, tol := e.cfg.tol
           correction := correctionOn w.table e.cfg, df := m.df, angles := m.phasors.map (·.angle) } = .snapped ordinal d angles u →
    let t := lifeFrame m.id w
    let suspect := decide (m.tq > e.cfg.tqMax) || m.flags.syncLost
    exec (.ingressFrameComplete p true f) s = .next { t with adm := { t.adm with offers := t.adm.offers ++
      [{ port := p, id := m.id, rate := w.table.params.rate, ordinal := ordinal
         contribution := {
           index := (t.stream m.id).map (·.idx), former := none, frac := m.frac, arrival := s.tick
           content := {
             hop := 0, residual := d
             flags := { m.flags with timeSuspect := m.flags.timeSuspect || suspect, uncorrected := m.flags.uncorrected || u }
             df := m.df, rocof := m.rocof, digital := m.digital
             phasors := List.zipWith (fun q a => { q with angle := a }) m.phasors angles, analogs := m.analogs } }
         straggle := straggleOn w.table e.cfg, body := some (bodyOf f.payload), life := true, badTime := suspect }] } }

/-- A life frame reloads the silence timer; ENROLLED and SILENT pass to ACTIVE with the re-evaluation that prompts; ACTIVE
and SUSPECT keep their state (R24, R37). A time-quality report moves the streaks by R43 and passes the stream between ACTIVE
and SUSPECT by R44, which tests the hysteresis of the entry as it stands then, with the re-evaluation that a passage prompts;
a report for an ISOLATED stream or for one the table does not hold is ignored (R41, R42). -/
def Obligations.LifeFramesAndTimeReports : Prop :=
  (∀ (s : State) (id : Nat) (e : StreamEntry), (s.table.streams.map fun x => x.cfg.id).Nodup → s.stream id = some e →
      (e.state = .active ∨ e.state = .suspect →
        lifeFrame id s = s.mapStream id fun x => { x with timer := some (s.tick + x.cfg.silenceMs * 1000) }) ∧
      (e.state = .enrolled ∨ e.state = .silent →
        lifeFrame id s = reevaluate
          (s.mapStream id fun x => { x with state := .active, timer := some (s.tick + x.cfg.silenceMs * 1000) }))) ∧
  (∀ (s : State) (id : Nat) (bad : Bool), (s.table.streams.map fun x => x.cfg.id).Nodup →
      (s.stream id = none → timeReport id bad s = s) ∧
      (∀ e, s.stream id = some e →
        let b := if bad then min 15 (e.bad + 1) else 0
        let g := if bad then 0 else min 15 (e.good + 1)
        let next := if e.state = .active ∧ e.cfg.hysteresis ≤ b then StreamState.suspect
          else if e.state = .suspect ∧ e.cfg.hysteresis ≤ g then .active
          else e.state
        let moved := s.mapStream id fun x => { x with bad := b, good := g, state := next }
        (e.state = .isolated → timeReport id bad s = s) ∧
        (e.state ≠ .isolated → e.state = next → timeReport id bad s = moved) ∧
        (e.state ≠ .isolated → e.state ≠ next → timeReport id bad s = reevaluate moved)))

/-- The earlier frames of a port are all decided before its next frame is dispatched (R18, log 9), one after the other in the
order in which they came: while a contribution of the port waits its oldest is placed, else the next record under treatment is
taken, until nothing of the port is left in admission. A well-formed aligned-set frame is the part's own output come back, dropped whole and counted once, or waits whole at Composite Ingest with its header,
port and arrival tick (R160, R161). -/
def Obligations.AlignedSetFramesAndArrivalOrder : Prop :=
  (∀ (p : Port) (s : State),
      let waits := fun (u : State) => u.adm.offers.any fun o => o.port == p
      let treated := fun (u : State) => u.adm.ingest.any fun f => f.port == p
      waits (catchUp p s) = false ∧ treated (catchUp p s) = false ∧
      (waits s = false → treated s = false → catchUp p s = s) ∧
      (s.operating = true →
        (waits s = true → ∀ t, exec (.placement p) s = .next t → catchUp p s = catchUp p t) ∧
        (waits s = false → treated s = true → ∀ t, exec .asetRecordIngest s = .next t → catchUp p s = catchUp p t))) ∧
  (∀ (p : Port) (f : EthFrame) (s : State) (h : SetHeader) (rs : List WireRecord), s.operating = true →
      (match p with | .a => s.links.a | .b => s.links.b) = .up → f.etype = s.table.params.payloadType →
      formOf f.payload = .good → field f.payload 0 1 = 2 → readAset (field f.payload 2 2) (bodyOf f.payload) = some (h, rs) →
      let u := catchUp p (report (framesIn p) s)
      let own := field f.payload 2 2 = u.table.params.region * 8 + u.power.strapCode
      u.table.params.composite = true →
      (own → exec (.ingressFrameComplete p true f) s = .next (report .loop u)) ∧
      (¬ own → rs = [] → exec (.ingressFrameComplete p true f) s = .next u) ∧
      (¬ own → rs ≠ [] → exec (.ingressFrameComplete p true f) s = .next { u with
        adm := { u.adm with ingest := u.adm.ingest ++ [{ port := p, arrival := s.tick, header := h, records := rs }] } }))

/-- The next record under treatment: an ABSENT one is skipped, one of hop 3 is counted HOP, and any other enters the
admission sequence at the lookup with the frame's second and slot on its grid rate, its clock quality for a TQ and its hop
raised by one; a HELD one is no life frame and carries HELD_UPSTREAM (R70, R162, R163, R164, R166, R167, R168). That earlier
contributions of the frame's port are placed first, the oldest first until none waits, is the model's choice (log 9, from R18).
With no frame under treatment nothing is taken (log 1). -/
def Obligations.LowerTierRecordsEnterAdmission : Prop :=
  (∀ (p : Port) (s : State),
    let waits := fun (u : State) => u.adm.offers.any fun o => o.port == p
    (waits s = false → placeAll p s.adm.offers.length s = s) ∧
    (s.operating = true → waits s = true → ∀ t, exec (.placement p) s = .next t →
      placeAll p s.adm.offers.length s = placeAll p t.adm.offers.length t)) ∧
  (∀ s : State, s.adm.ingest = [] → exec .asetRecordIngest s = .next s) ∧
  (∀ (s : State) (f : IngestFrame) (fs : List IngestFrame) (r : WireRecord) (rs : List WireRecord), s.operating = true →
    s.adm.ingest = f :: fs → f.records = r :: rs →
    let u := placeAll f.port s.adm.offers.length s
    let t := { u with adm := { u.adm with ingest := if rs = [] then fs else { f with records := rs } :: fs } }
    (r.status = .absent → exec .asetRecordIngest s = .next t) ∧
    (r.status ≠ .absent → r.hop = 3 → exec .asetRecordIngest s = .next (report .hop t)) ∧
    (r.status ≠ .absent → r.hop ≠ 3 → exec .asetRecordIngest s = .next (admitOne
      { port := f.port, arrival := f.arrival, id := r.id, soe := f.header.soe, frac := f.header.slot, label := some f.header.rate
        tq := f.header.quality, hop := r.hop + 1
        flags := { r.flags with heldUpstream := r.flags.heldUpstream || decide (r.status = .held) }
        df := r.df, rocof := r.rocof, digital := r.digital, phasors := r.phasors, analogs := r.analogs
        body := none, life := decide (r.status ≠ .held) } t)))

/-! ### The snap and the grid -/

/-- Ordinals across a change of grid rate, and instants: the converted ordinal is the latest epoch of the new grid whose
instant is not later (R56); an instant in whole microseconds is the exact one rounded up, so never early (R55). -/
def Obligations.GridConversionAndInstants : Prop :=
  (∀ r1 r2 e : Nat, 0 < r1 → 0 < r2 →
    convertOrdinal r1 r2 e * r1 ≤ e * r2 ∧ e * r2 < (convertOrdinal r1 r2 e + 1) * r1) ∧
  (∀ r e : Nat, 0 < r → e * 1000000 ≤ instantUs r e * r ∧ instantUs r e * r < e * 1000000 + r)

/-- The Snap Unit on any label: BAD_LABEL for a FRAC not below TB or for a roll past the last second; otherwise the slot
nearest the label, the later of two at equal distance, with slot R standing for slot 0 of the next second; the residual is
the signed distance to it in nanoseconds, rounded half away from zero, and decides OFF_GRID against the tolerance (R60 to
R64). -/
def Obligations.SnapTakesTheNearestSlot : Prop :=
  ∀ q : SnapRequest, 0 < q.tb → 0 < q.rate →
    let k := (2 * (q.frac * q.rate) + q.tb) / (2 * q.tb)
    let num : Int := (q.frac * q.rate : Nat) - (k * q.tb : Nat)
    let size := (2 * (num.natAbs * 1000000000) + q.tb * q.rate) / (2 * (q.tb * q.rate))
    (q.tb ≤ q.frac → snap q = .badLabel) ∧
    (q.frac < q.tb → k ≤ q.rate ∧ 2 * k * q.tb ≤ 2 * (q.frac * q.rate) + q.tb ∧ 2 * (q.frac * q.rate) < (2 * k + 1) * q.tb) ∧
    (q.frac < q.tb → k = q.rate → q.soe = 4294967295 → snap q = .badLabel) ∧
    (q.frac < q.tb → (k = q.rate → q.soe ≠ 4294967295) →
      (q.tol * 1000 < size → snap q = .offGrid) ∧
      (size ≤ q.tol * 1000 → ∃ as u, snap q = .snapped (q.soe * q.rate + k) (if num < 0 then -(size : Int) else size) as u))

/-- Angle correction and UNCORRECTED by R66's table; a corrected angle is the received one turned by one and the same amount,
wrapped modulo 65536 and never clamped (R66, R67, R68). -/
def Obligations.AngleCorrectionWraps : Prop :=
  ∀ (q : SnapRequest) (e : Nat) (d : Int) (as : List Half) (u : Bool), snap q = .snapped e d as u →
    as.length = q.angles.length ∧
    (d = 0 → as = q.angles ∧ u = false) ∧
    (d ≠ 0 → q.correction = false ∨ q.df = 0x8000#16 → as = q.angles ∧ u = true) ∧
    (d ≠ 0 → q.correction = true → q.df ≠ 0x8000#16 → u = false ∧
      ∃ shift : Int, 2 * (shift * 1000000000000 + q.df.toInt * d * 65536).natAbs ≤ 1000000000000 ∧
        ∀ i (h : i < q.angles.length), ∃ a, as[i]? = some a ∧ ∃ turns : Int, a.toInt = q.angles[i].toInt + shift + turns * 65536)

/-! ### Placement in the ring -/

/-- The eight tests of R79 in their order, each with its outcome (R69, R80 to R89). LATE counts from the departure tick of the
epoch where its slot remembers it, else from the floor tick, else from the seal tick of the EMITTING record (R81). Tests 5 to 8
for an ordinal within the span: a sealed record answers AFTER_SEAL with its seal tick, an OPEN one that holds the stream answers
by the original FRAC, and otherwise room decides (R86 to R89). A record is found by its ordinal (R77), the stream's contribution in
it by its stream index, which a withdrawn one has not (R87, R182), and the taken cells are the contributions of all records (R75,
log 10). -/
def Obligations.PlacementTestsInOrder : Prop :=
  (∀ (s : State) (o : Offer),
      let drains := s.ring.stepDrain = true ∨ s.ring.commitDrain = true ∨ o.rate ≠ s.table.params.rate
      let gone := (∃ f, s.ring.floor = some f ∧ o.ordinal ≤ f) ∨ ∃ r ∈ s.ring.recs, r.state = .emitting ∧ o.ordinal < r.ordinal
      let tooFar := ∃ now, s.refNow = some now ∧ now + s.table.params.aheadMs * 1000 < instantUs s.table.params.rate o.ordinal
      (drains → answer s o = .draining) ∧
      (¬ drains → gone →
        ((∃ e, s.stream o.id = some e ∧ e.lastEpoch = some o.ordinal) → answer s o = .duplicate) ∧
        ((∀ e, s.stream o.id = some e → e.lastEpoch ≠ some o.ordinal) →
          let recalled := s.ring.memory.find? fun m => m.ordinal % 512 == o.ordinal % 512
          (∀ m, recalled = some m → m.ordinal = o.ordinal → answer s o = .late m.tick) ∧
          ((∀ m, recalled = some m → m.ordinal ≠ o.ordinal) →
            (∀ f t, s.ring.floor = some f → o.ordinal ≤ f → s.ring.floorTick = some t → answer s o = .late t) ∧
            (∀ r t, (∀ f, s.ring.floor = some f → f < o.ordinal) → r ∈ s.ring.recs → r.state = .emitting → o.ordinal < r.ordinal →
              (∀ x ∈ s.ring.recs, x.state = .emitting → x = r) → r.sealTick = some t → answer s o = .late t)))) ∧
      (¬ drains → ¬ gone → tooFar → answer s o = .ahead) ∧
      (¬ drains → ¬ gone → ¬ tooFar →
        (∀ lo hi, s.ring.recs.head? = some lo → s.ring.recs.getLast? = some hi →
          (lo.ordinal + 511 < o.ordinal → answer s o = .crowds) ∧
          (¬ lo.ordinal + 511 < o.ordinal → o.ordinal + 511 < hi.ordinal → answer s o = .belowSpan) ∧
          (¬ lo.ordinal + 511 < o.ordinal → ¬ o.ordinal + 511 < hi.ordinal → answer s o = recordAnswer s.ring o)) ∧
        (s.ring.recs = [] →
          (∀ f, s.ring.floor = some f → f + 512 < o.ordinal → answer s o = .advances) ∧
          ((∀ f, s.ring.floor = some f → ¬ f + 512 < o.ordinal) → answer s o = recordAnswer s.ring o)))) ∧
  (∀ (r : Ring) (o : Offer),
      (∀ e t, r.recordOf o.ordinal = some e → e.state ≠ .opened → e.sealTick = some t → recordAnswer r o = .afterSeal t) ∧
      (∀ e d, r.recordOf o.ordinal = some e → e.state = .opened → e.sameStream o.contribution = some d →
        recordAnswer r o = if d.frac = o.contribution.frac then .duplicate else .collision) ∧
      ((r.recordOf o.ordinal = none ∨ ∃ e, r.recordOf o.ordinal = some e ∧ e.state = .opened ∧ e.sameStream o.contribution = none) →
        recordAnswer r o = if 8192 ≤ r.occupancy then .storeFull else .accepted)) ∧
  (∀ (r : Ring) (e : EpochRec) (c : Contribution) (ordinal : Nat),
      r.recordOf ordinal = r.recs.find? (fun x => x.ordinal == ordinal) ∧
      e.sameStream c = e.contributions.find? (fun d => d.index.isSome && d.index == c.index) ∧
      r.occupancy = (r.recs.map fun x => x.contributions.length).sum)

/-- The deadline of a record that opens, and FALLBACK, by the deadline base and whether a mapping exists (R91, R92, R118); the record
opens OPEN and empty, its open tick the contribution's arrival tick, with that deadline and FALLBACK (R89). A contribution stands
after those of a lower stream index, and a record after those of a lower ordinal (R76, R77).
Acceptance: the record opens if it must, takes the contribution at its index's place, and seals COMPLETE when its
required-present count is the number of required streams, or DEADLINE when it opened past its deadline; `last_epoch` rises
(R47, R89, R90, R92). -/
def Obligations.AcceptanceFillsItsRecord : Prop :=
  (∀ (s : State) (ordinal openTick : Nat),
      (s.table.params.base = .firstArrival →
        deadlineOf s ordinal openTick = (openTick + s.table.params.budgetMs * 1000, false)) ∧
      (s.table.params.base = .timestamp → s.tru.mapping = none →
        deadlineOf s ordinal openTick = (openTick + s.table.params.budgetMs * 1000, true)) ∧
      (∀ m, s.table.params.base = .timestamp → s.tru.mapping = some m →
        deadlineOf s ordinal openTick =
          (((m.tick : Int) + (instantUs s.table.params.rate ordinal + s.table.params.budgetMs * 1000 : Nat)
            - (m.label * 1000000 : Nat)).toNat, false))) ∧
  (∀ (s : State) (ordinal openTick : Nat), openRecord s ordinal openTick =
      { ordinal := ordinal, state := .opened, openTick := openTick, deadline := (deadlineOf s ordinal openTick).1, sealTick := none
        cause := none, contributions := [], requiredPresent := 0, fallback := (deadlineOf s ordinal openTick).2, stepped := false }) ∧
  (∀ (c : Contribution) (e : EpochRec) (cs ds : List Contribution) (rs qs : List EpochRec),
      ((∀ d ∈ cs, d.index ≠ none ∧ d.index.getD 0 < c.index.getD 0) →
        (∀ d ∈ ds.head?, d.index = none ∨ c.index.getD 0 < d.index.getD 0) → c.index ≠ none →
        insertContribution c (cs ++ ds) = cs ++ c :: ds) ∧
      ((∀ r ∈ rs, r.ordinal < e.ordinal) → (∀ r ∈ qs.head?, e.ordinal < r.ordinal) → insertRecord e (rs ++ qs) = rs ++ e :: qs)) ∧
  (∀ (s : State) (o : Offer),
      let old := (s.ring.recordOf o.ordinal).getD (openRecord s o.ordinal o.contribution.arrival)
      let n := old.requiredPresent + if countsPresent s.table old.ordinal o.contribution then 1 else 0
      let opens := (s.ring.recordOf o.ordinal).isNone
      let filled := { old with contributions := insertContribution o.contribution old.contributions, requiredPresent := n }
      let rest := fun (e : EpochRec) => { s with
        ring := { s.ring with recs := if opens then insertRecord e s.ring.recs
                                      else s.ring.recs.map fun d => if d.ordinal = e.ordinal then e else d }
        table := { s.table with streams := s.table.streams.map fun x => if x.cfg.id == o.id then
          { x with lastEpoch := some (max (x.lastEpoch.getD 0) o.ordinal) } else x } }
      (n = requiredCount s.table old.ordinal → accept s o = report .sealComplete
        (rest { filled with state := .sealed, sealTick := some s.tick, cause := some .complete })) ∧
      (n ≠ requiredCount s.table old.ordinal → opens = true → old.deadline ≤ s.tick → accept s o = report .sealDeadline
        (rest { filled with state := .sealed, sealTick := some s.tick, cause := some .deadline })) ∧
      (n ≠ requiredCount s.table old.ordinal → opens = false ∨ s.tick < old.deadline → old.cause = none → accept s o = rest filled))

/-- The placement of a port's oldest contribution: TIME_SUSPECT for a stream that is SUSPECT now (R26, R166), the answer's changes
at the ring, its counts, the straggler hand-off, the heads that leave withheld, the end of an isolation, and the time-quality
report, AHEAD counting as bad time, classed by the threshold that stood at the lookup (log 42). An isolating stream passes to
ISOLATED when no contribution of it is left in admission, with the re-evaluation that this prompts where it was ACTIVE (R39, R42).
The contribution of a stream removed since its lookup is counted UNKNOWN_STREAM instead (R26 to R30, R39, R79). A port with no
contribution in admission has none placed (log 1). The model's choices in it: the heads are considered before
the report (log 28), and a straggler frame's grant is decided inside its join, before that (log 30). -/
def Obligations.PlacementIsOneEvent : Prop :=
  (∀ (p : Port) (s : State), s.adm.offers.find? (fun x => x.port == p) = none → exec (.placement p) s = .next s) ∧
  (∀ (p : Port) (s : State) (o : Offer), s.operating = true → s.adm.offers.find? (fun x => x.port == p) = some o →
    let t := { s with adm := { s.adm with offers := s.adm.offers.eraseP fun x => x.port == p } }
    (o.contribution.index = none → exec (.placement p) s = .next (report .unknownStream t)) ∧
    (o.contribution.index ≠ none →
      let a := answer t o
      let c := o.contribution.content
      let suspect := (s.stream o.id).any fun e => decide (e.state = .suspect)
      let offered := { o with contribution := { o.contribution with
        content := { c with flags := { c.flags with timeSuspect := c.flags.timeSuspect || suspect } } } }
      let u := settle (handOff a o (countAnswer a o (ringEffect a offered t)))
      let isolated := u.mapStream o.id fun x => { x with state := .isolated, isolating := false, timer := none, bad := 0, good := 0 }
      let v := match u.stream o.id with
        | none => u
        | some e =>
          if e.isolating = true ∧ ∀ x ∈ u.adm.offers, x.id = o.id → x.contribution.index = none then
            if e.state = .active then reevaluate isolated else isolated
          else u
      exec (.placement p) s = .next (if o.life then timeReport o.id (o.badTime || decide (a = .ahead)) v else v)))

/-- What an answer changes and counts: crowding seals every OPEN record at or below E − 512 and refuses, the empty ring's
floor advances to E − 512, every other refusal leaves the ring alone; each outcome raises its Monitor counter and its
stream's counter (R27, R83, R84). A late phasor frame of a straggling stream becomes one straggler frame with the fields of
R11 and its lateness in ticks, capped; no other outcome and no lower-tier record does (R28, R144). -/
def Obligations.AnswersChangeAndCount : Prop :=
  (∀ (a : Answer) (o : Offer) (s : State),
      (ringEffect a o s =
        if a = .accepted then accept s o
        else if a = .crowds then
          let crowded := fun (e : EpochRec) => decide (e.state = .opened ∧ e.ordinal + 512 ≤ o.ordinal)
          let shut := fun (e : EpochRec) => { e with state := .sealed, sealTick := some s.tick, cause := some .crowded }
          reportMany .sealCrowded (s.ring.recs.countP crowded)
            { s with ring := { s.ring with recs := s.ring.recs.map fun e => if crowded e then shut e else e } }
        else if a = .advances then { s with ring := { s.ring with floor := some (o.ordinal - 512), floorTick := some s.tick } }
        else s) ∧
      (a ≠ .accepted → countAnswer a o s = report (match a with
          | .draining => .draining
          | .late _ => .late
          | .duplicate => .duplicate
          | .ahead => .ahead
          | .crowds | .advances | .belowSpan => .horizon
          | .afterSeal _ => .afterSeal
          | .collision => .collision
          | .storeFull | .accepted => .storeFull)
        (s.mapStream o.id fun x => { x with counts := match a with
          | .late _ | .afterSeal _ => { x.counts with late := satInc x.counts.late }
          | .duplicate => { x.counts with duplicate := satInc x.counts.duplicate }
          | .collision => { x.counts with collision := satInc x.counts.collision }
          | _ => x.counts })) ∧
      (countAnswer .accepted o s =
        let t := s.mapStream o.id fun x => { x with counts := { x.counts with accepted := satInc x.counts.accepted } }
        match s.refNow with
        | none => t
        | some now => recordLatency s.table.params.widthMs
            (if instantUs s.table.params.rate o.ordinal ≤ now then some (now - instantUs s.table.params.rate o.ordinal) else none) t)) ∧
  (∀ (o : Offer) (body : List Byte) (s : State) (since : Nat) (a : Answer),
      (o.straggle = true → o.body = some body →
        handOff (.late since) o s = joinL (outFrame s.table.params.payloadType (s.table.params.region * 8 + s.power.strapCode) 3
          (be 1 1 ++ be 1 (match o.port with | .a => 0 | .b => 1) ++ be 1 o.rate ++ be 6 o.ordinal
            ++ be 4 (min (s.tick - since) 4294967295) ++ be 2 o.id ++ body)) s ∧
        handOff (.afterSeal since) o s = joinL (outFrame s.table.params.payloadType (s.table.params.region * 8 + s.power.strapCode) 3
          (be 1 2 ++ be 1 (match o.port with | .a => 0 | .b => 1) ++ be 1 o.rate ++ be 6 o.ordinal
            ++ be 4 (min (s.tick - since) 4294967295) ++ be 2 o.id ++ body)) s) ∧
      ((o.straggle = false ∨ o.body = none ∨ ∀ t, a ≠ .late t ∧ a ≠ .afterSeal t) → handOff a o s = s))

/-! ### Timers, sealing and departure -/

/-- A silence timer that has reached its expiry tick passes its stream to SILENT with its timer stopped and its streaks at 0;
only a stream that was ACTIVE prompts a re-evaluation (R38, R42). A deadline that expires re-evaluates its record and seals
it, COMPLETE when it is complete and DEADLINE otherwise; then the head is considered (R93, R94). -/
def Obligations.SilenceAndDeadlinesExpire : Prop :=
  (∀ (idx due : Nat) (s : State) (e : StreamEntry), s.operating = true → (s.table.streams.map fun x => x.cfg.id).Nodup →
      s.streamAt idx = some e → e.timer = some due → due ≤ s.tick →
      let t := s.mapStream e.cfg.id fun x => { x with state := .silent, timer := none, bad := 0, good := 0 }
      (e.state = .enrolled ∨ e.state = .suspect → exec (.silenceTimerExpiry idx) s = .next t) ∧
      (e.state = .active → exec (.silenceTimerExpiry idx) s = .next (reevaluate t)) ∧
      (e.state = .silent ∨ e.state = .isolated → exec (.silenceTimerExpiry idx) s = .next s)) ∧
  (∀ (s : State) (e : EpochRec), s.operating = true → (s.ring.recs.map fun r => r.ordinal).Nodup → e ∈ s.ring.recs →
      e.state = .opened → e.deadline ≤ s.tick →
      let n := e.contributions.countP (countsPresent s.table e.ordinal)
      let cause := if n = requiredCount s.table e.ordinal then SealCause.complete else SealCause.deadline
      exec (.deadlineExpiry e.ordinal) s = .next (settle (report (if n = requiredCount s.table e.ordinal then .sealComplete else .sealDeadline)
        { s with ring := { s.ring with recs := s.ring.recs.map fun r => if r.ordinal = e.ordinal then
            { e with requiredPresent := n, state := .sealed, sealTick := some s.tick, cause := some cause } else r } })))

/-- A re-evaluation recomputes the required-present count of every OPEN record, seals COMPLETE those that are now complete,
leaves every other record, and counts one seal for each (R95). A head must leave withheld when it is SEALED under QUIESCED or
WITHHOLD, or EMITTING under QUIESCED; it then departs withheld and the next head is considered, until none must leave (R125,
R135, R142). The flush of a step seals every OPEN record STEP and begins a step drain; that of a commit seals them FLUSH and
begins a commit drain; each counts one seal for each record, and the heads that must leave do (R100, R101, R183). -/
def Obligations.ReevaluationFlushesAndWithheldHeads : Prop :=
  (∀ s : State,
      let seals := fun (r : EpochRec) => decide (r.state = .opened) &&
        decide (r.contributions.countP (countsPresent s.table r.ordinal) = requiredCount s.table r.ordinal)
      recountAll s = reportMany .sealComplete (s.ring.recs.countP seals) { s with ring := { s.ring with
        recs := s.ring.recs.map fun r =>
          if seals r then { r with requiredPresent := requiredCount s.table r.ordinal, state := .sealed, sealTick := some s.tick,
                                   cause := some .complete }
          else if r.state = .opened then { r with requiredPresent := r.contributions.countP (countsPresent s.table r.ordinal) }
          else r } } ∧
      reevaluate s = settle (recountAll s)) ∧
  (∀ s : State,
      (s.headMustLeave = true ↔ ∃ r rest, s.ring.recs = r :: rest ∧
        ((r.state = .sealed ∧ (s.comp.quiesced = true ∨ s.comp.mode = .withhold)) ∨ (r.state = .emitting ∧ s.comp.quiesced = true))) ∧
      (s.headMustLeave = true → settle s = settle (depart false s)) ∧
      (s.headMustLeave = false → settle s = s) ∧ (settle s).headMustLeave = false) ∧
  (∀ s : State,
      let opened := s.ring.recs.countP fun r => decide (r.state = .opened)
      let shut := fun (cause : SealCause) => s.ring.recs.map fun r =>
        if r.state = .opened then { r with state := .sealed, sealTick := some s.tick, cause := some cause } else r
      flushStep s = whenEmpty (settle (reportMany .sealStep opened
        { s with ring := { s.ring with recs := shut .step, stepDrain := true } })) ∧
      flushCommit s = whenEmpty (settle (reportMany .sealFlush opened
        { s with ring := { s.ring with recs := shut .flush, commitDrain := true } })))

/-- The departure of the head, emitted or withheld, as one event: the record is gone, F and the floor tick are its ordinal and this
tick, its slot remembers it and every other slot what it did, pending override changes are in force, SINGLE is spent by an
emitted set, the set is counted emitted or withheld, the STROBE line has its EMIT pulse, and nothing else changes; then a commit
that waits for the boundary applies, and an empty ring is told of (R98, R123, R134, R139, R180). A departure at the very end tick of a pulse begins another,
which is the model's choice (log 40). An empty ring ends the drains: a
step drain clears F, the floor tick, the departure memory and every `last_epoch` and sets the step mark, and a commit that waits
for the drain applies (R100, R101). The model's choice in it is the order of the pulse and the boundary's commit (log 28). -/
def Obligations.DepartureAndEmptyRing : Prop :=
  (∀ (emitted : Bool) (s : State),
    (s.ring.recs = [] → depart emitted s = s) ∧
    (∀ r rest, s.ring.recs = r :: rest →
      let left : State := report (if emitted then .setsEmitted else .withheld) { s with
        ring := { s.ring with recs := rest, floor := some r.ordinal, floorTick := some s.tick
                              memory := remember ⟨r.ordinal, s.tick⟩ s.ring.memory }
        comp := { s.comp with
          set := none
          overrides := s.comp.overrides.filterMap fun x => match x.change with
            | none => some x
            | some (.set v) => some { x with inForce := some v, change := none }
            | some .clear => none
          mode := if emitted = true ∧ s.comp.mode = .single then .withhold else s.comp.mode }
        strobe := if s.table.params.strobe = .emit then { s.strobe with endTick := match s.strobe.endTick with
            | some x => if s.tick < x then some x else some (s.tick + 10)
            | none => some (s.tick + 10) }
          else s.strobe }
      (s.ctl.commit ≠ .pendingBoundary → depart emitted s = whenEmpty left) ∧
      (s.ctl.commit = .pendingBoundary → depart emitted s = whenEmpty (applyCommit left)))) ∧
  (∀ (d : Departed) (ms : List Departed) (ordinal : Nat),
    let recalled := fun (l : List Departed) => l.find? fun m => m.ordinal % 512 == ordinal % 512
    recalled (remember d ms) = if ordinal % 512 = d.ordinal % 512 then some d else recalled ms) ∧
  (∀ s : State,
    (s.ring.recs ≠ [] → whenEmpty s = s) ∧
    (s.ring.recs = [] →
      let ended : State := if s.ring.stepDrain = true then
          { s with
            ring := { s.ring with floor := none, floorTick := none, memory := [], stepDrain := false, stepMark := true, commitDrain := false }
            table := { s.table with streams := s.table.streams.map fun e => { e with lastEpoch := none } } }
        else { s with ring := { s.ring with commitDrain := false } }
      (s.ctl.commit ≠ .pendingDrain → whenEmpty s = ended) ∧ (s.ctl.commit = .pendingDrain → whenEmpty s = applyCommit ended)))

/-! ### The Composer and the QUIESCE line -/

/-- Which record a stream receives: its contribution PRESENT; HELD from its cache within the hold limit or else ABSENT when
it is expected and not ISOLATED; an override in force changes that by its action, and a substitute of another phasor count is
disregarded (R127 to R131). -/
def Obligations.RecordsOfASet : Prop :=
  ∀ (a : ActiveSet) (ordinal : Nat) (e : StreamEntry) (c : Option Contribution),
    let missing : Option SetRecord :=
      if e.state = .isolated ∨ expectedAt e.cfg.rs a.params.rate ordinal = false then none
      else match e.hold with
        | some h =>
          if holdAllowed a e.cfg = true ∧ e.holdAge < e.cfg.holdLimit then
            some { idx := e.idx, id := e.cfg.id, hop := h.hop, status := .held, holdAge := e.holdAge + 1, content := some h }
          else some { idx := e.idx, id := e.cfg.id, hop := 0, status := .absent, holdAge := 0, content := none }
        | none => some { idx := e.idx, id := e.cfg.id, hop := 0, status := .absent, holdAge := 0, content := none }
    let plain : Option SetRecord := match c with
      | some k => some { idx := e.idx, id := e.cfg.id, hop := k.content.hop, status := .present, holdAge := 0, content := some k.content }
      | none => missing
    streamRecord a ordinal e c none = plain ∧
    (∀ o : Override, o.action = .suppress → streamRecord a ordinal e c (some o) = none) ∧
    (∀ o : Override, o.action = .markInvalid → streamRecord a ordinal e c (some o) = match c with
      | some k => some { idx := e.idx, id := e.cfg.id, hop := k.content.hop, status := .overridden, holdAge := 0
                         content := some { k.content with flags := { k.content.flags with dataInvalid := true } } }
      | none => missing) ∧
    (∀ o : Override, o.action = .substitute → streamRecord a ordinal e c (some o) =
      if o.phasors.length = e.cfg.phasors then plain.map fun _ =>
        { idx := e.idx, id := e.cfg.id, hop := 0, status := .overridden, holdAge := 0
          content := some { hop := 0, residual := 0, flags := ⟨false, false, false, false, false, false⟩, df := o.df, rocof := 0
                            digital := 0, phasors := o.phasors, analogs := List.replicate e.cfg.analogs 0 } }
      else plain)

/-- The cutting of a set: every record in one part, in order; no body beyond 9,000 bytes; a part closes only when the next
record would take it beyond; and a set without records is one part (R9). -/
def Obligations.CuttingKeepsOrderAndSize : Prop :=
  ∀ rs : List SetRecord, (∀ r ∈ rs, recordSize r ≤ 144) →
    (cutParts rs).flatten = rs ∧ cutParts rs ≠ [] ∧
    (∀ p ∈ cutParts rs, 13 + (p.map recordSize).sum ≤ 9000) ∧
    (∀ i p q, (cutParts rs)[i]? = some p → (cutParts rs)[i + 1]? = some q →
      ∃ r q', q = r :: q' ∧ 9000 < 13 + (p.map recordSize).sum + recordSize r)

/-- Composition begins: a SEALED head to be emitted passes to EMITTING when an O slot is free, with its set's records cut
into parts and every header field fixed then; STEPPED takes the step mark; nothing else moves (R97, R100, R125, R126). -/
def Obligations.CompositionFixesTheSet : Prop :=
  ∀ (s : State) (r : EpochRec) (rest : List EpochRec) (cause : SealCause), s.operating = true → s.ring.recs = r :: rest →
    r.state = .sealed → r.cause = some cause → s.comp.quiesced = false → s.comp.mode ≠ .withhold → s.egress.o.length < 16 →
    let records := s.table.streams.filterMap fun e => streamRecord s.table r.ordinal e
      (r.contributions.find? fun x => x.index == some e.idx)
      ((s.comp.overrides.find? fun x => x.id == e.cfg.id).bind (·.inForce))
    let groups := cutParts records
    let part := fun (g : List SetRecord × Nat) =>
      ({ records := g.1
         frame := outFrame s.table.params.payloadType (s.table.params.region * 8 + s.power.strapCode) 2
           (headerBytes { rate := s.table.params.rate, soe := r.ordinal / s.table.params.rate, slot := r.ordinal % s.table.params.rate
                          cause := cause, fallback := r.fallback, test := s.power.bench, stepped := s.ring.stepMark
                          clock := s.tru.state, quality := s.clockQuality, partIndex := g.2, partCount := groups.length
                          recordCount := g.1.length } ++ g.1.flatMap recordBytes) } : SetPart)
    exec .composeSet s = .next { s with
      ring := { s.ring with recs := { r with state := .emitting, stepped := s.ring.stepMark } :: rest, stepMark := false }
      comp := { s.comp with set := some { ordinal := r.ordinal, parts := (groups.zipIdx 1).map part, queued := 0 } } }

/-- The next part of the EMITTING head joins the O queue when a slot is free, its records move hold caches, hold ages and
counters, and with the last part the head leaves emitted (R48, R97, R132). That the grant is decided inside the part's join, before
the departure and the reply APPLIED of a commit that it brings about, is the model's choice (log 30). -/
def Obligations.QueuedPartMovesHoldCaches : Prop :=
  ∀ (s : State) (r : EpochRec) (rest : List EpochRec) (c : Composition) (p : SetPart), s.operating = true →
    s.ring.recs = r :: rest → r.state = .emitting → s.comp.set = some c → c.parts[c.queued]? = some p → s.egress.o.length < 16 →
    let moved := fun (e : StreamEntry) => match p.records.find? (fun x => x.idx == e.idx) with
      | none => e
      | some x => match x.status with
        | .present => { e with hold := x.content, holdAge := 0 }
        | .held => { e with holdAge := x.holdAge, counts := { e.counts with heldEmitted := satInc e.counts.heldEmitted } }
        | .absent => { e with counts := { e.counts with absentEmitted := satInc e.counts.absentEmitted } }
        | .overridden => e
    let t := grant { s with
      table := { s.table with streams := s.table.streams.map moved }
      comp := { s.comp with set := some { c with queued := c.queued + 1 } }
      egress := { s.egress with o := s.egress.o ++ [p.frame] } }
    exec .queuePart s = .next (if c.queued + 1 = c.parts.length then settle (depart true t) else t)

/-- A falling edge sets quiesce-seen, and with QUIESCE_ENABLE on latches QUIESCED, discards the waiting parts and lets the
heads that must leave go withheld; while the part takes no event it moves the line's level alone (log 34); a rising edge moves
the level alone; CLEAR_QUIESCE is refused while the line is low and
clears both indications while it is high, the head then considered
again (R140, R142, R143). SET_EMISSION sets the mode at once and lets a waiting head be
decided again; a value beyond the three is BAD_FIELD (R125, R133). That both consider the head before their reply is built is the
model's choice (log 28). -/
def Obligations.QuiesceAndEmission : Prop :=
  ((∀ s : State, s.operating = true → exec .quiesceEvent s = .next
      (if s.table.params.quiesceEnable = true then
        settle { s with comp := { s.comp with lineLow := true, seen := true, quiesced := true }, egress := { s.egress with o := [] } }
      else { s with comp := { s.comp with lineLow := true, seen := true } })) ∧
    (∀ s : State, s.operating = false → exec .quiesceEvent s = .next { s with comp := { s.comp with lineLow := true } }) ∧
    (∀ s : State, exec .quiesceLineRise s = .next { s with comp := { s.comp with lineLow := false } }) ∧
    (∀ (s : State) (f : CtrlFrame) (q : List CtrlFrame), s.operating = true → s.ctl.queue = f :: q → f.re.code = 0x25#8 → f.args = [] →
      exec .clearQuiesce s = .next
        (if s.comp.lineLow = true then reply f.re .lineAsserted [] (s.popped q)
        else reply f.re .ok [] (settle { s.popped q with comp := { s.comp with seen := false, quiesced := false } })))) ∧
  (∀ (s : State) (f : CtrlFrame) (q : List CtrlFrame) (b : Byte), s.operating = true → s.ctl.queue = f :: q → f.re.code = 0x24#8 →
      f.args = [b] →
      (b = 0#8 → exec .setEmission s = .next (reply f.re .ok [] (settle { s.popped q with comp := { s.comp with mode := .run } }))) ∧
      (b = 1#8 → exec .setEmission s = .next (reply f.re .ok [] (settle { s.popped q with comp := { s.comp with mode := .withhold } }))) ∧
      (b = 2#8 → exec .setEmission s = .next (reply f.re .ok [] (settle { s.popped q with comp := { s.comp with mode := .single } }))) ∧
      (2 < b.toNat → exec .setEmission s = .next (reply f.re .badField [] (s.popped q))))

/-! ### The Time Reference Unit -/

/-- A PPS edge in ACQUIRING becomes the edge reference and moves the acquisition streak by R111's table; the third of a
streak sets the mapping and locks. That the label of a streak of 0 is 0 is the model's choice (log 27). -/
def Obligations.AcquisitionStreak : Prop :=
  ∀ s : State, s.operating = true → s.tru.state = .acquiring →
    let regular := ∃ r, s.tru.edgeRef = some r ∧ 999000 ≤ s.tick - r ∧ s.tick - r ≤ 1001000
    ∀ isRegular isIrregular : Bool, (isRegular = true ↔ regular) → (isIrregular = true ↔ s.tru.edgeRef ≠ none ∧ ¬ regular) →
    let t := edgeTaken isRegular isIrregular s
    (s.time.buffer = none → exec .ppsEdge s = .next
      { t with tru := { s.tru with edgeRef := some s.tick, streak := 0, streakLabel := 0 } }) ∧
    (∀ m, s.time.buffer = some m →
      (¬ (isRegular = true ∧ s.tru.streak ≠ 0 ∧ m.label = s.tru.streakLabel + 1) → exec .ppsEdge s = .next
        { t with tru := { s.tru with edgeRef := some s.tick, streak := 1, streakLabel := m.label } }) ∧
      (isRegular = true → s.tru.streak = 1 → m.label = s.tru.streakLabel + 1 → exec .ppsEdge s = .next
        { t with tru := { s.tru with edgeRef := some s.tick, streak := 2, streakLabel := m.label } }) ∧
      (isRegular = true → s.tru.streak = 2 → m.label = s.tru.streakLabel + 1 → exec .ppsEdge s = .next
        { t with
          tru := { state := .locked, edgeRef := some s.tick, streak := 0, streakLabel := 0, mapping := some ⟨m.label, s.tick⟩
                   watchdog := some (s.tick + 1001000), mismatch := none, holdEntry := none, lastMsg := some m.source }
          strobe := { t.strobe with lastPulsed := none } }))

/-- A PPS edge in LOCKED: a regular one renews the mapping with its flywheel label and rearms the watchdog; a first mismatch
is applied so too and left pending; a second that continues it is a step, which flushes the ring; an irregular one is counted
and no more (R108, R112, R113, R114, R115). That the label of the step's streak of 0 is 0 is the model's choice (log 27). -/
def Obligations.LockedEdges : Prop :=
  ∀ (s : State) (mp : Mapping) (r : Nat), s.operating = true → s.tru.state = .locked → s.tru.mapping = some mp →
    s.tru.edgeRef = some r →
    let fly := mp.label + (s.tick - mp.tick + 500000) / 1000000
    let renewed := fun (mismatch : Option Nat) (msg : Option MsgQuality) =>
      epochJump s.refNow { edgeTaken true false s with tru := { s.tru with
        edgeRef := some s.tick, mapping := some ⟨fly, s.tick⟩, watchdog := some (s.tick + 1001000), mismatch := mismatch
        lastMsg := msg } }
    (¬ (999000 ≤ s.tick - r ∧ s.tick - r ≤ 1001000) → exec .ppsEdge s = .next (edgeTaken false true s)) ∧
    (999000 ≤ s.tick - r → s.tick - r ≤ 1001000 →
      (s.time.buffer = none → exec .ppsEdge s = .next (renewed none s.tru.lastMsg)) ∧
      (∀ m, s.time.buffer = some m →
        (m.label = fly → exec .ppsEdge s = .next (renewed none (some m.source))) ∧
        (m.label ≠ fly → (∀ p, s.tru.mismatch = some p → m.label ≠ p + 1) →
          exec .ppsEdge s = .next (renewed (some m.label) s.tru.lastMsg)) ∧
        (∀ p, m.label ≠ fly → s.tru.mismatch = some p → m.label = p + 1 → exec .ppsEdge s = .next (flushStep (report .steps
          { edgeTaken true false s with
            tru := { state := .locked, edgeRef := some s.tick, streak := 0, streakLabel := 0, mapping := some ⟨m.label, s.tick⟩
                     watchdog := some (s.tick + 1001000), mismatch := none, holdEntry := none, lastMsg := some m.source }
            strobe := { (edgeTaken true false s).strobe with lastPulsed := none } })))))

/-- A PPS edge in HOLDOVER becomes the edge reference; a regular unlabelled or matching one returns the unit to LOCKED on the
flywheel scale, a mismatch is left pending, and one that continues the pending one is a step (R113, R115, R116). That the
streak label is 0 after the return and after the step is the model's choice (log 27). -/
def Obligations.HoldoverEdges : Prop :=
  ∀ (s : State) (mp : Mapping), s.operating = true → s.tru.state = .holdover → s.tru.mapping = some mp →
    let regular := ∃ r, s.tru.edgeRef = some r ∧ 999000 ≤ s.tick - r ∧ s.tick - r ≤ 1001000
    let fly := mp.label + (s.tick - mp.tick + 500000) / 1000000
    let locked := fun (label : Nat) (msg : Option MsgQuality) =>
      ({ state := .locked, edgeRef := some s.tick, streak := 0, streakLabel := 0, mapping := some ⟨label, s.tick⟩
         watchdog := some (s.tick + 1001000), mismatch := none, holdEntry := none, lastMsg := msg } : Tru)
    (∀ r, s.tru.edgeRef = some r → ¬ regular → exec .ppsEdge s = .next
      { edgeTaken false true s with tru := { s.tru with edgeRef := some s.tick } }) ∧
    (regular →
      (s.time.buffer = none → exec .ppsEdge s = .next
        (epochJump s.refNow { edgeTaken true false s with tru := locked fly s.tru.lastMsg })) ∧
      (∀ m, s.time.buffer = some m →
        (m.label = fly → exec .ppsEdge s = .next
          (epochJump s.refNow { edgeTaken true false s with tru := locked fly (some m.source) })) ∧
        (m.label ≠ fly → (∀ p, s.tru.mismatch = some p → m.label ≠ p + 1) → exec .ppsEdge s = .next
          { edgeTaken true false s with tru := { s.tru with edgeRef := some s.tick, mismatch := some m.label } }) ∧
        (∀ p, m.label ≠ fly → s.tru.mismatch = some p → m.label = p + 1 → exec .ppsEdge s = .next (flushStep (report .steps
          { edgeTaken true false s with
            tru := locked m.label (some m.source)
            strobe := { (edgeTaken true false s).strobe with lastPulsed := none } })))))

/-- The watchdog's expiry passes LOCKED to HOLDOVER, and with a holdover limit of 0 on to ACQUIRING in the one event; the
holdover time reaching its limit passes HOLDOVER to ACQUIRING without the mapping (R114, R117, R122). The clock quality of
R119's table, and the message quality it rests on. Reference now, while a mapping exists: the mapping label in microseconds and
the ticks since the mapping tick (R118). The model's choices in it: the streak label is 0 after the passage to ACQUIRING (log 27),
reference now runs on past the last second of the SOE scale (log 43), and a tick difference below 0 is 0 (log 22). -/
def Obligations.HoldoverAndClockQuality : Prop :=
  (∀ s : State, s.operating = true →
      (∀ w, s.tru.state = .locked → s.tru.watchdog = some w → w ≤ s.tick →
        (0 < s.table.params.holdoverS → exec .edgeWatchdogExpiry s = .next { s with
          tru := { s.tru with state := .holdover, watchdog := none, holdEntry := some s.tick, mismatch := none } }) ∧
        (s.table.params.holdoverS = 0 → exec .edgeWatchdogExpiry s = .next { s with
          tru := { s.tru with state := .acquiring, watchdog := none, holdEntry := none, mismatch := none, mapping := none, streak := 0
                              streakLabel := 0 }
          strobe := { s.strobe with lastPulsed := none } })) ∧
      (∀ e, s.tru.state = .holdover → s.tru.holdEntry = some e → e + s.table.params.holdoverS * 1000000 ≤ s.tick →
        exec .holdoverLimitReached s = .next { s with
          tru := { s.tru with state := .acquiring, holdEntry := none, mapping := none, streak := 0, streakLabel := 0, mismatch := none }
          strobe := { s.strobe with lastPulsed := none } })) ∧
  (∀ (s : State) (m : MsgQuality), s.tru.lastMsg = some m →
      let q := if m.holdover = true then min 7 (m.quality + 1) else m.quality
      (s.tru.state = .acquiring → s.clockQuality = 7) ∧
      (s.tru.state = .locked → s.clockQuality = q) ∧
      (∀ e, s.tru.state = .holdover → s.tru.holdEntry = some e → s.clockQuality = min 7 (q + (s.tick - e) / 60000000))) ∧
  (∀ s : State, (s.tru.mapping = none → s.refNow = none) ∧
      ∀ m, s.tru.mapping = some m → s.refNow = some (m.label * 1000000 + (s.tick - m.tick)))

/-- Characters of the TIME line, as sampled bits (log 25). One begun before a start or before a change of the line's setting, or
before the line was high again after a framing error, is not taken (R104, R106). A framing error counts alone, discards the
message in progress and waits for the line to return high; a parity error counts and discards; the start character begins a
message wherever it stands, another character out of place discards it, and a character between messages is disregarded (R104,
R105). What fits each position is the table of R105. Thirteen characters `<`, ten digits, a quality digit and `L` or `H`, closed
by `>` with the parity that is set, place their message in the buffer, with an overrun when it replaces one; a second past the
SOE scale is a framing error instead (R105, R106). -/
def Obligations.TimeCharactersMakeMessages : Prop :=
  (∀ (c : TimeChar) (s : State), c.period ≠ s.time.period ∨ (s.time.waitHigh = true ∧ c.sawHigh = false) →
      exec (.timeCharacter c) s = .next s) ∧
  (∀ (c : TimeChar) (s : State), s.operating = true → c.period = s.time.period → (s.time.waitHigh = true → c.sawHigh = true) →
      let parityGood := match s.table.params.parity with
        | .none => true
        | .even => (((List.range 8).countP fun i => c.data.getLsbD i) + c.parityBit.toNat) % 2 == 0
        | .odd => (((List.range 8).countP fun i => c.data.getLsbD i) + c.parityBit.toNat) % 2 == 1
      let at_ := fun (cs : List Byte) => { s with time := { s.time with chars := cs, waitHigh := false } }
      (c.stopBit = false → exec (.timeCharacter c) s = .next
        (report .timeFraming { s with time := { s.time with chars := [], waitHigh := true } })) ∧
      (c.stopBit = true → parityGood = false → exec (.timeCharacter c) s = .next (report .timeParity (at_ []))) ∧
      (c.stopBit = true → parityGood = true →
        (s.time.chars = [] → c.data ≠ 0x3C#8 → exec (.timeCharacter c) s = .next (at_ [])) ∧
        (s.time.chars = [] → c.data = 0x3C#8 → exec (.timeCharacter c) s = .next (at_ [0x3C#8])) ∧
        (s.time.chars ≠ [] → c.data = 0x3C#8 → exec (.timeCharacter c) s = .next (report .timeFraming (at_ [0x3C#8]))) ∧
        (s.time.chars ≠ [] → c.data ≠ 0x3C#8 → fitsPosition (s.time.chars.length + 1) c.data = false →
          exec (.timeCharacter c) s = .next (report .timeFraming (at_ []))) ∧
        (s.time.chars ≠ [] → c.data ≠ 0x3C#8 → fitsPosition (s.time.chars.length + 1) c.data = true → s.time.chars.length ≠ 13 →
          exec (.timeCharacter c) s = .next (at_ (s.time.chars ++ [c.data]))))) ∧
  (∀ b : Byte,
      (∀ i, 2 ≤ i → i ≤ 11 → (fitsPosition i b = true ↔ 0x30 ≤ b.toNat ∧ b.toNat ≤ 0x39)) ∧
      (fitsPosition 12 b = true ↔ 0x30 ≤ b.toNat ∧ b.toNat ≤ 0x37) ∧
      (fitsPosition 13 b = true ↔ b = 0x4C#8 ∨ b = 0x48#8) ∧ (fitsPosition 14 b = true ↔ b = 0x3E#8)) ∧
  (∀ (s : State) (ds : Fin 10 → Fin 10) (quality : Fin 8) (holdover sawHigh parityBit : Bool), s.operating = true →
      (match s.table.params.parity with | .none => True | .even => parityBit = true | .odd => parityBit = false) →
      (s.time.waitHigh = true → sawHigh = true) →
      s.time.chars = 0x3C#8 :: (List.ofFn fun i => BitVec.ofNat 8 (0x30 + (ds i).val)) ++
        [BitVec.ofNat 8 (0x30 + quality.val), if holdover then 0x48#8 else 0x4C#8] →
      let label := (List.ofFn fun i => (ds i).val).foldl (fun acc d => acc * 10 + d) 0
      let c : TimeChar := { data := 0x3E#8, parityBit := parityBit, stopBit := true, period := s.time.period, sawHigh := sawHigh }
      (label ≤ 4294967295 → exec (.timeCharacter c) s = .next
        { (if s.time.buffer = none then s else report .timeOverrun s) with
          time := { s.time with chars := [], waitHigh := false
                                buffer := some { label := label, source := { quality := quality.val, holdover := holdover } } } }) ∧
      (4294967295 < label → exec (.timeCharacter c) s = .next
        (report .timeFraming { s with time := { s.time with chars := [], waitHigh := false } })))

/-- STROBE: a pulse begins only while none is in progress and lasts 10 µs; its end drives the line low (R121). An EPOCH pulse
falls due when reference now reaches the instant above the last pulsed ordinal, or, where that is absent, at the first grid
instant at or after reference now, and its ordinal becomes the last pulsed one; a forward jump past the instant next due gives one
pulse, and the greatest ordinal reached becomes the last pulsed one (R122). A pulse of source PPS or EMIT is produced when that
source is selected (R123). The model's choices in it: what falls due at the very end of a pulse begins another (log 40),
which events make the last pulsed ordinal absent (log 36), and pulses go on past the last second of the SOE scale (log 43). -/
def Obligations.StrobePulses : Prop :=
  ∀ s : State,
    let rates := [10, 25, 30, 50, 60, 100, 120]
    let pulse := match s.strobe.endTick with
      | some x => if s.tick < x then some x else some (s.tick + 10)
      | none => some (s.tick + 10)
    let instant := instantUs s.table.params.rate
    (s.operating = true →
      (∀ e, s.strobe.endTick = some e → e ≤ s.tick → exec .strobePulseEnd s = .next { s with strobe := { s.strobe with endTick := none } }) ∧
      (∀ e, s.strobe.endTick = some e → s.tick < e → exec .strobePulseEnd s = .next s) ∧
      (∀ e now, s.table.params.strobe = .epoch → s.refNow = some now → s.strobe.lastPulsed = some e →
        (instant (e + 1) ≤ now → exec .epochPulse s = .next { s with strobe := { endTick := pulse, lastPulsed := some (e + 1) } }) ∧
        (now < instant (e + 1) → exec .epochPulse s = .next s)) ∧
      (∀ now, s.table.params.strobe = .epoch → s.refNow = some now → s.strobe.lastPulsed = none → s.table.params.rate ∈ rates →
        (∀ e, instant e = now → exec .epochPulse s = .next { s with strobe := { endTick := pulse, lastPulsed := some e } }) ∧
        ((∀ e, instant e ≠ now) → exec .epochPulse s = .next s)) ∧
      (s.table.params.strobe ≠ .epoch ∨ s.refNow = none → exec .epochPulse s = .next s)) ∧
    (∀ was now due reached, s.table.params.strobe = .epoch → s.refNow = some now → s.table.params.rate ∈ rates →
      (∀ e, s.strobe.lastPulsed = some e → due = e + 1) →
      (s.strobe.lastPulsed = none → was ≤ instant due ∧ ∀ e, e < due → instant e < was) →
      instant reached ≤ now → now < instant (reached + 1) →
      (was < now → instant due ≤ now →
        epochJump (some was) s = { s with strobe := { endTick := pulse, lastPulsed := some reached } }) ∧
      (now ≤ was ∨ now < instant due → epochJump (some was) s = s)) ∧
    (∀ was, s.table.params.strobe ≠ .epoch ∨ was = none ∨ s.refNow = none → epochJump was s = s) ∧
    (∀ source, strobeFrom source s =
      if s.table.params.strobe = source then { s with strobe := { s.strobe with endTick := pulse } } else s)

/-! ### The Monitor -/

/-- Reports raise their counter in RUN while no freeze stands, up to the largest value, and nothing else; otherwise they
raise nothing (R189, R190, R192). The counters stand in the order of R189's positions. The latency histogram: a negative latency raises the early count, another the bin of its
whole milliseconds, and no other count moves; in HOLD and while a freeze stands nothing is recorded (R190, R192, R193).
ELAPSED counts whole milliseconds of RUN up to its largest value, where the Monitor freezes (R191, R192). -/
def Obligations.MonitorCounts : Prop :=
  (∀ (c : Ctr) (s : State),
      (s.mon.hold = false → s.mon.frozen = false →
        report c s = { s with mon := { s.mon with counters := (report c s).mon.counters } } ∧
        (report c s).mon.counters[c.pos].toNat = min 4294967295 (s.mon.counters[c.pos].toNat + 1) ∧
        ∀ d : Ctr, d ≠ c → (report c s).mon.counters[d.pos] = s.mon.counters[d.pos]) ∧
      (s.mon.hold = true ∨ s.mon.frozen = true → report c s = s) ∧
      reportMany c 0 s = s ∧ ∀ n, reportMany c (n + 1) s = report c (reportMany c n s)) ∧
  ((∀ w : Word, (satInc w).toNat = min 4294967295 (w.toNat + 1)) ∧
    [Ctr.framesInA, .framesInB, .checkBad, .unknownKind, .malformed, .unknownStream, .isolatedDrop, .shape, .badLabel, .offGrid
      , .duplicate, .collision, .late, .afterSeal, .ahead, .horizon, .storeFull, .draining, .sealComplete, .sealDeadline, .sealCrowded
      , .sealFlush, .sealStep, .withheld, .flushed, .setsEmitted, .partsEmitted, .stragglersOut, .stragglerDrop, .ctrlShed, .notMine
      , .loop, .hop, .timeParity, .timeFraming, .timeOverrun, .unlabelled, .irregular, .steps].map (fun c => c.pos.val)
      = List.range 39) ∧
  (∀ (w us : Nat) (s : State), 0 < w →
      (s.mon.hold = false → s.mon.frozen = false →
        recordLatency w none s = { s with mon := { s.mon with early := satInc s.mon.early } } ∧
        recordLatency w (some us) s = { s with mon := { s.mon with bins := (recordLatency w (some us) s).mon.bins } } ∧
        ∀ i : Fin 16, (recordLatency w (some us) s).mon.bins[i] =
          if i.val = min 15 (us / 1000 / w) then satInc s.mon.bins[i] else s.mon.bins[i]) ∧
      (s.mon.hold = true ∨ s.mon.frozen = true → ∀ l, recordLatency w l s = s)) ∧
  ((∀ m : Monitor, m.remainder < 1000 →
      (m.hold = false → m.frozen = false → m.elapsed.toNat < 4294967295 →
        m.advance.elapsed.toNat * 1000 + m.advance.remainder = m.elapsed.toNat * 1000 + m.remainder + 1 ∧ m.advance.remainder < 1000 ∧
        m.advance = { m with elapsed := m.advance.elapsed, remainder := m.advance.remainder }) ∧
      (m.hold = true ∨ m.frozen = true ∨ m.elapsed.toNat = 4294967295 → m.advance = m)) ∧
    (∀ s : State, s.operating = true → s.mon.elapsed = 0xFFFFFFFF#32 → s.mon.frozen = false →
      exec .elapsedFreeze s = .next { s with mon := { s.mon with frozen := true, remainder := 0 } }))

/-- SNAPSHOT_COUNTERS replies with every count as it stood, in R196's order, and clears them all in the one event, lifting a
freeze and keeping the condition; MONITOR_RUN and MONITOR_HOLD set the condition and reply with the former one (R190, R195,
R196). -/
def Obligations.MonitorCommands : Prop :=
  ∀ (s : State) (f : CtrlFrame) (q : List CtrlFrame), s.operating = true → s.ctl.queue = f :: q → f.args = [] →
    (f.re.code = 0x40#8 → exec .snapshotCounters s = .next (reply f.re .ok
      ([if s.mon.hold then 1#8 else 0#8] ++ be 1 s.table.params.widthMs ++ be 4 s.mon.elapsed.toNat
        ++ s.mon.counters.toList.flatMap (fun w => be 4 w.toNat) ++ be 4 s.mon.early.toNat
        ++ s.mon.bins.toList.flatMap fun w => be 4 w.toNat)
      { s.popped q with mon := { counters := .replicate 39 0, bins := .replicate 16 0, early := 0, elapsed := 0, remainder := 0
                                 hold := s.mon.hold, frozen := false } })) ∧
    (f.re.code = 0x41#8 → exec .monitorRun s = .next (reply f.re .ok [if s.mon.hold then 1#8 else 0#8]
      { s.popped q with mon := { s.mon with hold := false } })) ∧
    (f.re.code = 0x42#8 → exec .monitorHold s = .next (reply f.re .ok [if s.mon.hold then 1#8 else 0#8]
      { s.popped q with mon := { s.mon with hold := true } }))

/-! ### The Profile Store -/

/-- SAVE_PROFILE is refused while a write lasts, and otherwise takes its snapshot, begins to overwrite the image and keeps
its reservation (R187, R199, R200). The image written ends with the CRC-32 of R2 over its content; at the write's end it is read
back, and its check gives the state and the reply; a write read back as it was written has a correct check (R198, R199). An image
is GOOD when its check is correct and its content acceptable: no stream ID twice, region not 31, every field in the range its
staging command accepts (R33, R52, R177); such content reads back as the image it was built from, and a cut-off write and a storage never written
hold none (R198, R200). The model's choices in it are the layout of the content and that the sender says which bytes were read
back otherwise than written, and when (log 24). -/
def Obligations.SaveProfileAndItsWrite : Prop :=
  (∀ (s : State) (f : CtrlFrame) (q : List CtrlFrame), s.operating = true → s.ctl.queue = f :: q → f.re.code = 0x50#8 → f.args = [] →
    exec .saveProfile s = .next
      (if s.store.state = .writing then reply f.re .storeBusy [] (s.popped q)
      else { s.popped q with store :=
        { image := .broken, state := .writing, saveFor := some f.re
          writing := some { params := s.table.params, mode := s.comp.mode, ranges := s.table.ranges
                            streams := s.table.streams.map fun e => (e.idx, e.cfg) } } })) ∧
  (∀ (s : State) (i : Image) (re : ReplyTo) (damage : List (Nat × Byte)), s.operating = true → s.store.writing = some i →
    s.store.saveFor = some re →
    let written := i.content ++ be 4 (crc32 i.content).toNat
    let bs := damage.foldl (fun (l : List Byte) d => l.set d.1 d.2) written
    let good := field bs (bs.length - 4) 4 = (crc32 (bs.take (bs.length - 4))).toNat
    (good → exec (.profileWriteComplete damage) s = .next (reply re .ok []
      { s with store := { image := .bytes bs, state := .good, writing := none, saveFor := none } })) ∧
    (¬ good → exec (.profileWriteComplete damage) s = .next (reply re .storeFault []
      { s with store := { image := .bytes bs, state := .bad, writing := none, saveFor := none } })) ∧
    exec (.profileWriteComplete []) s = .next (reply re .ok []
      { s with store := { image := .bytes written, state := .good, writing := none, saveFor := none } })) ∧
  (∀ i : Image,
    (i.acceptable = true ↔ (i.streams.map fun p => p.2.id).Nodup ∧ i.params.region ≠ 31 ∧ i.params.inRange = true ∧
      (∀ p ∈ i.streams, p.2.inRange = true) ∧ ∀ r ∈ i.ranges.toList, r.inRange = true ∧ r.aligned = true) ∧
    (i.streams.Pairwise (fun a b => a.1 < b.1) → (∀ p ∈ i.streams, p.1 < 256) → i.acceptable = true →
      readImage i.content = some i ∧ (Stored.bytes (i.content ++ be 4 (crc32 i.content).toNat)).goodImage = some i)) ∧
  (∀ (p : Params) (c : StreamCfg) (r : RangeEntry),
    (p.inRange = true ↔ p.rate ∈ [10, 25, 30, 50, 60, 100, 120] ∧ 1 ≤ p.budgetMs ∧ p.budgetMs ≤ 4000 ∧ p.aheadMs ≤ 2000 ∧
      p.region ≤ 31 ∧ 0x0600 ≤ p.payloadType.toNat ∧ 1 ≤ p.burst ∧ p.burst ≤ 255 ∧ p.holdoverS ≤ 3600 ∧
      p.baud ∈ [4800, 9600, 19200, 38400] ∧ p.tqMax ≤ 7 ∧ 1 ≤ p.widthMs ∧ p.widthMs ≤ 255) ∧
    (c.inRange = true ↔ 1 ≤ c.id ∧ c.id ≤ 65534 ∧ 1 ≤ c.tb ∧ c.tb ≤ 16777215 ∧ 1 ≤ c.rs ∧ c.rs ≤ 240 ∧ c.tol ≤ 50000 ∧
      c.phasors ≤ 16 ∧ c.analogs ≤ 8 ∧ c.holdLimit ≤ 15 ∧ c.tqMax ≤ 7 ∧ 1 ≤ c.hysteresis ∧ c.hysteresis ≤ 15 ∧ 10 ≤ c.silenceMs ∧
      c.silenceMs ≤ 60000) ∧
    (r.inRange = true ∧ r.aligned = true ↔ (∃ k : Nat, k ≤ 16 ∧ r.size = 2 ^ k) ∧ r.base ≤ 65535 ∧ r.base % r.size = 0)) ∧
  (Stored.blank.goodImage = none ∧ Stored.broken.goodImage = none ∧
    ∀ bs content : List Byte, ∀ check : Nat, check < 4294967296 → bs = content ++ be 4 check →
      (check ≠ (crc32 content).toNat → (Stored.bytes bs).goodImage = none) ∧
      (check = (crc32 content).toNat → readImage content = none → (Stored.bytes bs).goodImage = none) ∧
      (∀ i, check = (crc32 content).toNat → readImage content = some i →
        (Stored.bytes bs).goodImage = if i.acceptable = true then some i else none))

/-! ### The Control Unit -/

/-- A frame at the head of the command queue whose arguments have another length than its command's, for SET_OVERRIDE the
length its list's count gives, is answered BAD_LENGTH and leaves the rest of the part as it stood (R173, R174). An on/off byte
other than 0 or 1, or a named value beyond its list, is answered BAD_FIELD (R12, R173); that the four attributes of STAGE_RANGE
are such bytes is the model's choice (log 44). An unlisted command code is answered
UNKNOWN_COMMAND (R12, R173). While a commit waits, a staging command whose length and encoding are right is refused
COMMIT_PENDING and the staged set stands (R178). -/
def Obligations.RefusalsBeforeACommandActs : Prop :=
  (∀ x ∈ argumentLengths, ∀ (s : State) (f : CtrlFrame) (q : List CtrlFrame), s.operating = true → s.ctl.queue = f :: q →
      f.re.code.toNat = x.2.1 → f.args.length ≠ x.2.2 → exec x.1 s = .next (reply f.re .badLength [] (s.popped q))) ∧
  (∀ (s : State) (f : CtrlFrame) (q : List CtrlFrame), s.operating = true → s.ctl.queue = f :: q →
      f.re.code.toNat ∉ [0x10, 0x11, 0x12, 0x13, 0x14, 0x15, 0x20, 0x21, 0x22, 0x23, 0x24, 0x25, 0x30, 0x31, 0x32, 0x33, 0x40, 0x41,
        0x42, 0x50, 0x51] →
      exec .unknownCommand s = .next (reply f.re .unknownCommand [] (s.popped q))) ∧
  (∀ (s : State) (f : CtrlFrame) (q : List CtrlFrame), s.operating = true → s.ctl.queue = f :: q →
      let beyond := fun (top i : Nat) => top < field f.args i 1
      let badField := .next (reply f.re .badField [] (s.popped q))
      (f.re.code = 0x10#8 → f.args.length = 19 → beyond 1 11 ∨ beyond 1 12 ∨ beyond 1 13 → exec .stageStream s = badField) ∧
      (f.re.code = 0x12#8 → f.args.length = 12 → beyond 1 1 ∨ beyond 1 8 ∨ beyond 1 9 ∨ beyond 1 10 ∨ beyond 1 11 →
        exec .stageRange s = badField) ∧
      (f.re.code = 0x13#8 → f.args.length = 20 → beyond 1 1 ∨ beyond 2 14 ∨ beyond 3 16 ∨ beyond 1 18 ∨ beyond 1 19 →
        exec .stageParams s = badField) ∧
      (f.re.code = 0x22#8 →
        (f.args.length < 7 ∨ f.args.length ≠ 7 + 6 * field f.args 6 1 →
          exec .setOverride s = .next (reply f.re .badLength [] (s.popped q))) ∧
        (7 ≤ f.args.length → f.args.length = 7 + 6 * field f.args 6 1 → beyond 2 2 ∨ beyond 1 3 → exec .setOverride s = badField)) ∧
      (f.re.code = 0x23#8 → f.args.length = 3 → beyond 1 2 → exec .clearOverride s = badField) ∧
      (f.re.code = 0x24#8 → f.args.length = 1 → beyond 2 0 → exec .setEmission s = badField) ∧
      (f.re.code = 0x31#8 → f.args.length = 3 → beyond 1 2 → exec .readStream s = badField)) ∧
  (∀ (s : State) (f : CtrlFrame) (q : List CtrlFrame), s.operating = true → s.ctl.queue = f :: q → s.ctl.commit ≠ .none →
      let onOffAt := fun i => field f.args i 1 ≤ 1
      let refused := .next (reply f.re .commitPending [] (s.popped q))
      (f.re.code = 0x10#8 → f.args.length = 19 → onOffAt 11 → onOffAt 12 → onOffAt 13 → exec .stageStream s = refused) ∧
      (f.re.code = 0x11#8 → f.args.length = 2 → exec .unstageStream s = refused) ∧
      (f.re.code = 0x12#8 → f.args.length = 12 → onOffAt 1 → onOffAt 8 → onOffAt 9 → onOffAt 10 → onOffAt 11 →
        exec .stageRange s = refused) ∧
      (f.re.code = 0x13#8 → f.args.length = 20 → field f.args 1 1 ≤ 1 → field f.args 14 1 ≤ 2 → field f.args 16 1 ≤ 3 →
        onOffAt 18 → onOffAt 19 → exec .stageParams s = refused) ∧
      (f.re.code = 0x14#8 → f.args.length = 0 → exec .discardStage s = refused))

/-- STAGE_STREAM takes its thirteen arguments in the order and the widths of R174 and refuses a field outside its range of R33, and
a table without room; otherwise it writes the entry in place by its stream ID, or at the lowest VACANT index, and replies with
that index; every other staged index keeps its entry (R33, R34, R174, R175). -/
def Obligations.StageStreamWritesByStreamId : Prop :=
  ∀ (s : State) (f : CtrlFrame) (q : List CtrlFrame) (c : StreamCfg), s.operating = true → s.ctl.queue = f :: q → f.re.code = 0x10#8 →
    s.ctl.commit = .none →
    f.args = be 2 c.id ++ be 4 c.tb ++ be 1 c.rs ++ be 2 c.tol ++ be 1 c.phasors ++ be 1 c.analogs ++ onOff c.correct ++ onOff c.optional
      ++ onOff c.straggle ++ be 1 c.holdLimit ++ be 1 c.tqMax ++ be 1 c.hysteresis ++ be 2 c.silenceMs →
    c.id < 65536 → c.tb < 4294967296 → c.rs < 256 → c.tol < 65536 → c.phasors < 256 → c.analogs < 256 → c.holdLimit < 256 →
    c.tqMax < 256 → c.hysteresis < 256 → c.silenceMs < 65536 →
    s.ctl.staged.streams.Pairwise (fun a b => a.1 < b.1) →
    let accepted := 1 ≤ c.id ∧ c.id ≤ 65534 ∧ 1 ≤ c.tb ∧ c.tb ≤ 16777215 ∧ 1 ≤ c.rs ∧ c.rs ≤ 240 ∧ c.tol ≤ 50000 ∧ c.phasors ≤ 16 ∧
      c.analogs ≤ 8 ∧ c.holdLimit ≤ 15 ∧ c.tqMax ≤ 7 ∧ 1 ≤ c.hysteresis ∧ c.hysteresis ≤ 15 ∧ 10 ≤ c.silenceMs ∧ c.silenceMs ≤ 60000
    (¬ accepted → exec .stageStream s = .next (reply f.re .badField [] (s.popped q))) ∧
    (accepted → (∀ p ∈ s.ctl.staged.streams, p.2.id ≠ c.id) → (∀ i, i < 256 → ∃ p ∈ s.ctl.staged.streams, p.1 = i) →
      exec .stageStream s = .next (reply f.re .noRoom [] (s.popped q))) ∧
    (∀ i, accepted →
      (∃ p ∈ s.ctl.staged.streams, p = (i, p.2) ∧ p.2.id = c.id ∧ ∀ p' ∈ s.ctl.staged.streams, p'.2.id = c.id → p' = p) ∨
        ((∀ p ∈ s.ctl.staged.streams, p.2.id ≠ c.id ∧ p.1 ≠ i) ∧ i < 256 ∧ ∀ j, j < i → ∃ p ∈ s.ctl.staged.streams, p.1 = j) →
      ∃ es, exec .stageStream s = .next (reply f.re .ok (be 1 i)
          { s.popped q with ctl := { (s.popped q).ctl with staged := { s.ctl.staged with streams := es } } }) ∧
        es.Pairwise (fun a b => a.1 < b.1) ∧ ∀ p, p ∈ es ↔ p = (i, c) ∨ (p ∈ s.ctl.staged.streams ∧ p.1 ≠ i))

/-- UNSTAGE_STREAM makes VACANT the staged entry of an ID, or finds none; DISCARD_STAGE makes the staged set a copy of the
active one (R34, R176). STAGE_RANGE tests map index and size, then the base's alignment, and writes every field of the staged
entry (R52, R176). The model's choices in it: BAD_FIELD answers an entry at fault in both (log 41), and the four attributes are
on/off bytes, 01H for set (log 44). -/
def Obligations.UnstageDiscardAndStageRange : Prop :=
  (∀ (s : State) (f : CtrlFrame) (q : List CtrlFrame), s.operating = true → s.ctl.queue = f :: q → s.ctl.commit = .none →
      (f.re.code = 0x11#8 → f.args.length = 2 →
        ((∀ p ∈ s.ctl.staged.streams, p.2.id ≠ field f.args 0 2) →
          exec .unstageStream s = .next (reply f.re .unknownStream [] (s.popped q))) ∧
        (∀ p ∈ s.ctl.staged.streams, p.2.id = field f.args 0 2 → (s.ctl.staged.streams.map fun x => x.2.id).Nodup →
          exec .unstageStream s = .next (reply f.re .ok (be 1 p.1) { s.popped q with ctl := { (s.popped q).ctl with
            staged := { s.ctl.staged with streams := s.ctl.staged.streams.filter fun x => x.1 != p.1 } } }))) ∧
      (f.re.code = 0x14#8 → f.args = [] → exec .discardStage s = .next (reply f.re .ok [] { s.popped q with ctl := { (s.popped q).ctl with
        staged := { streams := s.table.streams.map fun e => (e.idx, e.cfg), ranges := s.table.ranges, params := s.table.params } } }))) ∧
  (∀ (s : State) (f : CtrlFrame) (q : List CtrlFrame), s.operating = true → s.ctl.queue = f :: q → f.re.code = 0x12#8 →
      s.ctl.commit = .none → f.args.length = 12 → field f.args 1 1 ≤ 1 → field f.args 8 1 ≤ 1 → field f.args 9 1 ≤ 1 →
      field f.args 10 1 ≤ 1 → field f.args 11 1 ≤ 1 →
      let i := field f.args 0 1
      let size := field f.args 4 4
      let written : RangeEntry :=
        { enable := field f.args 1 1 == 1, base := field f.args 2 2, size := size, optional := field f.args 8 1 == 1
          noCorrect := field f.args 9 1 == 1, straggle := field f.args 10 1 == 1, holdDeny := field f.args 11 1 == 1 }
      let goodSize := ∃ k : Nat, k ≤ 16 ∧ size = 2 ^ k
      ((7 < i ∨ ¬ goodSize) → exec .stageRange s = .next (reply f.re .badField [] (s.popped q))) ∧
      (i ≤ 7 → goodSize → field f.args 2 2 % size ≠ 0 → exec .stageRange s = .next (reply f.re .misaligned [] (s.popped q))) ∧
      (∀ h : i < 8, goodSize → field f.args 2 2 % size = 0 → exec .stageRange s = .next (reply f.re .ok [] { s.popped q with
        ctl := { (s.popped q).ctl with staged := { s.ctl.staged with ranges := s.ctl.staged.ranges.set i written h } } })))

/-- STAGE_PARAMS writes every field at once, or none when a field lies outside R177's table. -/
def Obligations.StageParamsWritesTheBlock : Prop :=
  ∀ (s : State) (f : CtrlFrame) (q : List CtrlFrame) (p : Params), s.operating = true → s.ctl.queue = f :: q → f.re.code = 0x13#8 →
    s.ctl.commit = .none → f.args.length = 20 →
    f.args = be 1 p.rate ++ be 1 (match p.base with | .timestamp => 0 | .firstArrival => 1) ++ be 2 p.budgetMs ++ be 2 p.aheadMs
      ++ be 1 p.region ++ be 2 p.payloadType.toNat ++ be 1 p.burst ++ be 2 p.holdoverS ++ be 2 p.baud
      ++ be 1 (match p.parity with | .even => 0 | .odd => 1 | .none => 2) ++ be 1 p.tqMax
      ++ be 1 (match p.strobe with | .off => 0 | .epoch => 1 | .pps => 2 | .emit => 3) ++ be 1 p.widthMs ++ onOff p.quiesceEnable
      ++ onOff p.composite →
    p.rate < 256 → p.budgetMs < 65536 → p.aheadMs < 65536 → p.region < 256 → p.burst < 256 → p.holdoverS < 65536 → p.baud < 65536 →
    p.tqMax < 256 → p.widthMs < 256 →
    let accepted := p.rate ∈ [10, 25, 30, 50, 60, 100, 120] ∧ 1 ≤ p.budgetMs ∧ p.budgetMs ≤ 4000 ∧ p.aheadMs ≤ 2000 ∧ p.region ≤ 31 ∧
      0x0600 ≤ p.payloadType.toNat ∧ 1 ≤ p.burst ∧ p.holdoverS ≤ 3600 ∧ p.baud ∈ [4800, 9600, 19200, 38400] ∧ p.tqMax ≤ 7 ∧
      1 ≤ p.widthMs
    (accepted → exec .stageParams s = .next (reply f.re .ok []
      { s.popped q with ctl := { (s.popped q).ctl with staged := { s.ctl.staged with params := p } } })) ∧
    (¬ accepted → exec .stageParams s = .next (reply f.re .badField [] (s.popped q)))

/-- COMMIT: BUSY while one waits; BAD_FIELD for region 31; applied at once with the ring empty; else pending at the next
boundary, or, when it changes the grid rate or the deadline base, flushing the ring and waiting for it to drain (R158, R179,
R183). -/
def Obligations.CommitIsPlacedByTheRing : Prop :=
  ∀ (s : State) (f : CtrlFrame) (q : List CtrlFrame), s.operating = true → s.ctl.queue = f :: q → f.re.code = 0x15#8 → f.args = [] →
    let u := { s.popped q with ctl := { (s.popped q).ctl with commitFor := some f.re } }
    let changes := s.ctl.staged.params.rate ≠ s.table.params.rate ∨ s.ctl.staged.params.base ≠ s.table.params.base
    (s.ctl.commit ≠ .none → exec .commit s = .next (reply f.re .busy [] (s.popped q))) ∧
    (s.ctl.commit = .none → s.ctl.staged.params.region = 31 → exec .commit s = .next (reply f.re .badField [] (s.popped q))) ∧
    (s.ctl.commit = .none → s.ctl.staged.params.region ≠ 31 →
      (s.ring.recs = [] → exec .commit s = .next (applyCommit u)) ∧
      (s.ring.recs ≠ [] → ¬ changes → exec .commit s = .next { u with ctl := { u.ctl with commit := .pendingBoundary } }) ∧
      (s.ring.recs ≠ [] → changes → exec .commit s = .next
        (flushCommit { u with ctl := { u.ctl with commit := .pendingDrain } })))

/-- The application of a commit, whether by COMMIT_APPLY or inside another event: the active set becomes the staged one, kept
streams keep their run-time fields (hold caches by R49, ordinals by R56), new ones start ENROLLED and removed ones end (R36, R41,
R51, R181). Each contribution held takes its stream's new index; one of a removed stream is withdrawn, its index none, and stands
after every other in its record's list, in the order of the former indexes; OPEN records are re-evaluated against the new table
(R95, R96, R182). A changed TIME setting abandons the character in reception and the message in progress (R106); a changed holdover limit
already reached drops the mapping (R117); a changed STROBE source or grid rate resets the EPOCH count (R122); QUIESCE_ENABLE
turned on with quiesce-seen set latches QUIESCED and discards the waiting parts (R141, R142). The generation rises, the commit
state is NONE, the staged set stands, and the reply APPLIED is built with the new generation (R181, R183). The model's choices in
it: COMMIT_APPLY applies a commit that waits at an empty ring (log 13), the reply APPLIED is built last in the event, so under the
new table with its node ID and payload type (log 28), where withdrawn contributions of several commits stand (log
12), a changed TIME setting enters the next line period (log 25), the streak label is 0 after a dropped mapping (log 27), and
a commit that changes the source in any way makes the last pulsed ordinal absent, one that keeps EPOCH does not (log 36). -/
def Obligations.CommitApplication : Prop :=
  (∀ s : State, s.operating = true → s.ctl.commit ≠ .none → s.ring.recs = [] → exec .commitApply s = .next (applyCommit s)) ∧
  (∀ s : State,
    let t := applyCommit s
    let old := s.table.params
    let new := s.ctl.staged.params
    let convert := fun (e : Nat) => e / old.rate * new.rate + e % old.rate * new.rate / old.rate
    let regrid := new.rate ≠ old.rate
    t.table.streams = s.ctl.staged.streams.map (fun p => match s.stream p.2.id with
      | none => enrolledEntry s.tick p.1 p.2
      | some e =>
        let lost := regrid ∨ e.cfg.phasors ≠ p.2.phasors ∨ e.cfg.analogs ≠ p.2.analogs
        { e with
          idx := p.1
          cfg := p.2
          hold := if lost then none else e.hold
          holdAge := if lost then 0 else min e.holdAge p.2.holdLimit
          lastEpoch := if regrid then e.lastEpoch.map convert else e.lastEpoch }) ∧
    t.table.ranges = s.ctl.staged.ranges ∧ t.table.params = new ∧ t.ctl.staged = s.ctl.staged ∧
    t.ctl.commit = .none ∧ t.ctl.commitFor = none ∧ t.ctl.generation = (s.ctl.generation + 1) % 65536 ∧ t.ctl.queue = s.ctl.queue ∧
    t.ring.floor = (if regrid then s.ring.floor.map convert else s.ring.floor) ∧
    t.ring.memory = (if regrid then [] else s.ring.memory) ∧ t.ring.floorTick = s.ring.floorTick ∧
    t.ring.stepDrain = s.ring.stepDrain ∧ t.ring.commitDrain = s.ring.commitDrain ∧ t.ring.stepMark = s.ring.stepMark ∧
    t.tick = s.tick ∧ t.links = s.links ∧ t.power = s.power ∧ t.store = s.store ∧ t.pending = s.pending ∧ t.free = s.free ∧
    t.adm.ingest = s.adm.ingest) ∧
  (∀ s : State,
    let t := applyCommit s
    let newIndex := fun (i : Nat) => (s.table.streams.find? fun e => e.idx == i).bind fun e =>
      (s.ctl.staged.streams.find? fun p => p.2.id == e.cfg.id).map (·.1)
    let moved := fun (c : Contribution) => match c.index with
      | none => c
      | some i => match newIndex i with
        | some j => { c with index := some j }
        | none => { c with index := none, former := some i }
    let ordered := fun (a b : Contribution) => match a.index, b.index with
      | some i, some j => i ≤ j
      | some _, none => True
      | none, none => a.former.getD 0 ≤ b.former.getD 0
      | none, some _ => False
    t.adm.offers = s.adm.offers.map (fun o => { o with contribution := moved o.contribution }) ∧
    t.ring.recs.length = s.ring.recs.length ∧
    (∀ (k : Nat) (r u : EpochRec), s.ring.recs[k]? = some r → t.ring.recs[k]? = some u →
      u.contributions.Perm (r.contributions.map moved) ∧ u.contributions.Pairwise ordered ∧
      let n := u.contributions.countP (countsPresent t.table r.ordinal)
      u = if r.state ≠ .opened then { r with contributions := u.contributions }
        else if n = requiredCount t.table r.ordinal then
          { r with contributions := u.contributions, requiredPresent := n, state := .sealed, sealTick := some s.tick, cause := some .complete }
        else { r with contributions := u.contributions, requiredPresent := n }) ∧
    (∃ n, t.mon = (reportMany .sealComplete n s).mon ∧
      t.ring.recs.countP (fun r => decide (r.state = .sealed)) = s.ring.recs.countP (fun r => decide (r.state = .sealed)) + n)) ∧
  (∀ s : State,
    let t := applyCommit s
    let old := s.table.params
    let new := s.ctl.staged.params
    let reached := s.tru.state = .holdover ∧ new.holdoverS ≠ old.holdoverS ∧
      new.holdoverS * 1000000 ≤ s.tru.holdEntry.elim 0 fun e => s.tick - e
    let latched := old.quiesceEnable = false ∧ new.quiesceEnable = true ∧ s.comp.seen = true
    let waiting := if latched then { s.egress with o := [] } else s.egress
    t.time = (if new.baud ≠ old.baud ∨ new.parity ≠ old.parity then { s.time with chars := [], period := s.time.period + 1 } else s.time) ∧
    t.tru = (if reached then
      { s.tru with state := .acquiring, mapping := none, holdEntry := none, streak := 0, streakLabel := 0, mismatch := none } else s.tru) ∧
    t.strobe = { s.strobe with
      lastPulsed := if reached ∨ new.strobe ≠ old.strobe ∨ new.rate ≠ old.rate then none else s.strobe.lastPulsed } ∧
    t.comp = { s.comp with quiesced := if latched then true else s.comp.quiesced } ∧
    (s.ctl.commitFor = none → t.egress = waiting) ∧
    (∀ re, s.ctl.commitFor = some re → ∃ u, t = reply re .applied (be 2 ((s.ctl.generation + 1) % 65536)) u ∧ u.egress = waiting ∧
      u.table = t.table ∧ u.links = s.links ∧ u.power = s.power ∧ u.tick = s.tick))

/-- ISOLATE passes its stream to ISOLATED at once, or leaves it isolating while a frame of it is in admission; RESTORE passes
an ISOLATED stream to ENROLLED and leaves any other as it is; both refuse an ID that no active entry holds (R39, R40). The
model's choices in it: RESTORE leaves a stream that is isolating so (log 35), and the reply is built after the re-evaluation
(log 28). -/
def Obligations.IsolateAndRestore : Prop :=
  ∀ (s : State) (f : CtrlFrame) (q : List CtrlFrame), s.operating = true → s.ctl.queue = f :: q → f.args.length = 2 →
    (s.table.streams.map fun x => x.cfg.id).Nodup →
    let id := field f.args 0 2
    (s.stream id = none →
      (f.re.code = 0x20#8 → exec .isolate s = .next (reply f.re .unknownStream [] (s.popped q))) ∧
      (f.re.code = 0x21#8 → exec .restore s = .next (reply f.re .unknownStream [] (s.popped q)))) ∧
    (∀ e, s.stream id = some e →
      let isolated := (s.popped q).mapStream id fun x => { x with state := .isolated, isolating := false, timer := none, bad := 0, good := 0 }
      (f.re.code = 0x20#8 →
        (e.state = .isolated → exec .isolate s = .next (reply f.re .ok [] (s.popped q))) ∧
        (e.state ≠ .isolated → (∃ o ∈ s.adm.offers, o.id = id ∧ o.contribution.index ≠ none) →
          exec .isolate s = .next (reply f.re .ok [] ((s.popped q).mapStream id fun x => { x with isolating := true }))) ∧
        (e.state ≠ .isolated → (∀ o ∈ s.adm.offers, o.id = id → o.contribution.index = none) →
          exec .isolate s = .next (reply f.re .ok [] (if e.state = .active then reevaluate isolated else isolated)))) ∧
      (f.re.code = 0x21#8 →
        (e.state ≠ .isolated → exec .restore s = .next (reply f.re .ok [] (s.popped q))) ∧
        (e.state = .isolated → exec .restore s = .next (reply f.re .ok []
          ((s.popped q).mapStream id fun x => { x with state := .enrolled, timer := some (s.tick + x.cfg.silenceMs * 1000) })))))

/-- SET_OVERRIDE: the tests of R137 in their order, then the override in force at once with sync off, or pending with sync
on; a pending change comes into force at once while the ring is empty: a set takes the place of what was in force, and a clear
frees the entry (R137, R139). CLEAR_OVERRIDE: BAD_FIELD for an ID no
stream can hold; with sync off the entry is freed at once; with sync on its pending part becomes a clear; with no entry
nothing changes (R138, R139). That a new entry stands at the end of the list is the model's choice (log 19). -/
def Obligations.OverridesAreSetAndCleared : Prop :=
  (∀ s : State, overridesIntoForce s = { s with comp := { s.comp with overrides := s.comp.overrides.filterMap fun x => match x.change with
      | none => some x
      | some (.set v) => some { x with inForce := some v, change := none }
      | some .clear => none } }) ∧
  (∀ (s : State) (f : CtrlFrame) (q : List CtrlFrame) (o : Override) (id : Nat) (sync : Bool), s.operating = true →
      s.ctl.queue = f :: q → f.re.code = 0x22#8 → id < 65536 → o.phasors.length < 256 →
      f.args = be 2 id ++ be 1 (match o.action with | .substitute => 0 | .markInvalid => 1 | .suppress => 2) ++ onOff sync
        ++ be 2 o.df.toNat ++ be 1 o.phasors.length ++ o.phasors.flatMap (fun p => be 4 p.magnitude.toNat ++ be 2 p.angle.toNat) →
      let no := fun (st : Status) => exec .setOverride s = .next (reply f.re st [] (s.popped q))
      let bare := id ≠ 0 ∧ id ≠ 65535
      let known := o.action = .substitute → ∃ e, s.stream id = some e
      let fits := ∀ e, o.action = .substitute → s.stream id = some e → o.phasors.length = e.cfg.phasors
      let room := (∃ x ∈ s.comp.overrides, x.id = id) ∨ s.comp.overrides.length < 16
      (¬ bare → no .badField) ∧ (bare → ¬ known → no .unknownStream) ∧ (bare → known → ¬ fits → no .badField) ∧
      (bare → known → fits → ¬ room → no .noRoom) ∧
      (bare → known → fits → room →
        let put := fun (x : OverrideEntry) => if sync then { x with change := some (.set o) } else { x with inForce := some o, change := none }
        let es := if s.comp.overrides.any (fun x => x.id == id) then s.comp.overrides.map (fun x => if x.id == id then put x else x)
          else s.comp.overrides ++ [put { id := id, inForce := none, change := none }]
        exec .setOverride s = .next (reply f.re .ok []
          (if s.ring.recs = [] then overridesIntoForce { s.popped q with comp := { s.comp with overrides := es } }
          else { s.popped q with comp := { s.comp with overrides := es } })))) ∧
  (∀ (s : State) (f : CtrlFrame) (q : List CtrlFrame) (id : Nat) (sync : Bool), s.operating = true → s.ctl.queue = f :: q →
      f.re.code = 0x23#8 → id < 65536 → f.args = be 2 id ++ onOff sync →
      (id = 0 ∨ id = 65535 → exec .clearOverride s = .next (reply f.re .badField [] (s.popped q))) ∧
      (id ≠ 0 → id ≠ 65535 →
        let es := if sync then s.comp.overrides.map (fun x => if x.id == id then { x with change := some .clear } else x)
          else s.comp.overrides.filter fun x => x.id != id
        exec .clearOverride s = .next (reply f.re .ok []
          (if s.ring.recs = [] then overridesIntoForce { s.popped q with comp := { s.comp with overrides := es } }
          else { s.popped q with comp := { s.comp with overrides := es } }))))

/-- The commands that read reply OK with what R185, R34 and R186 list, field by field, and change nothing but, in READ_STREAM with
the clear option, the eight counters of the stream read (R34, R99, R110, R124, R185, R186). The encodings of R12 give each field
its width; where the spec leaves one open, it is the model's choice: absent values and the QUIESCE line's level (log 15), what is set or clear, and whether a
hold cache exists, as on/off bytes (log 44), the order of
READ_STREAM (log 16), the floor tick's place beside F (log 17), free values for an override that keeps no Δf and phasors (log 18),
the order of the overrides (log 19), and a label past the SOE scale (log 21). -/
def Obligations.ReadsReplyAndChangeNothing : Prop :=
  ∀ (s : State) (f : CtrlFrame) (q : List CtrlFrame), s.operating = true → s.ctl.queue = f :: q →
    let flag := fun (w : Nat) (o : Option Nat) => match o with
      | none => 0#8 :: List.replicate w 0xFF#8
      | some v => 1#8 :: be w v
    let bit := fun (b : Bool) => [if b then 1#8 else 0#8]
    let link := fun (l : Link) => [if l = .up then 0#8 else 1#8]
    let phasors := fun (ps : List Phasor) => be 1 ps.length ++ ps.flatMap fun p => be 4 p.magnitude.toNat ++ be 2 p.angle.toNat
    (f.re.code = 0x30#8 → f.args = [] →
      let identity := be 1 (s.table.params.region * 8 + s.power.strapCode) ++ be 1 s.power.strapCode ++ bit s.power.bench
        ++ be 1 s.table.params.region ++ link s.links.a ++ link s.links.b ++ link s.links.o
      let time := be 1 (match s.tru.state with | .acquiring => 0 | .locked => 1 | .holdover => 2) ++ be 1 s.clockQuality
        ++ bit (decide (s.table.params.tqMax < s.clockQuality))
        ++ flag 4 (s.tru.mapping.map fun m => if m.label ≤ 4294967295 then m.label else (Config.labelPastScale m.label).toNat)
        ++ flag 2 (s.tru.holdEntry.map fun e => (s.tick - e) / 1000000)
        ++ be 1 s.tru.streak ++ be 1 (if s.tru.mismatch = none then 0 else 1)
        ++ flag 1 (s.tru.lastMsg.map fun m => m.quality) ++ flag 1 (s.tru.lastMsg.map fun m => if m.holdover then 1 else 0)
      let count := fun (st : RecState) => s.ring.recs.countP fun r => decide (r.state = st)
      let ring := be 2 (count .opened) ++ be 2 (count .sealed) ++ be 1 (count .emitting)
        ++ flag 6 (s.ring.recs.head?.map fun r => r.ordinal) ++ flag 6 (s.ring.recs.getLast?.map fun r => r.ordinal)
        ++ flag 6 s.ring.floor ++ flag 8 s.ring.floorTick ++ be 2 (s.ring.recs.map fun r => r.contributions.length).sum
        ++ be 1 (match s.ring.stepDrain, s.ring.commitDrain with
          | false, false => 0 | true, false => 1 | false, true => 2 | true, true => 3)
      let composer := be 1 (match s.comp.mode with | .run => 0 | .withhold => 1 | .single => 2) ++ bit s.comp.seen ++ bit s.comp.quiesced
        ++ bit (!s.comp.lineLow) ++ flag 6 (s.comp.set.map fun c => c.ordinal) ++ flag 1 (s.comp.set.map fun c => c.parts.length)
        ++ flag 1 (s.comp.set.map fun c => c.queued)
      let control := be 1 (match s.ctl.commit with | .none => 0 | .pendingBoundary => 1 | .pendingDrain => 2)
        ++ be 2 s.ctl.generation ++ be 1 q.length ++ be 1 (s.egress.reserved + s.egress.m.length)
        ++ be 1 (match s.store.state with | .good => 0 | .bad => 1 | .writing => 2)
      exec .readStatus s = .next (reply f.re .ok (identity ++ time ++ ring ++ composer ++ control) (s.popped q))) ∧
    (f.re.code = 0x32#8 → f.args = [] →
      let entry := fun (r : RangeEntry) => bit r.enable ++ be 2 r.base ++ be 4 r.size ++ bit r.optional ++ bit r.noCorrect
        ++ bit r.straggle ++ bit r.holdDeny
      exec .readRanges s = .next (reply f.re .ok
        (s.table.ranges.toList.flatMap entry ++ s.ctl.staged.ranges.toList.flatMap entry) (s.popped q))) ∧
    (f.re.code = 0x33#8 → f.args = [] →
      let given := fun (n : Nat) (o : Override) =>
        be 1 (match o.action with | .substitute => 0 | .markInvalid => 1 | .suppress => 2)
          ++ if o.action = .substitute then be 2 o.df.toNat ++ phasors o.phasors
            else be 2 (Config.idleOverrideDf n).toNat ++ phasors ((List.range (Config.idleOverrideCount n).val).map fun i =>
              { magnitude := Config.idleOverrideMagnitude n i, angle := Config.idleOverrideAngle n i })
      let entry := fun (n : Nat) (e : OverrideEntry) => be 2 e.id
        ++ (match e.inForce with | none => [0#8] | some o => 1#8 :: given (2 * n) o)
        ++ (match e.change with | none => [0#8] | some (.set o) => 1#8 :: given (2 * n + 1) o | some .clear => [2#8])
      exec .readOverrides s = .next (reply f.re .ok
        (be 1 s.comp.overrides.length ++ (s.comp.overrides.zipIdx s.free).flatMap fun x => entry x.2 x.1)
        { s.popped q with free := s.free + s.comp.overrides.length })) ∧
    (f.re.code = 0x31#8 → f.args.length = 3 → field f.args 2 1 ≤ 1 →
      (s.stream (field f.args 0 2) = none → exec .readStream s = .next (reply f.re .unknownStream [] (s.popped q))) ∧
      (∀ e, s.stream (field f.args 0 2) = some e → exec .readStream s = .next (reply f.re .ok
        (be 2 e.cfg.id ++ be 1 e.idx ++ be 4 e.cfg.tb ++ be 1 e.cfg.rs ++ be 2 e.cfg.tol ++ be 1 e.cfg.phasors ++ be 1 e.cfg.analogs
          ++ bit e.cfg.correct ++ bit e.cfg.optional ++ bit e.cfg.straggle ++ be 1 e.cfg.holdLimit ++ be 1 e.cfg.tqMax
          ++ be 1 e.cfg.hysteresis ++ be 2 e.cfg.silenceMs
          ++ be 1 (match e.state with | .enrolled => 1 | .active => 2 | .suspect => 3 | .silent => 4 | .isolated => 5)
          ++ flag 2 (e.timer.map fun t => (t - s.tick) / 1000) ++ be 1 e.bad ++ be 1 e.good ++ flag 6 e.lastEpoch
          ++ bit (decide (e.hold ≠ none)) ++ be 1 e.holdAge
          ++ ([e.counts.accepted, e.counts.late, e.counts.duplicate, e.counts.collision, e.counts.offGrid, e.counts.shape
              , e.counts.absentEmitted, e.counts.heldEmitted].flatMap fun w => be 4 w.toNat))
        (if field f.args 2 1 = 1 then
          (s.popped q).mapStream (field f.args 0 2) fun x => { x with counts := ⟨0, 0, 0, 0, 0, 0, 0, 0⟩ }
        else s.popped q))))

/-- RESTART with no commit waiting and no drain: the ring's records are discarded and counted FLUSHED with F, the departure
memory and the step mark kept, pending override changes come into force, O and L are emptied, every stream that is not
ISOLATED is ENROLLED with its timer reloaded, the staged set is a copy of the active one, and the reply is built (R35, R78,
R102, R139, R149, R188). RESTART with a commit waiting or a drain under way: the commit has applied, so tables, ranges and
parameters are the staged ones, the generation has risen and its reply APPLIED stands before that of RESTART, the drains have
ended, the ring and the O and L queues are empty, and every stream is ENROLLED or ISOLATED (R78, R102, R173, R180, R188). The
model's choices in it: the order of its steps, and the reply APPLIED built under the new table (log 28), frames under treatment at Composite Ingest continue (log 38), and a stream
that is isolating stays so (log 35). -/
def Obligations.RestartEmptiesThePart : Prop :=
  (∀ (s : State) (f : CtrlFrame) (q : List CtrlFrame), s.operating = true → s.ctl.queue = f :: q → f.re.code = 0x51#8 → f.args = [] →
      s.ctl.commit = .none → s.ring.stepDrain = false → s.ring.commitDrain = false →
      let streams := s.table.streams.map fun e => if e.state = .isolated then { e with timer := none, bad := 0, good := 0 }
        else { e with state := .enrolled, timer := some (s.tick + e.cfg.silenceMs * 1000), bad := 0, good := 0 }
      let u := reportMany .flushed s.ring.recs.length (s.popped q)
      exec .restart s = .next (reply f.re .ok [] { u with
        ring := { s.ring with recs := [] }
        comp := { (overridesIntoForce s).comp with set := none }
        egress := { s.egress with o := [], l := [] }
        table := { s.table with streams := streams }
        ctl := { (s.popped q).ctl with staged :=
          { streams := streams.map fun e => (e.idx, e.cfg), ranges := s.table.ranges, params := s.table.params } } })) ∧
  (∀ (s : State) (f : CtrlFrame) (q : List CtrlFrame), s.operating = true → s.ctl.queue = f :: q → f.re.code = 0x51#8 → f.args = [] →
      ∃ t, exec .restart s = .next t ∧ t.ring.recs = [] ∧ t.ring.stepDrain = false ∧ t.ring.commitDrain = false ∧ t.comp.set = none ∧
        t.ctl.commit = .none ∧
        (s.ctl.commit ≠ .none → t.table.params = s.ctl.staged.params ∧ t.table.ranges = s.ctl.staged.ranges ∧
          (t.table.streams.map fun e => (e.idx, e.cfg)) = s.ctl.staged.streams ∧ t.ctl.generation = (s.ctl.generation + 1) % 65536 ∧
          ∀ re, s.ctl.commitFor = some re → s.links.o = .down ∨ s.egress.tx ≠ none →
            let answer := fun (r : ReplyTo) (st : Status) (res : List Byte) =>
              outFrame s.ctl.staged.params.payloadType (s.ctl.staged.params.region * 8 + s.power.strapCode) 5
                (be 2 r.requester.toNat ++ be 2 r.tag.toNat ++ [r.code] ++ be 1 st.code ++ res)
            t.egress.m = s.egress.m ++ [answer re .applied (be 2 ((s.ctl.generation + 1) % 65536)), answer f.re .ok []]) ∧
        (s.ctl.commit = .none → t.table.params = s.table.params ∧ t.table.ranges = s.table.ranges ∧
          (t.table.streams.map fun e => (e.idx, e.cfg)) = (s.table.streams.map fun e => (e.idx, e.cfg)) ∧
          t.ctl.generation = s.ctl.generation) ∧
        t.egress.o = [] ∧ t.egress.l = [] ∧ t.ctl.queue = q ∧
        (∀ e ∈ t.table.streams, e.state = .enrolled ∨ e.state = .isolated) ∧
        t.ctl.staged = { streams := t.table.streams.map fun e => (e.idx, e.cfg), ranges := t.table.ranges, params := t.table.params } ∧
        t.tick = s.tick ∧ t.links = s.links ∧ t.power = s.power ∧ t.store = s.store ∧ t.adm.ingest = s.adm.ingest ∧ t.free = s.free)

/-! ### Invariants -/

/-- The state after reset meets the invariant. -/
def Obligations.ResetMeetsTheInvariants : Prop := State.reset.Inv

/-- Every step from a state that meets the invariant keeps the Time Reference Unit's fields consistent with its lock state,
and the Monitor's remainder and freeze (R108, R109, R111, R114, R117, R122, R191, R192). -/
def Obligations.StepsKeepTimeAndMonitor : Prop :=
  ∀ s t : State, s.Inv → step s = .next t → t.operating = true → t.TimeOk ∧ t.MonitorOk

/-- Every step keeps the queues within their capacities, one reservation for each command not yet answered, and no frame
waiting at an idle port (R146, R147, R148, R152, R153, R172). -/
def Obligations.StepsKeepQueuesAndReservations : Prop :=
  ∀ s t : State, s.Inv → step s = .next t → t.operating = true → t.QueuesOk

/-- Every step keeps the ring's order, its span of 512 above the floor, its cells within 8192, and at most its head EMITTING
(R73 to R77, R98, R100, R101). -/
def Obligations.StepsKeepTheRing : Prop :=
  ∀ s t : State, s.Inv → step s = .next t → t.operating = true → t.RingOk

/-- Every step keeps the tables and the stored image in order and in range (R33, R34, R38, R43, R48, R52, R158, R177, R198).
Every step keeps the override table within 16 entries, one for a stream ID, with no change pending while the ring is empty
(R136, R139). -/
def Obligations.StepsKeepTheTablesAndOverrides : Prop :=
  (∀ s t : State, s.Inv → step s = .next t → t.StoreOk ∧ (t.operating = true → t.TablesOk)) ∧
  (∀ s t : State, s.Inv → step s = .next t → t.operating = true → t.OverridesOk)

/-- Every step keeps each record's list in index order with one contribution a stream, and leaves no OPEN record that is
complete (R76, R87, R90, R95, R182). -/
def Obligations.StepsLeaveNoCompleteRecordOpen : Prop :=
  ∀ s t : State, s.Inv → step s = .next t → t.operating = true → t.ListsOk ∧ t.CountsOk

/-- Every step leaves no head waiting that is to be withheld, and no recorded tick later than the present, so that no
lateness is negative (R125, R135, R142, R144). -/
def Obligations.StepsLeaveNoWithheldHeadAndNoFutureTick : Prop :=
  ∀ s t : State, s.Inv → step s = .next t → t.operating = true → t.HeadOk ∧ t.TicksOk

/-! ### Requirements and attributes -/

/-- A stream is found by its ID or its index, and a change of an entry leaves every other as it is (R21, R34). The effective
attributes of a stream under the enabled ranges that contain its ID (R53); the streams expected and required at an
ordinal and their number, the expected slots spaced R / gcd(Rs, R) apart from slot 0 (R45, R71); and which contributions count as
present (R46). -/
def Obligations.RequirementsAndAttributes : Prop :=
  (∀ (s : State) (n : Nat) (f : StreamEntry → StreamEntry),
    s.stream n = s.table.streams.find? (fun e => e.cfg.id == n) ∧ s.streamAt n = s.table.streams.find? (fun e => e.idx == n) ∧
    s.mapStream n f = { s with table := { s.table with streams := s.table.streams.map fun e => if e.cfg.id = n then f e else e } }) ∧
  (∀ (a : ActiveSet) (c : StreamCfg),
    let within := fun (r : RangeEntry) => r ∈ a.ranges.toList ∧ r.enable = true ∧ r.base ≤ c.id ∧ c.id < r.base + r.size
    (optionalOn a c = true ↔ c.optional = true ∨ ∃ r, within r ∧ r.optional = true) ∧
    (straggleOn a c = true ↔ c.straggle = true ∨ ∃ r, within r ∧ r.straggle = true) ∧
    (correctionOn a c = true ↔ c.correct = true ∧ ∀ r, within r → r.noCorrect = false) ∧
    (holdAllowed a c = true ↔ 0 < c.holdLimit ∧ ∀ r, within r → r.holdDeny = false)) ∧
  (∀ rs rate ordinal : Nat, 0 < rate →
    (expectedAt rs rate ordinal = true ↔ rate ∣ ordinal % rate * rs) ∧
    (expectedAt rs rate ordinal = true ↔ rate / Nat.gcd rs rate ∣ ordinal % rate)) ∧
  (∀ (a : ActiveSet) (ordinal : Nat),
    let required := fun (e : StreamEntry) =>
      e.state = .active ∧ optionalOn a e.cfg = false ∧ expectedAt e.cfg.rs a.params.rate ordinal = true
    (∀ e, requiredAt a ordinal e = true ↔ required e) ∧
    requiredCount a ordinal = (a.streams.filter fun e => requiredAt a ordinal e).length ∧
    (∀ c : Contribution, countsPresent a ordinal c = true ↔
      c.content.flags.heldUpstream = false ∧ ∃ e ∈ a.streams, c.index = some e.idx ∧ required e))
end

