-- ==== Sys2Proof/Laws/State.lean ====
section
/-! SUPPORT. What each shared update leaves alone: one law per update, a clause per field, for `simp`. -/

namespace Sys2Proof.Machine

/-! ### Reports and single entries -/

/-- A report touches the Monitor alone (R189). -/
@[simp] theorem report_fields (c : Ctr) (s : State) :
    (report c s).pending = s.pending ∧ (report c s).power = s.power ∧ (report c s).tick = s.tick ∧
    (report c s).links = s.links ∧ (report c s).adm = s.adm ∧ (report c s).table = s.table ∧ (report c s).ring = s.ring ∧
    (report c s).tru = s.tru ∧ (report c s).time = s.time ∧ (report c s).strobe = s.strobe ∧ (report c s).comp = s.comp ∧
    (report c s).egress = s.egress ∧ (report c s).ctl = s.ctl ∧ (report c s).store = s.store ∧ (report c s).free = s.free := by
  unfold report; split <;> simp

/-- A report moves no other count of the Monitor (R189). -/
@[simp] theorem report_mon (c : Ctr) (s : State) :
    (report c s).mon.bins = s.mon.bins ∧ (report c s).mon.early = s.mon.early ∧ (report c s).mon.elapsed = s.mon.elapsed ∧
    (report c s).mon.remainder = s.mon.remainder ∧ (report c s).mon.hold = s.mon.hold ∧
    (report c s).mon.frozen = s.mon.frozen := by
  unfold report; split <;> simp

/-- Reports touch the Monitor alone (R189). -/
@[simp] theorem reportMany_fields (c : Ctr) (n : Nat) (s : State) :
    (reportMany c n s).pending = s.pending ∧ (reportMany c n s).power = s.power ∧ (reportMany c n s).tick = s.tick ∧
    (reportMany c n s).links = s.links ∧ (reportMany c n s).adm = s.adm ∧ (reportMany c n s).table = s.table ∧
    (reportMany c n s).ring = s.ring ∧ (reportMany c n s).tru = s.tru ∧ (reportMany c n s).time = s.time ∧
    (reportMany c n s).strobe = s.strobe ∧ (reportMany c n s).comp = s.comp ∧ (reportMany c n s).egress = s.egress ∧
    (reportMany c n s).ctl = s.ctl ∧ (reportMany c n s).store = s.store ∧ (reportMany c n s).free = s.free := by
  induction n generalizing s with
  | zero => simp [reportMany]
  | succ n ih => simp [reportMany, ih]

/-- Reports move no other count of the Monitor (R189). -/
@[simp] theorem reportMany_mon (c : Ctr) (n : Nat) (s : State) :
    (reportMany c n s).mon.bins = s.mon.bins ∧ (reportMany c n s).mon.early = s.mon.early ∧
    (reportMany c n s).mon.elapsed = s.mon.elapsed ∧ (reportMany c n s).mon.remainder = s.mon.remainder ∧
    (reportMany c n s).mon.hold = s.mon.hold ∧ (reportMany c n s).mon.frozen = s.mon.frozen := by
  induction n generalizing s with
  | zero => simp [reportMany]
  | succ n ih => simp [reportMany, ih]

/-- A latency touches the Monitor alone (R193). -/
@[simp] theorem recordLatency_fields (w : Nat) (l : Option Nat) (s : State) :
    (recordLatency w l s).pending = s.pending ∧ (recordLatency w l s).power = s.power ∧ (recordLatency w l s).tick = s.tick ∧
    (recordLatency w l s).links = s.links ∧ (recordLatency w l s).adm = s.adm ∧ (recordLatency w l s).table = s.table ∧
    (recordLatency w l s).ring = s.ring ∧ (recordLatency w l s).tru = s.tru ∧ (recordLatency w l s).time = s.time ∧
    (recordLatency w l s).strobe = s.strobe ∧ (recordLatency w l s).comp = s.comp ∧ (recordLatency w l s).egress = s.egress ∧
    (recordLatency w l s).ctl = s.ctl ∧ (recordLatency w l s).store = s.store ∧ (recordLatency w l s).free = s.free := by
  unfold recordLatency; split <;> [split; skip] <;> simp

/-- A latency moves no counter, ELAPSED or condition (R193). -/
@[simp] theorem recordLatency_mon (w : Nat) (l : Option Nat) (s : State) :
    (recordLatency w l s).mon.counters = s.mon.counters ∧ (recordLatency w l s).mon.elapsed = s.mon.elapsed ∧
    (recordLatency w l s).mon.remainder = s.mon.remainder ∧ (recordLatency w l s).mon.hold = s.mon.hold ∧
    (recordLatency w l s).mon.frozen = s.mon.frozen := by
  unfold recordLatency; split <;> [split; skip] <;> simp

/-- A change of a stream entry touches the stream table alone. -/
@[simp] theorem mapStream_fields (id : Nat) (f : StreamEntry → StreamEntry) (s : State) :
    (s.mapStream id f).pending = s.pending ∧ (s.mapStream id f).power = s.power ∧ (s.mapStream id f).tick = s.tick ∧
    (s.mapStream id f).links = s.links ∧ (s.mapStream id f).adm = s.adm ∧ (s.mapStream id f).ring = s.ring ∧
    (s.mapStream id f).tru = s.tru ∧ (s.mapStream id f).time = s.time ∧ (s.mapStream id f).strobe = s.strobe ∧
    (s.mapStream id f).comp = s.comp ∧ (s.mapStream id f).egress = s.egress ∧ (s.mapStream id f).ctl = s.ctl ∧
    (s.mapStream id f).mon = s.mon ∧ (s.mapStream id f).store = s.store ∧ (s.mapStream id f).free = s.free ∧
    (s.mapStream id f).table.ranges = s.table.ranges ∧ (s.mapStream id f).table.params = s.table.params := by
  simp [State.mapStream]

/-- Taking a command off its queue touches the Control Unit alone. -/
@[simp] theorem popped_fields (q : List CtrlFrame) (s : State) :
    (s.popped q).pending = s.pending ∧ (s.popped q).power = s.power ∧ (s.popped q).tick = s.tick ∧
    (s.popped q).links = s.links ∧ (s.popped q).adm = s.adm ∧ (s.popped q).table = s.table ∧ (s.popped q).ring = s.ring ∧
    (s.popped q).tru = s.tru ∧ (s.popped q).time = s.time ∧ (s.popped q).strobe = s.strobe ∧ (s.popped q).comp = s.comp ∧
    (s.popped q).egress = s.egress ∧ (s.popped q).mon = s.mon ∧ (s.popped q).store = s.store ∧ (s.popped q).free = s.free ∧
    (s.popped q).ctl.commit = s.ctl.commit ∧ (s.popped q).ctl.commitFor = s.ctl.commitFor ∧
    (s.popped q).ctl.generation = s.ctl.generation ∧ (s.popped q).ctl.staged = s.ctl.staged ∧ (s.popped q).ctl.queue = q := by
  simp [State.popped]

/-- Staging touches the Control Unit alone. -/
@[simp] theorem stage_fields (g : StagedSet) (s : State) :
    (s.stage g).pending = s.pending ∧ (s.stage g).power = s.power ∧ (s.stage g).tick = s.tick ∧ (s.stage g).links = s.links ∧
    (s.stage g).adm = s.adm ∧ (s.stage g).table = s.table ∧ (s.stage g).ring = s.ring ∧ (s.stage g).tru = s.tru ∧
    (s.stage g).time = s.time ∧ (s.stage g).strobe = s.strobe ∧ (s.stage g).comp = s.comp ∧ (s.stage g).egress = s.egress ∧
    (s.stage g).mon = s.mon ∧ (s.stage g).store = s.store ∧ (s.stage g).free = s.free ∧ (s.stage g).ctl.queue = s.ctl.queue ∧
    (s.stage g).ctl.commit = s.ctl.commit ∧ (s.stage g).ctl.commitFor = s.ctl.commitFor ∧
    (s.stage g).ctl.generation = s.ctl.generation ∧ (s.stage g).ctl.staged = g := by
  simp [State.stage]

/-! ### Egress -/

/-- A grant moves no reservation (R148). -/
@[simp] theorem granted_reserved (e : Egress) (now : Nat) (k : TxKind) : (e.granted now k).reserved = e.reserved := by
  cases k <;> simp only [Egress.granted] <;> split <;> rfl

/-- A grant touches the Egress Arbiter alone (R152). -/
@[simp] theorem grant_fields (s : State) :
    (grant s).pending = s.pending ∧ (grant s).power = s.power ∧ (grant s).tick = s.tick ∧ (grant s).links = s.links ∧
    (grant s).adm = s.adm ∧ (grant s).table = s.table ∧ (grant s).ring = s.ring ∧ (grant s).tru = s.tru ∧
    (grant s).time = s.time ∧ (grant s).strobe = s.strobe ∧ (grant s).comp = s.comp ∧ (grant s).ctl = s.ctl ∧
    (grant s).mon = s.mon ∧ (grant s).store = s.store ∧ (grant s).free = s.free ∧
    (grant s).egress.reserved = s.egress.reserved := by
  unfold grant; split <;> [split; skip] <;> simp

/-- A part that joins O touches the Egress Arbiter alone (R147). -/
@[simp] theorem joinO_fields (f : EthFrame) (s : State) :
    (joinO f s).pending = s.pending ∧ (joinO f s).power = s.power ∧ (joinO f s).tick = s.tick ∧ (joinO f s).links = s.links ∧
    (joinO f s).adm = s.adm ∧ (joinO f s).table = s.table ∧ (joinO f s).ring = s.ring ∧ (joinO f s).tru = s.tru ∧
    (joinO f s).time = s.time ∧ (joinO f s).strobe = s.strobe ∧ (joinO f s).comp = s.comp ∧ (joinO f s).ctl = s.ctl ∧
    (joinO f s).mon = s.mon ∧ (joinO f s).store = s.store ∧ (joinO f s).free = s.free ∧
    (joinO f s).egress.reserved = s.egress.reserved := by
  simp [joinO]

/-- A straggler frame touches the Egress Arbiter and the Monitor alone (R146). -/
@[simp] theorem joinL_fields (f : EthFrame) (s : State) :
    (joinL f s).pending = s.pending ∧ (joinL f s).power = s.power ∧ (joinL f s).tick = s.tick ∧ (joinL f s).links = s.links ∧
    (joinL f s).adm = s.adm ∧ (joinL f s).table = s.table ∧ (joinL f s).ring = s.ring ∧ (joinL f s).tru = s.tru ∧
    (joinL f s).time = s.time ∧ (joinL f s).strobe = s.strobe ∧ (joinL f s).comp = s.comp ∧ (joinL f s).ctl = s.ctl ∧
    (joinL f s).store = s.store ∧ (joinL f s).free = s.free ∧ (joinL f s).egress.reserved = s.egress.reserved := by
  unfold joinL; split <;> simp

/-- A reply touches the Egress Arbiter alone, and takes one reservation (R148). -/
@[simp] theorem reply_fields (re : ReplyTo) (st : Status) (bs : List Byte) (s : State) :
    (reply re st bs s).pending = s.pending ∧ (reply re st bs s).power = s.power ∧ (reply re st bs s).tick = s.tick ∧
    (reply re st bs s).links = s.links ∧ (reply re st bs s).adm = s.adm ∧ (reply re st bs s).table = s.table ∧
    (reply re st bs s).ring = s.ring ∧ (reply re st bs s).tru = s.tru ∧ (reply re st bs s).time = s.time ∧
    (reply re st bs s).strobe = s.strobe ∧ (reply re st bs s).comp = s.comp ∧ (reply re st bs s).ctl = s.ctl ∧
    (reply re st bs s).mon = s.mon ∧ (reply re st bs s).store = s.store ∧ (reply re st bs s).free = s.free ∧
    (reply re st bs s).egress.reserved = s.egress.reserved - 1 := by
  simp [reply]

/-- The Straggler Path touches the Egress Arbiter and the Monitor alone (R144). -/
@[simp] theorem straggler_fields (r since : Nat) (o : Offer) (b : List Byte) (s : State) :
    (straggler r since o b s).pending = s.pending ∧ (straggler r since o b s).power = s.power ∧
    (straggler r since o b s).tick = s.tick ∧ (straggler r since o b s).links = s.links ∧
    (straggler r since o b s).adm = s.adm ∧ (straggler r since o b s).table = s.table ∧
    (straggler r since o b s).ring = s.ring ∧ (straggler r since o b s).tru = s.tru ∧ (straggler r since o b s).time = s.time ∧
    (straggler r since o b s).strobe = s.strobe ∧ (straggler r since o b s).comp = s.comp ∧
    (straggler r since o b s).ctl = s.ctl ∧ (straggler r since o b s).store = s.store ∧
    (straggler r since o b s).free = s.free := by
  simp [straggler]

/-- Discarding parts touches the O queue alone (R147). -/
@[simp] theorem discardParts_fields (s : State) :
    (discardParts s).pending = s.pending ∧ (discardParts s).power = s.power ∧ (discardParts s).tick = s.tick ∧
    (discardParts s).links = s.links ∧ (discardParts s).adm = s.adm ∧ (discardParts s).table = s.table ∧
    (discardParts s).ring = s.ring ∧ (discardParts s).tru = s.tru ∧ (discardParts s).time = s.time ∧
    (discardParts s).strobe = s.strobe ∧ (discardParts s).comp = s.comp ∧ (discardParts s).ctl = s.ctl ∧
    (discardParts s).mon = s.mon ∧ (discardParts s).store = s.store ∧ (discardParts s).free = s.free ∧
    (discardParts s).egress.l = s.egress.l ∧ (discardParts s).egress.m = s.egress.m ∧
    (discardParts s).egress.reserved = s.egress.reserved ∧ (discardParts s).egress.grants = s.egress.grants ∧
    (discardParts s).egress.tx = s.egress.tx := by
  simp [discardParts]

/-! ### STROBE, mapping, TIME line -/

/-- A pulse touches the STROBE line alone (R121). -/
@[simp] theorem strobePulse_fields (s : State) :
    (strobePulse s).pending = s.pending ∧ (strobePulse s).power = s.power ∧ (strobePulse s).tick = s.tick ∧
    (strobePulse s).links = s.links ∧ (strobePulse s).adm = s.adm ∧ (strobePulse s).table = s.table ∧
    (strobePulse s).ring = s.ring ∧ (strobePulse s).tru = s.tru ∧ (strobePulse s).time = s.time ∧
    (strobePulse s).comp = s.comp ∧ (strobePulse s).egress = s.egress ∧ (strobePulse s).ctl = s.ctl ∧
    (strobePulse s).mon = s.mon ∧ (strobePulse s).store = s.store ∧ (strobePulse s).free = s.free ∧
    (strobePulse s).strobe.lastPulsed = s.strobe.lastPulsed := by
  unfold strobePulse; split <;> [split; skip] <;> simp

/-- A source's pulse touches the STROBE line alone (R121). -/
@[simp] theorem strobeFrom_fields (src : StrobeSource) (s : State) :
    (strobeFrom src s).pending = s.pending ∧ (strobeFrom src s).power = s.power ∧ (strobeFrom src s).tick = s.tick ∧
    (strobeFrom src s).links = s.links ∧ (strobeFrom src s).adm = s.adm ∧ (strobeFrom src s).table = s.table ∧
    (strobeFrom src s).ring = s.ring ∧ (strobeFrom src s).tru = s.tru ∧ (strobeFrom src s).time = s.time ∧
    (strobeFrom src s).comp = s.comp ∧ (strobeFrom src s).egress = s.egress ∧ (strobeFrom src s).ctl = s.ctl ∧
    (strobeFrom src s).mon = s.mon ∧ (strobeFrom src s).store = s.store ∧ (strobeFrom src s).free = s.free ∧
    (strobeFrom src s).strobe.lastPulsed = s.strobe.lastPulsed := by
  unfold strobeFrom; split <;> simp

/-- A jump of reference now touches the STROBE line alone (R122). -/
@[simp] theorem epochJump_fields (was : Option Nat) (s : State) :
    (epochJump was s).pending = s.pending ∧ (epochJump was s).power = s.power ∧ (epochJump was s).tick = s.tick ∧
    (epochJump was s).links = s.links ∧ (epochJump was s).adm = s.adm ∧ (epochJump was s).table = s.table ∧
    (epochJump was s).ring = s.ring ∧ (epochJump was s).tru = s.tru ∧ (epochJump was s).time = s.time ∧
    (epochJump was s).comp = s.comp ∧ (epochJump was s).egress = s.egress ∧ (epochJump was s).ctl = s.ctl ∧
    (epochJump was s).mon = s.mon ∧ (epochJump was s).store = s.store ∧ (epochJump was s).free = s.free := by
  unfold epochJump; split <;> [split; skip] <;> simp

/-- Forgetting the pulsed ordinal touches the STROBE line alone (R122). -/
@[simp] theorem forgetPulse_fields (s : State) :
    (forgetPulse s).pending = s.pending ∧ (forgetPulse s).power = s.power ∧ (forgetPulse s).tick = s.tick ∧
    (forgetPulse s).links = s.links ∧ (forgetPulse s).adm = s.adm ∧ (forgetPulse s).table = s.table ∧
    (forgetPulse s).ring = s.ring ∧ (forgetPulse s).tru = s.tru ∧ (forgetPulse s).time = s.time ∧
    (forgetPulse s).comp = s.comp ∧ (forgetPulse s).egress = s.egress ∧ (forgetPulse s).ctl = s.ctl ∧
    (forgetPulse s).mon = s.mon ∧ (forgetPulse s).store = s.store ∧ (forgetPulse s).free = s.free ∧
    (forgetPulse s).strobe.endTick = s.strobe.endTick ∧ (forgetPulse s).strobe.lastPulsed = none := by
  simp [forgetPulse]

/-- The passage to ACQUIRING touches the Time Reference Unit and the pulsed ordinal alone (R117). -/
@[simp] theorem dropMapping_fields (s : State) :
    (dropMapping s).pending = s.pending ∧ (dropMapping s).power = s.power ∧ (dropMapping s).tick = s.tick ∧
    (dropMapping s).links = s.links ∧ (dropMapping s).adm = s.adm ∧ (dropMapping s).table = s.table ∧
    (dropMapping s).ring = s.ring ∧ (dropMapping s).time = s.time ∧ (dropMapping s).comp = s.comp ∧
    (dropMapping s).egress = s.egress ∧ (dropMapping s).ctl = s.ctl ∧ (dropMapping s).mon = s.mon ∧
    (dropMapping s).store = s.store ∧ (dropMapping s).free = s.free ∧ (dropMapping s).tru.mapping = none ∧
    (dropMapping s).tru.state = .acquiring ∧ (dropMapping s).strobe.endTick = s.strobe.endTick := by
  simp [dropMapping]

/-- The assembler's characters touch the TIME line alone (R105). -/
@[simp] theorem setChars_fields (cs : List Byte) (s : State) :
    (setChars cs s).pending = s.pending ∧ (setChars cs s).power = s.power ∧ (setChars cs s).tick = s.tick ∧
    (setChars cs s).links = s.links ∧ (setChars cs s).adm = s.adm ∧ (setChars cs s).table = s.table ∧
    (setChars cs s).ring = s.ring ∧ (setChars cs s).tru = s.tru ∧ (setChars cs s).strobe = s.strobe ∧
    (setChars cs s).comp = s.comp ∧ (setChars cs s).egress = s.egress ∧ (setChars cs s).ctl = s.ctl ∧
    (setChars cs s).mon = s.mon ∧ (setChars cs s).store = s.store ∧ (setChars cs s).free = s.free ∧
    (setChars cs s).time.chars = cs ∧ (setChars cs s).time.buffer = s.time.buffer ∧
    (setChars cs s).time.waitHigh = s.time.waitHigh ∧ (setChars cs s).time.period = s.time.period := by
  simp [setChars]

/-! ### Sealing and re-evaluation -/

/-- Sealing touches the ring's records and the Monitor alone (R94). -/
@[simp] theorem sealWhere_fields (c : SealCause) (p : EpochRec → Bool) (s : State) :
    (sealWhere c p s).pending = s.pending ∧ (sealWhere c p s).power = s.power ∧ (sealWhere c p s).tick = s.tick ∧
    (sealWhere c p s).links = s.links ∧ (sealWhere c p s).adm = s.adm ∧ (sealWhere c p s).table = s.table ∧
    (sealWhere c p s).tru = s.tru ∧ (sealWhere c p s).time = s.time ∧ (sealWhere c p s).strobe = s.strobe ∧
    (sealWhere c p s).comp = s.comp ∧ (sealWhere c p s).egress = s.egress ∧ (sealWhere c p s).ctl = s.ctl ∧
    (sealWhere c p s).store = s.store ∧ (sealWhere c p s).free = s.free ∧ (sealWhere c p s).ring.memory = s.ring.memory ∧
    (sealWhere c p s).ring.floor = s.ring.floor ∧ (sealWhere c p s).ring.floorTick = s.ring.floorTick ∧
    (sealWhere c p s).ring.stepDrain = s.ring.stepDrain ∧ (sealWhere c p s).ring.commitDrain = s.ring.commitDrain ∧
    (sealWhere c p s).ring.stepMark = s.ring.stepMark := by
  simp [sealWhere]

/-- What a sealing leaves of the records: those that are OPEN and satisfy the test are sealed, the others stand (R94). -/
theorem sealWhere_recs (c : SealCause) (p : EpochRec → Bool) (s : State) :
    (sealWhere c p s).ring.recs = s.ring.recs.map fun r => if r.state == .opened && p r then r.seal c s.tick else r := by
  simp [sealWhere]

/-- A re-evaluation touches the ring's records and the Monitor alone (R95). -/
@[simp] theorem recountAll_fields (s : State) :
    (recountAll s).pending = s.pending ∧ (recountAll s).power = s.power ∧ (recountAll s).tick = s.tick ∧
    (recountAll s).links = s.links ∧ (recountAll s).adm = s.adm ∧ (recountAll s).table = s.table ∧ (recountAll s).tru = s.tru ∧
    (recountAll s).time = s.time ∧ (recountAll s).strobe = s.strobe ∧ (recountAll s).comp = s.comp ∧
    (recountAll s).egress = s.egress ∧ (recountAll s).ctl = s.ctl ∧ (recountAll s).store = s.store ∧
    (recountAll s).free = s.free ∧ (recountAll s).ring.memory = s.ring.memory ∧ (recountAll s).ring.floor = s.ring.floor ∧
    (recountAll s).ring.floorTick = s.ring.floorTick ∧ (recountAll s).ring.stepDrain = s.ring.stepDrain ∧
    (recountAll s).ring.commitDrain = s.ring.commitDrain ∧ (recountAll s).ring.stepMark = s.ring.stepMark := by
  simp [recountAll]

/-! ### The application of a commit -/

/-- The new active copy touches tables, records and offers alone (R51, R182). -/
@[simp] theorem commitTables_fields (s : State) :
    (commitTables s).pending = s.pending ∧ (commitTables s).power = s.power ∧ (commitTables s).tick = s.tick ∧
    (commitTables s).links = s.links ∧ (commitTables s).tru = s.tru ∧ (commitTables s).time = s.time ∧
    (commitTables s).strobe = s.strobe ∧ (commitTables s).comp = s.comp ∧ (commitTables s).egress = s.egress ∧
    (commitTables s).ctl = s.ctl ∧ (commitTables s).mon = s.mon ∧ (commitTables s).store = s.store ∧
    (commitTables s).free = s.free ∧ (commitTables s).ring.memory = s.ring.memory ∧
    (commitTables s).ring.floor = s.ring.floor ∧ (commitTables s).ring.floorTick = s.ring.floorTick ∧
    (commitTables s).ring.stepDrain = s.ring.stepDrain ∧ (commitTables s).ring.commitDrain = s.ring.commitDrain ∧
    (commitTables s).ring.stepMark = s.ring.stepMark ∧ (commitTables s).adm.ingest = s.adm.ingest ∧
    (commitTables s).table.params = s.ctl.staged.params ∧ (commitTables s).table.ranges = s.ctl.staged.ranges := by
  simp [commitTables]

/-- A change of grid rate touches ordinals alone (R183). -/
@[simp] theorem commitGrid_fields (p : Params) (s : State) :
    (commitGrid p s).pending = s.pending ∧ (commitGrid p s).power = s.power ∧ (commitGrid p s).tick = s.tick ∧
    (commitGrid p s).links = s.links ∧ (commitGrid p s).adm = s.adm ∧ (commitGrid p s).tru = s.tru ∧
    (commitGrid p s).time = s.time ∧ (commitGrid p s).strobe = s.strobe ∧ (commitGrid p s).comp = s.comp ∧
    (commitGrid p s).egress = s.egress ∧ (commitGrid p s).ctl = s.ctl ∧ (commitGrid p s).mon = s.mon ∧
    (commitGrid p s).store = s.store ∧ (commitGrid p s).free = s.free ∧ (commitGrid p s).table.params = s.table.params ∧
    (commitGrid p s).table.ranges = s.table.ranges ∧ (commitGrid p s).ring.recs = s.ring.recs ∧
    (commitGrid p s).ring.floorTick = s.ring.floorTick ∧ (commitGrid p s).ring.stepDrain = s.ring.stepDrain ∧
    (commitGrid p s).ring.commitDrain = s.ring.commitDrain ∧ (commitGrid p s).ring.stepMark = s.ring.stepMark := by
  unfold commitGrid; split <;> simp

/-- A changed line setting touches the TIME line alone (R106). -/
@[simp] theorem commitTimeLine_fields (p : Params) (s : State) :
    (commitTimeLine p s).pending = s.pending ∧ (commitTimeLine p s).power = s.power ∧ (commitTimeLine p s).tick = s.tick ∧
    (commitTimeLine p s).links = s.links ∧ (commitTimeLine p s).adm = s.adm ∧ (commitTimeLine p s).table = s.table ∧
    (commitTimeLine p s).ring = s.ring ∧ (commitTimeLine p s).tru = s.tru ∧ (commitTimeLine p s).strobe = s.strobe ∧
    (commitTimeLine p s).comp = s.comp ∧ (commitTimeLine p s).egress = s.egress ∧ (commitTimeLine p s).ctl = s.ctl ∧
    (commitTimeLine p s).mon = s.mon ∧ (commitTimeLine p s).store = s.store ∧ (commitTimeLine p s).free = s.free ∧
    (commitTimeLine p s).time.buffer = s.time.buffer ∧ (commitTimeLine p s).time.waitHigh = s.time.waitHigh := by
  unfold commitTimeLine; split <;> simp

/-- A changed holdover limit touches the Time Reference Unit and the pulsed ordinal alone (R117). -/
@[simp] theorem commitHoldover_fields (p : Params) (s : State) :
    (commitHoldover p s).pending = s.pending ∧ (commitHoldover p s).power = s.power ∧ (commitHoldover p s).tick = s.tick ∧
    (commitHoldover p s).links = s.links ∧ (commitHoldover p s).adm = s.adm ∧ (commitHoldover p s).table = s.table ∧
    (commitHoldover p s).ring = s.ring ∧ (commitHoldover p s).time = s.time ∧ (commitHoldover p s).comp = s.comp ∧
    (commitHoldover p s).egress = s.egress ∧ (commitHoldover p s).ctl = s.ctl ∧ (commitHoldover p s).mon = s.mon ∧
    (commitHoldover p s).store = s.store ∧ (commitHoldover p s).free = s.free := by
  unfold commitHoldover; split <;> simp

/-- A changed STROBE source touches the STROBE line alone (R122). -/
@[simp] theorem commitStrobe_fields (p : Params) (s : State) :
    (commitStrobe p s).pending = s.pending ∧ (commitStrobe p s).power = s.power ∧ (commitStrobe p s).tick = s.tick ∧
    (commitStrobe p s).links = s.links ∧ (commitStrobe p s).adm = s.adm ∧ (commitStrobe p s).table = s.table ∧
    (commitStrobe p s).ring = s.ring ∧ (commitStrobe p s).tru = s.tru ∧ (commitStrobe p s).time = s.time ∧
    (commitStrobe p s).comp = s.comp ∧ (commitStrobe p s).egress = s.egress ∧ (commitStrobe p s).ctl = s.ctl ∧
    (commitStrobe p s).mon = s.mon ∧ (commitStrobe p s).store = s.store ∧ (commitStrobe p s).free = s.free ∧
    (commitStrobe p s).strobe.endTick = s.strobe.endTick := by
  unfold commitStrobe; split <;> simp

/-- QUIESCE_ENABLE turned on touches QUIESCED and the O queue alone (R141). -/
@[simp] theorem commitQuiesce_fields (p : Params) (s : State) :
    (commitQuiesce p s).pending = s.pending ∧ (commitQuiesce p s).power = s.power ∧ (commitQuiesce p s).tick = s.tick ∧
    (commitQuiesce p s).links = s.links ∧ (commitQuiesce p s).adm = s.adm ∧ (commitQuiesce p s).table = s.table ∧
    (commitQuiesce p s).ring = s.ring ∧ (commitQuiesce p s).tru = s.tru ∧ (commitQuiesce p s).time = s.time ∧
    (commitQuiesce p s).strobe = s.strobe ∧ (commitQuiesce p s).ctl = s.ctl ∧ (commitQuiesce p s).mon = s.mon ∧
    (commitQuiesce p s).store = s.store ∧ (commitQuiesce p s).free = s.free ∧
    (commitQuiesce p s).comp.overrides = s.comp.overrides ∧ (commitQuiesce p s).comp.mode = s.comp.mode ∧
    (commitQuiesce p s).comp.seen = s.comp.seen ∧ (commitQuiesce p s).comp.lineLow = s.comp.lineLow ∧
    (commitQuiesce p s).comp.set = s.comp.set ∧ (commitQuiesce p s).egress.l = s.egress.l ∧
    (commitQuiesce p s).egress.m = s.egress.m ∧ (commitQuiesce p s).egress.reserved = s.egress.reserved ∧
    (commitQuiesce p s).egress.grants = s.egress.grants ∧ (commitQuiesce p s).egress.tx = s.egress.tx := by
  unfold commitQuiesce; split <;> simp

/-- The end of a commit touches the Control Unit and its reply alone (R181). -/
@[simp] theorem commitReply_fields (s : State) :
    (commitReply s).pending = s.pending ∧ (commitReply s).power = s.power ∧ (commitReply s).tick = s.tick ∧
    (commitReply s).links = s.links ∧ (commitReply s).adm = s.adm ∧ (commitReply s).table = s.table ∧
    (commitReply s).ring = s.ring ∧ (commitReply s).tru = s.tru ∧ (commitReply s).time = s.time ∧
    (commitReply s).strobe = s.strobe ∧ (commitReply s).comp = s.comp ∧ (commitReply s).mon = s.mon ∧
    (commitReply s).store = s.store ∧ (commitReply s).free = s.free ∧ (commitReply s).ctl.queue = s.ctl.queue ∧
    (commitReply s).ctl.staged = s.ctl.staged ∧ (commitReply s).ctl.commit = .none ∧ (commitReply s).ctl.commitFor = none ∧
    (commitReply s).ctl.generation = (s.ctl.generation + 1) % 65536 := by
  unfold commitReply; split <;> simp

/-- What the application of a commit leaves alone, and the commit state it leaves (R181). -/
@[simp] theorem applyCommit_fields (s : State) :
    (applyCommit s).pending = s.pending ∧ (applyCommit s).power = s.power ∧ (applyCommit s).tick = s.tick ∧
    (applyCommit s).links = s.links ∧ (applyCommit s).store = s.store ∧ (applyCommit s).free = s.free ∧
    (applyCommit s).ctl.queue = s.ctl.queue ∧ (applyCommit s).ctl.staged = s.ctl.staged ∧ (applyCommit s).ctl.commit = .none ∧
    (applyCommit s).ctl.commitFor = none ∧ (applyCommit s).ctl.generation = (s.ctl.generation + 1) % 65536 ∧
    (applyCommit s).adm.ingest = s.adm.ingest ∧ (applyCommit s).table.params = s.ctl.staged.params ∧
    (applyCommit s).table.ranges = s.ctl.staged.ranges ∧ (applyCommit s).comp.overrides = s.comp.overrides ∧
    (applyCommit s).comp.mode = s.comp.mode ∧ (applyCommit s).comp.seen = s.comp.seen ∧
    (applyCommit s).comp.lineLow = s.comp.lineLow ∧ (applyCommit s).comp.set = s.comp.set ∧
    (applyCommit s).ring.floorTick = s.ring.floorTick ∧ (applyCommit s).ring.stepDrain = s.ring.stepDrain ∧
    (applyCommit s).ring.commitDrain = s.ring.commitDrain ∧ (applyCommit s).ring.stepMark = s.ring.stepMark := by
  simp [applyCommit]

/-! ### Departure, withholding, streams -/

/-- Overrides coming into force touch their table alone (R139). -/
@[simp] theorem overridesIntoForce_fields (s : State) :
    (overridesIntoForce s).pending = s.pending ∧ (overridesIntoForce s).power = s.power ∧
    (overridesIntoForce s).tick = s.tick ∧ (overridesIntoForce s).links = s.links ∧ (overridesIntoForce s).adm = s.adm ∧
    (overridesIntoForce s).table = s.table ∧ (overridesIntoForce s).ring = s.ring ∧ (overridesIntoForce s).tru = s.tru ∧
    (overridesIntoForce s).time = s.time ∧ (overridesIntoForce s).strobe = s.strobe ∧
    (overridesIntoForce s).egress = s.egress ∧ (overridesIntoForce s).ctl = s.ctl ∧ (overridesIntoForce s).mon = s.mon ∧
    (overridesIntoForce s).store = s.store ∧ (overridesIntoForce s).free = s.free ∧
    (overridesIntoForce s).comp.mode = s.comp.mode ∧ (overridesIntoForce s).comp.seen = s.comp.seen ∧
    (overridesIntoForce s).comp.quiesced = s.comp.quiesced ∧ (overridesIntoForce s).comp.lineLow = s.comp.lineLow ∧
    (overridesIntoForce s).comp.set = s.comp.set := by
  simp [overridesIntoForce]

/-- A departing head touches the ring and the set in composition alone (R98). -/
@[simp] theorem leaveRing_fields (r : EpochRec) (rest : List EpochRec) (s : State) :
    (leaveRing r rest s).pending = s.pending ∧ (leaveRing r rest s).power = s.power ∧ (leaveRing r rest s).tick = s.tick ∧
    (leaveRing r rest s).links = s.links ∧ (leaveRing r rest s).adm = s.adm ∧ (leaveRing r rest s).table = s.table ∧
    (leaveRing r rest s).tru = s.tru ∧ (leaveRing r rest s).time = s.time ∧ (leaveRing r rest s).strobe = s.strobe ∧
    (leaveRing r rest s).egress = s.egress ∧ (leaveRing r rest s).ctl = s.ctl ∧ (leaveRing r rest s).mon = s.mon ∧
    (leaveRing r rest s).store = s.store ∧ (leaveRing r rest s).free = s.free ∧
    (leaveRing r rest s).comp.overrides = s.comp.overrides ∧ (leaveRing r rest s).comp.mode = s.comp.mode ∧
    (leaveRing r rest s).comp.seen = s.comp.seen ∧ (leaveRing r rest s).comp.quiesced = s.comp.quiesced ∧
    (leaveRing r rest s).comp.lineLow = s.comp.lineLow := by
  simp [leaveRing]

/-- The report of a departure touches the Monitor and the emission mode alone (R134, R135). -/
@[simp] theorem reportDeparture_fields (e : Bool) (s : State) :
    (reportDeparture e s).pending = s.pending ∧ (reportDeparture e s).power = s.power ∧ (reportDeparture e s).tick = s.tick ∧
    (reportDeparture e s).links = s.links ∧ (reportDeparture e s).adm = s.adm ∧ (reportDeparture e s).table = s.table ∧
    (reportDeparture e s).ring = s.ring ∧ (reportDeparture e s).tru = s.tru ∧ (reportDeparture e s).time = s.time ∧
    (reportDeparture e s).strobe = s.strobe ∧ (reportDeparture e s).egress = s.egress ∧ (reportDeparture e s).ctl = s.ctl ∧
    (reportDeparture e s).store = s.store ∧ (reportDeparture e s).free = s.free ∧
    (reportDeparture e s).comp.overrides = s.comp.overrides ∧ (reportDeparture e s).comp.seen = s.comp.seen ∧
    (reportDeparture e s).comp.quiesced = s.comp.quiesced ∧ (reportDeparture e s).comp.lineLow = s.comp.lineLow ∧
    (reportDeparture e s).comp.set = s.comp.set := by
  unfold reportDeparture; split <;> simp

/-- What a boundary commit leaves alone (R180). -/
@[simp] theorem commitAtBoundary_fields (s : State) :
    (commitAtBoundary s).pending = s.pending ∧ (commitAtBoundary s).power = s.power ∧ (commitAtBoundary s).tick = s.tick ∧
    (commitAtBoundary s).links = s.links ∧ (commitAtBoundary s).store = s.store ∧ (commitAtBoundary s).free = s.free ∧
    (commitAtBoundary s).ctl.queue = s.ctl.queue ∧ (commitAtBoundary s).ctl.staged = s.ctl.staged ∧
    (commitAtBoundary s).adm.ingest = s.adm.ingest ∧ (commitAtBoundary s).comp.overrides = s.comp.overrides ∧
    (commitAtBoundary s).comp.mode = s.comp.mode ∧ (commitAtBoundary s).comp.seen = s.comp.seen ∧
    (commitAtBoundary s).comp.lineLow = s.comp.lineLow ∧ (commitAtBoundary s).comp.set = s.comp.set := by
  unfold commitAtBoundary; split <;> simp

/-- What the emptying of the ring leaves alone (R100, R101). -/
@[simp] theorem whenEmpty_fields (s : State) :
    (whenEmpty s).pending = s.pending ∧ (whenEmpty s).power = s.power ∧ (whenEmpty s).tick = s.tick ∧
    (whenEmpty s).links = s.links ∧ (whenEmpty s).store = s.store ∧ (whenEmpty s).free = s.free ∧
    (whenEmpty s).ctl.queue = s.ctl.queue ∧ (whenEmpty s).ctl.staged = s.ctl.staged ∧ (whenEmpty s).adm.ingest = s.adm.ingest ∧
    (whenEmpty s).comp.overrides = s.comp.overrides ∧ (whenEmpty s).comp.mode = s.comp.mode ∧
    (whenEmpty s).comp.seen = s.comp.seen ∧ (whenEmpty s).comp.lineLow = s.comp.lineLow ∧
    (whenEmpty s).comp.set = s.comp.set := by
  unfold whenEmpty endStepDrain; split <;> [skip; simp] <;> dsimp only <;> split <;> split <;> simp

/-- What a departure leaves alone (R98). -/
@[simp] theorem depart_fields (e : Bool) (s : State) :
    (depart e s).pending = s.pending ∧ (depart e s).power = s.power ∧ (depart e s).tick = s.tick ∧
    (depart e s).links = s.links ∧ (depart e s).store = s.store ∧ (depart e s).free = s.free ∧
    (depart e s).ctl.queue = s.ctl.queue ∧ (depart e s).ctl.staged = s.ctl.staged ∧ (depart e s).adm.ingest = s.adm.ingest ∧
    (depart e s).comp.seen = s.comp.seen ∧ (depart e s).comp.lineLow = s.comp.lineLow := by
  unfold depart; split <;> simp

/-- What withheld heads leave alone (R135). -/
@[simp] theorem settleBy_fields (n : Nat) (s : State) :
    (settleBy n s).pending = s.pending ∧ (settleBy n s).power = s.power ∧ (settleBy n s).tick = s.tick ∧
    (settleBy n s).links = s.links ∧ (settleBy n s).store = s.store ∧ (settleBy n s).free = s.free ∧
    (settleBy n s).ctl.queue = s.ctl.queue ∧ (settleBy n s).ctl.staged = s.ctl.staged ∧
    (settleBy n s).adm.ingest = s.adm.ingest ∧ (settleBy n s).comp.seen = s.comp.seen ∧
    (settleBy n s).comp.lineLow = s.comp.lineLow := by
  induction n generalizing s with
  | zero => simp [settleBy]
  | succ n ih => unfold settleBy; split <;> simp [ih]

/-- What withheld heads leave alone (R135). -/
@[simp] theorem settle_fields (s : State) :
    (settle s).pending = s.pending ∧ (settle s).power = s.power ∧ (settle s).tick = s.tick ∧ (settle s).links = s.links ∧
    (settle s).store = s.store ∧ (settle s).free = s.free ∧ (settle s).ctl.queue = s.ctl.queue ∧
    (settle s).ctl.staged = s.ctl.staged ∧ (settle s).adm.ingest = s.adm.ingest ∧ (settle s).comp.seen = s.comp.seen ∧
    (settle s).comp.lineLow = s.comp.lineLow := by
  simp [settle]

/-- What a re-evaluation leaves alone (R95). -/
@[simp] theorem reevaluate_fields (s : State) :
    (reevaluate s).pending = s.pending ∧ (reevaluate s).power = s.power ∧ (reevaluate s).tick = s.tick ∧
    (reevaluate s).links = s.links ∧ (reevaluate s).store = s.store ∧ (reevaluate s).free = s.free ∧
    (reevaluate s).ctl.queue = s.ctl.queue ∧ (reevaluate s).ctl.staged = s.ctl.staged ∧
    (reevaluate s).adm.ingest = s.adm.ingest ∧ (reevaluate s).comp.seen = s.comp.seen ∧
    (reevaluate s).comp.lineLow = s.comp.lineLow := by
  simp [reevaluate]

/-- What a stream's passage leaves alone (R42). -/
@[simp] theorem changeStream_fields (id : Nat) (f : StreamEntry → StreamEntry) (s : State) :
    (changeStream id f s).pending = s.pending ∧ (changeStream id f s).power = s.power ∧ (changeStream id f s).tick = s.tick ∧
    (changeStream id f s).links = s.links ∧ (changeStream id f s).store = s.store ∧ (changeStream id f s).free = s.free ∧
    (changeStream id f s).ctl.queue = s.ctl.queue ∧ (changeStream id f s).ctl.staged = s.ctl.staged ∧
    (changeStream id f s).adm.ingest = s.adm.ingest ∧ (changeStream id f s).comp.seen = s.comp.seen ∧
    (changeStream id f s).comp.lineLow = s.comp.lineLow := by
  unfold changeStream reportPassage; split <;> [skip; split] <;> simp

end Sys2Proof.Machine
end

