-- ==== Sys2Proof/Laws/Streams.lean ====
section
/-! SUPPORT. Laws of the stream table: what a lookup finds, what a change of one entry does when no ID stands twice, what a
re-evaluation and a passage give, and when admission is idle. -/

namespace Sys2Proof.Machine

/-- A lookup finds an entry of the table with the ID asked for (R21). -/
theorem stream_found {s : State} {id : Nat} {e : StreamEntry} (h : s.stream id = some e) :
    e ∈ s.table.streams ∧ e.cfg.id = id :=
  ⟨List.mem_of_find?_eq_some h, by simpa using List.find?_some h⟩

/-- A lookup that finds nothing: no entry holds the ID. -/
theorem stream_none {s : State} {id : Nat} : s.stream id = none ↔ ∀ e ∈ s.table.streams, e.cfg.id ≠ id := by
  simp [State.stream]

/-- The one entry that holds an ID, when no ID stands twice (R34). -/
theorem stream_unique {s : State} {id : Nat} {e x : StreamEntry} (hn : (s.table.streams.map fun y => y.cfg.id).Nodup)
    (he : s.stream id = some e) (hx : x ∈ s.table.streams) (hid : x.cfg.id = id) : x = e :=
  List.inj_on_of_nodup_map hn hx (stream_found he).1 (hid.trans (stream_found he).2.symm)

/-- Two changes that agree on the entry of an ID are one change of the table. -/
theorem mapStream_congr {s : State} {id : Nat} {e : StreamEntry} {f g : StreamEntry → StreamEntry}
    (hn : (s.table.streams.map fun y => y.cfg.id).Nodup) (he : s.stream id = some e) (hfg : f e = g e) :
    s.mapStream id f = s.mapStream id g := by
  have h : s.table.streams.map (fun x => if x.cfg.id == id then f x else x) =
      s.table.streams.map (fun x => if x.cfg.id == id then g x else x) := by
    refine List.map_congr_left fun x hx => ?_
    split
    · rename_i hid
      rw [stream_unique hn he hx (by simpa using hid), hfg]
    · rfl
  simp only [State.mapStream, h]

/-- A change that keeps the entry of an ID keeps the whole part. -/
theorem mapStream_same {s : State} {id : Nat} {e : StreamEntry} {f : StreamEntry → StreamEntry}
    (hn : (s.table.streams.map fun y => y.cfg.id).Nodup) (he : s.stream id = some e) (hf : f e = e) :
    s.mapStream id f = s := by
  rw [mapStream_congr (g := fun x => x) hn he (by simpa using hf)]
  simp [State.mapStream]

/-- A change of a known stream: its entry changes, and a passage into or out of ACTIVE prompts a re-evaluation (R42). -/
theorem changeStream_known {s : State} {id : Nat} {e : StreamEntry} (f : StreamEntry → StreamEntry) (he : s.stream id = some e) :
    changeStream id f s =
      if (e.state == .active) = ((f e).state == .active) then s.mapStream id f else reevaluate (s.mapStream id f) := by
  simp only [changeStream, he, reportPassage]
  cases h : (e.state == .active) <;> cases h' : ((f e).state == .active) <;> simp

/-- A change of an unknown stream is none (R41). -/
theorem changeStream_unknown {s : State} {id : Nat} (f : StreamEntry → StreamEntry) (he : s.stream id = none) :
    changeStream id f s = s := by
  simp [changeStream, he]

/-- While no earlier frame of a port is in admission there is nothing to catch up with (R18). -/
theorem catchUp_idle {p : Port} {s : State} (h : s.adm.busy p = false) : catchUp p s = s := by
  unfold catchUp
  cases s.adm.work <;> simp [catchUpBy, h]

/-- A frame that has passed every check of its framer is counted and dispatched after the earlier frames of its port (R16, R17, R18,
R19). -/
theorem exec_goodFrame {p : Port} {f : EthFrame} {s : State} (ho : s.operating = true)
    (hl : (match p with | .a => s.links.a | .b => s.links.b) = .up) (he : f.etype = s.table.params.payloadType)
    (hf : formOf f.payload = .good) :
    exec (.ingressFrameComplete p true f) s = .next (dispatch p s.tick f.payload (catchUp p (report (framesIn p) s))) := by
  have hl' : s.links.get p = .up := hl
  simp only [exec, execIngressFrameComplete, whileOperating, ho, hl', he, frameIn, hf, if_true, true_and]
  cases p <;> rfl

end Sys2Proof.Machine
end

