-- ==== Sys2Proof/Laws/Control.lean ====
section
/-! SUPPORT. Laws of the Control Unit: how the head of the command queue is executed and what its checks answer, with what a PPS edge
is, once for every lock state. -/

namespace Sys2Proof.Machine

/-- A listed command at the head of the queue leaves the queue and acts (R173). -/
theorem execute_head {s : State} {f : CtrlFrame} {q : List CtrlFrame} (ho : s.operating = true) (hq : s.ctl.queue = f :: q)
    {code : Nat} (hc : f.re.code.toNat = code) (act : CtrlFrame → State → State) : execute code act s = act f (s.popped q) := by
  simp [execute, whileOperating, ho, executeIf, hq, hc, State.popped]

/-- A row executes nothing but its own command (R173). -/
theorem execute_other {s : State} (h : ∀ f ∈ s.ctl.queue.head?, f.re.code.toNat ≠ code) (act : CtrlFrame → State → State) :
    execute code act s = s := by
  rcases hq : s.ctl.queue with _ | ⟨f, q⟩
  · simp [execute, whileOperating, executeIf, hq]
  · simp [execute, whileOperating, executeIf, hq, h f (by simp [hq])]

/-- Arguments of another length answer BAD_LENGTH (R173). -/
theorem checked_badLength (f : CtrlFrame) (e : Bool) (act : State → State) (s : State) :
    checked f false e act s = reply f.re .badLength [] s := rfl

/-- A byte beyond its setting or list answers BAD_FIELD (R173). -/
theorem checked_badField (f : CtrlFrame) (act : State → State) (s : State) :
    checked f true false act s = reply f.re .badField [] s := rfl

/-- A command whose form is right acts (R173). -/
theorem checked_good (f : CtrlFrame) (act : State → State) (s : State) : checked f true true act s = act s := rfl

/-- A counter raised by 1 stops at its largest value (00_scope, "Saturating counters"). -/
theorem satInc_toNat (w : Word) : (satInc w).toNat = min 4294967295 (w.toNat + 1) := by
  unfold satInc
  split
  · rename_i h
    simp at h
    subst h
    rfl
  · rename_i h
    have hne : w.toNat ≠ 4294967295 := fun e => h (by simpa using BitVec.eq_of_toNat_eq (e.trans rfl))
    have := w.isLt
    rw [BitVec.toNat_add]
    simp
    omega

/-- No two counters share a place in the snapshot (R189). -/
theorem Ctr.pos_ne {c d : Ctr} (h : d ≠ c) : d.pos ≠ c.pos := by
  intro e
  apply h
  revert e
  cases c <;> cases d <;> decide

/-- What an edge does in every lock state, and then by the rule for the lock state (R107, R123). -/
theorem ppsEdge_eq (s : State) :
    ppsEdge s = edgeByState (edgeClass s.tru.edgeRef s.tick) s.time.buffer
      (edgeTaken (decide (edgeClass s.tru.edgeRef s.tick = .regular)) (decide (edgeClass s.tru.edgeRef s.tick = .irregular)) s) := by
  simp only [ppsEdge, edgeTaken]
  cases s.time.buffer <;> simp

/-- An edge taken moves no field of the Time Reference Unit, no tick and nothing of the ring. -/
@[simp] theorem edgeTaken_fields (a b : Bool) (s : State) :
    (edgeTaken a b s).tru = s.tru ∧ (edgeTaken a b s).tick = s.tick ∧ (edgeTaken a b s).ring = s.ring ∧
    (edgeTaken a b s).table = s.table ∧ (edgeTaken a b s).power = s.power ∧ (edgeTaken a b s).refNow = s.refNow := by
  simp only [edgeTaken, State.refNow]
  split_ifs <;> simp

end Sys2Proof.Machine
end

