-- ==== Sys2Proof/Laws/Operands.lean ====
section
/-! SUPPORT. Laws of the operand forms: a field written is as long as it says and reads back as it was written. -/

namespace Sys2Proof.Machine

/-- A field occupies its bytes (R1). -/
@[simp] theorem be_length (w v : Nat) : (be w v).length = w := by
  induction w with
  | zero => rfl
  | succ w ih => simp [be, ih]

/-- Reading from a start value moves that value up by the bytes read. -/
theorem foldl_beNat (bs : List Byte) (a : Nat) :
    bs.foldl (fun acc b => acc * 256 + b.toNat) a = a * 256 ^ bs.length + beNat bs := by
  induction bs generalizing a with
  | nil => simp [beNat]
  | cons b bs ih =>
    have h : beNat (b :: bs) = b.toNat * 256 ^ bs.length + beNat bs := by
      rw [beNat, List.foldl_cons, ih]
      simp
    rw [List.foldl_cons, ih, h, List.length_cons, Nat.pow_succ]
    ring

/-- The value of a list of bytes by its first byte. -/
theorem beNat_cons (b : Byte) (bs : List Byte) : beNat (b :: bs) = b.toNat * 256 ^ bs.length + beNat bs := by
  rw [beNat, List.foldl_cons, foldl_beNat]
  simp

/-- A field reads back as the value written, as far as its bytes hold it (R1). -/
theorem beNat_be (w v : Nat) : beNat (be w v) = v % 256 ^ w := by
  induction w with
  | zero => simp [be, beNat, Nat.mod_one]
  | succ w ih =>
    rw [be, beNat_cons, ih, be_length, BitVec.toNat_ofNat, Nat.pow_succ 256, Nat.mod_mul, show (2 : Nat) ^ 8 = 256 from rfl,
      Nat.mul_comm, Nat.add_comm]

/-- A field that its bytes hold reads back whole. -/
theorem beNat_be_of_lt {w v : Nat} (h : v < 256 ^ w) : beNat (be w v) = v := by
  rw [beNat_be, Nat.mod_eq_of_lt h]

/-- A value read from fewer than `n` bytes is below `256 ^ n`. -/
theorem beNat_lt (bs : List Byte) : beNat bs < 256 ^ bs.length := by
  induction bs with
  | nil => simp [beNat]
  | cons b bs ih =>
    have hb : b.toNat < 256 := b.isLt
    rw [beNat_cons, List.length_cons, Nat.pow_succ]
    nlinarith

/-- A field is below the greatest value of its bytes. -/
theorem field_lt (bs : List Byte) (i n : Nat) : field bs i n < 256 ^ n :=
  lt_of_lt_of_le (beNat_lt _) (Nat.pow_le_pow_right (by norm_num) (by simp))

/-- A field at the start of some bytes. -/
theorem field_zero_append (a b : List Byte) (n : Nat) (h : a.length = n) : field (a ++ b) 0 n = beNat a := by
  simp [field, ← h]

/-- A field past the first bytes. -/
theorem field_append_right (a b : List Byte) (i n : Nat) (h : a.length ≤ i) :
    field (a ++ b) i n = field b (i - a.length) n := by
  simp [field, List.drop_append, List.drop_eq_nil_of_le h]

/-- A field within the first bytes. -/
theorem field_append_left (a b : List Byte) (i n : Nat) (h : i + n ≤ a.length) : field (a ++ b) i n = field a i n := by
  rw [field, field, List.drop_append_of_le_length (by omega), List.take_append_of_le_length (by simp; omega)]

/-- A field of the bytes past an offset. -/
theorem field_drop (bs : List Byte) (k i n : Nat) : field (bs.drop k) i n = field bs (k + i) n := by
  simp [field, List.drop_drop]

/-- A field written reads back at its own start, as far as its bytes hold it (R1). -/
theorem field_be (w v : Nat) : field (be w v) 0 w = v % 256 ^ w := by
  simpa [beNat_be] using field_zero_append (be w v) [] w (be_length w v)

/-- A field past the first byte. -/
theorem field_cons_succ (b : Byte) (bs : List Byte) (i n : Nat) : field (b :: bs) (i + 1) n = field bs i n := by
  simp [field]

/-- A frame's header, body and check occupy ten bytes more than its body (R1). -/
theorem checkedFrame_length (kind origin : Nat) (body : List Byte) :
    (checkedFrame kind origin body).length = body.length + 10 := by
  simp [checkedFrame]
  omega

/-- Padding lengthens a payload to 46 bytes at most (R3). -/
theorem padded_length (bs : List Byte) : (padded bs).length = max 46 bs.length := by
  simp [padded]
  omega

/-- A read list of phasors is as long as asked (R14). -/
@[simp] theorem readPhasors_length (n : Nat) (bs : List Byte) : (readPhasors n bs).length = n := by
  induction n generalizing bs with
  | zero => rfl
  | succ n ih => simp [readPhasors, ih]

/-- A read list of analogs is as long as asked (R14). -/
@[simp] theorem readAnalogs_length (n : Nat) (bs : List Byte) : (readAnalogs n bs).length = n := by
  induction n generalizing bs with
  | zero => rfl
  | succ n ih => simp [readAnalogs, ih]

/-- Each phasor of a list stands six bytes after the one before it (R14). -/
theorem readPhasors_eq_map (n k : Nat) (bs : List Byte) :
    readPhasors n (bs.drop k) = (List.range n).map fun i =>
      { magnitude := BitVec.ofNat 32 (field bs (k + 6 * i) 4), angle := BitVec.ofNat 16 (field bs (k + 4 + 6 * i) 2) } := by
  induction n generalizing k with
  | zero => rfl
  | succ n ih =>
    rw [readPhasors, List.range_succ_eq_map, List.map_cons, List.map_map, List.drop_drop, ih]
    simp only [field_drop, field16, Nat.add_zero, Nat.mul_zero, List.cons.injEq, true_and]
    refine List.map_congr_left fun i _ => ?_
    simp only [Function.comp]
    rw [show k + 6 + 6 * i = k + 6 * (i + 1) by omega, show k + 6 + 4 + 6 * i = k + 4 + 6 * (i + 1) by omega]

/-- Each analog of a list stands four bytes after the one before it (R14). -/
theorem readAnalogs_eq_map (n k : Nat) (bs : List Byte) :
    readAnalogs n (bs.drop k) = (List.range n).map fun i => BitVec.ofNat 32 (field bs (k + 4 * i) 4) := by
  induction n generalizing k with
  | zero => rfl
  | succ n ih =>
    rw [readAnalogs, List.range_succ_eq_map, List.map_cons, List.map_map, List.drop_drop, ih]
    simp only [field_drop, Nat.add_zero, Nat.mul_zero, List.cons.injEq, true_and]
    refine List.map_congr_left fun i _ => ?_
    simp only [Function.comp]
    rw [show k + 4 + 4 * i = k + 4 * (i + 1) by omega]

/-- A bit of a byte of a field (R14). -/
theorem field_bit (bs : List Byte) (i b : Nat) (h : b < 8) :
    (BitVec.ofNat 8 (field bs i 1)).getLsbD b = decide (field bs i 1 / 2 ^ b % 2 = 1) := by
  rw [BitVec.getLsbD_ofNat, Nat.testBit_eq_decide_div_mod_eq]
  simp [h]

/-- A phasor occupies six bytes (R14). -/
@[simp] theorem phasorBytes_length (p : Phasor) : (phasorBytes p).length = 6 := by simp [phasorBytes]

/-- Phasors that were written read back (R4, R14). -/
theorem readPhasors_written (ps : List Phasor) (rest : List Byte) :
    readPhasors ps.length (ps.flatMap phasorBytes ++ rest) = ps := by
  induction ps with
  | nil => rfl
  | cons p ps ih =>
    have hm : field (phasorBytes p ++ (ps.flatMap phasorBytes ++ rest)) 0 4 = p.magnitude.toNat := by
      rw [phasorBytes, List.append_assoc, field_zero_append _ _ _ (be_length _ _), beNat_be_of_lt (by have := p.magnitude.isLt; omega)]
    have ha : field (phasorBytes p ++ (ps.flatMap phasorBytes ++ rest)) 4 2 = p.angle.toNat := by
      rw [phasorBytes, List.append_assoc, field_append_right _ _ _ _ (by simp), be_length, field_zero_append _ _ _ (be_length _ _),
        beNat_be_of_lt (by have := p.angle.isLt; omega)]
    rw [List.flatMap_cons, List.append_assoc, List.length_cons, readPhasors, hm, field16, ha, List.drop_left' (phasorBytes_length p), ih]
    simp

/-- Analogs that were written read back (R4, R14). -/
theorem readAnalogs_written (as : List Word) (rest : List Byte) :
    readAnalogs as.length (as.flatMap (fun a => be 4 a.toNat) ++ rest) = as := by
  induction as with
  | nil => rfl
  | cons a as ih =>
    have hm : field (be 4 a.toNat ++ (as.flatMap (fun a => be 4 a.toNat) ++ rest)) 0 4 = a.toNat := by
      rw [field_zero_append _ _ _ (be_length _ _), beNat_be_of_lt (by have := a.isLt; omega)]
    rw [List.flatMap_cons, List.append_assoc, List.length_cons, readAnalogs, hm, List.drop_left' (be_length 4 _), ih]
    simp

end Sys2Proof.Machine
end

