-- ==== Sys2Proof/Laws/Ring.lean ====
section
/-! SUPPORT. Laws of the ring and of the lists it keeps: what a departure and the consideration of the head leave, what the departure
memory remembers, and what an insertion into a record's list or into a staged table holds. -/

namespace Sys2Proof.Machine

/-- The application of a commit keeps the number of records (R182). -/
theorem applyCommit_recs_length (s : State) : (applyCommit s).ring.recs.length = s.ring.recs.length := by
  simp [applyCommit, recountAll, sealWhere, commitTables]

/-- What an empty ring prompts keeps the number of records (R101, R139, R179). -/
theorem whenEmpty_recs_length (s : State) : (whenEmpty s).ring.recs.length = s.ring.recs.length := by
  unfold whenEmpty; split
  · dsimp only; split <;> split <;> simp [applyCommit_recs_length, endStepDrain]
  · rfl

/-- A departure takes one record from the ring (R98). -/
theorem depart_recs_length (b) (s : State) : (depart b s).ring.recs.length = s.ring.recs.length - 1 := by
  unfold depart; split
  · simp_all
  · rename_i r rest h
    rw [whenEmpty_recs_length]; unfold commitAtBoundary; split <;> simp [applyCommit_recs_length, leaveRing, h]

/-- Enough departures leave no head that must leave (R125). -/
theorem settleBy_done (n : Nat) (s : State) (h : s.ring.recs.length ≤ n) : (settleBy n s).headMustLeave = false := by
  induction n generalizing s with
  | zero => have : s.ring.recs = [] := List.length_eq_zero_iff.1 (by omega)
            simp [settleBy, State.headMustLeave, this]
  | succ n ih =>
    unfold settleBy; split
    · apply ih; rw [depart_recs_length]; omega
    · rename_i h; simpa using h

/-- A slot of the departure memory remembers the latest departure written to it (R77). -/
theorem memoryOf_remember (d : Departed) (ms : List Departed) : memoryOf (remember d ms) d.ordinal = some d := by
  induction ms with
  | nil => simp [remember, memoryOf]
  | cons m ms ih =>
    unfold remember; split
    · simp [memoryOf]
    · split
      · simp [memoryOf]
      · unfold memoryOf at *; rw [List.find?_cons_of_neg]; exact ih; simpa

/-- The departure memory holds what it held, but for the slot written (R77). -/
theorem mem_remember (d : Departed) (ms : List Departed) : ∀ x ∈ remember d ms, x = d ∨ x ∈ ms := by
  induction ms with
  | nil => simp [remember]
  | cons m ms ih =>
    unfold remember; split
    · intro x hx; simp at hx; rcases hx with h | h <;> simp [h]
    · split
      · intro x hx; simp at hx; rcases hx with h | h | h <;> simp [h]
      · intro x hx; simp at hx; rcases hx with h | h
        · simp [h]
        · rcases ih x h with h | h <;> simp [h]

/-- An insertion into a record's list adds the one contribution and loses none (R76). -/
theorem mem_insertContribution (c : Contribution) (l : List Contribution) : ∀ x, x ∈ insertContribution c l ↔ x = c ∨ x ∈ l := by
  induction l with
  | nil => simp [insertContribution]
  | cons d ds ih =>
    intro x; unfold insertContribution
    split <;> simp [ih]; tauto

/-- An insertion into a record's list takes one place (R76). -/
theorem insertContribution_length (c : Contribution) (l : List Contribution) : (insertContribution c l).length = l.length + 1 := by
  induction l with
  | nil => simp [insertContribution]
  | cons d ds ih => unfold insertContribution; split <;> simp [ih]

/-- Sorting keeps the contributions of a list (R182). -/
theorem mem_sortContributions (l : List Contribution) (x : Contribution) : x ∈ sortContributions l ↔ x ∈ l := by
  have h : ∀ (l acc : List Contribution), x ∈ l.foldl (fun acc c => insertContribution c acc) acc ↔ x ∈ acc ∨ x ∈ l := by
    intro l
    induction l with
    | nil => simp
    | cons c l ih => intro acc; simp [ih, mem_insertContribution]; tauto
  rw [sortContributions, h l []]; simp

/-- An insertion into a record's list permutes it with the one contribution (R76). -/
theorem insertContribution_perm (c : Contribution) (l : List Contribution) : (insertContribution c l).Perm (c :: l) := by
  induction l with
  | nil => exact List.Perm.refl _
  | cons d ds ih =>
    unfold insertContribution
    split
    · exact List.Perm.refl _
    · exact (ih.cons d).trans (List.Perm.swap _ _ _)

/-- Sorting permutes a list (R182). -/
theorem sortContributions_perm (l : List Contribution) : (sortContributions l).Perm l := by
  have h : ∀ (l acc : List Contribution), (l.foldl (fun acc c => insertContribution c acc) acc).Perm (acc ++ l) := by
    intro l
    induction l with
    | nil => simp
    | cons c l ih =>
      intro acc
      exact (ih _).trans (((insertContribution_perm c acc).append_right l).trans List.perm_middle.symm)
  simpa [sortContributions] using h l []

/-- A contribution does not stand ahead of one that it does not precede, and the order is transitive (R76, R182). -/
theorem Contribution.not_precedes_trans {b c d : Contribution} (h : ¬ c.precedes b = true) (h' : ¬ d.precedes c = true) :
    ¬ d.precedes b = true := by
  rcases b with ⟨_ | i, fb, _⟩ <;> rcases c with ⟨_ | j, fc, _⟩ <;> rcases d with ⟨_ | k, fd, _⟩ <;>
    simp_all [Contribution.precedes] <;> omega

/-- Sorting leaves no contribution ahead of one that precedes it (R96, R182). -/
theorem sortContributions_sorted (l : List Contribution) :
    (sortContributions l).Pairwise fun c d => ¬ d.precedes c = true := by
  have ins : ∀ (c : Contribution) (l : List Contribution), l.Pairwise (fun c d => ¬ d.precedes c = true) →
      (insertContribution c l).Pairwise fun c d => ¬ d.precedes c = true := by
    intro c l
    induction l with
    | nil => simp [insertContribution]
    | cons d ds ih =>
      intro h
      obtain ⟨h1, h2⟩ := List.pairwise_cons.1 h
      unfold insertContribution
      split
      · rename_i hp
        have hd : ¬ d.precedes c = true := by
          rcases c with ⟨_ | i, fc, _⟩ <;> rcases d with ⟨_ | j, fd, _⟩ <;> simp_all [Contribution.precedes] <;> omega
        refine List.pairwise_cons.2 ⟨fun x hx => ?_, h⟩
        rcases List.mem_cons.1 hx with rfl | hx
        · exact hd
        · exact Contribution.not_precedes_trans hd (h1 x hx)
      · rename_i hp
        refine List.pairwise_cons.2 ⟨fun x hx => ?_, ih h2⟩
        rcases (mem_insertContribution c ds x).1 hx with rfl | hx
        · exact hp
        · exact h1 x hx
  have h : ∀ (l acc : List Contribution), acc.Pairwise (fun c d => ¬ d.precedes c = true) →
      (l.foldl (fun acc c => insertContribution c acc) acc).Pairwise fun c d => ¬ d.precedes c = true := by
    intro l
    induction l with
    | nil => intro acc h; exact h
    | cons c l ih => intro acc h; exact ih _ (ins c acc h)
  exact h l [] List.Pairwise.nil

/-- A staged entry written at an index: the table stays in ascending order, and every other index keeps its entry (R175). -/
theorem writeEntry_sorted (i : Nat) (c : StreamCfg) (l : List (Nat × StreamCfg)) (h : l.Pairwise fun a b => a.1 < b.1) :
   (writeEntry i c l).Pairwise (fun a b => a.1 < b.1) ∧ ∀ p, p ∈ writeEntry i c l ↔ p = (i, c) ∨ (p ∈ l ∧ p.1 ≠ i) := by
  induction l with
  | nil => simp [writeEntry]
  | cons x l ih =>
    rw [List.pairwise_cons] at h
    obtain ⟨ih1, ih2⟩ := ih h.2
    unfold writeEntry
    split
    · rename_i hlt
      refine ⟨?_, ?_⟩
      · rw [List.pairwise_cons]; refine ⟨?_, by rw [List.pairwise_cons]; exact h⟩
        intro y hy; simp at hy; rcases hy with rfl | hy
        · exact hlt
        · have := h.1 y hy; simp; omega
      · intro p; simp; constructor
        · rintro (h1 | h1 | h1)
          · left; exact h1
          · right; subst h1; exact ⟨.inl rfl, by omega⟩
          · right; have := h.1 p h1; exact ⟨.inr h1, by omega⟩
        · rintro (h1 | ⟨h1 | h1, h2⟩)
          · exact .inl h1
          · exact .inr (.inl h1)
          · exact .inr (.inr h1)
    · split
      · rename_i hlt heq
        refine ⟨?_, ?_⟩
        · rw [List.pairwise_cons]; refine ⟨?_, h.2⟩
          intro y hy; have := h.1 y hy; simp; omega
        · intro p; simp; constructor
          · rintro (h1 | h1)
            · exact .inl h1
            · right; have := h.1 p h1; exact ⟨.inr h1, by omega⟩
          · rintro (h1 | ⟨h1 | h1, h2⟩)
            · exact .inl h1
            · subst h1; omega
            · exact .inr h1
      · rename_i hlt heq
        refine ⟨?_, ?_⟩
        · rw [List.pairwise_cons]; refine ⟨?_, ih1⟩
          intro y hy; rw [ih2] at hy; rcases hy with rfl | ⟨hy, -⟩
          · simp; omega
          · exact h.1 y hy
        · intro p; simp [ih2]; constructor
          · rintro (h1 | h1 | h1)
            · subst h1; right; exact ⟨.inl rfl, by omega⟩
            · exact .inl h1
            · right; exact ⟨.inr h1.1, h1.2⟩
          · rintro (h1 | ⟨h1 | h1, h2⟩)
            · exact .inr (.inl h1)
            · exact .inl h1
            · exact .inr (.inr ⟨h1, h2⟩)

end Sys2Proof.Machine
end

