-- ==== Sys2Proof/Laws/Placement.lean ====
section
/-! SUPPORT. Laws of admission and placement: what they leave of the waiting commands and of Composite Ingest, and how many
contributions wait after them. -/

namespace Sys2Proof.Machine

/-- The end of an isolation leaves the waiting commands and the frames of Composite Ingest (R39). -/
theorem finishIsolating_fields (id s) : (finishIsolating id s).pending = s.pending ∧ (finishIsolating id s).adm.ingest = s.adm.ingest := by
  unfold finishIsolating; split <;> [skip; split] <;> simp

/-- An answer at the ring leaves them. -/
theorem ringEffect_pending (a o s) : (ringEffect a o s).pending = s.pending ∧ (ringEffect a o s).adm.ingest = s.adm.ingest := by
  unfold ringEffect; split <;> (try simp); unfold accept; dsimp only; split <;> simp

/-- The counts of an answer leave them. -/
theorem countAnswer_pending (a o s) : (countAnswer a o s).pending = s.pending ∧ (countAnswer a o s).adm.ingest = s.adm.ingest := by
  unfold countAnswer; dsimp only; split <;> [skip; split] <;> simp

/-- A straggler's hand-off leaves them. -/
theorem handOff_pending (a o s) : (handOff a o s).pending = s.pending ∧ (handOff a o s).adm.ingest = s.adm.ingest := by
  unfold handOff; split <;> simp

/-- A time-quality report leaves them. -/
theorem reportTime_pending (a o s) : (reportTime a o s).pending = s.pending ∧ (reportTime a o s).adm.ingest = s.adm.ingest := by
  unfold reportTime timeReport; split <;> simp

/-- A placement leaves them. -/
theorem placeNext_pending (p s) : (placeNext p s).pending = s.pending ∧ (placeNext p s).adm.ingest = s.adm.ingest := by
  unfold placeNext; split
  · simp
  · unfold placeOffer; split <;> simp [placeHeld, finishIsolating_fields, ringEffect_pending, countAnswer_pending, handOff_pending, reportTime_pending]

/-- The placements before a record's treatment leave them. -/
theorem placeAll_pending (p n s) : (placeAll p n s).pending = s.pending ∧ (placeAll p n s).adm.ingest = s.adm.ingest := by
  induction n generalizing s with
  | zero => simp [placeAll]
  | succ n ih => unfold placeAll; split <;> simp [ih, placeNext_pending]

/-- An admission leaves them. -/
theorem admit_pending (m s) : (admitOne m s).pending = s.pending ∧ (admitOne m s).adm.ingest = s.adm.ingest := by
  unfold admitOne; split
  · simp
  · split <;> [skip; split] <;> (try simp)
    unfold snapAndBuild refusedReport timeReport lifeFrame; split <;> split <;> simp

/-- A record's ingest leaves the waiting commands. -/
theorem ingestNext_pending (s) : (ingestNext s).pending = s.pending := by
  unfold ingestNext ingestRecord; split
  · simp
  · dsimp only; split <;> (try split) <;> (try split) <;> simp [placeAll_pending, admit_pending]

/-- Catching up with the earlier frames of a port leaves the waiting commands. -/
theorem catchUpBy_pending (p n s) : (catchUpBy p n s).pending = s.pending := by
  induction n generalizing s with
  | zero => simp [catchUpBy]
  | succ n ih => unfold catchUpBy catchUpStep; split <;> [split; skip] <;> simp [ih, placeNext_pending, ingestNext_pending]

/-- A dispatch leaves the waiting commands. -/
theorem dispatch_pending (p a b s) : (dispatch p a b s).pending = s.pending := by
  unfold dispatch acceptAset acceptControl; dsimp only; split_ifs <;> (try split) <;> (try split_ifs) <;> simp [admit_pending]


/-- The application of a commit keeps the contributions that wait for placement, each at its port. -/
theorem applyCommit_offers (s : State) : (applyCommit s).adm.offers.map (·.port) = s.adm.offers.map (·.port) := by
  simp [applyCommit, commitTables]

/-- What an empty ring prompts keeps them. -/
theorem whenEmpty_offers (s : State) : (whenEmpty s).adm.offers.map (·.port) = s.adm.offers.map (·.port) := by
  unfold whenEmpty endStepDrain; split
  · dsimp only; split <;> split <;> simp [applyCommit_offers]
  · rfl

/-- A departure keeps them. -/
theorem depart_offers (b) (s : State) : (depart b s).adm.offers.map (·.port) = s.adm.offers.map (·.port) := by
  unfold depart; split
  · rfl
  · rw [whenEmpty_offers]; unfold commitAtBoundary; split <;> simp [applyCommit_offers]

/-- The consideration of the head keeps them. -/
theorem settle_offers (s : State) : (settle s).adm.offers.map (·.port) = s.adm.offers.map (·.port) := by
  unfold settle; generalize s.ring.recs.length = n
  induction n generalizing s with
  | zero => rfl
  | succ n ih => unfold settleBy; split <;> simp [ih, depart_offers]

/-- A change of a stream keeps them. -/
theorem changeStream_offers (id f) (s : State) : (changeStream id f s).adm.offers.map (·.port) = s.adm.offers.map (·.port) := by
  unfold changeStream reportPassage; split <;> [skip; split] <;> simp [reevaluate, settle_offers]

/-- The treatment of a contribution taken from the waiting ones keeps the others. -/
theorem placeOffer_offers (o) (s : State) : (placeOffer o s).adm.offers.map (·.port) = s.adm.offers.map (·.port) := by
  unfold placeOffer; split
  · simp
  · have h1 : ∀ a o s, (ringEffect a o s).adm.offers.map (·.port) = s.adm.offers.map (·.port) := by
      intro a o s; unfold ringEffect; split <;> (try simp); unfold accept; dsimp only; split <;> simp
    have h2 : ∀ a o s, (countAnswer a o s).adm.offers.map (·.port) = s.adm.offers.map (·.port) := by
      intro a o s; unfold countAnswer; dsimp only; split <;> [skip; split] <;> simp
    have h3 : ∀ a o s, (handOff a o s).adm.offers.map (·.port) = s.adm.offers.map (·.port) := by
      intro a o s; unfold handOff; split <;> simp
    have h4 : ∀ id s, (finishIsolating id s).adm.offers.map (·.port) = s.adm.offers.map (·.port) := by
      intro a s; unfold finishIsolating; split <;> [skip; split] <;> simp [changeStream_offers]
    have h5 : ∀ a o s, (reportTime a o s).adm.offers.map (·.port) = s.adm.offers.map (·.port) := by
      intro a o s; unfold reportTime timeReport; split <;> simp [changeStream_offers]
    simp [placeHeld, h1, h2, h3, h4, h5, settle_offers]

/-- A placement takes one contribution of its port (R18). -/
theorem placeNext_offers_length (p s) (h : s.adm.offers.any (fun o => o.port == p) = true) : (placeNext p s).adm.offers.length + 1 = s.adm.offers.length := by
  have key : ∀ x : State, x.adm.offers.length = (x.adm.offers.map (·.port)).length := by simp
  unfold placeNext; split
  · rename_i hf; rw [List.any_eq_true] at h; obtain ⟨x, hx, h2⟩ := h; have := List.find?_eq_none.1 hf x hx; contradiction
  · rename_i o hf
    rw [key, placeOffer_offers]; simp
    have := List.length_eraseP_of_mem (l := s.adm.offers) (p := fun x => x.port == p) (List.mem_of_find?_eq_some hf) (by simpa using List.find?_some hf)
    rw [this]; have := List.length_pos_of_mem (List.mem_of_find?_eq_some hf); omega

/-- The placements before a record's treatment add no contribution. -/
theorem placeAll_offers_length (p n s) : (placeAll p n s).adm.offers.length ≤ s.adm.offers.length := by
  induction n generalizing s with
  | zero => simp [placeAll]
  | succ n ih => unfold placeAll; split
                 · rename_i h; have := placeNext_offers_length p s h; have := ih (placeNext p s); omega
                 · rfl

/-- An admission adds at most one contribution (R26). -/
theorem admit_offers_length (m s) : (admitOne m s).adm.offers.length ≤ s.adm.offers.length + 1 := by
  have key : ∀ x : State, x.adm.offers.length = (x.adm.offers.map (·.port)).length := by simp
  have h6 : ∀ s, (if m.life = true then lifeFrame m.id s else s).adm.offers.map (·.port) = s.adm.offers.map (·.port) := by
    intro s; split <;> simp [lifeFrame, changeStream_offers]
  have h7 : ∀ c s, (refusedReport m c s).adm.offers.map (·.port) = s.adm.offers.map (·.port) := by
    intro c s; unfold refusedReport timeReport; split <;> simp [changeStream_offers]
  unfold admitOne; split
  · simp
  · split_ifs <;> (try simp) 
    all_goals (unfold snapAndBuild; split <;> (first | (rw [key, h7]; simp [lifeFrame, changeStream_offers, key, -List.length_map]) | (simp; rw [key, key, lifeFrame, changeStream_offers]) | simp))

/-- A placement takes one step off the work in admission (R18). -/
theorem placeNext_work (p s) (h : s.adm.offers.any (fun o => o.port == p) = true) : (placeNext p s).adm.work < s.adm.work := by
  have h1 := placeNext_offers_length p s h
  have h2 := (placeNext_pending p s).2
  unfold Admission.work
  rw [h2]
  omega

/-- So does the treatment of a record (R160). -/
theorem ingestNext_work (s) (h : s.adm.ingest ≠ []) : (ingestNext s).adm.work < s.adm.work := by
  have key : ∀ (f : IngestFrame) (r : WireRecord) (t : State),
      (ingestRecord f r t).adm.offers.length ≤ t.adm.offers.length + 1 ∧ (ingestRecord f r t).adm.ingest = t.adm.ingest := by
    intro f r t
    unfold ingestRecord
    split_ifs
    · simp
    · simp
    · exact ⟨admit_offers_length _ _, (admit_pending _ _).2⟩
  unfold ingestNext
  cases hi : s.adm.ingest with
  | nil => contradiction
  | cons f fs =>
    have hl := placeAll_offers_length f.port s.adm.offers.length s
    dsimp only
    generalize placeAll f.port s.adm.offers.length s = u at *
    split
    · rename_i hr
      simp [Admission.work, hi, hr]
      omega
    · rename_i r hr
      obtain ⟨k1, k2⟩ := key f r { u with adm := { u.adm with ingest := fs } }
      unfold Admission.work
      rw [k2]
      simp [hi, hr] at k1 ⊢
      omega
    · rename_i r rs hrs hr
      obtain ⟨k1, k2⟩ := key f r { u with adm := { u.adm with ingest := { f with records := rs } :: fs } }
      unfold Admission.work
      rw [k2]
      simp [hi, hr] at k1 ⊢
      omega

/-- A step towards a port's next frame leaves less work in admission. -/
theorem catchUpStep_work (p s) (h : s.adm.busy p = true) : (catchUpStep p s).adm.work < s.adm.work := by
  unfold catchUpStep
  split
  · exact placeNext_work p s (by assumption)
  · rename_i hn
    refine ingestNext_work s fun e => ?_
    simp [Admission.busy, e] at h hn
    grind

/-- With nothing of the port in admission there is nothing to catch up with. -/
theorem catchUpBy_idle (p n s) (h : s.adm.busy p = false) : catchUpBy p n s = s := by cases n <;> simp [catchUpBy, h]

/-- Steps beyond the work in admission change nothing. -/
theorem catchUpBy_enough (p n s) (h : s.adm.work ≤ n) : catchUpBy p n s = catchUp p s := by
  unfold catchUp
  induction n using Nat.strong_induction_on generalizing s with
  | _ n ih =>
    cases hb : s.adm.busy p with
    | false => rw [catchUpBy_idle p _ s hb, catchUpBy_idle p _ s hb]
    | true =>
      have hw := catchUpStep_work p s hb
      obtain ⟨m, hm⟩ : ∃ m, s.adm.work = m + 1 := ⟨s.adm.work - 1, by omega⟩
      obtain ⟨k, rfl⟩ : ∃ k, n = k + 1 := ⟨n - 1, by omega⟩
      rw [hm, catchUpBy, catchUpBy, if_pos hb, if_pos hb, ih k (by omega) _ (by omega)]
      by_cases he : m = k
      · rw [he, ih k (by omega) _ (by omega)]
      · rw [ih m (by omega) _ (by omega)]

/-- Catching up goes on by single steps while something of the port is in admission (R18). -/
theorem catchUp_step (p s) (h : s.adm.busy p = true) : catchUp p s = catchUp p (catchUpStep p s) := by
  have hw := catchUpStep_work p s h
  obtain ⟨m, hm⟩ : ∃ m, s.adm.work = m + 1 := ⟨s.adm.work - 1, by omega⟩
  conv_lhs => unfold catchUp
  rw [hm, catchUpBy, if_pos h, catchUpBy_enough]
  omega

end Sys2Proof.Machine
end

