-- ==== Sys2Proof/Laws/Profile.lean ====
section
/-! SUPPORT. Laws of configuration written as bytes: parameters, stream entries, map entries and stream-table indexes read back as they
were written, and what the check of a stored image says (R174, R177, R198). -/

namespace Sys2Proof.Machine

/-! ### Fields one after the other -/

/-- A field reads back what was written there (R1). -/
theorem field_be_append {w v : Nat} (rest : List Byte) (h : v < 256 ^ w) : field (be w v ++ rest) 0 w = v := by
  rw [field_zero_append _ _ _ (be_length _ _), beNat_be_of_lt h]

/-- A field past a written one. -/
theorem field_be_skip (w v : Nat) (rest : List Byte) (i n : Nat) (h : w ≤ i) : field (be w v ++ rest) i n = field rest (i - w) n := by
  rw [field_append_right _ _ _ _ (by simpa using h), be_length]

/-- An on/off setting reads back what was written there (R12). -/
theorem field_onOff_append (b : Bool) (rest : List Byte) : field (onOff b ++ rest) 0 1 = b.toNat := by
  rw [field_zero_append (onOff b) rest 1 rfl]; cases b <;> rfl

/-- A field past an on/off setting. -/
theorem field_onOff_skip (b : Bool) (rest : List Byte) (i n : Nat) (h : 1 ≤ i) : field (onOff b ++ rest) i n = field rest (i - 1) n :=
  field_append_right _ _ _ _ h

/-- A setting's byte is 0 or 1. -/
theorem Bool.toNat_setting (b : Bool) : (b.toNat == 1) = b ∧ b.toNat ≤ 1 := by cases b <;> decide

/-! ### Stream entries -/

/-- Whether each field of a configuration fits the bytes that R174 gives it. -/
def StreamCfg.Fits (c : StreamCfg) : Prop :=
  c.id < 65536 ∧ c.tb < 4294967296 ∧ c.rs < 256 ∧ c.tol < 65536 ∧ c.phasors < 256 ∧ c.analogs < 256 ∧ c.holdLimit < 256 ∧
    c.tqMax < 256 ∧ c.hysteresis < 256 ∧ c.silenceMs < 65536

/-- A configuration within the ranges of R33 fits its bytes. -/
theorem StreamCfg.fits_of_inRange {c : StreamCfg} (h : c.inRange = true) : c.Fits := by
  simp only [StreamCfg.inRange, validId, Bool.and_eq_true, decide_eq_true_eq] at h
  unfold Fits; omega

/-- A stream entry occupies the nineteen bytes of R174. -/
theorem streamBytes_length (c : StreamCfg) : (be 2 c.id ++ cfgBytes c).length = 19 := by simp [cfgBytes, onOff]

/-- A stream entry reads back as it was written, its settings on or off (R174). -/
theorem readStreamCfg_written {c : StreamCfg} (rest : List Byte) (h : c.Fits) :
    let bs := be 2 c.id ++ cfgBytes c ++ rest
    readStreamCfg bs = c ∧ isOnOff bs 11 = true ∧ isOnOff bs 12 = true ∧ isOnOff bs 13 = true := by
  obtain ⟨h0, h1, h2, h3, h4, h5, h6, h7, h8, h9⟩ := h
  simp (disch := omega) only [readStreamCfg, readOnOff, isOnOff, cfgBytes, List.append_assoc, field_be_skip, field_onOff_skip,
    field_be_append, field_onOff_append, Nat.reduceSub, Bool.toNat_setting, decide_true, and_self]

/-! ### Parameters and map entries -/

/-- The parameter block occupies the twenty bytes of R174. -/
theorem paramBytes_length (p : Params) : (paramBytes p).length = 20 := by simp [paramBytes, onOff]

/-- Each named value has its code back (R177). -/
theorem deadlineBaseOf_code (b : DeadlineBase) : deadlineBaseOf b.code = some b := by cases b <;> rfl
theorem parityOf_code (p : Parity) : parityOf p.code = some p := by cases p <;> rfl
theorem strobeOf_code (s : StrobeSource) : strobeOf s.code = some s := by cases s <;> rfl

/-- A parameter block within the ranges of R177 reads back as it was written. -/
theorem readParams_written {p : Params} (rest : List Byte) (h : p.inRange = true) : readParams (paramBytes p ++ rest) = some p := by
  simp only [Params.inRange, gridRates, Bool.and_eq_true, decide_eq_true_eq, List.contains_iff_mem, List.mem_cons, List.not_mem_nil,
    or_false] at h
  obtain ⟨⟨⟨⟨⟨⟨⟨⟨⟨⟨⟨⟨h0, h1⟩, h2⟩, h3⟩, h4⟩, h5⟩, h6⟩, h7⟩, h8⟩, h9⟩, h10⟩, h11⟩, h12⟩ := h
  have hb : p.base.code < 256 := by cases p.base <;> decide
  have hp : p.parity.code < 256 := by cases p.parity <;> decide
  have hs : p.strobe.code < 256 := by cases p.strobe <;> decide
  have ht := p.payloadType.isLt
  simp (disch := omega) only [readParams, readOnOff, isOnOff, field16, paramBytes, List.append_assoc, field_be_skip, field_onOff_skip,
    field_be_append, field_onOff_append, Nat.reduceSub, Bool.toNat_setting, deadlineBaseOf_code, parityOf_code, strobeOf_code,
    Option.bind_eq_bind, Option.bind_some, decide_true, Bool.and_self, if_true, BitVec.ofNat_toNat, BitVec.setWidth_eq]

/-- A map entry occupies eleven bytes (R174). -/
theorem rangeBytes_length (r : RangeEntry) : (rangeBytes r).length = 11 := by simp [rangeBytes, onOff]

/-- A map entry within the ranges of R52 reads back as it was written, its settings on or off. -/
theorem readRangeEntry_written {r : RangeEntry} (rest : List Byte) (h : r.inRange = true) :
    readRangeEntry (0 :: (rangeBytes r ++ rest)) = r ∧ rangeEncodingGood (rangeBytes r ++ rest) = true := by
  simp only [RangeEntry.inRange, rangeSizes, Bool.and_eq_true, decide_eq_true_eq, List.contains_iff_mem, List.mem_map, List.mem_range] at h
  obtain ⟨⟨k, hk, hs⟩, hb⟩ := h
  have hz : r.size < 256 ^ 4 := by
    rw [← hs]; exact lt_of_le_of_lt (Nat.pow_le_pow_right (by omega) (by omega : k ≤ 16)) (by norm_num)
  have hc : ∀ bs i n, 1 ≤ i → field (0 :: bs) i n = field bs (i - 1) n := fun bs i n hi => by
    obtain ⟨j, rfl⟩ := Nat.exists_eq_add_of_le' hi; exact field_cons_succ _ _ _ _
  simp (disch := omega) only [readRangeEntry, rangeEncodingGood, readOnOff, isOnOff, rangeBytes, List.append_assoc, hc, field_be_skip,
    field_onOff_skip, field_be_append, field_onOff_append, Nat.reduceSub, Bool.toNat_setting, decide_true, Bool.and_self, and_self]

/-- The entry at a map index, out of a map written entry by entry. -/
theorem rangeBytes_at (rs : List RangeEntry) : ∀ i (h : i < rs.length),
    ((rs.flatMap rangeBytes).drop (11 * i)).take 11 = rangeBytes rs[i] := by
  induction rs with
  | nil => simp
  | cons r rs ih =>
    intro i h
    rcases i with _ | i
    · simp [rangeBytes_length]
    · have hd : (rangeBytes r ++ rs.flatMap rangeBytes).drop (11 * (i + 1)) = (rs.flatMap rangeBytes).drop (11 * i) := by
        rw [List.drop_append, List.drop_eq_nil_of_le (by rw [rangeBytes_length]; omega), rangeBytes_length, List.nil_append]
        congr 1
      rw [List.flatMap_cons, hd, List.getElem_cons_succ]
      exact ih i (by simpa using h)

/-! ### Stream-table indexes and the check -/

/-- Stream-table indexes read back as they were written: ascending entries, each within its range (R198). -/
theorem readSlots_written (n : Nat) : ∀ (i : Nat) (es : List (Nat × StreamCfg)) (rest : List Byte),
    es.Pairwise (fun a b => a.1 < b.1) → (∀ p ∈ es, i ≤ p.1 ∧ p.1 < i + n ∧ p.2.Fits) →
    readSlots n i (slotsBytes n i es ++ rest) = some (es, rest) := by
  induction n with
  | zero =>
    intro i es rest _ h
    rcases es with _ | ⟨p, es⟩
    · rfl
    · have := h p (by simp); omega
  | succ n ih =>
    intro i es rest hs h
    rcases es with _ | ⟨⟨j, c⟩, es⟩
    · exact ih (i + 1) [] rest List.Pairwise.nil (by simp)
    · obtain ⟨h1, h2, h3⟩ := h (j, c) (by simp)
      have tail : ∀ p ∈ es, j < p.1 ∧ p.1 < i + (n + 1) ∧ p.2.Fits := fun p hp =>
        ⟨(List.pairwise_cons.1 hs).1 p hp, (h p (by simp [hp])).2⟩
      by_cases hj : j = i
      · subst hj
        obtain ⟨e1, e2, e3, e4⟩ := readStreamCfg_written (slotsBytes n (j + 1) es ++ rest) h3
        have hd : (be 2 c.id ++ cfgBytes c ++ (slotsBytes n (j + 1) es ++ rest)).drop 19 = slotsBytes n (j + 1) es ++ rest :=
          List.drop_left' (streamBytes_length c)
        simp only [slotsBytes, if_true, List.cons_append, List.append_assoc, readSlots] at e1 e2 e3 e4 hd ⊢
        rw [if_neg (by decide), if_pos ⟨trivial, by simp [cfgBytes, onOff]; omega, e2, e3, e4⟩, hd,
          ih (j + 1) es rest (List.pairwise_cons.1 hs).2 fun p hp => ⟨(tail p hp).1, by have := (tail p hp).2.1; omega, (tail p hp).2.2⟩, e1]
        rfl
      · simp only [slotsBytes, if_neg hj, List.cons_append, readSlots]
        rw [if_pos trivial]
        refine ih (i + 1) ((j, c) :: es) rest hs fun p hp => ?_
        simp only at h1 h2
        rcases List.mem_cons.1 hp with rfl | hp
        · exact ⟨by simp only; omega, by simp only; omega, h3⟩
        · exact ⟨by have := (tail p hp).1; omega, by have := (tail p hp).2.1; omega, (tail p hp).2.2⟩

/-- The check is correct exactly where the word at the end is the CRC-32 of what stands before it (R2, R198). -/
theorem profileCheckGood_append (content : List Byte) {check : Nat} (h : check < 4294967296) :
    profileCheckGood (content ++ be 4 check) = true ↔ check = (crc32 content).toNat := by
  have hf : field (be 4 check) 0 4 = check := by simpa using field_be_append (w := 4) [] (by omega : check < 256 ^ 4)
  simp [profileCheckGood, field_append_right, hf]

/-- What a start finds in a storage of content and check word (R198). -/
theorem goodImage_append (content : List Byte) {check : Nat} (h : check < 4294967296) :
    (Stored.bytes (content ++ be 4 check)).goodImage =
      if check = (crc32 content).toNat then (readImage content).filter Image.acceptable else none := by
  have ht : (content ++ be 4 check).take ((content ++ be 4 check).length - 4) = content := by simp
  simp only [Stored.goodImage, profileCheckGood_append content h, ht]

end Sys2Proof.Machine
end

