-- ==== Sys2Proof/Laws/Snap.lean ====
section
/-! SUPPORT. Laws of the Snap Unit: what its rounding gives, and once everything a snap can answer. -/

namespace Sys2Proof.Machine

/-- A rounded quotient lies within half a unit of the exact one (00_scope, "Rounding"). -/
theorem roundHalfAway_near (num : Int) (den : Nat) (h : 0 < den) : 2 * (num - roundHalfAway num den * den).natAbs ≤ den := by
  unfold roundHalfAway
  have hm := Nat.div_add_mod (2 * num.natAbs + den) (2 * den)
  have hl := Nat.mod_lt (2 * num.natAbs + den) (show 0 < 2 * den by omega)
  set q := (2 * num.natAbs + den) / (2 * den)
  set j := (2 * num.natAbs + den) % (2 * den)
  have hq : 2 * (q * den) + j = 2 * num.natAbs + den := by rw [← hm]; ring
  split
  · have : ((q : Nat) : Int) * (den : Int) = ((q * den : Nat) : Int) := by push_cast; rfl
    rw [this]; omega
  · have : (-((q : Nat) : Int)) * (den : Int) = -((q * den : Nat) : Int) := by push_cast; ring
    rw [this]; omega

/-- Everything a snap that succeeds says of its request (R58). -/
theorem snap_snapped {q : SnapRequest} {e : Nat} {d : Int} {as : List Half} {u : Bool} (h : snap q = .snapped e d as u) :
    isBadLabel q = false ∧ d.natAbs ≤ q.tol * 1000 ∧ d = residualNs q.frac q.tb q.rate ∧
    e = labelOrdinal q.soe q.frac q.tb q.rate ∧
    ((correctionApplies q d = true ∧ as = q.angles.map (shiftAngle (angleShift q.df d)) ∧ u = false) ∨
      (correctionApplies q d = false ∧ as = q.angles ∧ u = (d != 0))) := by
  unfold snap at h
  simp only at h
  split at h
  · cases h
  · split at h
    · cases h
    · split at h
      · injection h with h1 h2 h3 h4; subst h1 h2 h3 h4; simp_all
      · injection h with h1 h2 h3 h4; subst h1 h2 h3 h4; simp_all

/-- A snap is BAD_LABEL exactly for a label that names no instant the grid can hold (R60, R62). -/
theorem snap_badLabel {q : SnapRequest} : snap q = .badLabel ↔ isBadLabel q = true := by
  unfold snap
  simp only
  split_ifs <;> simp_all

/-- A snap is OFF_GRID exactly for a good label whose residual is beyond the tolerance (R64). -/
theorem snap_offGrid {q : SnapRequest} :
    snap q = .offGrid ↔ isBadLabel q = false ∧ q.tol * 1000 < (residualNs q.frac q.tb q.rate).natAbs := by
  unfold snap
  simp only
  split_ifs <;> simp_all

end Sys2Proof.Machine
end

