-- ==== Sys2Proof/WellFormed.lean ====
section
/-! DEFINITION. Which commands name something the part has: a stream-table index is below 256 (R34), an epoch ordinal fits
the 48 bits in which ordinals are held (R54), and a byte read back after a write lies within the longest profile image (R198, log
24). Every other operand is well formed by its type. -/

namespace Sys2Proof

/-- The bytes of a profile image of 256 streams: parameter block, mode, 256 entries of 20 bytes, eight map entries of 11, check. -/
abbrev longestProfile : Nat := 20 + 1 + 256 * 20 + 8 * 11 + 4

/-- A command whose operands lie in the ranges of the spec. -/
def Instr.wellFormed : Instr → Bool
  | .silenceTimerExpiry idx => decide (idx < 256)
  | .deadlineExpiry ordinal => decide (ordinal < 2 ^ 48)
  | .profileWriteComplete damage => damage.all fun d => decide (d.1 < longestProfile)
  | _ => true

end Sys2Proof
end

