-- ==== Sys2Proof/Tests/Slice0.lean ====
section
/-! SUPPORT. Tests: the smoke of WellFormed, worked examples of the spec, and for each statement with hypotheses a concrete state and
operands that meet them together, at the boundaries where clauses meet. Expected values come from the spec's tables and examples, or
from its rules by hand. -/

namespace Sys2Proof.Tests

open Sys2Proof.Machine

/-! ### Small states -/

/-- A stream's configuration: one phasor, no analog, correction on, hold limit 2, hysteresis 3. -/
def cfg : StreamCfg where
  id := 7
  tb := 1000000
  rs := 50
  tol := 1000
  phasors := 1
  analogs := 0
  correct := true
  optional := false
  straggle := true
  holdLimit := 2
  tqMax := 3
  hysteresis := 3
  silenceMs := 500

/-- Its entry at index 4, in a state, its timer running where that state has one. -/
def entry (st : StreamState) : StreamEntry :=
  { enrolledEntry 0 4 cfg with state := st, timer := if st = .silent ∨ st = .isolated then none else some 500000 }

/-- The part with that one stream, its links UP. -/
def part (st : StreamState) : State :=
  { State.reset with
    links := { a := .up, b := .up, o := .up }
    table := { State.reset.table with streams := [entry st] }
    ctl := { State.reset.ctl with staged := { State.reset.ctl.staged with streams := [(4, cfg)] } } }

/-- A command at the head of the queue with its reservation in M. -/
def order (code : Byte) (args : List Byte) (s : State) : State :=
  { s with
    ctl := { s.ctl with queue := [{ re := { requester := 1, tag := 2, code := code }, args := args }] }
    egress := { s.egress with reserved := 1 } }

/-- The frame that `order` queues. -/
def asked (code : Byte) (args : List Byte) : CtrlFrame := { re := { requester := 1, tag := 2, code := code }, args := args }

/-- A received frame of the payload type. -/
def frame (kind origin : Nat) (body : List Byte) : EthFrame :=
  { dst := 0, src := 0, etype := 0x9A41#16, payload := checkedFrame kind origin body }

/-- The content of a contribution of the stream. -/
def content : Content where
  hop := 0
  residual := 0
  flags := Flags.clear
  df := 0
  rocof := 0
  digital := 0
  phasors := [⟨70000, 16384⟩]
  analogs := []

/-- The stream's contribution at a grid instant. -/
def given : Contribution := { index := some 4, former := none, frac := 0, arrival := 0, content := content }

/-- An offer of it for an ordinal. -/
def offer (ordinal : Nat) : Offer where
  port := .a
  id := 7
  rate := 50
  ordinal := ordinal
  contribution := given
  straggle := true
  body := some []
  life := true
  badTime := false

/-- A record that holds it. -/
def rec1 (ordinal : Nat) (st : RecState) : EpochRec where
  ordinal := ordinal
  state := st
  openTick := 0
  deadline := 200000
  sealTick := if st = .opened then none else some 0
  cause := if st = .opened then none else some .deadline
  contributions := [given]
  requiredPresent := 1
  fallback := true
  stepped := false

/-- A part whose ring holds some records. -/
def ringed (rs : List EpochRec) (s : State) : State := { s with ring := { s.ring with recs := rs } }

/-- A part at a tick. -/
def atTick (t : Nat) (s : State) : State := { s with tick := t }

/-- A LOCKED part: the mapping of an edge at tick 1,000,000 with label 100. -/
def locked : State :=
  { part .active with
    tick := 2000000
    tru := { state := .locked, edgeRef := some 1000000, streak := 0, streakLabel := 0, mapping := some ⟨100, 1000000⟩
             watchdog := some 2001000, mismatch := none, holdEntry := none, lastMsg := some ⟨0, false⟩ } }

/-- A message for a label waits in the buffer. -/
def labelled (l : Nat) (s : State) : State :=
  { s with time := { s.time with buffer := some { label := l, source := { quality := 2, holdover := false } } } }

/-! ### WellFormed -/

theorem test_wellFormed_refuses_stream_index : (Instr.silenceTimerExpiry 256).wellFormed = false := by decide
theorem test_wellFormed_accepts_stream_index : (Instr.silenceTimerExpiry 255).wellFormed = true := by decide
theorem test_wellFormed_refuses_ordinal : (Instr.deadlineExpiry (2 ^ 48)).wellFormed = false := by decide
theorem test_wellFormed_accepts_ordinal : (Instr.deadlineExpiry (2 ^ 48 - 1)).wellFormed = true := by decide
theorem test_wellFormed_refuses_damage : (Instr.profileWriteComplete [(0, 1), (5233, 0)]).wellFormed = false := by decide
theorem test_wellFormed_accepts_damage : (Instr.profileWriteComplete [(0, 1), (5232, 0)]).wellFormed = true := by decide

/-! ### Worked examples of the spec -/

/-- The check value that the common CRC-32 gives for "123456789" (log 7). -/
theorem test_crc32_check_value : crc32 [0x31, 0x32, 0x33, 0x34, 0x35, 0x36, 0x37, 0x38, 0x39] = 0xCBF43926#32 := by decide +kernel

/-- The two rows of R63's worked case. -/
theorem test_residual_rounds_away_from_zero :
    residualNs 1679360 8388608 10 = 195313 ∧ residualNs 2514944 8388608 10 = -195313 ∧
    nearestSlot 1679360 8388608 10 = 2 ∧ nearestSlot 2514944 8388608 10 = 3 := by decide

/-- R62: the last half-slot rolls to the next second, and the last second has none after it. -/
theorem test_roll_and_bad_label :
    labelOrdinal 9 999999 1000000 50 = 500 ∧ isBadLabel ⟨4294967295, 999999, 1000000, 50, 1000, true, 0, []⟩ = true ∧
    isBadLabel ⟨9, 1000000, 1000000, 50, 1000, true, 0, []⟩ = true := by decide

/-- R68: a sum of 32768 wraps to −32768, and −32768 stays. -/
theorem test_angle_wraps : shiftAngle 1 32767 = 0x8000#16 ∧ shiftAngle 0 0x8000#16 = 0x8000#16 := by decide

/-- R56's worked conversion. -/
theorem test_ordinal_conversion : convertOrdinal 50 30 87500000049 = 52500000029 := by decide

/-- R9's worked set: 74 records of 120 bytes close the first part. -/
theorem test_cutting_closes_at_74 :
    (cutParts (List.replicate 75 { idx := 0, id := 7, hop := 0, status := .present, holdAge := 0
                                   content := some { content with phasors := List.replicate 16 ⟨0, 0⟩, analogs := [0, 0] } })).map
      List.length = [74, 1] := by decide +kernel

/-- Frame 7 of R44's worked example: the third bad report in a row passes the stream to SUSPECT. -/
theorem test_third_bad_report_suspects :
    ((entry .active).timeReport true).bad = 1 ∧
    ({ entry .active with bad := 2 }.timeReport true).state = .suspect := by decide

/-- R119: the message quality of `H` is one worse, and HOLDOVER adds one for each whole minute. -/
theorem test_clock_quality :
    { locked with tru := { locked.tru with lastMsg := some ⟨2, true⟩ } }.clockQuality = 3 ∧
    { locked with tick := 122000000
                  tru := { locked.tru with state := .holdover, holdEntry := some 2000000 } }.clockQuality = 2 := by decide

/-- R153 with the reset burst limit: fifteen grants to O in a row leave the next to O, sixteen give it to the waiting reply. -/
theorem test_burst_limit :
    let f := frame 2 0 []
    let s := fun (n : Nat) => { part .active with egress := { State.reset.egress with o := [f], m := [f], grants := n } }
    (grant (s 15)).egress.tx.map (·.kind) = some .part ∧ (grant (s 16)).egress.tx.map (·.kind) = some .reply := by decide

/-- R12, R13: READ_RANGES with an argument replies BAD_LENGTH, and a listed one replies OK, in a reply frame at Port O. -/
theorem test_reply_status :
    (match exec .readRanges (order 0x32 [0] (part .active)) with
      | .next t => t.egress.tx.map fun x => (x.frame.payload.drop 6).take 6
      | _ => none) = some [0, 1, 0, 2, 0x32, 0x1B] ∧
    (match exec .readRanges (order 0x32 [] (part .active)) with
      | .next t => t.egress.tx.map fun x => ((x.frame.payload.drop 6).take 6, field x.frame.payload 4 2)
      | _ => none) = some ([0, 1, 0, 2, 0x32, 0], 6 + 2 * 8 * 11) := by decide +kernel

/-- R14: what a row does with another row's command at the head of the queue: nothing. -/
theorem test_rows_execute_their_own_command :
    exec .monitorHold (order 0x41 [] (part .active)) = .next (order 0x41 [] (part .active)) := rfl

/-- R196: the result fields of a snapshot occupy 230 bytes. -/
theorem test_snapshot_length :
    (match exec .snapshotCounters (order 0x40 [] (part .active)) with
      | .next t => t.egress.tx.map fun x => field x.frame.payload 4 2
      | _ => none) = some 236 := by decide +kernel

/-! ### Witnesses: supply, links, egress -/

theorem witness_TheQueueIsTheStepsAlone :
    State.reset.pending = [] ∧ ownEvent State.reset = none ∧
    ownEvent (atTick 500000 (part .active)) = some (.silenceTimerExpiry 4) ∧ (part .active).operating = true ∧
    (part .active).table.params.rate ∈ [10, 25, 30, 50, 60, 100, 120] ∧
    { State.reset with power := { State.reset.power with powered := false } }.operating = false := by decide

/-- A part's own events at the tick on which each is due, and what comes first where two are (log 2). -/
theorem test_own_events :
    let with_ := fun (p : Params) (u : State) => { u with table := { u.table with params := p } }
    ownEvent { part .active with adm := { offers := [offer 1], ingest := [] } } = some (.placement .a) ∧
    ownEvent (atTick 200000 (ringed [rec1 50000 .opened] (part .active))) = some (.deadlineExpiry 50000) ∧
    ownEvent (atTick 2000999 { locked with table := State.reset.table }) = none ∧
    ownEvent (atTick 2001000 { locked with table := State.reset.table }) = some .edgeWatchdogExpiry ∧
    ownEvent { State.reset with strobe := { endTick := some 0, lastPulsed := none } } = some .strobePulseEnd ∧
    ownEvent (with_ { resetParams with strobe := .epoch } { locked with table := State.reset.table, tick := 1020000 }) = some .epochPulse ∧
    ownEvent (with_ { resetParams with strobe := .epoch } { locked with table := State.reset.table, tick := 1020001 }) = none ∧
    ownEvent (ringed [rec1 1 .sealed] (part .active)) = some .composeSet ∧
    ownEvent { ringed [rec1 1 .sealed] (part .active) with ctl := { State.reset.ctl with queue := [asked 0x22 []] }
                                                           egress := { State.reset.egress with o := List.replicate 16 (frame 2 0 []) } }
      = some .setOverride ∧
    ownEvent (order 0x16 [] (part .active)) = some .unknownCommand ∧ ownEvent (order 0x51 [] (part .active)) = some .restart := by
  decide +kernel

theorem witness_HeldPartTakesNoOtherEvent :
    { State.reset with power := { State.reset.power with powered := false } }.operating = false ∧
    { State.reset with power := { State.reset.power with resetAsserted := true } }.operating = false ∧
    (∀ r, Instr.ppsEdge ≠ .powerUp r) ∧ Instr.ppsEdge ≠ .resetAssert ∧ Instr.ppsEdge ≠ .resetRelease ∧ Instr.ppsEdge ≠ .powerLoss ∧
    Instr.ppsEdge ≠ .quiesceEvent ∧ Instr.ppsEdge ≠ .quiesceLineRise := by
  refine ⟨rfl, rfl, ?_, ?_, ?_, ?_, ?_, ?_⟩ <;> simp

/-- An image that a start accepts: the stream of these tests, RUN, reset parameters. -/
def image : Image :=
  { params := resetParams, mode := .withhold, streams := [(4, cfg)], ranges := .replicate 8 blankRange }

/-- A part held in RESET, with or without that image. -/
def heldWith (st : Stored) : State :=
  { State.reset with power := { State.reset.power with resetAsserted := true }, store := { State.reset.store with image := st } }

theorem witness_image_read : readImage image.content = some image ∧ image.acceptable = true := by decide +kernel

theorem witness_StartsGiveTheirValues :
    strapBench .tie = true ∧ strapBench (.nominal 7) = false ∧ (Stored.bytes image.bytes).goodImage = some image ∧
    (heldWith (.bytes image.bytes)).store.image = .bytes image.bytes ∧ (heldWith (.bytes image.bytes)).store.writing = none ∧
    (heldWith (.bytes image.bytes)).power.resetAsserted = true ∧ (heldWith (.bytes image.bytes)).power.bench = false ∧
    (heldWith .broken).store.image.goodImage = none := by
  refine ⟨by decide, by decide, ?_, rfl, rfl, rfl, rfl, rfl⟩
  rw [Image.bytes, goodImage_append _ (crc32 image.content).isLt, if_pos rfl, witness_image_read.1]
  simp [Option.filter, witness_image_read.2]

theorem witness_StrapReadingsGiveTheirCodes : ∀ r, ∃ t, exec (.powerUp r) State.reset = .next t := fun _ => ⟨_, rfl⟩

theorem test_strap_codes :
    ([.tie, .nominal 0, .nominal 7, .between 6 .nearerLower, .between 6 .midpoint, .between 6 .nearerHigher, .aboveHighest].map fun r =>
      (strapCode r, strapBench r)) =
    [(0, true), (0, false), (7, false), (6, false), (7, false), (7, false), (7, false)] := by decide

/-- Whatever reading it is, the bench has strap code 0, so that the node ID there is region × 8 (R201). -/
theorem test_bench_has_strap_code_0 (r : StrapReading) (h : strapBench r = true) : strapCode r = 0 := by
  simp only [strapBench, Option.isNone_iff_eq_none] at h
  simp [strapCode, h]

theorem witness_operating : State.reset.operating = true ∧ (part .active).operating = true := by decide

/-- Egress queues by their lengths, a count of grants and a transmission. -/
def queued (o l m grants : Nat) (tx : Option TxKind) : State :=
  { part .active with egress :=
    { o := List.replicate o (frame 2 0 []), l := List.replicate l (frame 3 0 []), m := List.replicate m (frame 5 0 []), reserved := 0
      grants := grants, tx := tx.map fun k => ⟨k, frame 2 0 [], 0⟩ } }

theorem witness_GrantFollowsTheTable :
    State.reset.links.o = .down ∧ (queued 1 0 0 0 (some .part)).egress.tx.isSome = true ∧
    ((queued 0 0 0 0 none).egress.o = [] ∧ (queued 0 0 0 0 none).egress.m = [] ∧ (queued 0 0 0 0 none).egress.l = []) ∧
    (queued 1 1 1 15 none).links.o = .up ∧ (queued 1 1 1 15 none).egress.tx = none ∧
    (queued 1 1 1 15 none).egress.grants < (queued 1 1 1 15 none).table.params.burst ∧
    ((queued 1 0 0 255 none).egress.m = [] ∧ (queued 1 0 0 255 none).egress.l = []) ∧
    (queued 1 1 1 16 none).table.params.burst ≤ (queued 1 1 1 16 none).egress.grants ∧
    ((queued 1 1 0 16 none).egress.m = [] ∧ (queued 1 1 0 16 none).table.params.burst ≤ 16) ∧
    ((queued 0 1 0 0 none).egress.o = [] ∧ (queued 0 1 0 0 none).egress.m = []) := by decide +kernel

theorem witness_TransmissionsAndQueues :
    (queued 0 0 0 0 (some .straggler)).operating = true ∧
    (queued 0 0 0 0 (some .straggler)).egress.tx = some ⟨.straggler, frame 2 0 [], 0⟩ ∧
    (queued 0 63 0 0 none).egress.l.length < 64 ∧ 64 ≤ (queued 0 64 0 0 none).egress.l.length := by decide +kernel

theorem witness_BuiltFramesPassTheFormChecks : 255 < 256 ∧ (List.replicate 9000 (0 : Byte)).length ≤ 9000 :=
  ⟨by omega, by rw [List.length_replicate]⟩

/-- Records at the boundaries of R7's ranges: PRESENT with 16 phasors and 8 analogs, HELD at age 15, ABSENT. -/
def records : List SetRecord :=
  [{ idx := 0, id := 65534, hop := 3, status := .present, holdAge := 0
     content := some { content with phasors := List.replicate 16 ⟨1, 2⟩, analogs := List.replicate 8 3 } },
   { idx := 1, id := 1, hop := 0, status := .held, holdAge := 15, content := some content },
   { idx := 2, id := 7, hop := 0, status := .absent, holdAge := 0, content := none }]

theorem witness_RecordsReadBackAsBuilt :
    ∀ r ∈ records, 1 ≤ r.id ∧ r.id ≤ 65534 ∧ r.hop ≤ 3 ∧ (r.content = none ↔ r.status = .absent) ∧
      (if r.status = .held then 1 ≤ r.holdAge ∧ r.holdAge ≤ 15 else r.holdAge = 0) ∧
      ∀ c, r.content = some c → c.phasors.length ≤ 16 ∧ c.analogs.length ≤ 8 := by
  intro r hr
  simp only [records, List.mem_cons, List.not_mem_nil, or_false] at hr
  rcases hr with rfl | rfl | rfl <;> simp [content]

/-- Set headers at the boundaries of R6's ranges, each with as many records as it counts. -/
def headers : List (SetHeader × List SetRecord) :=
  [({ rate := 120, soe := 4294967295, slot := 119, cause := .step, fallback := true, test := true, stepped := true, clock := .holdover
      quality := 7, partIndex := 255, partCount := 255, recordCount := 3 }, records),
   ({ rate := 10, soe := 0, slot := 0, cause := .complete, fallback := false, test := false, stepped := false, clock := .acquiring
      quality := 0, partIndex := 1, partCount := 1, recordCount := 0 }, [])]

theorem witness_RecordsReadBackAsBuilt_headers :
    ∀ x ∈ headers, 255 ≤ 255 ∧ x.1.rate ∈ [10, 25, 30, 50, 60, 100, 120] ∧ x.1.soe ≤ 4294967295 ∧ x.1.slot < x.1.rate ∧
      x.1.quality ≤ 7 ∧ 1 ≤ x.1.partIndex ∧ x.1.partIndex ≤ x.1.partCount ∧ x.1.partCount ≤ 255 ∧ x.1.recordCount = x.2.length ∧
      x.2.length ≤ 256 := by decide

/-- R7, R14: a record's residual of −1 ns is FFFFFFFFH at offset 4; a header's set flags and clock byte stand at offsets 7 and 8. -/
theorem test_set_bytes :
    field (recordBytes { idx := 0, id := 7, hop := 0, status := .present, holdAge := 0, content := some { content with residual := -1 } })
      4 4 = 0xFFFFFFFF ∧
    headers.map (fun x => headerBytes x.1) =
      [[120, 0xFF, 0xFF, 0xFF, 0xFF, 119, 5, 7, 30, 255, 255, 0, 3], [10, 0, 0, 0, 0, 0, 1, 0, 0, 1, 1, 0, 0]] := by decide +kernel

/-! ### Witnesses: ingress and admission -/

/-- The fields of a phasor frame 100 µs after slot 1 of second 1000, Δf 100 mHz. -/
def meas : Meas where
  id := 7
  soe := 1000
  frac := 20100
  tq := 4
  flags := Flags.clear
  df := 100
  rocof := 0
  digital := 0
  phasors := [⟨70000, 16384⟩]
  analogs := []

/-- Its body. -/
def measBody : List Byte := be 4 1000 ++ be 3 20100 ++ [4] ++ be 2 100 ++ be 2 0 ++ be 2 0 ++ [1, 0] ++ be 4 70000 ++ be 2 16384

/-- An aligned-set body of one PRESENT record of the stream. -/
def setBody (hop : Nat) : List Byte :=
  headerBytes { rate := 50, soe := 1000, slot := 49, cause := .complete, fallback := false, test := false, stepped := false
                clock := .locked, quality := 2, partIndex := 1, partCount := 1, recordCount := 1 } ++
    recordBytes { idx := 0, id := 7, hop := hop, status := .present, holdAge := 0, content := some content }

/-- The part with composite ingest on. -/
def composite (st : StreamState) : State :=
  { part st with table := { (part st).table with params := { resetParams with composite := true } } }

theorem witness_FramersDiscardAndCount :
    (part .active).links.a = .up ∧ State.reset.links.a = .down ∧ (frame 1 7 measBody).etype = (part .active).table.params.payloadType ∧
    ([] : List Byte).length < 6 ∧ 9000 < field [0, 0, 0, 0, 0x23, 0x29] 4 2 ∧
    (formOf (frame 1 7 measBody).payload = .good ∧ (frame 1 7 measBody).payload.length = 6 + measBody.length + 4) ∧
    formOf ((frame 1 7 measBody).payload.dropLast ++ [0]) = .bad ∧ formOf (frame 1 7 measBody).payload.dropLast = .malformed ∧
    readMeas 65535 measBody = none ∧ readMeas 65534 measBody ≠ none ∧ readAset 256 (setBody 0) = none ∧
    readAset 255 (setBody 0) ≠ none := by decide +kernel

/-- R20's and R10's conditions, each broken alone: n, m, the length, and for a set the grid rate, slot, cause, clock state, part index,
record count, status with hold age, and phasor count. -/
theorem test_malformed_bodies :
    (readMeas 7 measBody).isSome = true ∧ readMeas 0 measBody = none ∧
    readMeas 7 (measBody.set 14 17 ++ List.replicate 96 0) = none ∧ readMeas 7 (measBody.set 15 9 ++ List.replicate 36 0) = none ∧
    readMeas 7 measBody.dropLast = none ∧ (readAset 9 (setBody 3)).isSome = true ∧
    [(0, 51), (5, 50), (6, 0), (6, 6), (8, 3), (9, 0), (9, 2), (10, 0), (12, 0), (12, 2), (15, 1), (15, 0x10), (27, 17)].all (fun x =>
      (readAset 9 ((setBody 0).set x.1 x.2)).isNone) = true := by decide +kernel

/-- A control frame for a target: SNAPSHOT_COUNTERS with tag 2. -/
def ctrl (target : Byte) : EthFrame := frame 4 1 ([target, 0x40] ++ be 2 2)

theorem witness_ControlFramesAreAcceptedOrShed :
    let s := part .active
    let full := { s with ctl := { s.ctl with queue := List.replicate 8 (asked 0x40 []) }, egress := { s.egress with reserved := 8 } }
    s.operating = true ∧ s.links.a = .up ∧ (ctrl 0).etype = s.table.params.payloadType ∧ formOf (ctrl 0).payload = .good ∧
    field (ctrl 0).payload 0 1 = 4 ∧ 4 ≤ (bodyOf (ctrl 0).payload).length ∧
    field (bodyOf (ctrl 0).payload) 0 1 = s.table.params.region * 8 + s.power.strapCode ∧
    (formOf (ctrl 255).payload = .good ∧ field (bodyOf (ctrl 255).payload) 0 1 = 255) ∧
    (formOf (ctrl 1).payload = .good ∧ field (bodyOf (ctrl 1).payload) 0 1 = 1) ∧
    catchUp .a (report (framesIn .a) s) = report (framesIn .a) s ∧ s.ctl.queue.length < 8 ∧
    full.operating = true ∧ ¬ (full.ctl.queue.length < 8) ∧ full.links.a = .up := by decide +kernel

/-- Exactly the reserved places decide the room for a command: with seven taken there is one, with eight there is none. -/
theorem test_control_frame_shed :
    let s := fun (n : Nat) => { part .active with egress := { State.reset.egress with reserved := n } }
    (match exec (.ingressFrameComplete .a true (ctrl 0)) (s 7) with
      | .next t => (t.ctl.queue.length, t.egress.reserved, t.mon.counters[29]) | _ => (9, 9, 9)) = (1, 8, 0) ∧
    (match exec (.ingressFrameComplete .a true (ctrl 0)) (s 8) with
      | .next t => (t.ctl.queue.length, t.egress.reserved, t.mon.counters[29]) | _ => (9, 9, 9)) = (0, 8, 1) := by decide +kernel

/-- A measurement of the stream's shape. -/
def measured : Measurement := meas.measurement .a 0 measBody

theorem witness_AdmissionCountsItsRefusals :
    State.reset.stream 7 = none ∧ (part .isolated).stream 7 = some (entry .isolated) ∧
    (part .active).stream 7 = some (entry .active) ∧ (entry .active).state ≠ .isolated ∧ (entry .active).isolating = false ∧
    { measured with phasors := [] }.phasors.length ≠ (entry .active).cfg.phasors ∧
    { measured with analogs := [0] }.analogs.length ≠ (entry .active).cfg.analogs ∧
    (measured.phasors.length = (entry .active).cfg.phasors ∧ measured.analogs.length = (entry .active).cfg.analogs) ∧
    (∀ x ∈ [(1000000, SnapResult.badLabel), (19000 - 1, .offGrid)],
      snap { soe := measured.soe, frac := x.1, tb := cfg.tb, rate := 50, tol := cfg.tol
             correction := correctionOn (part .active).table cfg, df := measured.df, angles := measured.phasors.map (·.angle) } = x.2) ∧
    snap { soe := 1000, frac := 49, tb := ({ measured with frac := 49, label := some 50 }.label).getD cfg.tb, rate := 50, tol := cfg.tol
           correction := true, df := measured.df, angles := measured.phasors.map (·.angle) } = .snapped 50049 0 [16384] false ∧
    (part .active).operating = true ∧ (part .active).links.a = .up ∧ (frame 1 7 measBody).etype = (part .active).table.params.payloadType ∧
    formOf (frame 1 7 measBody).payload = .good ∧ field (frame 1 7 measBody).payload 0 1 = 1 ∧
    readMeas (field (frame 1 7 measBody).payload 2 2) (bodyOf (frame 1 7 measBody).payload) = some meas := by decide +kernel

theorem witness_PhasorFrameBecomesContribution :
    let s := part .active
    let w := catchUp .a (report (framesIn .a) s)
    s.operating = true ∧ s.links.a = .up ∧ (frame 1 7 measBody).etype = s.table.params.payloadType ∧
    formOf (frame 1 7 measBody).payload = .good ∧ field (frame 1 7 measBody).payload 0 1 = 1 ∧
    readMeas (field (frame 1 7 measBody).payload 2 2) (bodyOf (frame 1 7 measBody).payload) = some meas ∧
    w.stream meas.id = some (entry .active) ∧ (entry .active).state ≠ .isolated ∧ (entry .active).isolating = false ∧
    meas.phasors.length = (entry .active).cfg.phasors ∧ meas.analogs.length = (entry .active).cfg.analogs ∧
    snap { soe := meas.soe, frac := meas.frac, tb := cfg.tb, rate := w.table.params.rate, tol := cfg.tol
           correction := correctionOn w.table cfg, df := meas.df, angles := meas.phasors.map (·.angle) }
      = .snapped 50001 100000 [16383] false := by decide +kernel

theorem witness_LifeFramesAndTimeReports :
    (∀ st ∈ [StreamState.enrolled, .active, .suspect, .silent, .isolated],
      ((part st).table.streams.map fun x => x.cfg.id).Nodup ∧ (part st).stream 7 = some (entry st)) ∧
    State.reset.stream 7 = none ∧ (entry .active).cfg.hysteresis ≤ min 15 ({ entry .active with bad := 2 }.bad + 1) := by decide

theorem witness_AlignedSetFramesAndArrivalOrder :
    let s := composite .active
    let f := frame 2 9 (setBody 0)
    ((part .active).adm.offers = [] ∧ (part .active).adm.ingest = []) ∧ s.operating = true ∧ s.links.a = .up ∧ f.etype = s.table.params.payloadType ∧
    formOf f.payload = .good ∧ field f.payload 0 1 = 2 ∧
    (∃ h rs, readAset (field f.payload 2 2) (bodyOf f.payload) = some (h, rs) ∧ rs ≠ []) ∧
    (catchUp .a (report (framesIn .a) s)).table.params.composite = true ∧
    field f.payload 2 2 ≠ s.table.params.region * 8 + s.power.strapCode ∧
    (formOf (frame 2 0 (setBody 0)).payload = .good ∧
      field (frame 2 0 (setBody 0)).payload 2 2 = s.table.params.region * 8 + s.power.strapCode) ∧
    (readAset 9 (headerBytes { rate := 50, soe := 0, slot := 0, cause := .complete, fallback := false, test := false, stepped := false
                               clock := .locked, quality := 2, partIndex := 1, partCount := 1, recordCount := 0 })).map (·.2) = some [] := by
  refine ⟨⟨rfl, rfl⟩, by decide, by decide, by decide +kernel, by decide +kernel, by decide +kernel, ?_, by decide +kernel,
    by decide +kernel, by decide +kernel, by decide +kernel⟩
  have h : ((readAset (field (frame 2 9 (setBody 0)).payload 2 2) (bodyOf (frame 2 9 (setBody 0)).payload)).map
      fun x => x.2.length) = some 1 := by decide +kernel
  rcases hr : readAset (field (frame 2 9 (setBody 0)).payload 2 2) (bodyOf (frame 2 9 (setBody 0)).payload) with _ | ⟨x, rs⟩
  · simp [hr] at h
  · exact ⟨x, rs, rfl, fun e => by simp [hr, e] at h⟩

/-- A record of the stream as Composite Ingest holds it. -/
def lower (st : RecordStatus) (hop : Nat) : WireRecord where
  id := 7
  hop := hop
  status := st
  holdAge := if st = .held then 1 else 0
  flags := Flags.clear
  df := 0
  rocof := 0
  digital := 0
  phasors := if st = .absent then [] else [⟨70000, 16384⟩]
  analogs := []

/-- A frame of some records under treatment. -/
def ingesting (rs : List WireRecord) : State :=
  { composite .active with adm := { offers := [], ingest := [
    { port := .a, arrival := 0, records := rs
      header := { rate := 50, soe := 1000, slot := 49, cause := .complete, fallback := false, test := false, stepped := false
                  clock := .locked, quality := 2, partIndex := 1, partCount := 1, recordCount := 1 } }] } }

/-- Two contributions of a port wait before the record under treatment: the oldest is placed first, until none is left, and then the
record is taken (R18). -/
def queuedPort : State :=
  { ingesting [lower .present 0] with adm := { (ingesting [lower .present 0]).adm with offers := [offer 50047, offer 50048] } }

theorem witness_AlignedSetFramesAndArrivalOrder_steps :
    queuedPort.operating = true ∧ queuedPort.adm.offers.any (fun o => o.port == .a) = true ∧
    (∃ t, exec (.placement .a) queuedPort = .next t) ∧ (ingesting [lower .present 0]).adm.offers.any (fun o => o.port == .a) = false ∧
    (ingesting [lower .present 0]).adm.ingest.any (fun f => f.port == .a) = true ∧
    (∃ t, exec .asetRecordIngest (ingesting [lower .present 0]) = .next t) ∧ (part .active).adm.ingest = [] :=
  ⟨by decide, by decide, ⟨_, rfl⟩, by decide, by decide, ⟨_, rfl⟩, rfl⟩

theorem test_catch_up_order :
    (placeAll .a 2 queuedPort).table.streams.map (·.lastEpoch) = [some 50048] ∧
    (catchUp .a queuedPort).table.streams.map (·.lastEpoch) = [some 50049] ∧
    ((catchUp .a queuedPort).adm.offers, (catchUp .a queuedPort).adm.ingest) = ([], []) := by decide +kernel

theorem witness_LowerTierRecordsEnterAdmission :
    (∀ r ∈ [lower .absent 0, lower .present 3, lower .present 2, lower .held 0],
      (ingesting [r]).operating = true ∧ ((ingesting [r]).adm.ingest.map (·.records)) = [[r]]) ∧
    (lower .absent 0).status = .absent ∧ (lower .present 3).hop = 3 ∧ (lower .held 0).status ≠ .absent ∧ (lower .present 2).hop ≠ 3 := by
  decide +kernel

/-! ### Witnesses: the snap and placement -/

theorem witness_SnapTakesTheNearestSlot :
    let q := fun (soe frac tol : Nat) => (⟨soe, frac, 1000000, 50, tol, true, 0, []⟩ : SnapRequest)
    snap (q 0 1000000 0) = .badLabel ∧ snap (q 4294967295 990000 65535) = .badLabel ∧
    snap (q 4294967295 989999 65535) = .snapped (4294967295 * 50 + 49) 9999000 [] false ∧
    snap (q 0 990000 10000) = .snapped 50 (-10000000) [] false ∧ snap (q 0 990000 9999) = .offGrid ∧
    snap (q 0 0 0) = .snapped 0 0 [] false := by decide

theorem witness_AngleCorrectionWraps :
    let q := fun (frac : Nat) (on : Bool) (df : Half) => (⟨0, frac, 1000000, 50, 1000, on, df, [0x8000#16]⟩ : SnapRequest)
    snap (q 0 true 100) = .snapped 0 0 [0x8000#16] false ∧ snap (q 100 false 100) = .snapped 0 100000 [0x8000#16] true ∧
    snap (q 100 true 0x8000#16) = .snapped 0 100000 [0x8000#16] true ∧ snap (q 100 true 100) = .snapped 0 100000 [0x7FFF#16] false := by
  decide

theorem witness_PlacementTestsInOrder :
    let s := part .active
    let full := ringed [rec1 50000 .opened] s
    let now := { locked with tru := { locked.tru with mapping := some ⟨100, 2000000⟩ } }
    answer { s with ring := { s.ring with stepDrain := true } } (offer 1) = .draining ∧
    answer s { offer 1 with rate := 25 } = .draining ∧
    answer { s with ring := { s.ring with floor := some 1, floorTick := some 0 } } (offer 1) = .late 0 ∧
    answer { s with ring := { s.ring with floor := some 1, floorTick := some 0 }
                    table := { s.table with streams := [{ entry .active with lastEpoch := some 1 }] } } (offer 1) = .duplicate ∧
    (memoryOf [⟨513, 7⟩] 1 = some ⟨513, 7⟩ ∧ (⟨513, 7⟩ : Departed).ordinal ≠ 1 ∧
      answer { s with ring := { s.ring with floor := some 513, floorTick := some 5, memory := [⟨513, 7⟩] } } (offer 513) = .late 7 ∧
      answer { s with ring := { s.ring with floor := some 513, floorTick := some 5, memory := [⟨513, 7⟩] } } (offer 1) = .late 5) ∧
    answer (ringed [rec1 2 .emitting] s) (offer 1) = .late 0 ∧
    answer now (offer 5026) = .ahead ∧ answer now (offer 5025) = .accepted ∧
    answer full (offer 50511) = .accepted ∧ answer full (offer 50512) = .crowds ∧
    answer full (offer 49489) = .accepted ∧ answer full (offer 49488) = .belowSpan ∧
    answer { s with ring := { s.ring with floor := some 1, floorTick := some 0 } } (offer 513) = .accepted ∧
    answer { s with ring := { s.ring with floor := some 1, floorTick := some 0 } } (offer 514) = .advances ∧
    answer full (offer 50000) = .duplicate ∧
    answer full { offer 50000 with contribution := { given with frac := 1 } } = .collision ∧
    answer (ringed [rec1 50000 .sealed] s) (offer 50000) = .afterSeal 0 := by decide +kernel

theorem witness_AcceptanceFillsItsRecord :
    let s := part .active
    let none' := part .silent
    s.table.params.base = .timestamp ∧ s.tru.mapping = none ∧ locked.tru.mapping = some ⟨100, 1000000⟩ ∧
    { s.table.params with base := .firstArrival }.base = .firstArrival ∧
    (countsPresent s.table 1 given = true ∧ requiredCount s.table 1 = 1) ∧
    (requiredCount none'.table 1 = 0 ∧ countsPresent none'.table 1 given = false) ∧
    (accept s (offer 1)).ring.recs.map (·.state) = [.sealed] ∧
    ({ cfg with optional := true } : StreamCfg).optional = true := by decide

/-- A part at a tick with two required streams, of which one offers. -/
def half (t : Nat) : State :=
  { part .active with
    tick := t
    table := { State.reset.table with streams := [entry .active, { entry .active with idx := 9, cfg := { cfg with id := 8 } }] } }

/-- The first contribution of two opens its record: past its deadline it seals DEADLINE, one tick before it stays OPEN (R89, R92). -/
theorem witness_AcceptanceFillsItsRecord_opens :
    (∀ t ∈ [200000, 199999], (half t).ring.recordOf 1 = none ∧ (openRecord (half t) 1 0).deadline = 200000 ∧
      (if countsPresent (half t).table 1 given then 1 else 0) ≠ requiredCount (half t).table 1 ∧ (openRecord (half t) 1 0).cause = none) ∧
    [200000, 199999].map (fun t => (accept (half t) (offer 1)).ring.recs.map fun r => (r.state, r.cause)) =
      [[(.sealed, some .deadline)], [(.opened, none)]] ∧
    (∀ d ∈ [{ given with index := some 3 }], d.index ≠ none ∧ d.index.getD 0 < given.index.getD 0) ∧
    (∀ d ∈ [{ given with index := some 5 }, { given with index := none, former := some 1 }].head?,
      d.index = none ∨ given.index.getD 0 < d.index.getD 0) ∧ given.index ≠ none ∧
    (∀ r ∈ [rec1 1 .opened], r.ordinal < (rec1 2 .opened).ordinal) ∧
    (∀ r ∈ [rec1 3 .opened].head?, (rec1 2 .opened).ordinal < r.ordinal) := by decide

theorem witness_PlacementIsOneEvent :
    let s := { part .active with adm := { offers := [offer 1], ingest := [] } }
    let gone := { part .active with adm := { offers := [{ offer 1 with contribution := { given with index := none } }], ingest := [] } }
    s.operating = true ∧ s.adm.offers.find? (fun x => x.port == .a) = some (offer 1) ∧ (offer 1).contribution.index ≠ none ∧
    gone.adm.offers.find? (fun x => x.port == .a) = some { offer 1 with contribution := { given with index := none } } ∧
    s.adm.offers.find? (fun x => x.port == .b) = none := by decide

/-- R39: an isolating stream passes to ISOLATED with its last contribution, and not with the one before it. R26: the contribution of a
SUSPECT stream carries TIME_SUSPECT. -/
theorem test_placement_isolates_and_suspects :
    let s := fun (st : StreamState) (leaving : Bool) (os : List Offer) =>
      { part st with adm := { offers := os, ingest := [] }
                     table := { State.reset.table with streams := [{ entry st with isolating := leaving }] } }
    let after := fun (u : State) => match exec (.placement .a) u with | .next t => t | _ => u
    (after (s .active true [offer 1])).table.streams.map (fun e => (e.state, e.isolating, e.timer)) = [(.isolated, false, none)] ∧
    (after (s .active true [offer 1, offer 2])).table.streams.map (fun e => (e.state, e.isolating)) = [(.active, true)] ∧
    [StreamState.suspect, .active].map (fun st => (after (s st false [offer 1])).ring.recs.flatMap fun r =>
      r.contributions.map fun c => c.content.flags.timeSuspect) = [[true], [false]] := by decide +kernel

theorem witness_AnswersChangeAndCount :
    Answer.crowds ≠ .accepted ∧ (offer 1).straggle = true ∧ (offer 1).body = some [] ∧ { offer 1 with body := none }.body = none ∧
    (∀ t, Answer.ahead ≠ .late t ∧ Answer.ahead ≠ .afterSeal t) := by
  refine ⟨by decide, rfl, rfl, rfl, fun t => ⟨by simp, by simp⟩⟩

/-! ### Witnesses: timers, departure and the Composer -/

theorem witness_SilenceAndDeadlinesExpire :
    (∀ st ∈ [StreamState.enrolled, .active, .suspect], (atTick 500000 (part st)).operating = true ∧
      (atTick 500000 (part st)).streamAt 4 = some (entry st) ∧ (entry st).timer = some 500000 ∧
      ((part st).table.streams.map fun x => x.cfg.id).Nodup) ∧
    (part .active).streamAt 4 = some (entry .active) ∧
    (atTick 200000 (ringed [rec1 50000 .opened] (part .active))).operating = true ∧
    (((ringed [rec1 50000 .opened] (part .active)).ring.recs.map fun r => r.ordinal).Nodup) ∧
    rec1 50000 .opened ∈ (ringed [rec1 50000 .opened] (part .active)).ring.recs ∧ (rec1 50000 .opened).state = .opened ∧
    (rec1 50000 .opened).deadline ≤ 200000 ∧
    [given].countP (countsPresent (part .active).table 50000) = requiredCount (part .active).table 50000 ∧
    [given].countP (countsPresent (part .silent).table 50000) ≠ requiredCount (part .active).table 50000 := by decide +kernel

theorem witness_ReevaluationFlushesAndWithheldHeads :
    (ringed [rec1 1 .sealed] (part .active)).headMustLeave = false ∧
    { ringed [rec1 1 .sealed] (part .active) with comp := { State.reset.comp with mode := .withhold } }.headMustLeave = true := by decide

theorem witness_DepartureAndEmptyRing :
    let s := ringed [rec1 1 .sealed, rec1 2 .opened] (part .active)
    let at_ := fun (c : CommitState) (u : State) => { u with ctl := { u.ctl with commit := c } }
    s.ring.recs = rec1 1 .sealed :: [rec1 2 .opened] ∧ s.ctl.commit ≠ .pendingBoundary ∧
    (at_ .pendingBoundary s).ctl.commit = .pendingBoundary ∧ (part .active).ring.recs = [] ∧ (part .active).ctl.commit ≠ .pendingDrain ∧
    (at_ .pendingDrain (part .active)).ctl.commit = .pendingDrain := by decide

/-- The last record leaves during a step drain: the epoch memory and F are forgotten, and the step mark stands (R100). -/
theorem test_step_drain_ends :
    let s := ringed [rec1 1 .sealed] (part .active)
    let t := depart true { s with ring := { s.ring with stepDrain := true, floor := some 0, floorTick := some 0 } }
    (t.ring.recs, t.ring.memory, t.ring.floor, t.ring.floorTick, t.ring.stepDrain, t.ring.stepMark) =
      ([], [], none, none, false, true) := by decide

/-- An override of each action. -/
def override (a : OverrideAction) (n : Nat) : Override := { action := a, df := 0, phasors := List.replicate n ⟨1, 2⟩ }

theorem witness_RecordsOfASet :
    (override .suppress 0).action = .suppress ∧ (override .markInvalid 0).action = .markInvalid ∧
    (override .substitute 1).action = .substitute ∧ (override .substitute 1).phasors.length = cfg.phasors ∧
    (override .substitute 2).phasors.length ≠ cfg.phasors := by decide

theorem test_hold_stops_at_its_limit :
    let e := fun (n : Nat) => { entry .active with hold := some content, holdAge := n }
    (streamRecord (part .active).table 1 (e 1) none none).map (fun r => (r.status, r.holdAge)) = some (.held, 2) ∧
    (streamRecord (part .active).table 1 (e 2) none none).map (fun r => (r.status, r.holdAge)) = some (.absent, 0) := by decide

theorem witness_CuttingKeepsOrderAndSize : ∀ r ∈ records, recordSize r ≤ 144 := by
  intro r hr
  simp only [records, List.mem_cons, List.not_mem_nil, or_false] at hr
  rcases hr with rfl | rfl | rfl <;> simp [recordSize, content]

/-- A part whose SEALED head waits for a free slot of O, with some parts there. -/
def waiting (n : Nat) : State :=
  { ringed [rec1 50001 .sealed] (part .active) with egress := (queued n 0 0 0 (some .part)).egress }

theorem witness_CompositionFixesTheSet :
    (waiting 15).operating = true ∧ (waiting 15).ring.recs = [rec1 50001 .sealed] ∧ (rec1 50001 .sealed).state = .sealed ∧
    (rec1 50001 .sealed).cause = some .deadline ∧ (waiting 15).comp.quiesced = false ∧ (waiting 15).comp.mode ≠ .withhold ∧
    (waiting 15).egress.o.length < 16 := by decide +kernel

/-- An EMITTING head whose set has two parts, some of them queued. -/
def emitting (n : Nat) : State :=
  { ringed [rec1 50001 .emitting] (part .active) with
    comp := { State.reset.comp with set := some { ordinal := 50001, queued := n, parts := [⟨records, frame 2 0 []⟩, ⟨[], frame 2 0 []⟩] } } }

theorem witness_QueuedPartMovesHoldCaches :
    (∀ n ∈ [0, 1], (emitting n).operating = true ∧ (emitting n).ring.recs = [rec1 50001 .emitting] ∧
      (emitting n).egress.o.length < 16) ∧ (rec1 50001 .emitting).state = .emitting ∧
    ((emitting 0).comp.set.bind fun c => c.parts[c.queued]?).map (·.records) = some records ∧
    ((emitting 1).comp.set.bind fun c => c.parts[c.queued]?).map (·.records) = some [] := by decide +kernel

theorem witness_QuiesceAndEmission :
    (part .active).table.params.quiesceEnable = true ∧ (part .active).comp.lineLow = false ∧ (heldWith .blank).operating = false ∧
    { (part .active).comp with lineLow := true }.lineLow = true ∧ (order 0x25 [] (part .active)).ctl.queue = [asked 0x25 []] ∧
    (∀ b ∈ [0#8, 1#8, 2#8, 3#8], (order 0x24 [b] (part .active)).ctl.queue = [asked 0x24 [b]] ∧
      (order 0x24 [b] (part .active)).operating = true ∧ (asked 0x24 [b]).re.code = 0x24#8) ∧ 2 < (3#8).toNat := by decide

/-! ### Witnesses: the Time Reference Unit -/

/-- An ACQUIRING part at a streak, its edge reference at tick 1,000,000. -/
def acquiring (streak t : Nat) : State :=
  { part .active with
    tick := t
    tru := { State.reset.tru with edgeRef := some 1000000, streak := streak, streakLabel := 99 } }

theorem witness_AcquisitionStreak :
    (∀ t ∈ [1999000, 2001000], (labelled 100 (acquiring 1 t)).operating = true ∧ (acquiring 1 t).tru.state = .acquiring ∧
      999000 ≤ t - 1000000 ∧ t - 1000000 ≤ 1001000 ∧ (acquiring 1 t).tru.edgeRef = some 1000000 ∧ (acquiring 1 t).time.buffer = none) ∧
    (labelled 100 (acquiring 2 2000000)).time.buffer.map (·.label) = some ((acquiring 2 2000000).tru.streakLabel + 1) ∧
    ¬ (999000 ≤ 1998999 - 1000000) ∧ ¬ (2001001 - 1000000 ≤ 1001000) ∧ State.reset.tru.edgeRef = none := by decide

/-- The third labelled regular edge of a streak locks, the second does not (R111). -/
theorem test_third_edge_locks :
    (match exec .ppsEdge (labelled 100 (acquiring 2 2001000)) with
      | .next t => (t.tru.state, t.tru.mapping) | _ => (.holdover, none)) = (.locked, some ⟨100, 2001000⟩) ∧
    (match exec .ppsEdge (labelled 100 (acquiring 1 2001000)) with
      | .next t => (t.tru.state, t.tru.streak) | _ => (.holdover, 0)) = (.acquiring, 2) := by decide

theorem witness_LockedEdges :
    locked.operating = true ∧ locked.tru.state = .locked ∧ locked.tru.mapping = some ⟨100, 1000000⟩ ∧
    locked.tru.edgeRef = some 1000000 ∧ locked.time.buffer = none ∧ 999000 ≤ locked.tick - 1000000 ∧
    locked.tick - 1000000 ≤ 1001000 ∧ 100 + (locked.tick - 1000000 + 500000) / 1000000 = 101 ∧
    (labelled 101 locked).time.buffer = some ⟨101, ⟨2, false⟩⟩ ∧ (labelled 102 locked).time.buffer = some ⟨102, ⟨2, false⟩⟩ ∧
    { locked.tru with mismatch := some 101 }.mismatch = some 101 ∧ (102 : Nat) ≠ 101 ∧ (102 : Nat) = 101 + 1 ∧
    ¬ (999000 ≤ (atTick 1998999 locked).tick - 1000000) := by decide

/-- The part in HOLDOVER since tick 2,001,000. -/
def holding : State :=
  { locked with tick := 3000000
                tru := { locked.tru with state := .holdover, edgeRef := some 2000000, watchdog := none, holdEntry := some 2001000 } }

theorem witness_HoldoverEdges :
    holding.operating = true ∧ holding.tru.state = .holdover ∧ holding.tru.mapping = some ⟨100, 1000000⟩ ∧
    holding.tru.edgeRef = some 2000000 ∧ 999000 ≤ holding.tick - 2000000 ∧ holding.tick - 2000000 ≤ 1001000 ∧
    holding.time.buffer = none ∧ (labelled 102 holding).time.buffer.isSome = true ∧
    100 + (holding.tick - 1000000 + 500000) / 1000000 = 102 ∧ { holding.tru with mismatch := some 103 }.mismatch = some 103 ∧
    (104 : Nat) ≠ 102 ∧ (104 : Nat) = 103 + 1 ∧ ¬ ((atTick 3001001 holding).tick - 2000000 ≤ 1001000) := by decide

theorem witness_HoldoverAndClockQuality :
    (atTick 2001000 locked).operating = true ∧ locked.tru.watchdog = some 2001000 ∧ locked.tru.state = .locked ∧
    0 < locked.table.params.holdoverS ∧ { locked.table.params with holdoverS := 0 }.holdoverS = 0 ∧
    holding.tru.holdEntry = some 2001000 ∧ 2001000 + holding.table.params.holdoverS * 1000000 ≤ (atTick 302001000 holding).tick ∧
    locked.tru.lastMsg = some ⟨0, false⟩ := by decide

/-- A character of the TIME line, begun in its first period. -/
def char (data : Byte) (parity stop : Bool) : TimeChar :=
  { data := data, parityBit := parity, stopBit := stop, period := 0, sawHigh := true }

/-- A message in progress, for the last second of the SOE scale or the one past it. -/
def digits (last : Fin 10) : Fin 10 → Fin 10 := fun i => ([4, 2, 9, 4, 9, 6, 7, 2, 9] : List (Fin 10)).getD i.val last

theorem witness_TimeCharactersMakeMessages :
    State.reset.time.period = (char 0x3C true true).period ∧ State.reset.time.waitHigh = false ∧
    { State.reset.time with period := 1 }.period ≠ (char 0x3C true true).period ∧
    { char 0x3C true true with sawHigh := false }.sawHigh = false ∧
    fitsPosition 2 0x30#8 = true ∧ fitsPosition 2 0x4C#8 = false ∧ fitsPosition 14 0x3E#8 = true ∧ (char 0x30 false false).stopBit = false ∧
    (List.ofFn fun i => (digits 5 i).val).foldl (fun acc d => acc * 10 + d) 0 = 4294967295 ∧
    4294967295 < (List.ofFn fun i => (digits 6 i).val).foldl (fun acc d => acc * 10 + d) 0 ∧
    (resetParams.parity = .even ∧ { resetParams with parity := .odd }.parity = .odd ∧ { resetParams with parity := .none }.parity = .none) ∧
    { State.reset.time with chars := 0x3C#8 :: (List.ofFn fun i => BitVec.ofNat 8 (0x30 + (digits 5 i).val)) ++ [0x32#8, 0x4C#8] }.chars.length
      = 13 := by decide

/-- The end of a message under each parity: `>` has five bits set, so its parity bit is 1 for EVEN and 0 for ODD (R104, R105). -/
theorem test_time_message_end :
    let at13 := fun (q : Parity) => { State.reset with
      table := { State.reset.table with params := { resetParams with parity := q } }
      time := { State.reset.time with chars := (List.replicate 11 0x30#8).set 0 0x3C#8 ++ [0x32#8, 0x48#8] } }
    [(Parity.even, true), (.odd, false), (.none, false), (.even, false), (.odd, true)].map (fun x =>
      match exec (.timeCharacter (char 0x3E x.2 true)) (at13 x.1) with
      | .next t => t.time.buffer
      | _ => none) =
    [some ⟨0, ⟨2, true⟩⟩, some ⟨0, ⟨2, true⟩⟩, some ⟨0, ⟨2, true⟩⟩, none, none] := by decide

/-- R106: a character begun before a start is not taken after it. -/
theorem test_character_begun_before_a_start :
    (match exec (.timeCharacter (char 0x3C false true)) { State.reset with time := { State.reset.time with period := 1 } } with
      | .next t => t.time.chars | _ => [0]) = [] := by decide

/-- Even parity of `<` (four bits set) is 0; the other parity bit is a parity error (R104). -/
theorem test_time_parity :
    (match exec (.timeCharacter (char 0x3C false true)) State.reset with
      | .next t => (t.time.chars, t.mon.counters[33]) | _ => ([], 9)) = ([0x3C#8], 0) ∧
    (match exec (.timeCharacter (char 0x3C true true)) State.reset with
      | .next t => (t.time.chars, t.mon.counters[33]) | _ => ([], 9)) = ([], 1) := by decide

theorem witness_StrobePulses :
    let s := fun (t : Nat) (l : Option Nat) => atTick t { locked with strobe := { endTick := none, lastPulsed := l } }
    { State.reset with strobe := { endTick := some 0, lastPulsed := none } }.strobe.endTick = some 0 ∧
    (atTick 9 State.reset).tick < 10 ∧ { resetParams with strobe := .epoch }.strobe = .epoch ∧
    resetParams.rate ∈ [10, 25, 30, 50, 60, 100, 120] ∧ State.reset.refNow = none ∧
    (s 1020000 (some 5000)).refNow = some 100020000 ∧ instantUs 50 5001 = 100020000 ∧ (s 1019999 (some 5000)).refNow = some 100019999 ∧
    (s 1020000 none).strobe.lastPulsed = none ∧
    (instantUs 50 5000 < 100000001 ∧ 100000001 ≤ instantUs 50 5001 ∧ instantUs 50 5001 ≤ 100020000 ∧ 100020000 < instantUs 50 5002) := by
  decide

/-- The first EPOCH pulse after the last pulsed ordinal was made absent falls on a grid instant, and a jump over several instants gives
one pulse and the greatest ordinal reached (R122). -/
theorem test_epoch_pulses :
    let s := fun (t : Nat) (l : Option Nat) => atTick t { locked with
      table := { locked.table with params := { resetParams with strobe := .epoch } }, strobe := { endTick := none, lastPulsed := l } }
    (match exec .epochPulse (s 1020000 none) with | .next t => t.strobe | _ => ⟨none, none⟩) = ⟨some 1020010, some 5001⟩ ∧
    (match exec .epochPulse (s 1020001 none) with | .next t => t.strobe | _ => ⟨some 0, none⟩) = ⟨none, none⟩ ∧
    (epochJump (some 100000000) (s 1070000 (some 5000))).strobe = ⟨some 1070010, some 5003⟩ := by decide

/-! ### Witnesses: the Monitor and the Profile Store -/

theorem witness_MonitorCounts :
    State.reset.mon.hold = false ∧ State.reset.mon.frozen = false ∧ { State.reset.mon with hold := true }.hold = true ∧
    Ctr.late ≠ .ahead ∧ State.reset.mon.remainder < 1000 ∧ State.reset.mon.elapsed.toNat < 4294967295 ∧
    { State.reset with mon := { State.reset.mon with elapsed := 0xFFFFFFFF#32 } }.mon.elapsed = 0xFFFFFFFF#32 := by decide

theorem witness_commands :
    (∀ c ∈ [0x40#8, 0x41#8, 0x42#8, 0x50#8, 0x15#8, 0x51#8, 0x30#8, 0x32#8, 0x33#8, 0x14#8],
      (order c [] (part .active)).operating = true ∧ (order c [] (part .active)).ctl.queue = [asked c []] ∧ (asked c []).re.code = c ∧
      (asked c []).args = []) ∧
    { (part .active).store with state := .writing }.state = .writing ∧ (part .active).store.state ≠ .writing := by decide

theorem witness_SaveProfileAndItsWrite :
    let s := { part .active with store := { image := .broken, state := .writing, writing := some image, saveFor := some ⟨1, 2, 0x50⟩ } }
    s.operating = true ∧ s.store.writing = some image ∧ s.store.saveFor = some ⟨1, 2, 0x50⟩ ∧ readBack [] image = image.bytes ∧
    profileCheckGood image.bytes = true ∧ profileCheckGood (image.content ++ be 4 ((crc32 image.content).toNat ^^^ 1)) = false ∧
    readImage [] = none ∧ image.streams.Pairwise (fun a b => a.1 < b.1) ∧ (∀ p ∈ image.streams, p.1 < 256) ∧
    image.acceptable = true ∧ { image with streams := [(4, cfg), (5, cfg)] }.acceptable = false ∧
    { image with params := { resetParams with region := 31 } }.acceptable = false := by
  have hx : (crc32 image.content).toNat ^^^ 1 < 4294967296 := Nat.xor_lt_two_pow (n := 32) (crc32 image.content).isLt (by decide)
  refine ⟨by decide, rfl, rfl, rfl, (profileCheckGood_append _ (crc32 image.content).isLt).2 rfl, ?_, by decide, by decide, by decide,
    witness_image_read.2, by decide, by decide⟩
  rw [Bool.eq_false_iff]
  intro h
  have := (profileCheckGood_append _ hx).1 h
  have := congrArg (fun n => (crc32 image.content).toNat ^^^ n) this
  simp at this

/-- An image whose writing is damaged in one byte has a wrong check (R2, R199): the last byte of a three-byte content and its CRC-32. -/
theorem test_profile_check :
    profileCheckGood ([1, 2, 3] ++ be 4 (crc32 [1, 2, 3]).toNat) = true ∧
    profileCheckGood ([1, 2, 4] ++ be 4 (crc32 [1, 2, 3]).toNat) = false := by decide +kernel

/-! ### Witnesses: the Control Unit -/

theorem witness_RefusalsBeforeACommandActs :
    (∀ x ∈ argumentLengths, (asked (BitVec.ofNat 8 x.2.1) (List.replicate (x.2.2 + 1) 0)).re.code.toNat = x.2.1 ∧
      (asked (BitVec.ofNat 8 x.2.1) (List.replicate (x.2.2 + 1) 0)).args.length ≠ x.2.2) ∧
    (asked 0x16 []).re.code.toNat ∉ [0x10, 0x11, 0x12, 0x13, 0x14, 0x15, 0x20, 0x21, 0x22, 0x23, 0x24, 0x25, 0x30, 0x31, 0x32, 0x33,
      0x40, 0x41, 0x42, 0x50, 0x51] ∧
    { State.reset.ctl with commit := .pendingDrain }.commit ≠ .none ∧
    (∀ n ∈ [19, 2, 12, 20, 0, 3, 1], (List.replicate n (0 : Byte)).length = n ∧ (List.replicate n (4 : Byte)).length = n) ∧
    (∀ x ∈ [(1, 11), (1, 12), (1, 13), (1, 1), (2, 14), (3, 16), (1, 19), (2, 2), (1, 3)], x.1 < field (List.replicate 20 (4 : Byte)) x.2 1) ∧
    (1 < field [4#8, 4, 4] 2 1 ∧ 2 < field [4#8] 0 1) ∧
    ((List.replicate 7 (4 : Byte)).length ≠ 7 + 6 * field (List.replicate 7 (4 : Byte)) 6 1 ∧ (List.replicate 6 (4 : Byte)).length < 7 ∧
      (List.replicate 31 (4 : Byte)).length = 7 + 6 * field (List.replicate 31 (4 : Byte)) 6 1) ∧
    field (List.replicate 19 (0 : Byte)) 11 1 ≤ 1 ∧ field (List.replicate 20 (0 : Byte)) 14 1 ≤ 2 := by decide

/-- STAGE_STREAM's arguments for a configuration. -/
def stageArgs (c : StreamCfg) : List Byte :=
  be 2 c.id ++ be 4 c.tb ++ be 1 c.rs ++ be 2 c.tol ++ be 1 c.phasors ++ be 1 c.analogs ++ onOff c.correct ++ onOff c.optional
    ++ onOff c.straggle ++ be 1 c.holdLimit ++ be 1 c.tqMax ++ be 1 c.hysteresis ++ be 2 c.silenceMs

/-- Configurations at the ends of R33's ranges, and one past each end. -/
def edges : List (StreamCfg × Bool) :=
  [({ cfg with id := 1 }, true), ({ cfg with id := 65534 }, true), ({ cfg with id := 0 }, false), ({ cfg with id := 65535 }, false),
   ({ cfg with tb := 1 }, true), ({ cfg with tb := 16777215 }, true), ({ cfg with tb := 0 }, false), ({ cfg with tb := 16777216 }, false),
   ({ cfg with rs := 240 }, true), ({ cfg with rs := 241 }, false), ({ cfg with tol := 50000 }, true), ({ cfg with tol := 50001 }, false),
   ({ cfg with phasors := 16 }, true), ({ cfg with phasors := 17 }, false), ({ cfg with analogs := 9 }, false),
   ({ cfg with holdLimit := 16 }, false), ({ cfg with tqMax := 8 }, false), ({ cfg with hysteresis := 0 }, false),
   ({ cfg with silenceMs := 10 }, true), ({ cfg with silenceMs := 9 }, false), ({ cfg with silenceMs := 60001 }, false)]

/-- A staged table with every index occupied. -/
def fullTable : List (Nat × StreamCfg) := (List.range 256).map fun i => (i, { cfg with id := 100 + i })

theorem witness_StageStreamWritesByStreamId :
    (∀ x ∈ edges, (order 0x10 (stageArgs x.1) (part .active)).ctl.queue = [asked 0x10 (stageArgs x.1)] ∧ x.1.inRange = x.2 ∧
      (x.1.id < 65536 ∧ x.1.tb < 4294967296 ∧ x.1.rs < 256 ∧ x.1.tol < 65536 ∧ x.1.phasors < 256 ∧ x.1.analogs < 256) ∧
      x.1.holdLimit < 256 ∧ x.1.tqMax < 256 ∧ x.1.hysteresis < 256 ∧ x.1.silenceMs < 65536) ∧
    (part .active).operating = true ∧ (part .active).ctl.commit = .none ∧ (part .active).ctl.staged.streams = [(4, cfg)] ∧
    [(4, cfg)].Pairwise (fun a b : Nat × StreamCfg => a.1 < b.1) ∧ cfg.id = 7 ∧
    (∀ q ∈ [(4, cfg)], q.2.id ≠ 8 ∧ q.1 ≠ 0) := by decide +kernel

theorem witness_StageStream_full :
    fullTable.Pairwise (fun a b => a.1 < b.1) ∧ (∀ q ∈ fullTable, q.2.id ≠ 7) ∧ ∀ i, i < 256 → ∃ q ∈ fullTable, q.1 = i := by
  refine ⟨by decide +kernel, by decide +kernel, fun i h => ⟨(i, { cfg with id := 100 + i }), ?_, rfl⟩⟩
  simp only [fullTable, List.mem_map, List.mem_range]
  exact ⟨i, h, rfl⟩

/-- STAGE_RANGE's arguments. -/
def rangeArgs (i base size : Nat) : List Byte := [BitVec.ofNat 8 i, 1] ++ be 2 base ++ be 4 size ++ [0, 1, 0, 1]

theorem witness_UnstageDiscardAndStageRange :
    (order 0x11 (be 2 7) (part .active)).ctl.queue = [asked 0x11 (be 2 7)] ∧ (be 2 7).length = 2 ∧ field (be 2 7) 0 2 = 7 ∧
    (part .active).ctl.staged.streams = [(4, cfg)] ∧ (∀ q ∈ [(4, cfg)], q.2.id ≠ field (be 2 8) 0 2) ∧
    (∀ x ∈ [(8, 0, 1), (7, 0, 3), (7, 0, 131072), (7, 32768, 65536), (7, 32768, 32768), (0, 65535, 1)],
      (order 0x12 (rangeArgs x.1 x.2.1 x.2.2) (part .active)).ctl.queue = [asked 0x12 (rangeArgs x.1 x.2.1 x.2.2)] ∧
      (rangeArgs x.1 x.2.1 x.2.2).length = 12 ∧ field (rangeArgs x.1 x.2.1 x.2.2) 0 1 = x.1 ∧
      field (rangeArgs x.1 x.2.1 x.2.2) 2 2 = x.2.1 ∧ field (rangeArgs x.1 x.2.1 x.2.2) 4 4 = x.2.2) ∧
    (65536 = 2 ^ 16 ∧ 32768 % 65536 ≠ 0 ∧ 32768 = 2 ^ 15 ∧ 32768 % 32768 = 0) := by decide +kernel

/-- STAGE_PARAMS' arguments for the reset values with another rate and region. -/
def paramArgs (rate region : Nat) : List Byte :=
  be 1 rate ++ [0] ++ be 2 200 ++ be 2 500 ++ be 1 region ++ be 2 0x9A41 ++ be 1 16 ++ be 2 300 ++ be 2 9600 ++ [0] ++ be 1 3 ++ [0]
    ++ be 1 20 ++ [1] ++ [0]

theorem witness_StageParamsWritesTheBlock :
    (∀ x ∈ [(120, 31), (120, 32), (51, 0)],
      (order 0x13 (paramArgs x.1 x.2) (part .active)).ctl.queue = [asked 0x13 (paramArgs x.1 x.2)] ∧ (paramArgs x.1 x.2).length = 20 ∧
      x.1 < 256 ∧ x.2 < 256) ∧
    readParams (paramArgs 120 31) = some { resetParams with rate := 120, region := 31 } := by decide +kernel

theorem witness_CommitIsPlacedByTheRing :
    (order 0x15 [] (part .active)).ctl.queue = [asked 0x15 []] ∧ (part .active).ctl.commit = .none ∧
    (part .active).ctl.staged.params.region ≠ 31 ∧ { resetParams with region := 31 }.region = 31 ∧ (part .active).ring.recs = [] ∧
    (ringed [rec1 1 .opened] (part .active)).ring.recs ≠ [] ∧
    (part .active).ctl.staged.params.rate = (part .active).table.params.rate ∧
    (part .active).ctl.staged.params.base = (part .active).table.params.base ∧
    { resetParams with base := .firstArrival }.base ≠ (part .active).table.params.base := by decide

/-- A part whose commit waits at an empty ring. -/
def draining : State :=
  { part .active with ctl := { (part .active).ctl with commit := .pendingDrain, commitFor := some ⟨1, 2, 0x15⟩ } }

theorem witness_CommitApplication :
    draining.operating = true ∧ draining.ctl.commit ≠ .none ∧ draining.ring.recs = [] ∧ draining.ctl.commitFor = some ⟨1, 2, 0x15⟩ ∧
    State.reset.ctl.commitFor = none ∧
    (ringed [rec1 1 .opened] draining).ring.recs[0]? = some (rec1 1 .opened) ∧
    (applyCommit (ringed [rec1 1 .opened] draining)).ring.recs.length = 1 := by decide

/-- R182: contributions withdrawn by two commits stand after every other, in the order of their former indexes. -/
theorem test_withdrawn_order :
    let c := fun (i f : Option Nat) => { given with index := i, former := f }
    (sortContributions [c none (some 5), c (some 9) none, c none (some 1), c (some 2) none]).map (fun x => (x.index, x.former)) =
      [(some 2, none), (some 9, none), (none, some 1), (none, some 5)] := by decide

/-- R106, R117, R122, R141: what a commit does where a TIME setting, the holdover limit, the STROBE source and QUIESCE_ENABLE change. -/
theorem test_commit_of_changed_settings :
    let s := { holding with
      tick := 4001000
      time := { holding.time with chars := [0x3C#8] }
      comp := { holding.comp with seen := true }
      table := { holding.table with params := { resetParams with quiesceEnable := false } }
      ctl := { holding.ctl with staged := { holding.ctl.staged with params := { resetParams with baud := 19200, holdoverS := 2 } } } }
    ((applyCommit s).time.chars, (applyCommit s).time.period, (applyCommit s).tru.state, (applyCommit s).tru.mapping,
      (applyCommit s).comp.quiesced) = ([], 1, .acquiring, none, true) ∧
    (applyCommit (atTick 4000999 s)).tru.state = .holdover := by decide

theorem witness_IsolateAndRestore :
    let busy := { part .active with adm := { offers := [offer 1], ingest := [] } }
    (∀ c ∈ [0x20#8, 0x21#8], (order c (be 2 7) busy).operating = true ∧ (order c (be 2 7) busy).ctl.queue = [asked c (be 2 7)] ∧
      (asked c (be 2 7)).re.code = c) ∧
    (be 2 7).length = 2 ∧ field (be 2 7) 0 2 = 7 ∧ (busy.table.streams.map fun x => x.cfg.id).Nodup ∧ busy.stream 8 = none ∧
    busy.stream 7 = some (entry .active) ∧ (part .isolated).stream 7 = some (entry .isolated) ∧
    (offer 1 ∈ busy.adm.offers ∧ (offer 1).id = 7 ∧ (offer 1).contribution.index ≠ none) ∧ (part .active).adm.offers = [] := by decide

/-- SET_OVERRIDE's arguments. -/
def setArgs (a : OverrideAction) (id n : Nat) (sync : Bool) : List Byte :=
  be 2 id ++ be 1 (match a with | .substitute => 0 | .markInvalid => 1 | .suppress => 2) ++ onOff sync ++ be 2 0 ++ be 1 n ++
    (List.replicate n (⟨1, 2⟩ : Phasor)).flatMap fun q => be 4 q.magnitude.toNat ++ be 2 q.angle.toNat

/-- Sixteen entries, none of them the stream's. -/
def sixteen : List OverrideEntry := (List.range 16).map fun i => { id := 100 + i, inForce := some (override .suppress 0), change := none }

theorem witness_OverridesAreSetAndCleared :
    (∀ x ∈ [(OverrideAction.substitute, 7, 1), (.substitute, 8, 1), (.substitute, 7, 2), (.suppress, 0, 0), (.suppress, 65535, 0),
        (.suppress, 65534, 0)],
      (order 0x22 (setArgs x.1 x.2.1 x.2.2 true) (part .active)).ctl.queue = [asked 0x22 (setArgs x.1 x.2.1 x.2.2 true)] ∧
      x.2.1 < 65536 ∧ (override x.1 x.2.2).phasors.length < 256 ∧ (override x.1 x.2.2).action = x.1) ∧
    ((part .active).stream 7 = some (entry .active) ∧ (part .active).stream 8 = none) ∧
    (¬ (∃ x ∈ sixteen, x.id = 7) ∧ ¬ (sixteen.length < 16) ∧ (∃ x ∈ sixteen, x.id = 100) ∧ sixteen.tail.length < 16) ∧
    (∀ id ∈ [0, 65535, 65534, 1], id < 65536 ∧
      (order 0x23 (be 2 id ++ onOff true) (part .active)).ctl.queue = [asked 0x23 (be 2 id ++ onOff true)]) := by decide +kernel

theorem witness_ReadsReplyAndChangeNothing :
    (∀ x ∈ [[0, 7, 0], [0, 7, 1], [0, 8, 1]], (order 0x31 x (part .active)).operating = true ∧
      (order 0x31 x (part .active)).ctl.queue = [asked 0x31 x] ∧ x.length = 3 ∧ field x 2 1 ≤ 1) ∧
    (part .active).stream (field [0, 7, 1] 0 2) = some (entry .active) ∧ (part .active).stream (field [0, 8, 1] 0 2) = none := by decide

theorem witness_RestartEmptiesThePart :
    let s := order 0x51 [] (ringed [rec1 1 .opened] (part .active))
    let w := order 0x51 [] draining
    s.operating = true ∧ s.ctl.queue = [asked 0x51 []] ∧ s.ctl.commit = .none ∧ s.ring.stepDrain = false ∧ s.ring.commitDrain = false ∧
    w.operating = true ∧ w.ctl.queue = [asked 0x51 []] ∧ w.ctl.commit ≠ .none ∧ w.ctl.commitFor = some ⟨1, 2, 0x15⟩ ∧
    { w.links with o := .down }.o = .down ∧ (queued 0 0 0 0 (some .part)).egress.tx ≠ none := by
  decide

/-! ### Witnesses: the grid -/

theorem witness_GridConversionAndInstants : 0 < 50 ∧ 0 < 30 := by decide

theorem witness_RequirementsAndAttributes :
    0 < 50 ∧ (∀ n ∈ List.range 10, expectedAt 10 50 n = decide (n % 5 = 0)) ∧ (∀ n ∈ [0, 2, 4], expectedAt 25 50 n = true) ∧
    countsPresent (part .active).table 1 given = true ∧ countsPresent (part .silent).table 1 given = false := by decide

/-! ### A state that meets the invariant, and its next step -/

/-- A LOCKED part at work: one OPEN record above the floor that waits for a second required stream, an override with a pending change,
a commit that waits for the boundary, a part in transmission, and a PPS edge next. -/
def working : State :=
  { locked with
    pending := [.ppsEdge]
    table := { locked.table with streams := [entry .active, { entry .active with idx := 9, cfg := { cfg with id := 8 } }] }
    ring := { State.reset.ring with recs := [rec1 5040 .opened], floor := some 5039, floorTick := some 1500000, memory := [⟨5039, 1500000⟩] }
    comp := { State.reset.comp with overrides := [{ id := 7, inForce := none, change := some .clear }] }
    egress := { State.reset.egress with reserved := 1, tx := some ⟨.part, frame 2 0 [], 1500000⟩ }
    ctl := { locked.ctl with commit := .pendingBoundary, commitFor := some ⟨1, 2, 0x15⟩ } }

theorem witness_entry_ok (i : Nat) (c : StreamCfg) : ({ entry .active with idx := i, cfg := c } : StreamEntry).Ok := by
  constructor <;> simp [entry, enrolledEntry]

theorem witness_record_ok : (rec1 5040 .opened).Ok where
  nonempty := by decide
  sealTick := by decide
  cause := by decide

theorem witness_ranges_ok : rangesOk (Vector.replicate 8 blankRange) := by unfold rangesOk; decide +kernel

theorem witness_working_sound : working.Sound where
  time := ⟨by decide, by decide, by decide, by decide, by decide, by decide, by decide⟩
  queues := ⟨by decide, by decide, by decide, by decide, by decide, by decide, by decide, by decide, by decide,
    fun _ h => by simp [working] at h⟩
  ring := {
    ascending := by simp [working]
    span := by decide
    aboveFloor := fun f h r hr => by simp [working] at h hr; subst h hr; decide
    floorTick := by decide
    records := fun r hr => by simp [working] at hr; subst hr; exact witness_record_ok
    emitting := by decide
    cells := by decide
    memory := by simp [working]
    drain := by decide
    commitDrain := by decide
    boundary := by decide
    set := by simp [State.setOk, working, State.reset, rec1] }
  tables := {
    active := ⟨by decide, by decide, by decide, by decide⟩
    entries := fun e he => by
      simp [working] at he
      rcases he with rfl | rfl
      · exact witness_entry_ok 4 cfg
      · exact witness_entry_ok 9 _
    ranges := witness_ranges_ok
    params := by decide
    region := by decide
    staged := ⟨by decide, by decide, by decide, by decide⟩
    stagedRanges := witness_ranges_ok
    stagedParams := by decide
    stagedRegion := by decide }
  overrides := ⟨by decide, by decide, by decide, fun h => by simp [working] at h⟩
  lists := by intro r hr; simp [working] at hr; subst hr; simp [rec1]
  counts := by intro r hr; simp [working] at hr; subst hr; decide
  head := by unfold State.HeadOk; decide
  ticks := {
    mapping := fun m h => by simp [working, locked] at h; subst h; decide
    edgeRef := fun m h => by simp [working, locked] at h; subst h; decide
    holdEntry := fun m h => by simp [working, locked] at h
    floorTick := fun m h => by simp [working] at h; subst h; decide
    memory := by decide
    seals := fun r hr t h => by simp [working] at hr; subst hr; simp [rec1] at h
    tx := fun t h => by simp [working] at h; subst h; decide }
  monitor := ⟨by decide, by decide⟩

/-- It meets the invariant, it takes events, and its next step answers a next state that takes events. -/
theorem witness_Inv : working.Inv ∧ working.operating = true ∧ ∃ t, step working = .next t ∧ t.operating = true := by
  refine ⟨⟨⟨fun i h => ?_, fun i h => ?_⟩, fun _ => witness_working_sound⟩, by decide, ⟨_, rfl, by decide⟩⟩
  · simp [working, locked, part, State.reset, Stored.goodImage] at h
  · simp [working, locked, part, State.reset] at h

end Sys2Proof.Tests
end

