-- ==== Sys2Proof/Proofs/Execution.lean ====
section
/-! SUPPORT. How a row of the part executes: an event while the part takes events, a command at the head of the queue, its checks of
length and encoding, and which bytes name a setting or a value. -/

namespace Sys2Proof.Machine

/-! ### Execution -/

/-- An event acts while the part takes events (log 1). -/
theorem whileOperating_pos {s : State} (ho : s.operating = true) (t : State) : whileOperating s t = t := by
  simp [whileOperating, ho]

/-- The row of a listed command runs its act on the part without the command (R173). -/
theorem exec_act {i : Instr} {code : Nat} {act : CtrlFrame → State → State} (hrow : ∀ s, exec i s = .next (execute code act s))
    {s : State} {f : CtrlFrame} {q : List CtrlFrame} (ho : s.operating = true) (hq : s.ctl.queue = f :: q)
    (hc : f.re.code.toNat = code) : exec i s = .next (act f (s.popped q)) := by
  rw [hrow, execute_head ho hq hc]

/-- A row of one argument length: its act checks that length before anything else (R173). -/
def ChecksLength (i : Instr) (code n : Nat) : Prop :=
  ∃ act : CtrlFrame → State → State, (∀ s, exec i s = .next (execute code act s)) ∧
    ∀ f s, ∃ encodingGood go, act f s = checked f (f.args.length == n) encodingGood go s

/-- Such a row answers BAD_LENGTH to arguments of another length (R173). -/
theorem ChecksLength.badLength {i : Instr} {code n : Nat} (h : ChecksLength i code n) {s : State} {f : CtrlFrame}
    {q : List CtrlFrame} (ho : s.operating = true) (hq : s.ctl.queue = f :: q) (hc : f.re.code.toNat = code)
    (hl : f.args.length ≠ n) : exec i s = .next (reply f.re .badLength [] (s.popped q)) := by
  obtain ⟨act, hrow, hact⟩ := h
  obtain ⟨e, go, hf⟩ := hact f (s.popped q)
  rw [exec_act hrow ho hq hc, hf, beq_false_of_ne hl, checked_badLength]

/-! ### Bytes that name a setting or a value (R12) -/

/-- A byte is no on/off setting exactly when it lies beyond 1. -/
theorem isOnOff_eq_false {a : List Byte} {i : Nat} : isOnOff a i = false ↔ 1 < field a i 1 := by
  simp [isOnOff]

/-- A byte is an on/off setting up to 1. -/
theorem isOnOff_eq_true {a : List Byte} {i : Nat} : isOnOff a i = true ↔ field a i 1 ≤ 1 := by
  simp [isOnOff]

/-- Each list of named values ends where R12 ends it. -/
theorem deadlineBaseOf_eq_none : ∀ {n : Nat}, deadlineBaseOf n = none ↔ 1 < n
  | 0 | 1 => by decide
  | n + 2 => by simp [deadlineBaseOf]
theorem parityOf_eq_none : ∀ {n : Nat}, parityOf n = none ↔ 2 < n
  | 0 | 1 | 2 => by decide
  | n + 3 => by simp [parityOf]
theorem strobeOf_eq_none : ∀ {n : Nat}, strobeOf n = none ↔ 3 < n
  | 0 | 1 | 2 | 3 => by decide
  | n + 4 => by simp [strobeOf]
theorem modeOf_eq_none : ∀ {n : Nat}, modeOf n = none ↔ 2 < n
  | 0 | 1 | 2 => by decide
  | n + 3 => by simp [modeOf]
theorem actionOf_eq_none : ∀ {n : Nat}, actionOf n = none ↔ 2 < n
  | 0 | 1 | 2 => by decide
  | n + 3 => by simp [actionOf]

/-- The arguments of STAGE_PARAMS name no parameter block exactly when one of their five named bytes lies beyond its list (R177). -/
theorem readParams_eq_none {a : List Byte} : readParams a = none ↔
    1 < field a 1 1 ∨ 2 < field a 14 1 ∨ 3 < field a 16 1 ∨ 1 < field a 18 1 ∨ 1 < field a 19 1 := by
  rw [← deadlineBaseOf_eq_none, ← parityOf_eq_none, ← strobeOf_eq_none, ← isOnOff_eq_false, ← isOnOff_eq_false]
  unfold readParams
  cases deadlineBaseOf (field a 1 1) <;> cases parityOf (field a 14 1) <;> cases strobeOf (field a 16 1) <;>
    cases isOnOff a 18 <;> cases isOnOff a 19 <;> simp

end Sys2Proof.Machine
end

