-- ==== Sys2Proof/Proofs/Refusals.lean ====
section
/-! PROOFS. What is refused before a command acts (R12, R173, R174, R178). -/

namespace Sys2Proof.Machine

/-! ### BAD_LENGTH -/

/-- STAGE_PARAMS checks its length whether or not its bytes name a block (R173). -/
theorem stageParams_checksLength : ChecksLength .stageParams 0x13 20 := by
  refine ⟨stageParamsAct, fun _ => rfl, fun f s => ?_⟩
  unfold stageParamsAct
  cases readParams f.args <;> exact ⟨_, _, rfl⟩

/-- SET_EMISSION checks its length whether or not its byte names a mode (R173). -/
theorem setEmission_checksLength : ChecksLength .setEmission 0x24 1 := by
  refine ⟨setEmissionAct, fun _ => rfl, fun f s => ?_⟩
  unfold setEmissionAct
  cases modeOf (field f.args 0 1) <;> exact ⟨_, _, rfl⟩

/-- Every row of the table of R174 checks its length. -/
theorem argumentLengths_checksLength : ∀ x ∈ argumentLengths, ChecksLength x.1 x.2.1 x.2.2 := by
  have direct {i : Instr} {code n : Nat} (act : CtrlFrame → State → State) (hrow : ∀ s, exec i s = .next (execute code act s))
      (hact : ∀ f s, ∃ e go, act f s = checked f (f.args.length == n) e go s) : ChecksLength i code n := ⟨act, hrow, hact⟩
  simp only [argumentLengths, List.forall_mem_cons]
  exact ⟨direct stageStreamAct (fun _ => rfl) fun _ _ => ⟨_, _, rfl⟩, direct unstageStreamAct (fun _ => rfl) fun _ _ => ⟨_, _, rfl⟩,
    direct stageRangeAct (fun _ => rfl) fun _ _ => ⟨_, _, rfl⟩, stageParams_checksLength,
    direct discardStageAct (fun _ => rfl) fun _ _ => ⟨_, _, rfl⟩, direct commitAct (fun _ => rfl) fun _ _ => ⟨_, _, rfl⟩,
    direct isolateAct (fun _ => rfl) fun _ _ => ⟨_, _, rfl⟩, direct restoreAct (fun _ => rfl) fun _ _ => ⟨_, _, rfl⟩,
    direct clearOverrideAct (fun _ => rfl) fun _ _ => ⟨_, _, rfl⟩, setEmission_checksLength,
    direct clearQuiesceAct (fun _ => rfl) fun _ _ => ⟨_, _, rfl⟩, direct readStatusAct (fun _ => rfl) fun _ _ => ⟨_, _, rfl⟩,
    direct readStreamAct (fun _ => rfl) fun _ _ => ⟨_, _, rfl⟩, direct readRangesAct (fun _ => rfl) fun _ _ => ⟨_, _, rfl⟩,
    direct readOverridesAct (fun _ => rfl) fun _ _ => ⟨_, _, rfl⟩, direct snapshotAct (fun _ => rfl) fun _ _ => ⟨_, _, rfl⟩,
    direct (setCondition false) (fun _ => rfl) fun _ _ => ⟨_, _, rfl⟩,
    direct (setCondition true) (fun _ => rfl) fun _ _ => ⟨_, _, rfl⟩,
    direct saveProfileAct (fun _ => rfl) fun _ _ => ⟨_, _, rfl⟩, direct restartAct (fun _ => rfl) fun _ _ => ⟨_, _, rfl⟩, by simp⟩

/-! ### BAD_FIELD -/

/-- STAGE_STREAM with an on/off byte beyond 1. -/
theorem stageStreamAct_badField {f : CtrlFrame} {s : State} (hl : f.args.length = 19)
    (hb : 1 < field f.args 11 1 ∨ 1 < field f.args 12 1 ∨ 1 < field f.args 13 1) :
    stageStreamAct f s = reply f.re .badField [] s := by
  have he : (isOnOff f.args 11 && isOnOff f.args 12 && isOnOff f.args 13) = false := by
    simpa only [Bool.and_eq_false_iff, isOnOff_eq_false, or_assoc] using hb
  rw [stageStreamAct, hl, he, beq_self_eq_true, checked_badField]

/-- STAGE_RANGE with a byte that is neither set nor clear (log 44). -/
theorem stageRangeAct_badField {f : CtrlFrame} {s : State} (hl : f.args.length = 12)
    (hb : 1 < field f.args 1 1 ∨ 1 < field f.args 8 1 ∨ 1 < field f.args 9 1 ∨ 1 < field f.args 10 1 ∨ 1 < field f.args 11 1) :
    stageRangeAct f s = reply f.re .badField [] s := by
  have he : (isOnOff f.args 1 && isOnOff f.args 8 && isOnOff f.args 9 && isOnOff f.args 10 && isOnOff f.args 11) = false := by
    simpa only [Bool.and_eq_false_iff, isOnOff_eq_false, or_assoc] using hb
  rw [stageRangeAct, hl, he, beq_self_eq_true, checked_badField]

/-- STAGE_PARAMS with a byte beyond its list. -/
theorem stageParamsAct_badField {f : CtrlFrame} {s : State} (hl : f.args.length = 20) (hb : readParams f.args = none) :
    stageParamsAct f s = reply f.re .badField [] s := by
  rw [stageParamsAct, hb, hl]; rfl

/-- SET_OVERRIDE whose arguments have not the length that their list's count gives (R173). -/
theorem setOverrideAct_badLength {f : CtrlFrame} {s : State}
    (hl : f.args.length < 7 ∨ f.args.length ≠ 7 + 6 * field f.args 6 1) : setOverrideAct f s = reply f.re .badLength [] s := by
  have hg : (decide (7 ≤ f.args.length) && f.args.length == 7 + 6 * field f.args 6 1) = false := by
    simp only [Bool.and_eq_false_iff, decide_eq_false_iff_not, beq_eq_false_iff_ne]; omega
  unfold setOverrideAct
  cases actionOf (field f.args 2 1) <;> simp only [hg, checked_badLength]

/-- SET_OVERRIDE with an action or a sync byte beyond its list. -/
theorem setOverrideAct_badField {f : CtrlFrame} {s : State} (h7 : 7 ≤ f.args.length)
    (hl : f.args.length = 7 + 6 * field f.args 6 1) (hb : 2 < field f.args 2 1 ∨ 1 < field f.args 3 1) :
    setOverrideAct f s = reply f.re .badField [] s := by
  have hg : (decide (7 ≤ f.args.length) && f.args.length == 7 + 6 * field f.args 6 1) = true := by simp [h7, ← hl]
  rw [← actionOf_eq_none, ← isOnOff_eq_false] at hb
  unfold setOverrideAct
  cases ha : actionOf (field f.args 2 1) with
  | none => simp only [hg, checked_badField]
  | some a => simp only [hg, hb.resolve_left (by simp [ha]), checked_badField]

/-- CLEAR_OVERRIDE with a sync byte beyond 1. -/
theorem clearOverrideAct_badField {f : CtrlFrame} {s : State} (hl : f.args.length = 3) (hb : 1 < field f.args 2 1) :
    clearOverrideAct f s = reply f.re .badField [] s := by
  rw [clearOverrideAct, hl, isOnOff_eq_false.2 hb, beq_self_eq_true, checked_badField]

/-- SET_EMISSION with a byte beyond the modes. -/
theorem setEmissionAct_badField {f : CtrlFrame} {s : State} (hl : f.args.length = 1) (hb : 2 < field f.args 0 1) :
    setEmissionAct f s = reply f.re .badField [] s := by
  rw [setEmissionAct, modeOf_eq_none.2 hb, hl]; rfl

/-- READ_STREAM with a clear byte beyond 1. -/
theorem readStreamAct_badField {f : CtrlFrame} {s : State} (hl : f.args.length = 3) (hb : 1 < field f.args 2 1) :
    readStreamAct f s = reply f.re .badField [] s := by
  rw [readStreamAct, hl, isOnOff_eq_false.2 hb, beq_self_eq_true, checked_badField]

/-! ### UNKNOWN_COMMAND and COMMIT_PENDING -/

/-- A frame with an unlisted code leaves the queue, answered UNKNOWN_COMMAND (R173). -/
theorem exec_unlisted {s : State} {f : CtrlFrame} {q : List CtrlFrame} (ho : s.operating = true) (hq : s.ctl.queue = f :: q)
    (hc : f.re.code.toNat ∉ listedCodes) : exec .unknownCommand s = .next (reply f.re .unknownCommand [] (s.popped q)) := by
  have hn : (!listedCodes.contains f.re.code.toNat) = true := by simpa using hc
  simp only [exec, execUnknownCommand, whileOperating_pos ho, executeIf, hq, hn, if_true, State.popped]

/-- While a commit waits a staging command of the right form gets no further (R178). -/
theorem checked_commitPending {f : CtrlFrame} {s : State} (hp : s.ctl.commit ≠ .none) (act : State → State) :
    checked f true true (whenNoCommit f act) s = reply f.re .commitPending [] s := by
  rw [checked_good, whenNoCommit, if_neg hp]

/-- STAGE_PARAMS of the right form while a commit waits. -/
theorem stageParamsAct_commitPending {f : CtrlFrame} {s : State} (hp : s.ctl.commit ≠ .none) (hl : f.args.length = 20)
    (hr : readParams f.args ≠ none) : stageParamsAct f s = reply f.re .commitPending [] s := by
  obtain ⟨p, hr⟩ := Option.ne_none_iff_exists'.1 hr
  simp only [stageParamsAct, hr, hl, beq_self_eq_true, checked_commitPending hp]

/-- Settles O43: each row checks length, then encoding, then whether a commit waits. -/
theorem refusalsBeforeACommandActs : Obligations.RefusalsBeforeACommandActs := by
  unfold Obligations.RefusalsBeforeACommandActs
  have byte {f : CtrlFrame} {b : Byte} (h : f.re.code = b) : f.re.code.toNat = b.toNat := congrArg _ h
  refine ⟨fun x hx s f q ho hq hc hl => (argumentLengths_checksLength x hx).badLength ho hq hc hl,
    fun s f q ho hq hc => exec_unlisted ho hq hc, fun s f q ho hq => ⟨?_, ?_, ?_, fun hc => ⟨?_, ?_⟩, ?_, ?_, ?_⟩,
    fun s f q ho hq hp => ?_⟩
  · intro hc hl hb
    rw [exec_act (act := stageStreamAct) (fun _ => rfl) ho hq (byte hc), stageStreamAct_badField hl hb]
  · intro hc hl hb
    rw [exec_act (act := stageRangeAct) (fun _ => rfl) ho hq (byte hc), stageRangeAct_badField hl hb]
  · intro hc hl hb
    rw [exec_act (act := stageParamsAct) (fun _ => rfl) ho hq (byte hc), stageParamsAct_badField hl (readParams_eq_none.2 hb)]
  · intro hl
    rw [exec_act (act := setOverrideAct) (fun _ => rfl) ho hq (byte hc), setOverrideAct_badLength hl]
  · intro h7 hl hb
    rw [exec_act (act := setOverrideAct) (fun _ => rfl) ho hq (byte hc), setOverrideAct_badField h7 hl hb]
  · intro hc hl hb
    rw [exec_act (act := clearOverrideAct) (fun _ => rfl) ho hq (byte hc), clearOverrideAct_badField hl hb]
  · intro hc hl hb
    rw [exec_act (act := setEmissionAct) (fun _ => rfl) ho hq (byte hc), setEmissionAct_badField hl hb]
  · intro hc hl hb
    rw [exec_act (act := readStreamAct) (fun _ => rfl) ho hq (byte hc), readStreamAct_badField hl hb]
  · have hp' : (s.popped q).ctl.commit ≠ .none := by simpa using hp
    refine ⟨fun hc hl h11 h12 h13 => ?_, fun hc hl => ?_, fun hc hl h1 h8 h9 h10 h11 => ?_,
      fun hc hl h1 h14 h16 h18 h19 => ?_, fun hc hl => ?_⟩
    · rw [exec_act (act := stageStreamAct) (fun _ => rfl) ho hq (byte hc), stageStreamAct, hl, isOnOff_eq_true.2 h11,
        isOnOff_eq_true.2 h12, isOnOff_eq_true.2 h13]
      exact congrArg _ (checked_commitPending hp' _)
    · rw [exec_act (act := unstageStreamAct) (fun _ => rfl) ho hq (byte hc), unstageStreamAct, hl]
      exact congrArg _ (checked_commitPending hp' _)
    · rw [exec_act (act := stageRangeAct) (fun _ => rfl) ho hq (byte hc), stageRangeAct, hl, isOnOff_eq_true.2 h1,
        isOnOff_eq_true.2 h8, isOnOff_eq_true.2 h9, isOnOff_eq_true.2 h10, isOnOff_eq_true.2 h11]
      exact congrArg _ (checked_commitPending hp' _)
    · rw [exec_act (act := stageParamsAct) (fun _ => rfl) ho hq (byte hc),
        stageParamsAct_commitPending hp' hl (by rw [Ne, readParams_eq_none]; omega)]
    · rw [exec_act (act := discardStageAct) (fun _ => rfl) ho hq (byte hc), discardStageAct, hl]
      exact congrArg _ (checked_commitPending hp' _)

end Sys2Proof.Machine
end

