-- ==== Sys2Proof/Proofs/Egress.lean ====
section
/-! PROOFS. The end of a transmission and the joins of the queues M and L (R13, R14, R146, R148, R151). -/

namespace Sys2Proof.Machine

/-- A transmission that ends is counted by its kind, and the next grant is decided (R151). -/
theorem endTransmission_of_tx {s : State} {x : Tx} (hx : s.egress.tx = some x) :
    endTransmission s = grant (match x.kind with
      | .part => report .partsEmitted { s with egress := { s.egress with tx := none } }
      | .straggler => report .stragglersOut { s with egress := { s.egress with tx := none } }
      | .reply => { s with egress := { s.egress with tx := none } }) := by
  unfold endTransmission
  rw [hx]
  cases h : x.kind <;> simp only [h, TxKind.ctr]

/-- A straggler frame joins L while fewer than 64 wait (R146). -/
theorem joinL_of_room {s : State} (h : s.egress.l.length < 64) (f : EthFrame) :
    joinL f s = grant { s with egress := { s.egress with l := s.egress.l ++ [f] } } := if_pos h

/-- A straggler frame is dropped and counted while 64 wait (R146). -/
theorem joinL_of_full {s : State} (h : 64 ≤ s.egress.l.length) (f : EthFrame) : joinL f s = report .stragglerDrop s :=
  if_neg (Nat.not_lt.2 h)

/-- Settles O9: the end of a transmission by its kind, the two joins, and the status codes one by one. -/
theorem transmissionsAndQueues : Obligations.TransmissionsAndQueues := by
  unfold Obligations.TransmissionsAndQueues
  refine ⟨fun s x ho hx => ?_, fun s => ⟨fun re st res => rfl, fun f h => joinL_of_room h f, fun f h => joinL_of_full h f⟩,
    fun st => ?_⟩
  · change Host.Outcome.next (whileOperating s (endTransmission s)) = _
    exact congrArg _ ((whileOperating_pos ho _).trans (endTransmission_of_tx hx))
  · cases st <;> rfl

end Sys2Proof.Machine
end

