-- ==== Sys2Proof/Proofs/Answers.lean ====
section
/-! PROOFS. What a placement answer changes, counts and hands off (R11, R27, R28, R83, R84, R144). -/

namespace Sys2Proof.Machine

/-- What each answer changes at the ring (R83, R84, R89). -/
theorem ringEffect_eq (a : Answer) (o : Offer) (s : State) :
    ringEffect a o s =
      if a = .accepted then accept s o
      else if a = .crowds then sealWhere .crowded (fun e => decide (e.ordinal + 512 ≤ o.ordinal)) s
      else if a = .advances then { s with ring := { s.ring with floor := some (o.ordinal - 512), floorTick := some s.tick } }
      else s := by
  cases a <;> simp [ringEffect, slots]

/-- A refusal raises its stream's counter and its Monitor counter (R27). -/
theorem countAnswer_of_ctr {a : Answer} {c : Ctr} (h : a.ctr = some c) (o : Offer) (s : State) :
    countAnswer a o s = report c (s.mapStream o.id fun x => { x with counts := a.countIn x.counts }) := by
  simp only [countAnswer, h]

/-- An acceptance raises its stream's counter and records its latency while a mapping stands (R27, R193). -/
theorem countAnswer_accepted (o : Offer) (s : State) :
    countAnswer .accepted o s =
      match s.refNow with
      | none => s.mapStream o.id fun x => { x with counts := { x.counts with accepted := satInc x.counts.accepted } }
      | some now => recordLatency s.table.params.widthMs (latencyOf s.table.params.rate now o.ordinal)
          (s.mapStream o.id fun x => { x with counts := { x.counts with accepted := satInc x.counts.accepted } }) := by
  have hnow (f : StreamEntry → StreamEntry) : (s.mapStream o.id f).refNow = s.refNow := rfl
  simp only [countAnswer, Answer.ctr, Answer.countIn, hnow]
  cases s.refNow <;> rfl

/-- A LATE or AFTER_SEAL phasor frame of a straggling stream, and no other, goes to the Straggler Path (R28). -/
theorem handOff_straggler {o : Offer} {body : List Byte} (hs : o.straggle = true) (hb : o.body = some body) (s : State) (since : Nat) :
    handOff (.late since) o s = straggler 1 since o body s ∧ handOff (.afterSeal since) o s = straggler 2 since o body s := by
  simp only [handOff, hs, hb, and_self]

/-- Nothing else is handed off (R28, R144). -/
theorem handOff_none {a : Answer} {o : Offer}
    (h : o.straggle = false ∨ o.body = none ∨ ∀ t, a ≠ .late t ∧ a ≠ .afterSeal t) (s : State) : handOff a o s = s := by
  unfold handOff
  split
  · next hs hb => simp [hs, hb] at h
  · next hs hb => simp [hs, hb] at h
  · rfl

/-- A straggler frame of R11, offered to L: the path code, the ordinal and the capped lateness in their bytes (R144). -/
theorem straggler_eq (reason since : Nat) (o : Offer) (body : List Byte) (s : State) :
    straggler reason since o body s =
      joinL (outFrame s.table.params.payloadType (s.table.params.region * 8 + s.power.strapCode) 3
        (be 1 reason ++ be 1 (match o.port with | .a => 0 | .b => 1) ++ be 1 o.rate ++ be 6 o.ordinal
          ++ be 4 (min (s.tick - since) 4294967295) ++ be 2 o.id ++ body)) s := by
  unfold straggler stragglerBody
  cases o.port <;> rfl

/-- Settles O25: each answer's effect, counters and hand-off. -/
theorem answersChangeAndCount : Obligations.AnswersChangeAndCount := by
  unfold Obligations.AnswersChangeAndCount
  refine ⟨fun a o s => ⟨?_, fun ha => ?_, ?_⟩, fun o body s since a => ⟨fun hs hb => ?_, fun h => handOff_none h s⟩⟩
  · rw [ringEffect_eq]
    simp only [sealWhere, SealCause.ctr, EpochRec.seal, Bool.decide_and, beq_eq_decide]
  · cases a with
    | accepted => exact absurd rfl ha
    | _ => exact countAnswer_of_ctr rfl o s
  · refine (countAnswer_accepted o s).trans ?_
    cases s.refNow <;> rfl
  · obtain ⟨hl, ha⟩ := handOff_straggler hs hb s since
    rw [hl, ha, straggler_eq, straggler_eq]
    exact ⟨by cases o.port <;> rfl, by cases o.port <;> rfl⟩

end Sys2Proof.Machine
end

