-- ==== Sys2Proof/Proofs/Cutting.lean ====
section
/-! PROOFS. The cutting of a set into parts (R9). -/

namespace Sys2Proof.Machine

/-- The size of a part's body: its set header and its records (R9). -/
def bodySize (p : List SetRecord) : Nat := headerSize + (p.map recordSize).sum

/-- Appending a record to a part adds its size. -/
theorem bodySize_concat (p : List SetRecord) (r : SetRecord) : bodySize (p ++ [r]) = bodySize p + recordSize r := by
  simp [bodySize, Nat.add_assoc]

/-- Cutting with an open part `p`: `p` holds at most 9,000 bytes, and it closes with the record that would take it beyond. -/
theorem cutFrom_cons (p : List SetRecord) (r : SetRecord) (rs : List SetRecord) :
    cutFrom p.reverse (bodySize p) (r :: rs) =
      if 9000 < bodySize p + recordSize r then p :: cutFrom [r].reverse (bodySize [r]) rs
      else cutFrom (p ++ [r]).reverse (bodySize (p ++ [r])) rs := by
  rw [bodySize_concat]
  simp [cutFrom, bodySize]

/-- With no record left the open part is the last. -/
theorem cutFrom_nil (p : List SetRecord) : cutFrom p.reverse (bodySize p) [] = [p] := by simp [cutFrom]

/-- A set is cut from an empty part on. -/
theorem cutParts_eq (rs : List SetRecord) : cutParts rs = cutFrom ([] : List SetRecord).reverse (bodySize []) rs := rfl

/-- The first part begins with what the open part holds. -/
theorem cutFrom_head (rs p : List SetRecord) : ∃ q ps, cutFrom p.reverse (bodySize p) rs = (p ++ q) :: ps := by
  induction rs generalizing p with
  | nil => exact ⟨[], [], by simp [cutFrom_nil]⟩
  | cons r rs ih =>
    rw [cutFrom_cons]
    split
    · exact ⟨[], _, by rw [List.append_nil]⟩
    · obtain ⟨q, ps, h⟩ := ih (p ++ [r])
      exact ⟨r :: q, ps, by simpa using h⟩

/-- Every record stands in one part, in order. -/
theorem cutFrom_flatten (rs p : List SetRecord) : (cutFrom p.reverse (bodySize p) rs).flatten = p ++ rs := by
  induction rs generalizing p with
  | nil => simp [cutFrom_nil]
  | cons r rs ih =>
    rw [cutFrom_cons]
    split
    · rw [List.flatten_cons, ih, List.singleton_append]
    · rw [ih, List.append_assoc, List.singleton_append]

/-- No part is beyond 9,000 bytes, as long as a single record never is. -/
theorem cutFrom_fits {rs p : List SetRecord} (hp : bodySize p ≤ 9000) (hrs : ∀ r ∈ rs, recordSize r ≤ 144) :
    ∀ x ∈ cutFrom p.reverse (bodySize p) rs, bodySize x ≤ 9000 := by
  induction rs generalizing p with
  | nil => simpa [cutFrom_nil] using hp
  | cons r rs ih =>
    obtain ⟨hr, hrs⟩ := List.forall_mem_cons.1 hrs
    rw [cutFrom_cons]
    split
    · exact List.forall_mem_cons.2 ⟨hp, ih (by simp [bodySize, headerSize]; omega) hrs⟩
    · next h => exact ih (by rw [bodySize_concat]; omega) hrs

/-- The part `q` begins with a record that would have taken the part `p` before it beyond 9,000 bytes. -/
def ClosedBy (p q : List SetRecord) : Prop := ∃ r q', q = r :: q' ∧ 9000 < bodySize p + recordSize r

/-- A part closes only when the next record would take it beyond. -/
theorem cutFrom_closed (rs p : List SetRecord) : (cutFrom p.reverse (bodySize p) rs).IsChain ClosedBy := by
  induction rs generalizing p with
  | nil => simp [cutFrom_nil]
  | cons r rs ih =>
    rw [cutFrom_cons]
    split
    · next h =>
      obtain ⟨q, ps, hq⟩ := cutFrom_head rs [r]
      have hc := ih [r]
      rw [hq] at hc ⊢
      exact List.isChain_cons_cons.2 ⟨⟨r, q, rfl, h⟩, hc⟩
    · exact ih (p ++ [r])

/-- Settles O30, by induction on the records with the open part generalised. -/
theorem cuttingKeepsOrderAndSize : Obligations.CuttingKeepsOrderAndSize := by
  unfold Obligations.CuttingKeepsOrderAndSize
  intro rs hrs
  rw [cutParts_eq]
  refine ⟨cutFrom_flatten rs [], ?_, cutFrom_fits (by simp [bodySize, headerSize]) hrs, fun i p q hp hq => ?_⟩
  · obtain ⟨q, ps, h⟩ := cutFrom_head rs []
    exact h ▸ List.cons_ne_nil _ _
  · obtain ⟨hi, rfl⟩ := List.getElem?_eq_some_iff.1 hp
    obtain ⟨hi', rfl⟩ := List.getElem?_eq_some_iff.1 hq
    exact List.isChain_iff_getElem.1 (cutFrom_closed rs []) i hi'

end Sys2Proof.Machine
end

