-- ==== Sys2Proof/Proofs/Frames.lean ====
section
/-! PROOFS. The frames the part builds: header, body, frame check and padding, and that a framer finds them good (R1, R2, R3, R17). -/

namespace Sys2Proof.Machine

/-! ### What the frame check covers -/

/-- The header of a built frame and its body, which the frame check covers (R1, R2). -/
def coveredBytes (kind origin : Nat) (body : List Byte) : List Byte :=
  be 1 kind ++ be 1 0 ++ be 2 origin ++ be 2 body.length ++ body

/-- They occupy six bytes more than the body. -/
theorem coveredBytes_length (kind origin : Nat) (body : List Byte) : (coveredBytes kind origin body).length = 6 + body.length := by
  simp [coveredBytes]; omega

/-- A built payload: the covered bytes, their check, and zeros up to 46 bytes (R2, R3). -/
theorem outFrame_payload (pt : Half) (node kind : Nat) (body : List Byte) :
    (outFrame pt node kind body).payload = coveredBytes kind node body ++
      (be 4 (crc32 (coveredBytes kind node body)).toNat ++ List.replicate (36 - body.length) 0) := by
  have h : checkedFrame kind node body = coveredBytes kind node body ++ be 4 (crc32 (coveredBytes kind node body)).toNat := rfl
  rw [outFrame, padded, checkedFrame_length, h, List.append_assoc, show 46 - (body.length + 10) = 36 - body.length by omega]

/-- The header's fields read back, whatever follows the body (R1). -/
theorem coveredBytes_fields {kind origin : Nat} {body : List Byte} (hk : kind < 256) (ho : origin < 65536) (hb : body.length < 65536)
    (rest : List Byte) :
    field (coveredBytes kind origin body ++ rest) 0 1 = kind ∧ field (coveredBytes kind origin body ++ rest) 1 1 = 0 ∧
      field (coveredBytes kind origin body ++ rest) 2 2 = origin ∧
      field (coveredBytes kind origin body ++ rest) 4 2 = body.length := by
  simp (disch := omega) only [coveredBytes, List.append_assoc, field_be_skip, field_be_append, Nat.reduceSub, and_self]

/-- The body stands right after the header (R1). -/
theorem coveredBytes_drop (kind origin : Nat) (body rest : List Byte) :
    (coveredBytes kind origin body ++ rest).drop 6 = body ++ rest := by
  rw [coveredBytes, List.append_assoc, List.drop_left' (by simp)]

/-! ### The form checks -/

/-- A payload without room for a header, with too great a length field or without room for body and check is malformed (R17, log 31). -/
theorem formOf_malformed {bs : List Byte} (h : bs.length < 6 ∨ 9000 < field bs 4 2 ∨ bs.length < 6 + field bs 4 2 + 4) :
    formOf bs = .malformed := by
  by_cases h6 : bs.length < 6
  · exact if_pos h6
  by_cases hl : 9000 < field bs 4 2
  · simp only [formOf, maxBody, if_neg h6, if_pos hl]
  · simp only [formOf, maxBody, if_neg h6, if_neg hl, if_pos ((h.resolve_left h6).resolve_left hl)]

/-- A frame with a good length field and room is judged by its frame check (R2, R17). -/
theorem formOf_roomy {bs : List Byte} (h6 : 6 ≤ bs.length) (hl : field bs 4 2 ≤ 9000) (hr : 6 + field bs 4 2 + 4 ≤ bs.length) :
    formOf bs = if field bs (6 + field bs 4 2) 4 = (crc32 (bs.take (6 + field bs 4 2))).toNat then .good else .bad := by
  simp only [formOf, maxBody, if_neg (Nat.not_lt.2 h6), if_neg (Nat.not_lt.2 hl), if_neg (Nat.not_lt.2 hr)]

/-- A framer finds every built frame good (R17). -/
theorem formOf_outFrame (pt : Half) {node kind : Nat} {body : List Byte} (hn : node < 256) (hk : kind < 256) (hb : body.length ≤ 9000) :
    formOf (outFrame pt node kind body).payload = .good := by
  obtain ⟨-, -, -, hlen⟩ := coveredBytes_fields (origin := node) (body := body) hk (by omega) (by omega)
    (be 4 (crc32 (coveredBytes kind node body)).toNat ++ List.replicate (36 - body.length) 0)
  have hcov := coveredBytes_length kind node body
  rw [outFrame_payload, formOf_roomy (by simp [hcov]; omega) (by rw [hlen]; omega) (by rw [hlen]; simp [hcov]), hlen,
    List.take_left' hcov, field_append_right _ _ _ _ hcov.le, hcov, Nat.sub_self, field_be_append _ (crc32 _).isLt, if_pos rfl]

/-! ### Signed fields -/

/-- A signed field reads back in two's complement (R1). -/
theorem field_beInt (w : Nat) (v : Int) : (field (beInt w v) 0 w : Int) = v % 256 ^ w := by
  have hpos : (0 : Int) < (256 ^ w : Nat) := by positivity
  rw [beInt, field_be, Int.natCast_mod, Int.toNat_of_nonneg (Int.emod_nonneg _ hpos.ne'), Int.emod_emod_of_dvd _ dvd_rfl]
  norm_cast

/-- Settles O10: a built payload is covered bytes, check and zeros, from which every field reads back. -/
theorem builtFramesPassTheFormChecks : Obligations.BuiltFramesPassTheFormChecks := by
  unfold Obligations.BuiltFramesPassTheFormChecks
  refine ⟨fun pt node kind body hn hk hb => ?_, fun _ _ _ => rfl, fun _ => rfl, fun w v => ⟨be_length w v, field_be w v⟩,
    fun w v => ⟨be_length w _, field_beInt w v⟩, rfl, rfl, fun _ => rfl⟩
  obtain ⟨h0, h1, h2, h4⟩ := coveredBytes_fields (origin := node) (body := body) hk (by omega) (by omega)
    (be 4 (crc32 (coveredBytes kind node body)).toNat ++ List.replicate (36 - body.length) 0)
  have hbody : bodyOf (outFrame pt node kind body).payload = body := by
    rw [outFrame_payload, bodyOf, h4, coveredBytes_drop, List.take_left' rfl]
  have hzeros : (outFrame pt node kind body).payload.drop (body.length + 10) = List.replicate (36 - body.length) 0 := by
    rw [outFrame_payload, ← List.append_assoc, List.drop_left' (by simp [coveredBytes_length]; omega)]
  have hlen : (outFrame pt node kind body).payload.length = max 46 (body.length + 10) := by
    rw [outFrame, padded_length, checkedFrame_length]
  have hsrc : (outFrame pt node kind body).src.toNat = 0x020000000000 + node := by
    rw [outFrame, BitVec.toNat_ofNat, Nat.mod_eq_of_lt (by omega)]
  rw [← outFrame_payload pt] at h0 h1 h2 h4
  exact ⟨formOf_outFrame pt hn hk hb, hlen, h0, h1, h2, h4, hbody, hzeros, rfl, rfl, hsrc⟩

end Sys2Proof.Machine
end

