-- ==== Sys2Proof/Proofs/Framers.lean ====
section
/-! PROOFS. What the framers discard, count and dispatch (R15, R16, R17, R19), and how MEAS and ASET bodies are read (R10, R14, R20). -/

namespace Sys2Proof.Machine

/-! ### A frame at its framer -/

/-- A frame on a DOWN port, with a failed link check or of another type changes nothing (R15, R16). -/
theorem exec_discardedFrame {p : Port} {good : Bool} {f : EthFrame} {s : State}
    (h : s.links.get p = .down ∨ good = false ∨ f.etype ≠ s.table.params.payloadType) :
    exec (.ingressFrameComplete p good f) s = .next s := by
  have hn : ¬ (s.links.get p = .up ∧ good = true ∧ f.etype = s.table.params.payloadType) := by
    rintro ⟨hu, hg, ht⟩
    rcases h with h | h | h
    · exact absurd (h.symm.trans hu) (by decide)
    · exact absurd (h.symm.trans hg) (by decide)
    · exact h ht
  simp only [exec, execIngressFrameComplete, if_neg hn, whileOperating, ite_self]

/-- Any other frame is taken in while the part takes events (R16). -/
theorem exec_takenFrame {p : Port} {f : EthFrame} {s : State} (ho : s.operating = true) (hl : s.links.get p = .up)
    (he : f.etype = s.table.params.payloadType) : exec (.ingressFrameComplete p true f) s = .next (frameIn p f.payload s) := by
  simp only [exec, execIngressFrameComplete, whileOperating_pos ho, hl, he, and_self, if_true]

/-- A frame taken in that fails a form check is counted as received and by its failure (R16, R17). -/
theorem frameIn_malformed {bs : List Byte} (h : formOf bs = .malformed) (p : Port) (s : State) :
    frameIn p bs s = report .malformed (report (framesIn p) s) := by
  simp only [frameIn, h]; cases p <;> rfl
theorem frameIn_bad {bs : List Byte} (h : formOf bs = .bad) (p : Port) (s : State) :
    frameIn p bs s = report .checkBad (report (framesIn p) s) := by
  simp only [frameIn, h]; cases p <;> rfl

/-! ### What dispatch counts -/

/-- Malformed bodies of each kind that has a use here, and every kind that has none (R10, R12, R19, R20). -/
theorem dispatch_malformedMeas {p : Port} {arrival : Nat} {bs : List Byte} {u : State} (hk : field bs 0 1 = 1)
    (hr : readMeas (field bs 2 2) (bodyOf bs) = none) : dispatch p arrival bs u = report .malformed u := by
  simp only [dispatch, hk, hr, if_true]
theorem dispatch_asetUnused {p : Port} {arrival : Nat} {bs : List Byte} {u : State} (hk : field bs 0 1 = 2)
    (hc : u.table.params.composite = false) : dispatch p arrival bs u = report .unknownKind u := by
  simp [dispatch, hk, hc]
theorem dispatch_malformedAset {p : Port} {arrival : Nat} {bs : List Byte} {u : State} (hk : field bs 0 1 = 2)
    (hc : u.table.params.composite = true) (hr : readAset (field bs 2 2) (bodyOf bs) = none) :
    dispatch p arrival bs u = report .malformed u := by
  simp [dispatch, hk, hc, hr]
theorem dispatch_malformedCtrl {p : Port} {arrival : Nat} {bs : List Byte} {u : State} (hk : field bs 0 1 = 4)
    (hl : (bodyOf bs).length < 4) : dispatch p arrival bs u = report .malformed u := by
  simp [dispatch, hk, hl]
theorem dispatch_unknownKind {p : Port} {arrival : Nat} {bs : List Byte} {u : State} (h1 : field bs 0 1 ≠ 1)
    (h2 : field bs 0 1 ≠ 2) (h4 : field bs 0 1 ≠ 4) : dispatch p arrival bs u = report .unknownKind u := by
  simp [dispatch, h1, h2, h4]

/-! ### Bytes read bit by bit (R14) -/

/-- A byte read as a field is that byte. -/
theorem field_byte (bs : List Byte) (i : Nat) : (BitVec.ofNat 8 (field bs i 1)).toNat = field bs i 1 := by
  rw [BitVec.toNat_ofNat]; exact Nat.mod_eq_of_lt (field_lt bs i 1)

/-- The TQ and flags byte of a phasor frame: its quality code and its three flags. -/
theorem stationByte_eq (bs : List Byte) (i : Nat) :
    stationTq (BitVec.ofNat 8 (field bs i 1)) = field bs i 1 % 8 ∧
    stationFlags (BitVec.ofNat 8 (field bs i 1)) =
      { dataInvalid := decide (field bs i 1 / 2 ^ 3 % 2 = 1), syncLost := decide (field bs i 1 / 2 ^ 4 % 2 = 1), timeSuspect := false
        uncorrected := false, heldUpstream := false, test := decide (field bs i 1 / 2 ^ 5 % 2 = 1) } := by
  constructor
  · rw [stationTq, field_byte]
  · simp (disch := omega) only [stationFlags, field_bit, Flags.clear]

/-- The flags byte of a record: six flags, bits 7 and 6 disregarded. -/
theorem flagsOf_field (bs : List Byte) (i : Nat) :
    flagsOf (BitVec.ofNat 8 (field bs i 1)) =
      ⟨decide (field bs i 1 / 2 ^ 0 % 2 = 1), decide (field bs i 1 / 2 ^ 1 % 2 = 1), decide (field bs i 1 / 2 ^ 2 % 2 = 1),
        decide (field bs i 1 / 2 ^ 3 % 2 = 1), decide (field bs i 1 / 2 ^ 4 % 2 = 1), decide (field bs i 1 / 2 ^ 5 % 2 = 1)⟩ := by
  simp (disch := omega) only [flagsOf, field_bit]

/-! ### MEAS bodies and records -/

/-- A MEAS body is malformed by R20's conditions alone, and its fields stand where R14 puts them. -/
theorem readMeas_eq (origin : Nat) (bs : List Byte) :
    readMeas origin bs =
      if origin = 0 ∨ origin = 65535 ∨ 16 < field bs 14 1 ∨ 8 < field bs 15 1 ∨
          bs.length ≠ 16 + 6 * field bs 14 1 + 4 * field bs 15 1 then none
      else some
        { id := origin, soe := field bs 0 4, frac := field bs 4 3, tq := field bs 7 1 % 8
          flags := stationFlags (BitVec.ofNat 8 (field bs 7 1))
          df := field16 bs 8, rocof := field16 bs 10, digital := field16 bs 12
          phasors := readPhasors (field bs 14 1) (bs.drop 16)
          analogs := readAnalogs (field bs 15 1) (bs.drop (16 + 6 * field bs 14 1)) } := by
  rw [← (stationByte_eq bs 7).1]; rfl

/-- What R10 calls malformed of a record before its contents: its ID, and its hold age against its status. -/
def BadRecord (bs : List Byte) : Prop :=
  bs.length < 3 ∨ field bs 0 2 = 0 ∨ field bs 0 2 = 65535 ∨
    (recordStatusOf (field bs 2 1 % 4) = .held ↔ field bs 2 1 / 16 = 0)

/-- Such a record is malformed (R10). -/
theorem readRecord_bad {bs : List Byte} (h : BadRecord bs) : readRecord bs = none := if_pos h

/-- An ABSENT record ends after its status byte (R7). -/
theorem readRecord_absent {bs : List Byte} (h : ¬ BadRecord bs) (hs : recordStatusOf (field bs 2 1 % 4) = .absent) :
    readRecord bs = some ({ id := field bs 0 2, hop := field bs 2 1 / 4 % 4, status := .absent, holdAge := 0, flags := Flags.clear
                            df := 0, rocof := 0, digital := 0, phasors := [], analogs := [] }, bs.drop 3) := by
  simp only [BadRecord] at h
  simp only [readRecord, if_neg h, if_pos hs]
  rw [hs]

/-- Any other record has contents, which lie wholly within the bytes or are malformed (R7, R10). -/
theorem readRecord_contents {bs : List Byte} (h : ¬ BadRecord bs) (hs : recordStatusOf (field bs 2 1 % 4) ≠ .absent) :
    readRecord bs =
      if bs.length < 16 ∨ 16 < field bs 14 1 ∨ 8 < field bs 15 1 ∨ bs.length < 16 + 6 * field bs 14 1 + 4 * field bs 15 1 then none
      else some ({ id := field bs 0 2, hop := field bs 2 1 / 4 % 4, status := recordStatusOf (field bs 2 1 % 4)
                   holdAge := field bs 2 1 / 16, flags := flagsOf (BitVec.ofNat 8 (field bs 3 1))
                   df := field16 bs 8, rocof := field16 bs 10, digital := field16 bs 12
                   phasors := readPhasors (field bs 14 1) (bs.drop 16)
                   analogs := readAnalogs (field bs 15 1) (bs.drop (16 + 6 * field bs 14 1)) },
        bs.drop (16 + 6 * field bs 14 1 + 4 * field bs 15 1)) := by
  simp only [BadRecord] at h
  simp only [readRecord, if_neg h, if_neg hs]

/-! ### Set headers and sets -/

/-- A bit of the flags byte of a set header. -/
def setFlag (bs : List Byte) (b : Nat) : Bool := (BitVec.ofNat 8 (field bs 7 1)).getLsbD b

/-- A set header of a seal cause and a clock state, its other fields where R14 puts them. -/
def readHeader (bs : List Byte) (cause : SealCause) (clock : LockState) : SetHeader where
  rate := field bs 0 1
  soe := field bs 1 4
  slot := field bs 5 1
  cause := cause
  fallback := setFlag bs 0
  test := setFlag bs 1
  stepped := setFlag bs 2
  clock := clock
  quality := field bs 8 1 / 4 % 8
  partIndex := field bs 9 1
  partCount := field bs 10 1
  recordCount := field bs 11 2

/-- What R10 calls malformed of a set header whose cause and clock state have names. -/
def BadHeader (origin : Nat) (bs : List Byte) : Prop :=
  255 < origin ∨ field bs 0 1 ∉ gridRates ∨ field bs 0 1 ≤ field bs 5 1 ∨ field bs 9 1 = 0 ∨ field bs 10 1 < field bs 9 1 ∨
    bs.length < 13


/-- A seal cause or a clock state without a name is malformed (R10). -/
theorem readAset_unnamed {bs : List Byte} (h : sealCauseOf (field bs 6 1) = none ∨ clockOf (field bs 8 1 % 4) = none) (origin : Nat) :
    readAset origin bs = none := by
  rcases h with h | h
  · simp [readAset, h]
  · cases hc : sealCauseOf (field bs 6 1) <;> simp [readAset, h, hc]

/-- A malformed set header (R10). -/
theorem readAset_badHeader {origin : Nat} {bs : List Byte} (h : BadHeader origin bs) : readAset origin bs = none := by
  unfold BadHeader at h
  unfold readAset
  cases sealCauseOf (field bs 6 1) <;> cases clockOf (field bs 8 1 % 4) <;> simp [h]

/-- A set header that is not malformed is read, and the records after it (R10). -/
theorem readAset_named {origin : Nat} {bs : List Byte} {cause : SealCause} {clock : LockState}
    (hc : sealCauseOf (field bs 6 1) = some cause) (hk : clockOf (field bs 8 1 % 4) = some clock) (h : ¬ BadHeader origin bs) :
    readAset origin bs = (readRecords (field bs 11 2) (bs.drop 13)).map fun rs => (readHeader bs cause clock, rs) := by
  unfold BadHeader at h
  cases hr : readRecords (field bs 11 2) (bs.drop 13) <;>
    simp [readAset, hc, hk, h, hr, readHeader, setFlag]

/-- The records of a set are read in turn and must fill the body (R10). -/
theorem readRecords_succ (k : Nat) (bs : List Byte) :
    readRecords (k + 1) bs = (readRecord bs).bind fun x => (readRecords k x.2).map fun rs => x.1 :: rs := by
  cases h : readRecord bs with
  | none => simp [readRecords, h]
  | some x => cases hr : readRecords k x.2 <;> simp [readRecords, h, hr]

/-- Which codes name a seal cause, and which a clock state (R14). -/
theorem sealCauseOf_eq_none : ∀ {n : Nat}, sealCauseOf n = none ↔ n ∉ [1, 2, 3, 4, 5]
  | 0 | 1 | 2 | 3 | 4 | 5 => by decide
  | n + 6 => by simp [sealCauseOf]
theorem clockOf_eq_none : ∀ {n : Nat}, clockOf n = none ↔ 3 ≤ n
  | 0 | 1 | 2 => by decide
  | n + 3 => by simp [clockOf]
theorem clockOf_mod_eq_none {n : Nat} : clockOf (n % 4) = none ↔ n % 4 = 3 := by rw [clockOf_eq_none]; omega

/-- Settles O12: the framer's outcomes, what dispatch counts, and each body read at its offsets. -/
theorem framersDiscardAndCount : Obligations.FramersDiscardAndCount := by
  unfold Obligations.FramersDiscardAndCount
  refine ⟨fun p good f s h => exec_discardedFrame h, ⟨fun p f s ho hl he => ⟨fun h => ?_, fun h6 h9 hr hc => ?_, fun h6 h9 hr hc => ?_⟩,
    fun p arrival bs u => ⟨dispatch_malformedMeas, dispatch_asetUnused, dispatch_malformedAset, dispatch_malformedCtrl,
      dispatch_unknownKind⟩⟩, fun origin bs => ?_, fun bs => ?_, fun origin bs => ?_, fun k bs => ⟨?_, ?_⟩⟩
  · rw [exec_takenFrame ho hl he, frameIn_malformed (formOf_malformed h)]
  · rw [exec_takenFrame ho hl he, frameIn_bad ((formOf_roomy h6 h9 hr).trans (if_neg hc))]
  · exact exec_goodFrame ho hl he ((formOf_roomy h6 h9 hr).trans (if_pos hc))
  · rw [readMeas_eq, (stationByte_eq bs 7).2, readPhasors_eq_map, readAnalogs_eq_map]
    rfl
  · intro status hop age n m bad
    have hbad : bad ↔ BadRecord bs := by
      change _ ∨ _ ∨ _ ∨ (status = .held ∧ age = 0) ∨ (status ≠ .held ∧ age ≠ 0) ↔ _ ∨ _ ∨ _ ∨ (status = .held ↔ age = 0)
      tauto
    refine ⟨fun h => readRecord_bad (hbad.1 h), fun h hs => readRecord_absent (mt hbad.2 h) hs, fun h hs => ?_⟩
    rw [readRecord_contents (mt hbad.2 h) hs, flagsOf_field, readPhasors_eq_map, readAnalogs_eq_map]
    rfl
  · intro bad header
    have hbad : bad ↔ (sealCauseOf (field bs 6 1) = none ∨ clockOf (field bs 8 1 % 4) = none) ∨ BadHeader origin bs := by
      rw [sealCauseOf_eq_none, clockOf_mod_eq_none]
      change _ ∨ _ ∨ _ ∨ _ ∨ _ ∨ _ ∨ _ ∨ _ ↔ _ ∨ _ ∨ _ ∨ _ ∨ _ ∨ _ ∨ _
      tauto
    rw [hbad]
    refine ⟨fun h => h.elim (readAset_unnamed · origin) readAset_badHeader, fun h => ?_⟩
    obtain ⟨hn, hh⟩ := not_or.1 h
    obtain ⟨hc, hk⟩ := not_or.1 hn
    have hc : sealCauseOf (field bs 6 1) = some header.cause := by
      rw [sealCauseOf_eq_none, not_not] at hc
      simp only [List.mem_cons, List.not_mem_nil, or_false] at hc
      rcases hc with hc | hc | hc | hc | hc <;> simp only [header, hc] <;> rfl
    have hk : clockOf (field bs 8 1 % 4) = some header.clock := by
      rw [clockOf_eq_none] at hk
      obtain hk | hk | hk : field bs 8 1 % 4 = 0 ∨ field bs 8 1 % 4 = 1 ∨ field bs 8 1 % 4 = 2 := by omega
      all_goals simp only [header, hk]; rfl
    have hheader : readHeader bs header.cause header.clock = header := by
      simp (disch := omega) only [readHeader, setFlag, field_bit, header]
    rw [readAset_named hc hk hh, hheader]
  · rw [readRecords]; cases bs <;> rfl
  · rw [readRecords_succ]; cases readRecord bs <;> rfl

end Sys2Proof.Machine
end

