-- ==== Sys2Proof/Proofs/Records.lean ====
section
/-! PROOFS. Records and set headers read back as they were built (R6, R7, R10, R14). -/

namespace Sys2Proof.Machine

/-! ### A record's bytes -/

/-- A byte is the field of one byte of its value. -/
theorem byte_eq_be (b : Byte) : [b] = be 1 b.toNat := by simp [be]

/-- A record's status byte (R14). -/
def statusByte (r : SetRecord) : Nat := r.status.code + 4 * r.hop + 16 * r.holdAge

/-- The sixteen bytes of a record before its values (R14). -/
def recordHead (r : SetRecord) (c : Content) : List Byte :=
  be 2 r.id ++ be 1 (statusByte r) ++ be 1 (flagsByte c.flags).toNat ++ beInt 4 c.residual ++ be 2 c.df.toNat ++ be 2 c.rocof.toNat
    ++ be 2 c.digital.toNat ++ be 1 c.phasors.length ++ be 1 c.analogs.length

/-- They are sixteen. -/
theorem recordHead_length (r : SetRecord) (c : Content) : (recordHead r c).length = 16 := by simp [recordHead, beInt]

/-- A record without content ends after its status byte (R7). -/
theorem recordBytes_absent {r : SetRecord} (h : r.content = none) : recordBytes r = be 2 r.id ++ be 1 (statusByte r) := by
  simp only [recordBytes, h, statusByte, List.append_nil]

/-- A record with content is its first sixteen bytes and its values (R7, R14). -/
theorem recordBytes_content {r : SetRecord} {c : Content} (h : r.content = some c) :
    recordBytes r = recordHead r c ++ valueBytes c.phasors c.analogs := by
  simp only [recordBytes, h, recordHead, ← byte_eq_be, statusByte, List.append_assoc, List.cons_append, List.nil_append]

/-- A list of phasors takes six bytes each, and one of analogs four (R14). -/
theorem valueBytes_length (ps : List Phasor) (as : List Word) : (valueBytes ps as).length = 6 * ps.length + 4 * as.length := by
  simp [valueBytes, List.length_flatMap, Nat.mul_comm]

/-- A record occupies the bytes R7 gives. -/
theorem recordBytes_length (r : SetRecord) : (recordBytes r).length = recordSize r := by
  cases h : r.content with
  | none => simp [recordBytes_absent h, recordSize, h]
  | some c => simp [recordBytes_content h, recordHead_length, valueBytes_length, recordSize, h]; omega

/-- The flags byte is below 64: its bits 7 and 6 are zero (R14). -/
theorem flagsByte_lt (f : Flags) : (flagsByte f).toNat < 64 := by
  have h : ∀ a b c d e g : Bool, (flagsByte ⟨a, b, c, d, e, g⟩).toNat < 64 := by decide
  exact h f.dataInvalid f.syncLost f.timeSuspect f.uncorrected f.heldUpstream f.test

/-- The flags read back from their byte (R14). -/
theorem flagsOf_flagsByte (f : Flags) : flagsOf (flagsByte f) = f := by
  have h : ∀ a b c d e g : Bool, flagsOf (flagsByte ⟨a, b, c, d, e, g⟩) = ⟨a, b, c, d, e, g⟩ := by decide
  exact h f.dataInvalid f.syncLost f.timeSuspect f.uncorrected f.heldUpstream f.test

/-- Flags byte and residual of a record at their offsets (R7, R14). -/
theorem recordHead_residual (r : SetRecord) (c : Content) (rest : List Byte) :
    field (recordHead r c ++ rest) 3 1 = (flagsByte c.flags).toNat ∧
      (field (recordHead r c ++ rest) 4 4 : Int) = c.residual % 4294967296 := by
  have hf := flagsByte_lt c.flags
  have hr : field (recordHead r c ++ rest) 4 4 = field (beInt 4 c.residual) 0 4 := by
    simp (disch := omega) only [recordHead, beInt, List.append_assoc, field_be_skip, Nat.reduceSub,
      field_zero_append _ _ _ (be_length _ _), beNat_be, field_be]
  refine ⟨?_, by rw [hr, field_beInt]; rfl⟩
  simp (disch := omega) only [recordHead, List.append_assoc, field_be_skip, field_be_append, Nat.reduceSub]

/-- The other fields of a record at their offsets, where its bytes hold them (R7, R14). -/
theorem recordHead_fields {r : SetRecord} {c : Content} (hid : r.id < 65536) (hs : statusByte r < 256)
    (hn : c.phasors.length < 256) (hm : c.analogs.length < 256) (rest : List Byte) :
    field (recordHead r c ++ rest) 0 2 = r.id ∧ field (recordHead r c ++ rest) 2 1 = statusByte r ∧
      field16 (recordHead r c ++ rest) 8 = c.df ∧ field16 (recordHead r c ++ rest) 10 = c.rocof ∧
      field16 (recordHead r c ++ rest) 12 = c.digital ∧ field (recordHead r c ++ rest) 14 1 = c.phasors.length ∧
      field (recordHead r c ++ rest) 15 1 = c.analogs.length := by
  have hd := c.df.isLt
  have hr := c.rocof.isLt
  have hg := c.digital.isLt
  simp (disch := omega) only [recordHead, beInt, field16, List.append_assoc, field_be_skip, field_be_append, Nat.reduceSub,
    BitVec.ofNat_toNat, BitVec.setWidth_eq, and_self]

/-! ### The status byte -/

/-- A record with its ID, hop and hold age in R7's ranges, content in every status but ABSENT, and values within their counts. -/
structure SetRecord.InRange (r : SetRecord) : Prop where
  id_pos : 1 ≤ r.id
  id_le : r.id ≤ 65534
  hop : r.hop ≤ 3
  absent : r.content = none ↔ r.status = .absent
  age : if r.status = .held then 1 ≤ r.holdAge ∧ r.holdAge ≤ 15 else r.holdAge = 0
  counts : ∀ c, r.content = some c → c.phasors.length ≤ 16 ∧ c.analogs.length ≤ 8

/-- The status byte holds status, hop and hold age (R14). -/
theorem statusByte_parts {r : SetRecord} (h : r.InRange) :
    statusByte r < 256 ∧ recordStatusOf (statusByte r % 4) = r.status ∧ statusByte r / 4 % 4 = r.hop ∧ statusByte r / 16 = r.holdAge ∧
      ¬ (r.status = .held ↔ r.holdAge = 0) := by
  have hhop := h.hop
  have hage := h.age
  have hcode : statusByte r % 4 = r.status.code := by
    have : r.status.code < 4 := by cases r.status <;> decide
    unfold statusByte; omega
  have hst : recordStatusOf r.status.code = r.status := by cases r.status <;> rfl
  have hlt : r.status.code < 4 := by cases r.status <;> decide
  refine ⟨?_, by rw [hcode, hst], ?_, ?_, ?_⟩
  · unfold statusByte; split at hage <;> omega
  · unfold statusByte; omega
  · unfold statusByte; omega
  · split at hage <;> simp_all; omega

/-! ### Records read back -/

/-- A record as a receiver reads it: without its index and its residual (R7, R164). -/
def SetRecord.wire (r : SetRecord) : WireRecord where
  id := r.id
  hop := r.hop
  status := r.status
  holdAge := r.holdAge
  flags := (r.content.map (·.flags)).getD Flags.clear
  df := (r.content.map (·.df)).getD 0
  rocof := (r.content.map (·.rocof)).getD 0
  digital := (r.content.map (·.digital)).getD 0
  phasors := (r.content.map (·.phasors)).getD []
  analogs := (r.content.map (·.analogs)).getD []

/-- ID and status byte of a record in R7's ranges are well formed (R10). -/
theorem not_badRecord {r : SetRecord} (h : r.InRange) {bs : List Byte} (hl : 3 ≤ bs.length) (hid : field bs 0 2 = r.id)
    (hs : field bs 2 1 = statusByte r) : ¬ BadRecord bs := by
  obtain ⟨-, hst, -, hage, hheld⟩ := statusByte_parts h
  have := h.id_pos
  have := h.id_le
  unfold BadRecord
  rw [hid, hs, hst, hage]
  rintro (h | h | h | h)
  · omega
  · omega
  · omega
  · exact hheld h

/-- An ABSENT record reads back as it was built. -/
theorem readRecord_built_absent {r : SetRecord} (h : r.InRange) (hc : r.content = none) (rest : List Byte) :
    readRecord (recordBytes r ++ rest) = some (r.wire, rest) := by
  obtain ⟨hlt, hst, hhop, -, -⟩ := statusByte_parts h
  have hid := h.id_le
  have habs := h.absent.1 hc
  have hage : r.holdAge = 0 := by simpa [habs] using h.age
  have hb : recordBytes r ++ rest = be 2 r.id ++ (be 1 (statusByte r) ++ rest) := by rw [recordBytes_absent hc, List.append_assoc]
  have f0 : field (recordBytes r ++ rest) 0 2 = r.id := by rw [hb, field_be_append _ (by omega)]
  have f2 : field (recordBytes r ++ rest) 2 1 = statusByte r := by
    rw [hb, field_be_skip _ _ _ _ _ le_rfl, field_be_append _ (by omega)]
  have hd : (recordBytes r ++ rest).drop 3 = rest := List.drop_left' (by simp [recordBytes_absent hc])
  rw [readRecord_absent (not_badRecord h (by simp [hb]; omega) f0 f2) (by rw [f2, hst, habs]), hd, f0, f2, hhop]
  simp only [SetRecord.wire, hc, habs, hage, Option.map_none, Option.getD_none]

/-- A record with content reads back as it was built, but for its residual. -/
theorem readRecord_built_content {r : SetRecord} {c : Content} (h : r.InRange) (hc : r.content = some c) (rest : List Byte) :
    readRecord (recordBytes r ++ rest) = some (r.wire, rest) := by
  obtain ⟨hlt, hst, hhop, hage, -⟩ := statusByte_parts h
  obtain ⟨hn, hm⟩ := h.counts c hc
  have hid := h.id_le
  have hna : r.status ≠ .absent := fun e => by simp [h.absent.2 e] at hc
  have hb : recordBytes r ++ rest = recordHead r c ++ (valueBytes c.phasors c.analogs ++ rest) := by
    rw [recordBytes_content hc, List.append_assoc]
  have hlen : (recordBytes r ++ rest).length = 16 + 6 * c.phasors.length + 4 * c.analogs.length + rest.length := by
    rw [List.length_append, recordBytes_length, recordSize, hc]
  obtain ⟨f0, f2, f8, f10, f12, f14, f15⟩ := recordHead_fields (r := r) (c := c) (by omega) hlt (by omega) (by omega)
    (valueBytes c.phasors c.analogs ++ rest)
  obtain ⟨f3, -⟩ := recordHead_residual r c (valueBytes c.phasors c.analogs ++ rest)
  rw [← hb] at f0 f2 f3 f8 f10 f12 f14 f15
  have hd : (recordBytes r ++ rest).drop (16 + 6 * c.phasors.length + 4 * c.analogs.length) = rest :=
    List.drop_left' (by rw [recordBytes_length, recordSize, hc])
  have hps : readPhasors c.phasors.length ((recordBytes r ++ rest).drop 16) = c.phasors := by
    rw [hb, List.drop_left' (recordHead_length r c), valueBytes, List.append_assoc, readPhasors_written]
  have has : readAnalogs c.analogs.length ((recordBytes r ++ rest).drop (16 + 6 * c.phasors.length)) = c.analogs := by
    rw [hb, valueBytes, List.append_assoc, ← List.append_assoc, List.drop_left' (by simp [recordHead_length, Nat.mul_comm]),
      readAnalogs_written]
  rw [readRecord_contents (not_badRecord h (by omega) f0 f2) (by rw [f2, hst]; exact hna), f14, f15, if_neg (by omega), hd, hps, has,
    f0, f2, f3, f8, f10, f12, hst, hhop, hage, BitVec.ofNat_toNat, BitVec.setWidth_eq, flagsOf_flagsByte]
  simp only [SetRecord.wire, hc, Option.map_some, Option.getD_some]

/-- A record in R7's ranges reads back as it was built. -/
theorem readRecord_built {r : SetRecord} (h : r.InRange) (rest : List Byte) :
    readRecord (recordBytes r ++ rest) = some (r.wire, rest) := by
  cases hc : r.content with
  | none => exact readRecord_built_absent h hc rest
  | some c => exact readRecord_built_content h hc rest

/-- Records read back in turn, and fill their bytes (R10). -/
theorem readRecords_built {rs : List SetRecord} (h : ∀ r ∈ rs, r.InRange) :
    readRecords rs.length (rs.flatMap recordBytes) = some (rs.map SetRecord.wire) := by
  induction rs with
  | nil => rfl
  | cons r rs ih =>
    obtain ⟨hr, hrs⟩ := List.forall_mem_cons.1 h
    rw [List.flatMap_cons, List.length_cons, readRecords_succ, readRecord_built hr, Option.bind_some, ih hrs]
    rfl

/-! ### Set headers -/

/-- A set header with its fields in R6's ranges. -/
structure SetHeader.InRange (h : SetHeader) : Prop where
  rate : h.rate ∈ gridRates
  soe : h.soe ≤ 4294967295
  slot : h.slot < h.rate
  quality : h.quality ≤ 7
  index_pos : 1 ≤ h.partIndex
  index_le : h.partIndex ≤ h.partCount
  count : h.partCount ≤ 255
  records : h.recordCount ≤ 256

/-- The flags byte of a set header (R14). -/
def headerFlags (h : SetHeader) : Nat := h.fallback.toNat + 2 * h.test.toNat + 4 * h.stepped.toNat

/-- It is below 8. -/
theorem headerFlags_lt (h : SetHeader) : headerFlags h < 8 := by
  have := h.fallback.toNat_le
  have := h.test.toNat_le
  have := h.stepped.toNat_le
  unfold headerFlags; omega

/-- Its three flags read back. -/
theorem headerFlags_bits (h : SetHeader) :
    (BitVec.ofNat 8 (headerFlags h)).getLsbD 0 = h.fallback ∧ (BitVec.ofNat 8 (headerFlags h)).getLsbD 1 = h.test ∧
      (BitVec.ofNat 8 (headerFlags h)).getLsbD 2 = h.stepped := by
  have hall : ∀ f t s : Bool, (BitVec.ofNat 8 (f.toNat + 2 * t.toNat + 4 * s.toNat)).getLsbD 0 = f ∧
    (BitVec.ofNat 8 (f.toNat + 2 * t.toNat + 4 * s.toNat)).getLsbD 1 = t ∧
    (BitVec.ofNat 8 (f.toNat + 2 * t.toNat + 4 * s.toNat)).getLsbD 2 = s := by decide
  exact hall h.fallback h.test h.stepped

/-- A set header occupies thirteen bytes (R14). -/
theorem headerBytes_length (h : SetHeader) : (headerBytes h).length = 13 := by simp [headerBytes]

/-- A grid rate is at most 120 (R54). -/
theorem gridRates_le {r : Nat} (h : r ∈ gridRates) : r ≤ 120 := by
  simp only [gridRates, List.mem_cons, List.not_mem_nil, or_false] at h; omega

/-- The fields of a set header at their offsets (R14). -/
theorem headerBytes_fields {h : SetHeader} (hr : h.InRange) (rest : List Byte) :
    field (headerBytes h ++ rest) 0 1 = h.rate ∧ field (headerBytes h ++ rest) 1 4 = h.soe ∧
      field (headerBytes h ++ rest) 5 1 = h.slot ∧ field (headerBytes h ++ rest) 6 1 = h.cause.code ∧
      field (headerBytes h ++ rest) 7 1 = headerFlags h ∧ field (headerBytes h ++ rest) 8 1 = h.clock.code + 4 * h.quality ∧
      field (headerBytes h ++ rest) 9 1 = h.partIndex ∧ field (headerBytes h ++ rest) 10 1 = h.partCount ∧
      field (headerBytes h ++ rest) 11 2 = h.recordCount := by
  have hg := gridRates_le hr.rate
  obtain ⟨-, h1, h2, h3, h4, h5, h6, h7⟩ := hr
  have hf := headerFlags_lt h
  have hc : h.cause.code ≤ 5 := by cases h.cause <;> decide
  have hk : h.clock.code ≤ 2 := by cases h.clock <;> decide
  rw [headerBytes, ← headerFlags]
  simp (disch := omega) only [List.append_assoc, field_be_skip, field_be_append, Nat.reduceSub, and_self]

/-- The cause and the clock state read back from their codes (R14). -/
theorem sealCauseOf_code (c : SealCause) : sealCauseOf c.code = some c := by cases c <;> rfl
theorem clockOf_code {k : LockState} (q : Nat) : clockOf ((k.code + 4 * q) % 4) = some k := by
  rw [Nat.add_mul_mod_self_left]; cases k <;> rfl

/-- A set header with the records it counts reads back as it was built (R6, R10). -/
theorem readAset_built {h : SetHeader} {rs : List SetRecord} {origin : Nat} (hr : h.InRange) (ho : origin ≤ 255)
    (hn : h.recordCount = rs.length) (hrs : ∀ r ∈ rs, r.InRange) :
    readAset origin (headerBytes h ++ rs.flatMap recordBytes) = some (h, rs.map SetRecord.wire) := by
  obtain ⟨f0, f1, f5, f6, f7, f8, f9, f10, f11⟩ := headerBytes_fields hr (rs.flatMap recordBytes)
  obtain ⟨b0, b1, b2⟩ := headerFlags_bits h
  have hq : (h.clock.code + 4 * h.quality) / 4 % 8 = h.quality := by
    have := hr.quality
    have : h.clock.code < 4 := by cases h.clock <;> decide
    omega
  have hgood : ¬ BadHeader origin (headerBytes h ++ rs.flatMap recordBytes) := by
    have hlen : ¬ (headerBytes h ++ rs.flatMap recordBytes).length < 13 := by simp [headerBytes_length]
    have := hr.slot
    have := hr.index_pos
    have := hr.index_le
    unfold BadHeader
    rw [f0, f5, f9, f10]
    rintro (h' | h' | h' | h' | h' | h')
    · omega
    · exact h' hr.rate
    · omega
    · omega
    · omega
    · exact hlen h'
  have hheader : readHeader (headerBytes h ++ rs.flatMap recordBytes) h.cause h.clock = h := by
    simp only [readHeader, setFlag, f0, f1, f5, f7, f8, f9, f10, f11, b0, b1, b2, hq]
  rw [readAset_named (by rw [f6, sealCauseOf_code]) (by rw [f8, clockOf_code]) hgood, hheader, f11, hn,
    List.drop_left' (headerBytes_length h), readRecords_built hrs, Option.map_some]

/-- Settles O11: a record by its content, the residual at its offset, and a set by its header and its records in turn. -/
theorem recordsReadBackAsBuilt : Obligations.RecordsReadBackAsBuilt := by
  unfold Obligations.RecordsReadBackAsBuilt
  intro inRange read
  have hrange {r : SetRecord} (h : inRange r) : r.InRange := by
    obtain ⟨h1, h2, h3, h4, h5, h6⟩ := h
    exact ⟨h1, h2, h3, h4, h5, h6⟩
  refine ⟨fun r rest h => ⟨recordBytes_length r, readRecord_built (hrange h) rest⟩,
    fun r => ⟨fun h => by rw [recordSize, h], fun c h => ⟨by rw [recordSize, h], ?_⟩⟩,
    fun h rs origin ho h1 h2 h3 h4 h5 h6 h7 h8 h9 hrs => ?_⟩
  · obtain ⟨h3, h4⟩ := recordHead_residual r c (valueBytes c.phasors c.analogs)
    rw [recordBytes_content h]
    exact ⟨h4, h3 ▸ flagsByte_lt c.flags⟩
  · have hr : h.InRange := ⟨h1, h2, h3, h4, h5, h6, h7, h8 ▸ h9⟩
    obtain ⟨-, -, -, -, f7, f8, -, -, -⟩ := headerBytes_fields hr []
    rw [List.append_nil] at f7 f8
    have hk : h.clock.code ≤ 2 := by cases h.clock <;> decide
    exact ⟨headerBytes_length h, f7 ▸ headerFlags_lt h, by rw [f8]; omega, readAset_built hr ho h8 fun r hm => hrange (hrs r hm)⟩

end Sys2Proof.Machine
end

