-- ==== Sys2Proof/Proofs/Profile.lean ====
section
/-! PROOFS. SAVE_PROFILE, the end of its write, and what a stored image must hold (R187, R198, R199, R200). -/

namespace Sys2Proof.Machine

/-! ### SAVE_PROFILE and the end of its write -/

/-- SAVE_PROFILE in its right form: refused while a write lasts, else the write begins (R187, R199). -/
theorem saveProfileAct_noArgs {f : CtrlFrame} (hl : f.args = []) (s : State) :
    saveProfileAct f s = if s.store.state = .writing then reply f.re .storeBusy [] s else beginWrite f.re s := by
  rw [saveProfileAct, hl]; rfl

/-- The end of a write: what is read back is stored, and its check decides state and reply (R199). -/
theorem exec_writeEnd {s : State} {i : Image} {re : ReplyTo} (ho : s.operating = true) (hw : s.store.writing = some i)
    (hs : s.store.saveFor = some re) (damage : List (Nat × Byte)) :
    exec (.profileWriteComplete damage) s =
      .next (reply re (if profileCheckGood (readBack damage i) then .ok else .storeFault) []
        { s with store := { image := .bytes (readBack damage i)
                            state := if profileCheckGood (readBack damage i) then .good else .bad
                            writing := none, saveFor := none } }) := by
  simp only [exec, execProfileWriteComplete, whileOperating_pos ho, writeComplete, hw, hs, endWrite]

/-- Damage changes bytes and leaves their number (log 24). -/
theorem readBack_length (damage : List (Nat × Byte)) (i : Image) : (readBack damage i).length = i.content.length + 4 := by
  have h (bs : List Byte) : (damage.foldl (fun bs d => bs.set d.1 d.2) bs).length = bs.length := by
    induction damage generalizing bs with
    | nil => rfl
    | cons d ds ih => rw [List.foldl_cons, ih, List.length_set]
  rw [readBack, h, Image.bytes, List.length_append, be_length]

/-- What is read back has a correct check when its last word is the CRC-32 of what stands before it (R2, R198). -/
theorem profileCheckGood_readBack (damage : List (Nat × Byte)) (i : Image) :
    profileCheckGood (readBack damage i) = true ↔
      field (readBack damage i) ((readBack damage i).length - 4) 4 =
        (crc32 ((readBack damage i).take ((readBack damage i).length - 4))).toNat := by
  have h4 : 4 ≤ (readBack damage i).length := by rw [readBack_length]; omega
  simp [profileCheckGood, h4]

/-- A write read back as it was written has a correct check (R199). -/
theorem profileCheckGood_bytes (i : Image) : profileCheckGood i.bytes = true :=
  (profileCheckGood_append i.content (crc32 i.content).isLt).2 rfl

/-! ### The ranges a staging command accepts -/

/-- The content test of R198, part by part. -/
theorem Image.acceptable_iff {i : Image} : i.acceptable = true ↔
    (i.streams.map fun p => p.2.id).Nodup ∧ i.params.region ≠ 31 ∧ i.params.inRange = true ∧
      (∀ p ∈ i.streams, p.2.inRange = true) ∧ ∀ r ∈ i.ranges.toList, r.inRange = true ∧ r.aligned = true := by
  simp only [Image.acceptable, Bool.and_eq_true, decide_eq_true_eq, bne_iff_ne, List.all_eq_true, and_assoc]

/-- The ranges of the parameter block (R177). -/
theorem Params.inRange_iff {p : Params} : p.inRange = true ↔
    p.rate ∈ [10, 25, 30, 50, 60, 100, 120] ∧ 1 ≤ p.budgetMs ∧ p.budgetMs ≤ 4000 ∧ p.aheadMs ≤ 2000 ∧
      p.region ≤ 31 ∧ 0x0600 ≤ p.payloadType.toNat ∧ 1 ≤ p.burst ∧ p.burst ≤ 255 ∧ p.holdoverS ≤ 3600 ∧
      p.baud ∈ [4800, 9600, 19200, 38400] ∧ p.tqMax ≤ 7 ∧ 1 ≤ p.widthMs ∧ p.widthMs ≤ 255 := by
  simp only [Params.inRange, gridRates, Bool.and_eq_true, decide_eq_true_eq, List.contains_iff_mem, and_assoc]

/-- The ranges of a stream entry (R33). -/
theorem StreamCfg.inRange_iff {c : StreamCfg} : c.inRange = true ↔
    1 ≤ c.id ∧ c.id ≤ 65534 ∧ 1 ≤ c.tb ∧ c.tb ≤ 16777215 ∧ 1 ≤ c.rs ∧ c.rs ≤ 240 ∧ c.tol ≤ 50000 ∧
      c.phasors ≤ 16 ∧ c.analogs ≤ 8 ∧ c.holdLimit ≤ 15 ∧ c.tqMax ≤ 7 ∧ 1 ≤ c.hysteresis ∧ c.hysteresis ≤ 15 ∧ 10 ≤ c.silenceMs ∧
      c.silenceMs ≤ 60000 := by
  simp only [StreamCfg.inRange, validId, Bool.and_eq_true, decide_eq_true_eq, and_assoc]

/-- A size that a range may have is a power of two up to 65536 (R52). -/
theorem mem_rangeSizes {n : Nat} : n ∈ rangeSizes ↔ ∃ k : Nat, k ≤ 16 ∧ n = 2 ^ k := by
  simp only [rangeSizes, List.mem_map, List.mem_range, Nat.lt_succ_iff, eq_comm]

/-- The ranges of a map entry, and its base a multiple of its size (R52). -/
theorem RangeEntry.inRange_aligned_iff {r : RangeEntry} : r.inRange = true ∧ r.aligned = true ↔
    (∃ k : Nat, k ≤ 16 ∧ r.size = 2 ^ k) ∧ r.base ≤ 65535 ∧ r.base % r.size = 0 := by
  simp only [RangeEntry.inRange, RangeEntry.aligned, Bool.and_eq_true, List.contains_iff_mem, mem_rangeSizes, decide_eq_true_eq,
    beq_iff_eq, and_assoc]

/-! ### An image read back -/

/-- Each emission mode has its code back (R133). -/
theorem modeOf_code (m : EmissionMode) : modeOf m.code = some m := by cases m <;> rfl

/-- The eight entries of a range map read back as they were written (R52). -/
theorem readRanges_written {rs : Vector RangeEntry 8} (h : ∀ r ∈ rs.toList, r.inRange = true) :
    let entry := fun i : Nat => ((rs.toList.flatMap rangeBytes).drop (11 * i)).take 11
    (∀ i < 8, rangeEncodingGood (entry i) = true) ∧ (Vector.ofFn fun i : Fin 8 => readRangeEntry (0 :: entry i)) = rs := by
  have hread (i : Nat) (hi : i < 8) : readRangeEntry (0 :: ((rs.toList.flatMap rangeBytes).drop (11 * i)).take 11) = rs[i] ∧
      rangeEncodingGood (((rs.toList.flatMap rangeBytes).drop (11 * i)).take 11) = true := by
    have hi' : i < rs.toList.length := by simpa using hi
    rw [rangeBytes_at rs.toList i hi', Vector.getElem_toList]
    simpa using readRangeEntry_written [] (h _ (by simp))
  exact ⟨fun i hi => (hread i hi).2, Vector.ext fun i hi => by rw [Vector.getElem_ofFn]; exact (hread i hi).1⟩

/-- An image of acceptable content reads back as it was built (R198). -/
theorem readImage_content {i : Image} (hs : i.streams.Pairwise fun a b => a.1 < b.1) (hlt : ∀ p ∈ i.streams, p.1 < 256)
    (h : i.acceptable = true) : readImage i.content = some i := by
  obtain ⟨-, -, hp, hc, hr⟩ := Image.acceptable_iff.1 h
  obtain ⟨hgood, hranges⟩ := readRanges_written fun r hm => (hr r hm).1
  have hb : i.content = paramBytes i.params ++ (be 1 i.mode.code ++ (slotsBytes 256 0 i.streams ++ i.ranges.toList.flatMap rangeBytes)) := by
    rw [Image.content, List.append_assoc, List.append_assoc]
  have hparams : readParams i.content = some i.params := by rw [hb, readParams_written _ hp]
  have hmode : modeOf (field i.content 20 1) = some i.mode := by
    have : i.mode.code < 256 := by cases i.mode <;> decide
    rw [hb, field_append_right _ _ _ _ (paramBytes_length _).le, paramBytes_length, Nat.sub_self, field_be_append _ (by omega), modeOf_code]
  have hdrop : i.content.drop 21 = slotsBytes 256 0 i.streams ++ i.ranges.toList.flatMap rangeBytes := by
    rw [hb, ← List.append_assoc, List.drop_left' (by simp [paramBytes_length])]
  have hslots : readSlots 256 0 (i.content.drop 21) = some (i.streams, i.ranges.toList.flatMap rangeBytes) := by
    rw [hdrop, readSlots_written 256 0 _ _ hs fun p hp => ⟨Nat.zero_le _, by simpa using hlt p hp, StreamCfg.fits_of_inRange (hc p hp)⟩]
  have hlen : (i.ranges.toList.flatMap rangeBytes).length = 88 := by simp [List.length_flatMap, rangeBytes_length]
  have hall : ((List.range 8).all fun j => rangeEncodingGood (((i.ranges.toList.flatMap rangeBytes).drop (11 * j)).take 11)) = true := by
    simpa using hgood
  simp only [readImage, hparams, hmode, hslots, Option.bind_eq_bind, Option.bind_some, hlen, hall, and_self, if_true, hranges]

/-- The image written with its check is found GOOD at a start (R198). -/
theorem goodImage_written {i : Image} (hs : i.streams.Pairwise fun a b => a.1 < b.1) (hlt : ∀ p ∈ i.streams, p.1 < 256)
    (h : i.acceptable = true) : (Stored.bytes (i.content ++ be 4 (crc32 i.content).toNat)).goodImage = some i := by
  rw [goodImage_append _ (crc32 _).isLt, if_pos rfl, readImage_content hs hlt h, Option.filter_some, if_pos h]

/-- Settles O42: the save and its write's end, the content test and its ranges, and the check of a stored image. -/
theorem saveProfileAndItsWrite : Obligations.SaveProfileAndItsWrite := by
  unfold Obligations.SaveProfileAndItsWrite
  refine ⟨fun s f q ho hq hc hl => ?_, fun s i re damage ho hw hs => ?_,
    fun i => ⟨Image.acceptable_iff, fun hs hlt h => ⟨readImage_content hs hlt h, goodImage_written hs hlt h⟩⟩,
    fun p c r => ⟨Params.inRange_iff, StreamCfg.inRange_iff, RangeEntry.inRange_aligned_iff⟩, rfl, rfl, ?_⟩
  · rw [exec_act (act := saveProfileAct) (fun _ => rfl) ho hq (congrArg _ hc), saveProfileAct_noArgs hl]
    rfl
  · intro written bs good
    have hcheck : profileCheckGood (readBack damage i) = true ↔ good := profileCheckGood_readBack damage i
    have hbs : readBack damage i = bs := rfl
    have hbytes : readBack [] i = i.bytes := rfl
    refine ⟨fun h => ?_, fun h => ?_, ?_⟩
    · rw [exec_writeEnd ho hw hs, hcheck.2 h, if_pos rfl, if_pos rfl, hbs]
    · rw [exec_writeEnd ho hw hs, Bool.eq_false_iff.2 (mt hcheck.1 h), if_neg Bool.false_ne_true, if_neg Bool.false_ne_true, hbs]
    · rw [exec_writeEnd ho hw hs, hbytes, profileCheckGood_bytes i, if_pos rfl, if_pos rfl, Image.bytes]
  · rintro bs content check hlt rfl
    rw [goodImage_append content hlt]
    refine ⟨fun h => if_neg h, fun h hn => by rw [if_pos h, hn]; rfl, fun i h hi => by rw [if_pos h, hi, Option.filter_some]⟩

end Sys2Proof.Machine
end

