-- ==== Sys2Proof/Proofs/Supply.lean ====
section
/-! PROOFS. A part held without supply or in RESET, what the RESET line and loss of supply end, and the link states of the ports (R15,
R32, R103, R107, R121, R140, R149 to R151, R172, R180, R200, R202). -/

namespace Sys2Proof.Machine

/-! ### A held part -/

/-- The part takes events with supply and without RESET. -/
theorem operating_iff {s : State} : s.operating = true ↔ s.power.powered = true ∧ s.power.resetAsserted = false := by
  simp [State.operating]

/-- An event of a held part is disregarded (log 1). -/
theorem whileOperating_neg {s : State} (ho : s.operating = false) (t : State) : whileOperating s t = s := by
  simp [whileOperating, ho]

/-- Settles O3: every row but supply, RESET and the QUIESCE line's level acts only while the part takes events. -/
theorem heldPartTakesNoOtherEvent : Obligations.HeldPartTakesNoOtherEvent := by
  unfold Obligations.HeldPartTakesNoOtherEvent
  refine ⟨fun s => operating_iff, fun c s ho hup hassert hrelease hloss hfall hrise => ?_⟩
  cases c with
  | powerUp r => exact absurd rfl (hup r)
  | resetAssert => exact absurd rfl hassert
  | resetRelease => exact absurd rfl hrelease
  | powerLoss => exact absurd rfl hloss
  | quiesceEvent => exact absurd rfl hfall
  | quiesceLineRise => exact absurd rfl hrise
  | _ => exact congrArg Host.Outcome.next (whileOperating_neg ho _)

/-! ### RESET and loss of supply -/

/-- What cutting off a write leaves: the Profile Store with the cut write, and everything else (R200). -/
theorem cutWrite_eq (s : State) : cutWrite s = { s with store := s.store.cut } := by
  unfold cutWrite ProfileStore.cut
  split <;> rfl

/-- Settles O6: the assertion of the RESET line and the loss of supply, each with the write that it cuts off. -/
theorem resetLineAndLossOfSupply : Obligations.ResetLineAndLossOfSupply := by
  unfold Obligations.ResetLineAndLossOfSupply
  refine ⟨fun s ho => ?_, fun s => ?_⟩
  · simp only [exec, execResetAssert, if_pos ho, resetHold, cutWrite_eq]
  · simp only [exec, execPowerLoss, cutWrite_eq]

/-! ### Links -/

/-- Settles O7: each link event acts while the part takes events. -/
theorem linkStatesOfThePorts : Obligations.LinkStatesOfThePorts := by
  unfold Obligations.LinkStatesOfThePorts
  have acts {s : State} (ho : s.operating = true) (t : State) : Host.Outcome.next (whileOperating s t) = (.next t : Result) :=
    congrArg _ (whileOperating_pos ho t)
  exact ⟨fun s ho => ⟨acts ho _, acts ho _, acts ho _, acts ho _⟩, fun s ho => ⟨acts ho _, acts ho _⟩⟩

end Sys2Proof.Machine
end

