-- ==== Sys2Proof/Proofs/Attributes.lean ====
section
/-! PROOFS. Lookup of streams, effective attributes, expected slots, required streams and present contributions (R21, R34, R45, R46, R53,
R71). -/

namespace Sys2Proof.Machine

/-! ### Effective attributes (R53) -/

/-- An enabled range contains an ID from its base on, for its size. -/
theorem RangeEntry.contains_iff {r : RangeEntry} {id : Nat} :
    r.contains id = true ↔ r.enable = true ∧ r.base ≤ id ∧ id < r.base + r.size := by
  simp [RangeEntry.contains, and_assoc]

/-- What is set for an ID by some enabled range that contains it. -/
theorem anyRange_eq_true {rs : Vector RangeEntry 8} {id : Nat} {attr : RangeEntry → Bool} :
    anyRange rs id attr = true ↔
      ∃ r, (r ∈ rs.toList ∧ r.enable = true ∧ r.base ≤ id ∧ id < r.base + r.size) ∧ attr r = true := by
  simp only [anyRange, List.any_eq_true, Bool.and_eq_true, RangeEntry.contains_iff, and_assoc]

/-- What is set for an ID by no enabled range that contains it. -/
theorem anyRange_eq_false {rs : Vector RangeEntry 8} {id : Nat} {attr : RangeEntry → Bool} :
    anyRange rs id attr = false ↔
      ∀ r, (r ∈ rs.toList ∧ r.enable = true ∧ r.base ≤ id ∧ id < r.base + r.size) → attr r = false := by
  rw [← Bool.not_eq_true, anyRange_eq_true]
  simp only [not_exists, not_and, Bool.not_eq_true]

/-! ### Expected slots and required streams (R45, R46, R71) -/

/-- A stream is expected where slot × Rs is a multiple of R (R45). -/
theorem expectedAt_iff {rs rate ordinal : Nat} : expectedAt rs rate ordinal = true ↔ rate ∣ ordinal % rate * rs := by
  rw [expectedAt, beq_iff_eq, Nat.dvd_iff_mod_eq_zero]

/-- R divides slot × Rs exactly when R / gcd(Rs, R) divides the slot: the expected slots are so far apart (R71). -/
theorem dvd_slot_mul_iff {rs rate : Nat} (hr : 0 < rate) (slot : Nat) : rate ∣ slot * rs ↔ rate / Nat.gcd rs rate ∣ slot :=
  calc rate ∣ slot * rs
    _ ↔ rate ∣ Nat.gcd rs rate * slot := by rw [mul_comm (Nat.gcd rs rate), Nat.gcd_comm, Nat.dvd_mul_gcd_iff_dvd_mul]
    _ ↔ rate / Nat.gcd rs rate ∣ slot := (Nat.div_dvd_iff_dvd_mul (Nat.gcd_dvd_right rs rate) (Nat.gcd_pos_of_pos_right rs hr)).symm

/-- A required stream is ACTIVE, not optional, and expected at the ordinal (R45). -/
theorem requiredAt_iff {a : ActiveSet} {ordinal : Nat} {e : StreamEntry} :
    requiredAt a ordinal e = true ↔
      e.state = .active ∧ optionalOn a e.cfg = false ∧ expectedAt e.cfg.rs a.params.rate ordinal = true := by
  simp only [requiredAt, Bool.and_eq_true, beq_iff_eq, Bool.not_eq_true', and_assoc]

/-- A present contribution is of a required stream and was not held upstream (R46). -/
theorem countsPresent_iff {a : ActiveSet} {ordinal : Nat} {c : Contribution} :
    countsPresent a ordinal c = true ↔
      c.content.flags.heldUpstream = false ∧ ∃ e ∈ a.streams, c.index = some e.idx ∧ requiredAt a ordinal e = true := by
  simp only [countsPresent, Bool.and_eq_true, Bool.not_eq_true', List.any_eq_true, beq_iff_eq]

/-- Settles O60: the lookups, the four attributes under the map, the expected slots, and who is required and present. -/
theorem requirementsAndAttributes : Obligations.RequirementsAndAttributes := by
  unfold Obligations.RequirementsAndAttributes
  refine ⟨fun s n f => ⟨rfl, rfl, ?_⟩, fun a c => ⟨?_, ?_, ?_, ?_⟩, fun rs rate ordinal hr => ⟨expectedAt_iff, ?_⟩,
    fun a ordinal => ⟨fun e => requiredAt_iff, List.countP_eq_length_filter, fun c => ?_⟩⟩
  · simp only [State.mapStream, beq_iff_eq]
  · rw [optionalOn, Bool.or_eq_true, anyRange_eq_true]
  · rw [straggleOn, Bool.or_eq_true, anyRange_eq_true]
  · rw [correctionOn, Bool.and_eq_true, Bool.not_eq_true', anyRange_eq_false]
  · rw [holdAllowed, Bool.and_eq_true, Bool.not_eq_true', anyRange_eq_false, decide_eq_true_iff]
  · rw [expectedAt_iff, dvd_slot_mul_iff hr]
  · simp only [countsPresent_iff, requiredAt_iff]

end Sys2Proof.Machine
end

