-- ==== Sys2Proof/Proofs/Admission.lean ====
section
/-! PROOFS. Dispatch of a well-formed frame, the acceptance of control frames, and admission from the stream lookup to the offer that
waits for its placement (R19 to R26, R28 to R30, R171, R172). -/

namespace Sys2Proof.Machine

/-! ### Dispatch of a well-formed frame (R19) -/

/-- A MEAS frame enters admission as a measurement. -/
theorem dispatch_meas {p : Port} {arrival : Nat} {bs : List Byte} {u : State} {m : Meas} (hk : field bs 0 1 = 1)
    (hr : readMeas (field bs 2 2) (bodyOf bs) = some m) :
    dispatch p arrival bs u = admitOne (m.measurement p arrival (bodyOf bs)) u := by
  simp only [dispatch, hk, hr, if_true]

/-- A CTRL frame with a body for its header reaches the Control Unit. -/
theorem dispatch_ctrl {p : Port} {arrival : Nat} {bs : List Byte} {u : State} (hk : field bs 0 1 = 4)
    (hl : 4 ≤ (bodyOf bs).length) : dispatch p arrival bs u = acceptControl (field bs 2 2) (bodyOf bs) u := by
  simp [dispatch, hk, Nat.not_lt.2 hl]

/-! ### Control frames (R171, R172) -/

/-- The target of a control frame is this part's node ID or that of every part. -/
def Addressed (body : List Byte) (u : State) : Prop := field body 0 1 = u.nodeId ∨ field body 0 1 = 255

/-- Both the command queue and M have room (R172). -/
def ControlRoom (u : State) : Prop := u.ctl.queue.length < 8 ∧ u.egress.reserved + u.egress.m.length < 8

/-- A control frame for another target. -/
theorem acceptControl_notMine {body : List Byte} {u : State} (h : ¬ Addressed body u) (origin : Nat) :
    acceptControl origin body u = report .notMine u := by
  have hn : field body 0 1 ≠ u.nodeId ∧ field body 0 1 ≠ everyPart := not_or.1 h
  simp only [acceptControl, if_pos hn]

/-- A control frame for this part is accepted with a reservation while there is room. -/
theorem acceptControl_accepted {body : List Byte} {u : State} (h : Addressed body u) (hroom : ControlRoom u) (origin : Nat) :
    acceptControl origin body u = { u with
      ctl := { u.ctl with queue := u.ctl.queue ++
        [{ re := { requester := BitVec.ofNat 16 origin, tag := field16 body 2, code := BitVec.ofNat 8 (field body 1 1) }
           args := body.drop 4 }] }
      egress := { u.egress with reserved := u.egress.reserved + 1 } } := by
  have hn : ¬ (field body 0 1 ≠ u.nodeId ∧ field body 0 1 ≠ everyPart) := fun hn => not_or.2 hn h
  have hr : u.ctl.queue.length < queueCapacity ∧ u.egress.mOccupancy < mCapacity := hroom
  simp only [acceptControl, if_neg hn, if_pos hr]

/-- A control frame for this part is shed without room. -/
theorem acceptControl_shed {body : List Byte} {u : State} (h : Addressed body u) (hroom : ¬ ControlRoom u) (origin : Nat) :
    acceptControl origin body u = report .ctrlShed u := by
  have hn : ¬ (field body 0 1 ≠ u.nodeId ∧ field body 0 1 ≠ everyPart) := fun hn => not_or.2 hn h
  have hr : ¬ (u.ctl.queue.length < queueCapacity ∧ u.egress.mOccupancy < mCapacity) := hroom
  simp only [acceptControl, if_neg hn, if_neg hr]

/-- Settles O13: a control frame is dispatched to the Control Unit, which looks at its target and then at its room. -/
theorem controlFramesAreAcceptedOrShed : Obligations.ControlFramesAreAcceptedOrShed := by
  unfold Obligations.ControlFramesAreAcceptedOrShed
  intro p f s ho hl he hf hk hb u mine room
  have hexec : exec (.ingressFrameComplete p true f) s = .next (acceptControl (field f.payload 2 2) (bodyOf f.payload) u) := by
    rw [exec_goodFrame ho hl he hf, dispatch_ctrl hk hb]
  rw [hexec]
  exact ⟨fun h => congrArg _ (acceptControl_notMine h _), fun h hr => congrArg _ (acceptControl_accepted h hr _),
    fun h hr => congrArg _ (acceptControl_shed h hr _)⟩

/-! ### The checks before the snap (R21 to R23) -/

/-- The life frame that a measurement is, if it is one (R24, R166). -/
def Measurement.alive (m : Measurement) (s : State) : State := if m.life then lifeFrame m.id s else s

/-- A measurement of an unknown stream. -/
theorem admitOne_unknown {m : Measurement} {s : State} (h : s.stream m.id = none) : admitOne m s = report .unknownStream s := by
  simp only [admitOne, h]

/-- A measurement of a stream that is ISOLATED or on its way there. -/
theorem admitOne_isolated {m : Measurement} {s : State} {e : StreamEntry} (h : s.stream m.id = some e)
    (hi : e.state = .isolated ∨ e.isolating = true) : admitOne m s = report .isolatedDrop s := by
  have hc : (e.state == .isolated || e.isolating) = true := by simpa using hi
  simp only [admitOne, h, if_pos hc]

/-- A measurement of another shape than its stream's. -/
theorem admitOne_shape {m : Measurement} {s : State} {e : StreamEntry} (h : s.stream m.id = some e) (hs : e.state ≠ .isolated)
    (hi : e.isolating = false) (hm : m.phasors.length ≠ e.cfg.phasors ∨ m.analogs.length ≠ e.cfg.analogs) :
    admitOne m s =
      report .shape (s.mapStream m.id fun x => { x with counts := { x.counts with shape := satInc x.counts.shape } }) := by
  have hc : ¬ (e.state == .isolated || e.isolating) = true := by simp [hs, hi]
  simp only [admitOne, h, if_neg hc, if_pos hm]

/-- Any other measurement comes to the snap, under the table of its lookup and after its life frame (R24, R25, R30). -/
theorem admitOne_fits {m : Measurement} {s : State} {e : StreamEntry} (h : s.stream m.id = some e) (hs : e.state ≠ .isolated)
    (hi : e.isolating = false) (hp : m.phasors.length = e.cfg.phasors) (ha : m.analogs.length = e.cfg.analogs) :
    admitOne m s = snapAndBuild m s.table e.cfg (m.alive s) := by
  have hc : ¬ (e.state == .isolated || e.isolating) = true := by simp [hs, hi]
  have hm : ¬ (m.phasors.length ≠ e.cfg.phasors ∨ m.analogs.length ≠ e.cfg.analogs) := by simp [hp, ha]
  simp only [admitOne, h, if_neg hc, if_neg hm, Measurement.alive]

/-! ### The snap and the offer (R25, R26) -/

/-- A label that names no instant of the grid. -/
theorem snapAndBuild_badLabel {m : Measurement} {a : ActiveSet} {c : StreamCfg} (h : snap (m.request a c) = .badLabel) (s : State) :
    snapAndBuild m a c s = refusedReport m c (report .badLabel s) := by
  simp only [snapAndBuild, h]

/-- A label beyond the stream's tolerance. -/
theorem snapAndBuild_offGrid {m : Measurement} {a : ActiveSet} {c : StreamCfg} (h : snap (m.request a c) = .offGrid) (s : State) :
    snapAndBuild m a c s = refusedReport m c (report .offGrid
      (s.mapStream m.id fun x => { x with counts := { x.counts with offGrid := satInc x.counts.offGrid } })) := by
  simp only [snapAndBuild, h]

/-- A label that the snap takes gives one offer. -/
theorem snapAndBuild_snapped {m : Measurement} {a : ActiveSet} {c : StreamCfg} {ordinal : Nat} {d : Int} {angles : List Half} {u : Bool}
    (h : snap (m.request a c) = .snapped ordinal d angles u) (s : State) :
    snapAndBuild m a c s = { s with adm := { s.adm with offers := s.adm.offers ++
      [m.offer a c ((s.stream m.id).map (·.idx)) ordinal d angles u] } } := by
  simp only [snapAndBuild, h]

/-- Settles O14: the checks of the lookup one by one, the three results of the snap, and a phasor frame's entry. -/
theorem admissionCountsItsRefusals : Obligations.AdmissionCountsItsRefusals := by
  unfold Obligations.AdmissionCountsItsRefusals
  refine ⟨fun m s => ⟨admitOne_unknown, fun e h => ⟨admitOne_isolated h,
      fun hs hi => ⟨admitOne_shape h hs hi, fun hp ha => ?_⟩⟩⟩,
    fun p f s m ho hl he hf hk hr => ?_⟩
  · rw [admitOne_fits h hs hi hp ha]
    exact ⟨fun hq => snapAndBuild_badLabel hq _, fun hq => snapAndBuild_offGrid hq _, fun _ _ _ _ hq => snapAndBuild_snapped hq _⟩
  · rw [exec_goodFrame ho hl he hf, dispatch_meas hk hr]
    rfl

/-- Settles O15: a phasor frame that fits passes every check and the snap. -/
theorem phasorFrameBecomesContribution : Obligations.PhasorFrameBecomesContribution := by
  unfold Obligations.PhasorFrameBecomesContribution
  intro p f s m e ordinal d angles u ho hl he hf hk hr w hw hs hi hp ha hq
  rw [exec_goodFrame ho hl he hf, dispatch_meas hk hr]
  let q := m.measurement p s.tick (bodyOf f.payload)
  have hfits : admitOne q w = snapAndBuild q w.table e.cfg (lifeFrame m.id w) := admitOne_fits hw hs hi hp ha
  have hsnap : snap (q.request w.table e.cfg) = .snapped ordinal d angles u := hq
  exact congrArg _ (hfits.trans (snapAndBuild_snapped hsnap _))

end Sys2Proof.Machine
end

