-- ==== Sys2Proof/Proofs/Arrival.lean ====
section
/-! PROOFS. The order of arrival: what is placed and treated before a port's next frame, aligned-set frames at Composite Ingest, and the
treatment of their records (R18, R160 to R164, R166 to R168). -/

namespace Sys2Proof.Machine

/-! ### The events of admission -/

/-- PLACEMENT while the part takes events (R79). -/
theorem exec_placement {s : State} (ho : s.operating = true) (p : Port) : exec (.placement p) s = .next (placeNext p s) :=
  congrArg Host.Outcome.next (whileOperating_pos ho _)

/-- ASET_RECORD_INGEST while the part takes events (R162). -/
theorem exec_asetRecordIngest {s : State} (ho : s.operating = true) : exec .asetRecordIngest s = .next (ingestNext s) :=
  congrArg Host.Outcome.next (whileOperating_pos ho _)

/-! ### The earlier frames of a port (R18) -/

/-- A port is busy in admission with a contribution that waits or with a frame under treatment. -/
theorem busy_eq_false {a : Admission} {p : Port} :
    a.busy p = false ↔ a.offers.any (fun o => o.port == p) = false ∧ a.ingest.any (fun f => f.port == p) = false :=
  Bool.or_eq_false_iff

/-- Catching up leaves nothing of the port in admission. -/
theorem catchUp_not_busy (p : Port) (s : State) : (catchUp p s).adm.busy p = false := by
  induction hn : s.adm.work using Nat.strong_induction_on generalizing s with
  | _ n ih =>
    cases hb : s.adm.busy p with
    | false => rw [catchUp_idle hb, hb]
    | true =>
      rw [catchUp_step p s hb]
      exact ih _ (hn ▸ catchUpStep_work p s hb) _ rfl

/-- While a contribution of the port waits, the oldest is placed next. -/
theorem catchUp_placement {p : Port} {s : State} (hw : s.adm.offers.any (fun o => o.port == p) = true) :
    catchUp p s = catchUp p (placeNext p s) := by
  rw [catchUp_step p s (by simp [Admission.busy, hw]), catchUpStep, if_pos hw]

/-- While none waits and a frame of the port is under treatment, the next record is taken. -/
theorem catchUp_ingest {p : Port} {s : State} (hw : s.adm.offers.any (fun o => o.port == p) = false)
    (ht : s.adm.ingest.any (fun f => f.port == p) = true) : catchUp p s = catchUp p (ingestNext s) := by
  rw [catchUp_step p s (by simp [Admission.busy, hw, ht]), catchUpStep, if_neg (by simp [hw])]

/-! ### Aligned-set frames (R160, R161) -/

/-- A well-formed ASET frame of a part with Composite Ingest reaches it (R19). -/
theorem dispatch_aset {p : Port} {arrival : Nat} {bs : List Byte} {u : State} {h : SetHeader} {rs : List WireRecord}
    (hk : field bs 0 1 = 2) (hc : u.table.params.composite = true)
    (hr : readAset (field bs 2 2) (bodyOf bs) = some (h, rs)) :
    dispatch p arrival bs u = acceptAset p arrival (field bs 2 2) h rs u := by
  simp [dispatch, hk, hc, hr]

/-- The part's own output come back (R161). -/
theorem acceptAset_own {u : State} {origin : Nat} (h : origin = u.nodeId) (p : Port) (arrival : Nat) (hd : SetHeader)
    (rs : List WireRecord) : acceptAset p arrival origin hd rs u = report .loop u := if_pos h

/-- A frame without records has nothing to treat (R162). -/
theorem acceptAset_nil {u : State} {origin : Nat} (h : origin ≠ u.nodeId) (p : Port) (arrival : Nat) (hd : SetHeader) :
    acceptAset p arrival origin hd [] u = u := if_neg h

/-- Any other frame waits whole (R160). -/
theorem acceptAset_waits {u : State} {origin : Nat} {rs : List WireRecord} (h : origin ≠ u.nodeId) (hrs : rs ≠ []) (p : Port)
    (arrival : Nat) (hd : SetHeader) :
    acceptAset p arrival origin hd rs u =
      { u with adm := { u.adm with ingest := u.adm.ingest ++ [{ port := p, arrival := arrival, header := hd, records := rs }] } } := by
  have he : ¬ rs.isEmpty = true := by simpa using hrs
  simp only [acceptAset, if_neg h, if_neg he]

/-- Settles O17: catching up step by step until the port is idle, and the three ways of an aligned-set frame. -/
theorem alignedSetFramesAndArrivalOrder : Obligations.AlignedSetFramesAndArrivalOrder := by
  unfold Obligations.AlignedSetFramesAndArrivalOrder
  refine ⟨fun p s => ?_, ?_⟩
  · obtain ⟨hoffers, hingest⟩ := busy_eq_false.1 (catchUp_not_busy p s)
    refine ⟨hoffers, hingest, fun hw ht => catchUp_idle (busy_eq_false.2 ⟨hw, ht⟩),
      fun ho => ⟨fun hw t h => ?_, fun hw ht t h => ?_⟩⟩
    · obtain rfl : placeNext p s = t := Host.Outcome.next.inj ((exec_placement ho p).symm.trans h)
      exact catchUp_placement hw
    · obtain rfl : ingestNext s = t := Host.Outcome.next.inj ((exec_asetRecordIngest ho).symm.trans h)
      exact catchUp_ingest hw ht
  · intro p f s h rs ho hl he hf hk hr u own hc
    have hexec : exec (.ingressFrameComplete p true f) s = .next (acceptAset p s.tick (field f.payload 2 2) h rs u) := by
      rw [exec_goodFrame ho hl he hf, dispatch_aset hk hc hr]
    rw [hexec]
    refine ⟨fun hn => congrArg _ (acceptAset_own hn ..), fun hn hrs => ?_, fun hn hrs => congrArg _ (acceptAset_waits hn hrs ..)⟩
    rw [hrs]
    exact congrArg _ (acceptAset_nil hn ..)

/-! ### Records under treatment (R162 to R168) -/

/-- With no contribution of the port there is none to place. -/
theorem placeAll_idle {p : Port} {s : State} (hw : s.adm.offers.any (fun o => o.port == p) = false) (n : Nat) :
    placeAll p n s = s := by
  cases n with
  | zero => rfl
  | succ n => rw [placeAll, if_neg (by simp [hw])]

/-- The oldest contribution is placed, and then the others that wait. -/
theorem placeAll_placement {p : Port} {s : State} (hw : s.adm.offers.any (fun o => o.port == p) = true) :
    placeAll p s.adm.offers.length s = placeAll p (placeNext p s).adm.offers.length (placeNext p s) := by
  rw [← placeNext_offers_length p s hw, placeAll, if_pos hw]

/-- The part without the record that is taken: the frame keeps the others, and a frame without others is done (R162). -/
def recordTaken (f : IngestFrame) (rs : List WireRecord) (fs : List IngestFrame) (u : State) : State :=
  { u with adm := { u.adm with ingest := if rs = [] then fs else { f with records := rs } :: fs } }

/-- The next record is taken after the earlier contributions of its port (R18, R162). -/
theorem ingestNext_record {s : State} {f : IngestFrame} {fs : List IngestFrame} {r : WireRecord} {rs : List WireRecord}
    (hs : s.adm.ingest = f :: fs) (hr : f.records = r :: rs) :
    ingestNext s = ingestRecord f r (recordTaken f rs fs (placeAll f.port s.adm.offers.length s)) := by
  cases rs with
  | nil => simp only [ingestNext, hs, hr, recordTaken, if_true]
  | cons x xs => simp only [ingestNext, hs, hr, recordTaken, if_neg (List.cons_ne_nil x xs)]

/-- An ABSENT record is skipped (R162). -/
theorem ingestRecord_absent {r : WireRecord} (h : r.status = .absent) (f : IngestFrame) (s : State) : ingestRecord f r s = s :=
  if_pos h

/-- A record of hop 3 goes no further (R163). -/
theorem ingestRecord_hop {r : WireRecord} (ha : r.status ≠ .absent) (h : r.hop = 3) (f : IngestFrame) (s : State) :
    ingestRecord f r s = report .hop s := by
  simp only [ingestRecord, if_neg ha, if_pos h]

/-- Any other record enters admission as a measurement (R162, R163). -/
theorem ingestRecord_admitted {r : WireRecord} (ha : r.status ≠ .absent) (h : r.hop ≠ 3) (f : IngestFrame) (s : State) :
    ingestRecord f r s = admitOne (r.measurement f) s := by
  simp only [ingestRecord, if_neg ha, if_neg h]

/-- Settles O18: the placements that come first, and the three ways of a record. -/
theorem lowerTierRecordsEnterAdmission : Obligations.LowerTierRecordsEnterAdmission := by
  unfold Obligations.LowerTierRecordsEnterAdmission
  refine ⟨fun p s => ⟨fun hw => placeAll_idle hw _, fun ho hw t h => ?_⟩, fun s h => ?_, ?_⟩
  · obtain rfl : placeNext p s = t := Host.Outcome.next.inj ((exec_placement ho p).symm.trans h)
    exact placeAll_placement hw
  · have hnone : ingestNext s = s := by simp only [ingestNext, h]
    simp only [exec, execAsetRecordIngest, hnone, whileOperating, ite_self]
  · intro s f fs r rs ho hs hr u t
    have hexec : exec .asetRecordIngest s = .next (ingestRecord f r t) := by
      rw [exec_asetRecordIngest ho, ingestNext_record hs hr]; rfl
    rw [hexec]
    refine ⟨fun ha => congrArg _ (ingestRecord_absent ha f t), fun ha h3 => congrArg _ (ingestRecord_hop ha h3 f t), fun ha h3 => ?_⟩
    rw [ingestRecord_admitted ha h3]
    simp only [WireRecord.measurement, recordFlags, beq_eq_decide, bne, decide_not]

end Sys2Proof.Machine
end

