-- ==== Sys2Proof/Proofs/Placement.lean ====
section
/-! PROOFS. The placement of a port's oldest contribution with all that it prompts (R26 to R30, R39, R42, R79, R166). -/

namespace Sys2Proof.Machine

/-- A port with no contribution in admission has none placed. -/
theorem placeNext_none {p : Port} {s : State} (h : s.adm.offers.find? (fun x => x.port == p) = none) : placeNext p s = s := by
  simp only [placeNext, h]

/-- The oldest contribution of a port leaves admission and is placed. -/
theorem placeNext_some {p : Port} {s : State} {o : Offer} (h : s.adm.offers.find? (fun x => x.port == p) = some o) :
    placeNext p s = placeOffer o { s with adm := { s.adm with offers := s.adm.offers.eraseP fun x => x.port == p } } := by
  simp only [placeNext, h]

/-- No contribution of a stream that the table holds is left in admission. -/
theorem inAdmission_eq_false {s : State} {id : Nat} :
    s.inAdmission id = false ↔ ∀ x ∈ s.adm.offers, x.id = id → x.contribution.index = none := by
  simp [State.inAdmission]

/-- The end of an isolation: the passage to ISOLATED, re-evaluated where the stream was ACTIVE (R39, R42). -/
theorem finishIsolating_eq (id : Nat) (s : State) :
    finishIsolating id s = match s.stream id with
      | none => s
      | some e =>
        if e.isolating = true ∧ ∀ x ∈ s.adm.offers, x.id = id → x.contribution.index = none then
          if e.state = .active then reevaluate (s.mapStream id StreamEntry.isolate) else s.mapStream id StreamEntry.isolate
        else s := by
  unfold finishIsolating
  cases h : s.stream id with
  | none => rfl
  | some e =>
    have hpass : changeStream id StreamEntry.isolate s =
        if e.state = .active then reevaluate (s.mapStream id StreamEntry.isolate) else s.mapStream id StreamEntry.isolate := by
      rw [changeStream_known _ h]
      by_cases ha : e.state = .active <;> simp [ha, StreamEntry.isolate]
    simp only [hpass, Bool.and_eq_true, Bool.not_eq_true', inAdmission_eq_false]

/-- Settles O24: nothing to place, a stream removed since its lookup, and the placement itself. -/
theorem placementIsOneEvent : Obligations.PlacementIsOneEvent := by
  unfold Obligations.PlacementIsOneEvent
  refine ⟨fun p s h => ?_, ?_⟩
  · simp only [exec, execPlacement, placeNext_none h, whileOperating, ite_self]
  · intro p s o ho h t
    rw [exec_placement ho, placeNext_some h]
    refine ⟨fun hi => congrArg _ (if_pos (by simp [hi])), ?_⟩
    intro hi a c suspect offered u isolated v
    have hheld : placeOffer o t = placeHeld o t := if_neg (by simpa using hi)
    have hv : finishIsolating o.id u = v := finishIsolating_eq o.id u
    have hplaced : placeHeld o t = reportTime a o (finishIsolating o.id u) := rfl
    rw [hheld, hplaced, hv]
    rfl

end Sys2Proof.Machine
end

