-- ==== Sys2Proof/Proofs/CommitTables.lean ====
section
/-! SUPPORT. What the application of a commit makes of the active set (R36, R49, R51, R56, R181). -/

namespace Sys2Proof.Machine

/-- After a change of grid rate every `last_epoch` is converted, and nothing else of an entry (R56). -/
def StreamEntry.regrid (old new : Nat) (e : StreamEntry) : StreamEntry :=
  { e with lastEpoch := if new ≠ old then e.lastEpoch.map (convertOrdinal old new) else e.lastEpoch }

/-- A change of grid rate at the stream table, entry by entry (R56). -/
theorem commitGrid_streams (old : Params) (s : State) :
    (commitGrid old s).table.streams = s.table.streams.map (StreamEntry.regrid old.rate s.rate) := by
  unfold commitGrid StreamEntry.regrid
  by_cases h : old.rate = s.rate
  · simp [h]
  · simp [h, Ne.symm h]

/-- The active table after a commit: each staged entry under its stream's run-time fields (R51, R56). -/
theorem applyCommit_streams (s : State) :
    (applyCommit s).table.streams =
      s.ctl.staged.streams.map fun p => (committedEntry s p).regrid s.rate s.ctl.staged.params.rate := by
  have h : (applyCommit s).table = (commitGrid s.table.params (commitTables s)).table := by simp [applyCommit]
  rw [h, commitGrid_streams]
  simp only [commitTables, List.map_map]
  rfl

/-- A committed entry stands at its staged index under its staged configuration (R51). -/
theorem committedEntry_config (s : State) (p : Nat × StreamCfg) :
    (committedEntry s p).idx = p.1 ∧ (committedEntry s p).cfg = p.2 := by
  unfold committedEntry
  cases s.stream p.2.id <;> exact ⟨rfl, rfl⟩

/-- A commit makes the staged entries the active ones, index for index (R51). -/
theorem applyCommit_entries (s : State) :
    (applyCommit s).table.streams.map (fun e => (e.idx, e.cfg)) = s.ctl.staged.streams := by
  have h (p : Nat × StreamCfg) : ((committedEntry s p).idx, (committedEntry s p).cfg) = p :=
    Prod.ext (committedEntry_config s p).1 (committedEntry_config s p).2
  rw [applyCommit_streams, List.map_map]
  simp only [Function.comp_def, StreamEntry.regrid, h, List.map_id']

end Sys2Proof.Machine
end

