-- ==== Sys2Proof/Proofs/EntryRules.lean ====
section
/-! SUPPORT. Stream entries, staged tables, range maps and the override table under the changes that are made to them: what keeps an
entry's run-time fields in order, and what keeps the tables of R33, R52 and R136 in theirs. -/

namespace Sys2Proof.Machine

/-! ### Stream entries (R33, R38, R39, R43, R48) -/

/-- A change of an entry that keeps its index, its configuration and the order of its run-time fields. -/
structure StreamEntry.Keeps (e x : StreamEntry) : Prop where
  idx : x.idx = e.idx
  cfg : x.cfg = e.cfg
  ok : e.Ok → x.Ok

/-- A change of counters, `last_epoch` or nothing at all leaves what `Ok` reads. -/
theorem StreamEntry.Keeps.of_same {e x : StreamEntry} (hi : x.idx = e.idx) (hc : x.cfg = e.cfg) (hs : x.state = e.state)
    (ho : x.isolating = e.isolating) (ht : x.timer = e.timer) (hb : x.bad = e.bad) (hg : x.good = e.good)
    (ha : x.holdAge = e.holdAge) : e.Keeps x :=
  ⟨hi, hc, fun ⟨b, g, a, t, i, z⟩ => ⟨hb ▸ b, hg ▸ g, by rw [ha, hc]; exact a, by rw [ht, hs]; exact t, by rw [ho, hs]; exact i,
    by rw [hs, hb, hg]; exact z⟩⟩

/-- A life frame loads the timer of a stream that is not ISOLATED (R24, R37). -/
theorem StreamEntry.lifeFrame_keeps (now : Nat) (e : StreamEntry) : e.Keeps (e.lifeFrame now) := by
  unfold StreamEntry.lifeFrame
  cases hs : e.state with
  | isolated => exact ⟨rfl, rfl, id⟩
  | enrolled | silent | active | suspect =>
    exact ⟨rfl, rfl, fun h => ⟨h.bad, h.good, h.holdAge, by simp, by simp, by simp⟩⟩

/-- A report moves the streaks within 15 (R43). -/
theorem StreamEntry.moveStreaks_ok (bad : Bool) {e : StreamEntry} (h : e.Ok) (hs : e.state ≠ .isolated) : (e.moveStreaks bad).Ok := by
  cases bad
  · exact ⟨Nat.zero_le _, Nat.min_le_left _ _, h.holdAge, h.timer, h.isolating, fun hi => absurd hi hs⟩
  · exact ⟨Nat.min_le_left _ _, Nat.zero_le _, h.holdAge, h.timer, h.isolating, fun hi => absurd hi hs⟩

/-- The test of the streaks passes an entry between ACTIVE and SUSPECT alone (R44). -/
theorem StreamEntry.testStreaks_keeps (e : StreamEntry) : e.Keeps e.testStreaks := by
  unfold StreamEntry.testStreaks
  split
  case h_3 => exact ⟨rfl, rfl, id⟩
  all_goals
    next hs =>
      split
      · exact ⟨rfl, rfl, fun h => ⟨h.bad, h.good, h.holdAge, by simp [h.timer, hs], by simp, by simp⟩⟩
      · exact ⟨rfl, rfl, id⟩

/-- A time-quality report keeps an entry's fields in order (R43, R44). -/
theorem StreamEntry.timeReport_keeps (bad : Bool) (e : StreamEntry) : e.Keeps (e.timeReport bad) := by
  have moved (hs : e.state ≠ .isolated) : e.Keeps ((e.moveStreaks bad).testStreaks) := by
    obtain ⟨hi, hc, hok⟩ := (e.moveStreaks bad).testStreaks_keeps
    exact ⟨hi.trans (by cases bad <;> rfl), hc.trans (by cases bad <;> rfl), fun h => hok (StreamEntry.moveStreaks_ok bad h hs)⟩
  unfold StreamEntry.timeReport
  split
  · exact ⟨rfl, rfl, id⟩
  · next hs => exact moved hs

/-- An expired silence timer is stopped with the passage to SILENT (R38). -/
theorem StreamEntry.silence_keeps (e : StreamEntry) : e.Keeps e.silence :=
  ⟨rfl, rfl, fun h => ⟨Nat.zero_le _, Nat.zero_le _, h.holdAge, by simp [StreamEntry.silence], by simp [StreamEntry.silence],
    by simp [StreamEntry.silence]⟩⟩

/-- The passage to ISOLATED stops the timer and ends the isolating (R39). -/
theorem StreamEntry.isolate_keeps (e : StreamEntry) : e.Keeps e.isolate :=
  ⟨rfl, rfl, fun h => ⟨Nat.zero_le _, Nat.zero_le _, h.holdAge, by simp [StreamEntry.isolate], by simp [StreamEntry.isolate],
    by simp [StreamEntry.isolate]⟩⟩

/-- RESTORE loads the timer of a stream that was ISOLATED (R40). -/
theorem StreamEntry.restore_keeps (now : Nat) (e : StreamEntry) : e.Keeps (e.restore now) := by
  unfold StreamEntry.restore
  split
  · exact ⟨rfl, rfl, fun h => ⟨h.bad, h.good, h.holdAge, by simp, by simp, by simp⟩⟩
  · exact ⟨rfl, rfl, id⟩

/-- RESTART loads the timer of a stream that is not ISOLATED, and stops an ISOLATED one's (R35, R188). -/
theorem StreamEntry.restart_keeps (now : Nat) (e : StreamEntry) : e.Keeps (e.restart now) := by
  unfold StreamEntry.restart
  split
  · next hs =>
    exact ⟨rfl, rfl, fun h => ⟨Nat.zero_le _, Nat.zero_le _, h.holdAge, by simp [hs], h.isolating, fun _ => ⟨rfl, rfl⟩⟩⟩
  · exact ⟨rfl, rfl, fun h => ⟨Nat.zero_le _, Nat.zero_le _, h.holdAge, by simp, by simp, by simp⟩⟩

/-- A stream that is not ISOLATED may become isolating (R39). -/
theorem StreamEntry.isolating_keeps {e : StreamEntry} (hs : e.state ≠ .isolated) : e.Keeps { e with isolating := true } :=
  ⟨rfl, rfl, fun h => ⟨h.bad, h.good, h.holdAge, h.timer, fun _ => hs, h.isolatedStreaks⟩⟩

/-- A queued record keeps the hold age within the limit when a HELD record brings no more (R48, R132). -/
theorem StreamEntry.queued_keeps {r : SetRecord} {e : StreamEntry} (hr : r.status = .held → r.holdAge ≤ e.cfg.holdLimit) :
    e.Keeps (e.queued r) := by
  unfold StreamEntry.queued
  split
  · exact ⟨rfl, rfl, fun h => ⟨h.bad, h.good, Nat.zero_le _, h.timer, h.isolating, h.isolatedStreaks⟩⟩
  · next hs => exact ⟨rfl, rfl, fun h => ⟨h.bad, h.good, hr hs, h.timer, h.isolating, h.isolatedStreaks⟩⟩
  · exact .of_same rfl rfl rfl rfl rfl rfl rfl rfl
  · exact ⟨rfl, rfl, id⟩

/-- So does a queued part whose HELD records keep within the limits of their streams (R132). -/
theorem StreamEntry.queuedIn_keeps {rs : List SetRecord} {e : StreamEntry}
    (hr : ∀ r ∈ rs, r.status = .held → e.idx = r.idx → r.holdAge ≤ e.cfg.holdLimit) : e.Keeps (e.queuedIn rs) := by
  unfold StreamEntry.queuedIn
  split
  · next r hf =>
    have hi : r.idx = e.idx := by simpa only [beq_iff_eq] using List.find?_some hf
    exact StreamEntry.queued_keeps fun hs => hr r (List.mem_of_find?_eq_some hf) hs hi.symm
  · exact ⟨rfl, rfl, id⟩

/-- A new stream's fields are in order (R36). -/
theorem freshEntry_ok (now : Nat) (p : Nat × StreamCfg) : (freshEntry now p).Ok :=
  ⟨Nat.zero_le _, Nat.zero_le _, Nat.zero_le _, by simp [freshEntry], by simp [freshEntry], by simp [freshEntry]⟩

/-- A kept stream's fields stay in order under its staged configuration, its hold age cut to the new limit (R49). -/
theorem keptEntry_ok (regrid : Bool) {e : StreamEntry} (h : e.Ok) (p : Nat × StreamCfg) : (keptEntry regrid e p).Ok := by
  refine ⟨h.bad, h.good, ?_, h.timer, h.isolating, h.isolatedStreaks⟩
  simp only [keptEntry]
  split
  · exact Nat.zero_le _
  · exact Nat.min_le_right _ _

/-- A conversion of ordinals leaves the rest of an entry (R56). -/
theorem StreamEntry.regrid_keeps (old new : Nat) (e : StreamEntry) : e.Keeps (e.regrid old new) :=
  .of_same rfl rfl rfl rfl rfl rfl rfl rfl

/-- The entries after a commit are in order (R51). -/
theorem committedEntry_ok {s : State} (h : ∀ e ∈ s.table.streams, e.Ok) (p : Nat × StreamCfg) : (committedEntry s p).Ok := by
  unfold committedEntry
  cases hf : s.stream p.2.id with
  | none => exact freshEntry_ok _ _
  | some e => exact keptEntry_ok _ (h e (stream_found hf).1) p

/-! ### Staged tables (R34, R175, R176) -/

/-- A part of a table in order is in order. -/
theorem entriesOk.sublist {es fs : List (Nat × StreamCfg)} (h : entriesOk es) (hs : fs.Sublist es) : entriesOk fs :=
  ⟨h.ascending.sublist hs, fun p hp => h.below p (hs.subset hp), h.ids.sublist (hs.map _), fun p hp => h.inRange p (hs.subset hp)⟩

/-- The index of an ID is that of an entry that holds it (R34). -/
theorem indexOf_some {g : StagedSet} {id i : Nat} (h : g.indexOf id = some i) : ∃ p ∈ g.streams, p.1 = i ∧ p.2.id = id := by
  obtain ⟨p, hp, rfl⟩ := Option.map_eq_some_iff.1 h
  exact ⟨p, List.mem_of_find?_eq_some hp, rfl, by simpa using List.find?_some hp⟩

/-- An ID has no index exactly when no entry holds it. -/
theorem indexOf_none {g : StagedSet} {id : Nat} : g.indexOf id = none ↔ ∀ p ∈ g.streams, p.2.id ≠ id := by
  simp [StagedSet.indexOf]

/-- The lowest VACANT index is below 256, VACANT, and every lower index is occupied (R34). -/
theorem lowestVacant_eq_some {g : StagedSet} {i : Nat} :
    g.lowestVacant = some i ↔ (∀ p ∈ g.streams, p.1 ≠ i) ∧ i < 256 ∧ ∀ j, j < i → ∃ p ∈ g.streams, p.1 = j := by
  simp [StagedSet.lowestVacant, List.find?_range_eq_some]

/-- Where STAGE_STREAM writes a configuration: at the entry of its ID, or at a VACANT index while no entry holds it (R34). -/
theorem indexFor_some {g : StagedSet} {id i : Nat} (h : g.indexFor id = some i) :
    (∃ p ∈ g.streams, p.1 = i ∧ p.2.id = id) ∨ ((∀ p ∈ g.streams, p.2.id ≠ id) ∧ g.lowestVacant = some i) := by
  unfold StagedSet.indexFor at h
  cases hi : g.indexOf id with
  | some j => rw [hi] at h; cases h; exact .inl (indexOf_some hi)
  | none => rw [hi] at h; exact .inr ⟨indexOf_none.1 hi, h⟩

/-- A configuration in range written at its place keeps the staged table in order (R175). -/
theorem writeEntry_ok {g : StagedSet} {c : StreamCfg} {i : Nat} (h : entriesOk g.streams) (hc : c.inRange = true)
    (hi : g.indexFor c.id = some i) : entriesOk (writeEntry i c g.streams) := by
  obtain ⟨hasc, hmem⟩ := writeEntry_sorted i c g.streams h.ascending
  have hfor := indexFor_some hi
  have hother : ∀ p ∈ g.streams, p.1 ≠ i → p.2.id ≠ c.id := fun p hp hn hid => by
    rcases hfor with ⟨q, hq, rfl, hqid⟩ | ⟨hnone, -⟩
    · exact hn (congrArg Prod.fst (List.inj_on_of_nodup_map h.ids hp hq (hid.trans hqid.symm)))
    · exact hnone p hp hid
  refine ⟨hasc, fun p hp => ?_, ?_, fun p hp => ?_⟩
  · rcases (hmem p).1 hp with rfl | ⟨hp, -⟩
    · rcases hfor with ⟨q, hq, rfl, -⟩ | ⟨-, hv⟩
      · exact h.below q hq
      · exact (lowestVacant_eq_some.1 hv).2.1
    · exact h.below p hp
  · refine List.Nodup.map_on (fun p hp q hq he => ?_) (hasc.imp fun hlt => ne_of_apply_ne Prod.fst (Nat.ne_of_lt hlt))
    rcases (hmem p).1 hp with rfl | ⟨hp, hpi⟩ <;> rcases (hmem q).1 hq with rfl | ⟨hq, hqi⟩
    · rfl
    · exact absurd he.symm (hother q hq hqi)
    · exact absurd he (hother p hp hpi)
    · exact List.inj_on_of_nodup_map h.ids hp hq he
  · rcases (hmem p).1 hp with rfl | ⟨hp, -⟩
    · exact hc
    · exact h.inRange p hp

/-- A map entry that STAGE_RANGE accepts keeps the map in order (R52). -/
theorem rangesOk_set {rs : Vector RangeEntry 8} {i : Nat} {r : RangeEntry} (h : rangesOk rs) (hi : i < 8) (hr : r.inRange = true)
    (ha : r.aligned = true) : rangesOk (rs.set i r hi) := fun x hx => by
  rw [Vector.toList_set] at hx
  rcases List.mem_or_eq_of_mem_set hx with hx | rfl
  · exact h x hx
  · exact ⟨hr, ha⟩

/-! ### The override table (R136 to R139) -/

/-- An override table within its 16 entries, one for a stream ID, none of them free (R136). -/
structure OverrideTableOk (es : List OverrideEntry) : Prop where
  capacity : es.length ≤ overrideEntries
  ids : (es.map fun e => e.id).Nodup
  occupied : ∀ e ∈ es, e.inForce.isSome = true ∨ e.change.isSome = true

/-- What `OverridesOk` says of the table and of an empty ring. -/
theorem State.overridesOk_iff {s : State} :
    s.OverridesOk ↔ OverrideTableOk s.comp.overrides ∧ (s.ring.recs = [] → ∀ e ∈ s.comp.overrides, e.change = none) :=
  ⟨fun ⟨c, i, o, e⟩ => ⟨⟨c, i, o⟩, e⟩, fun ⟨⟨c, i, o⟩, e⟩ => ⟨c, i, o, e⟩⟩

/-- A change that has taken effect: the entry's own ID, something in force, nothing pending (R139). -/
theorem comeIntoForce_some {e x : OverrideEntry} (h : e.comeIntoForce = some x)
    (ho : e.inForce.isSome = true ∨ e.change.isSome = true) : x.id = e.id ∧ x.inForce.isSome = true ∧ x.change = none := by
  unfold OverrideEntry.comeIntoForce at h
  split at h
  · next hc => cases h; exact ⟨rfl, by simpa [hc] using ho, hc⟩
  · cases h; exact ⟨rfl, rfl, rfl⟩
  · cases h

/-- Pending changes that take effect leave the table in order, with nothing pending (R139). -/
theorem OverrideTableOk.intoForce {es : List OverrideEntry} (h : OverrideTableOk es) :
    OverrideTableOk (es.filterMap OverrideEntry.comeIntoForce) ∧
      ∀ x ∈ es.filterMap OverrideEntry.comeIntoForce, x.change = none := by
  have hx : ∀ x ∈ es.filterMap OverrideEntry.comeIntoForce, x.inForce.isSome = true ∧ x.change = none := fun x hx => by
    obtain ⟨e, he, hex⟩ := List.mem_filterMap.1 hx
    exact (comeIntoForce_some hex (h.occupied e he)).2
  refine ⟨⟨(List.length_filterMap_le _ _).trans h.capacity, ?_, fun x hm => .inl (hx x hm).1⟩, fun x hm => (hx x hm).2⟩
  have hids : (es.filterMap OverrideEntry.comeIntoForce).Pairwise fun a b => a.id ≠ b.id := by
    rw [List.pairwise_filterMap]
    have hp : es.Pairwise fun a b => a.id ≠ b.id := List.pairwise_map.1 h.ids
    refine (List.Pairwise.and_mem.1 hp).imp fun ⟨ha, hb, hab⟩ x hxa y hyb => ?_
    rw [(comeIntoForce_some hxa (h.occupied _ ha)).1, (comeIntoForce_some hyb (h.occupied _ hb)).1]
    exact hab
  exact List.pairwise_map.2 hids

/-- A table whose entries change under their own IDs, none of them becoming free. -/
theorem OverrideTableOk.map {es : List OverrideEntry} (h : OverrideTableOk es) {f : OverrideEntry → OverrideEntry}
    (hid : ∀ e, (f e).id = e.id) (ho : ∀ e ∈ es, (f e).inForce.isSome = true ∨ (f e).change.isSome = true) :
    OverrideTableOk (es.map f) := by
  refine ⟨by simpa using h.capacity, by simpa [Function.comp_def, hid] using h.ids, fun x hx => ?_⟩
  obtain ⟨e, he, rfl⟩ := List.mem_map.1 hx
  exact ho e he

/-- An entry that SET_OVERRIDE writes is its ID's, and occupied (R137). -/
theorem OverrideEntry.put_occupied (e : OverrideEntry) (sync : Bool) (o : Override) :
    (e.put sync o).id = e.id ∧ ((e.put sync o).inForce.isSome = true ∨ (e.put sync o).change.isSome = true) := by
  cases sync
  · exact ⟨rfl, .inl rfl⟩
  · exact ⟨rfl, .inr rfl⟩

/-- SET_OVERRIDE keeps the table in order where its ID has an entry or one is free (R137). -/
theorem putOverride_ok {es : List OverrideEntry} {id : Nat} (h : OverrideTableOk es)
    (hroom : es.any (fun e => e.id == id) = true ∨ es.length < overrideEntries) (sync : Bool) (o : Override) :
    OverrideTableOk (putOverride id sync o es) := by
  unfold putOverride
  split
  · refine h.map (fun e => ?_) fun e he => ?_
    · split
      · exact (e.put_occupied sync o).1
      · rfl
    · split
      · exact (e.put_occupied sync o).2
      · exact h.occupied e he
  · next hn =>
    have hnew := OverrideEntry.put_occupied { id := id, inForce := none, change := none } sync o
    refine ⟨?_, ?_, fun x hx => ?_⟩
    · have := hroom.resolve_left hn
      simp only [List.length_append, List.length_singleton]; omega
    · rw [List.map_append, List.nodup_append]
      refine ⟨h.ids, by simp, fun a ha b hb => ?_⟩
      simp only [List.map_cons, List.map_nil, List.mem_singleton, hnew.1] at hb
      obtain ⟨e, he, rfl⟩ := List.mem_map.1 ha
      rw [hb]
      intro heq
      exact hn (List.any_eq_true.2 ⟨e, he, by simpa using heq⟩)
    · rcases List.mem_append.1 hx with hx | hx
      · exact h.occupied x hx
      · rw [List.mem_singleton.1 hx]; exact hnew.2

/-- CLEAR_OVERRIDE keeps the table in order (R138). -/
theorem dropOverride_ok {es : List OverrideEntry} (h : OverrideTableOk es) (id : Nat) (sync : Bool) :
    OverrideTableOk (dropOverride id sync es) := by
  unfold dropOverride
  split
  · refine h.map (fun e => ?_) fun e he => ?_
    · split <;> rfl
    · split
      · exact .inr rfl
      · exact h.occupied e he
  · exact ⟨(List.length_filter_le _ _).trans h.capacity, h.ids.sublist ((List.filter_sublist).map _),
      fun e he => h.occupied e (List.mem_filter.1 he).1⟩

end Sys2Proof.Machine
end

