-- ==== Sys2Proof/Proofs/KeptTables.lean ====
section
/-! SUPPORT. Which operations carry the order of the tables and of the override table from one state to the next, and leave the Profile
Store: the shared operations of the ring, the streams, admission and placement. -/

namespace Sys2Proof.Machine

/-! ### What is carried -/

/-- The tables and the override table are in order. -/
structure State.Kept (s : State) : Prop where
  tables : s.TablesOk
  overrides : s.OverridesOk

/-- A passage from a state to another keeps the tables in order, and leaves the Profile Store. -/
structure State.Carries (s t : State) : Prop where
  kept : s.Kept → t.Kept
  store : t.store = s.store

theorem State.Carries.refl (s : State) : s.Carries s := ⟨id, rfl⟩

theorem State.Carries.trans {s t u : State} (h : s.Carries t) (h' : t.Carries u) : s.Carries u :=
  ⟨fun hk => h'.kept (h.kept hk), h'.store.trans h.store⟩

/-- A branch that carries on both its ways. -/
theorem State.Carries.ite {s t u : State} {c : Prop} [Decidable c] (ht : c → s.Carries t) (hu : ¬ c → s.Carries u) :
    s.Carries (if c then t else u) := by
  split
  · next h => exact ht h
  · next h => exact hu h

/-- A change of stream entries that keeps index, configuration and order of each, and leaves the other tables. -/
theorem State.Kept.of_entries {s t : State} {g : StreamEntry → StreamEntry} (h : s.Kept)
    (he : ∀ e ∈ s.table.streams, e.Keeps (g e)) (hs : t.table.streams = s.table.streams.map g)
    (hr : t.table.ranges = s.table.ranges) (hp : t.table.params = s.table.params) (hg : t.ctl.staged = s.ctl.staged)
    (hc : t.ctl.commit ≠ .none → s.ctl.commit ≠ .none) (ho : t.comp.overrides = s.comp.overrides)
    (hn : t.ring.recs = [] → s.ring.recs = []) : t.Kept := by
  have hcfg : t.table.streams.map (fun e => (e.idx, e.cfg)) = s.table.streams.map fun e => (e.idx, e.cfg) := by
    rw [hs, List.map_map]
    exact List.map_congr_left fun e hm => Prod.ext (he e hm).idx (he e hm).cfg
  obtain ⟨⟨active, entries, ranges, params, region, staged, stagedRanges, stagedParams, stagedRegion⟩, overrides⟩ := h
  refine ⟨⟨hcfg ▸ active, fun x hx => ?_, hr ▸ ranges, hp ▸ params, hp ▸ region, hg ▸ staged, hg ▸ stagedRanges, hg ▸ stagedParams,
    fun hcm => hg ▸ stagedRegion (hc hcm)⟩, ?_⟩
  · obtain ⟨e, hm, rfl⟩ := List.mem_map.1 (hs ▸ hx)
    exact (he e hm).ok (entries e hm)
  · rw [State.overridesOk_iff, ho]
    rw [State.overridesOk_iff] at overrides
    exact ⟨overrides.1, fun hnil => overrides.2 (hn hnil)⟩

/-- A change of anything but the tables, the commit state and the override table, with the ring as empty as before. -/
theorem State.Kept.of_same {s t : State} (h : s.Kept) (ht : t.table = s.table) (hg : t.ctl.staged = s.ctl.staged)
    (hc : t.ctl.commit = s.ctl.commit) (ho : t.comp.overrides = s.comp.overrides) (hn : t.ring.recs = [] → s.ring.recs = []) : t.Kept :=
  h.of_entries (g := id) (fun _ _ => ⟨rfl, rfl, id⟩) (by rw [ht, List.map_id]) (by rw [ht]) (by rw [ht]) hg (hc ▸ id) ho hn

theorem State.Carries.of_same {s t : State} (ht : t.table = s.table) (hg : t.ctl.staged = s.ctl.staged)
    (hc : t.ctl.commit = s.ctl.commit) (ho : t.comp.overrides = s.comp.overrides) (hn : t.ring.recs = [] → s.ring.recs = [])
    (hs : t.store = s.store) : s.Carries t := ⟨fun h => h.of_same ht hg hc ho hn, hs⟩

/-! ### Reports, queues, the STROBE line -/

theorem report_carries (c : Ctr) (s : State) : s.Carries (report c s) := .of_same (by simp) (by simp) (by simp) (by simp) (by simp) (by simp)

theorem recordLatency_carries (w : Nat) (l : Option Nat) (s : State) : s.Carries (recordLatency w l s) :=
  .of_same (by simp) (by simp) (by simp) (by simp) (by simp) (by simp)

theorem grant_carries (s : State) : s.Carries (grant s) := .of_same (by simp) (by simp) (by simp) (by simp) (by simp) (by simp)

theorem reply_carries (re : ReplyTo) (st : Status) (bs : List Byte) (s : State) : s.Carries (reply re st bs s) :=
  .of_same (by simp) (by simp) (by simp) (by simp) (by simp) (by simp)

theorem straggler_carries (r since : Nat) (o : Offer) (b : List Byte) (s : State) : s.Carries (straggler r since o b s) :=
  .of_same (by simp) (by simp) (by simp) (by simp) (by simp) (by simp)

/-! ### Sealing and re-evaluation -/

theorem sealWhere_carries (c : SealCause) (p : EpochRec → Bool) (s : State) : s.Carries (sealWhere c p s) :=
  .of_same (by simp) (by simp) (by simp) (by simp) (by simp [sealWhere_recs]) (by simp)

theorem recountAll_carries (s : State) : s.Carries (recountAll s) :=
  .of_same (by simp) (by simp) (by simp) (by simp) (by simp [recountAll, sealWhere_recs]) (by simp)

/-! ### The application of a commit (R181) -/

/-- A commit of a staged region below 31 leaves the tables in order: the staged set becomes the active one (R51, R158, R179). -/
theorem applyCommit_kept {s : State} (h : s.Kept) (hr : s.ctl.staged.params.region ≤ 30) : (applyCommit s).Kept := by
  obtain ⟨ht, ho⟩ := h
  refine ⟨⟨?_, fun x hx => ?_, ?_, ?_, ?_, ?_, ?_, ?_, by simp⟩, ?_⟩
  · rw [applyCommit_entries]; exact ht.staged
  · rw [applyCommit_streams] at hx
    obtain ⟨p, -, rfl⟩ := List.mem_map.1 hx
    exact (StreamEntry.regrid_keeps _ _ _).ok (committedEntry_ok ht.entries p)
  · simpa using ht.stagedRanges
  · simpa using ht.stagedParams
  · simpa using hr
  · simpa using ht.staged
  · simpa using ht.stagedRanges
  · simpa using ht.stagedParams
  · rw [State.overridesOk_iff] at ho ⊢
    have hlen := applyCommit_recs_length s
    simpa [← List.length_eq_zero_iff, hlen] using ho

/-- The commit that waits keeps the tables in order (R178). -/
theorem applyCommit_carries {s : State} (hc : s.ctl.commit ≠ .none) : s.Carries (applyCommit s) :=
  ⟨fun h => applyCommit_kept h (h.tables.stagedRegion hc), by simp⟩

/-! ### Departure and the empty ring (R98, R100, R101) -/

theorem endStepDrain_carries (s : State) : s.Carries (endStepDrain s) :=
  ⟨fun h => h.of_entries (g := fun e => { e with lastEpoch := none }) (fun _ _ => .of_same rfl rfl rfl rfl rfl rfl rfl rfl)
    rfl rfl rfl rfl id rfl id, rfl⟩

theorem whenEmpty_carries (s : State) : s.Carries (whenEmpty s) := by
  have ended (u : State) : u.Carries { u with ring := { u.ring with commitDrain := false } } := .of_same rfl rfl rfl rfl id rfl
  have commits (u : State) : u.Carries (if u.ctl.commit = .pendingDrain then applyCommit u else u) :=
    .ite (fun h => applyCommit_carries (by simp [h])) fun _ => .refl u
  unfold whenEmpty
  refine .ite (fun _ => ?_) fun _ => .refl s
  refine State.Carries.trans ?_ ((ended _).trans (commits _))
  exact .ite (fun _ => endStepDrain_carries s) fun _ => .refl s

theorem commitAtBoundary_carries (s : State) : s.Carries (commitAtBoundary s) :=
  .ite (fun h => applyCommit_carries (by simp [h])) fun _ => .refl s

theorem strobeFrom_carries (src : StrobeSource) (s : State) : s.Carries (strobeFrom src s) :=
  .of_same (by simp) (by simp) (by simp) (by simp) (by simp) (by simp)

/-- Pending override changes that take effect leave the override table in order whatever the ring holds (R139). -/
theorem overridesIntoForce_kept {s : State} (ht : s.TablesOk) (ho : OverrideTableOk s.comp.overrides) : (overridesIntoForce s).Kept := by
  obtain ⟨hok, hnone⟩ := ho.intoForce
  exact ⟨⟨ht.active, ht.entries, ht.ranges, ht.params, ht.region, ht.staged, ht.stagedRanges, ht.stagedParams, ht.stagedRegion⟩,
    State.overridesOk_iff.2 ⟨hok, fun _ => hnone⟩⟩

/-- Records may leave the ring when pending changes take effect in the same event (R98, R102, R139). -/
theorem overridesIntoForce_carries {s t : State} (ht : t.table = s.table) (hg : t.ctl = s.ctl)
    (ho : t.comp.overrides = s.comp.overrides) (hs : t.store = s.store) : s.Carries (overridesIntoForce t) := by
  refine ⟨fun ⟨h, h'⟩ => overridesIntoForce_kept ?_ (ho ▸ (State.overridesOk_iff.1 h').1), hs⟩
  obtain ⟨active, entries, ranges, params, region, staged, stagedRanges, stagedParams, stagedRegion⟩ := h
  exact ⟨ht ▸ active, ht ▸ entries, ht ▸ ranges, ht ▸ params, ht ▸ region, hg ▸ staged, hg ▸ stagedRanges, hg ▸ stagedParams,
    hg ▸ stagedRegion⟩

theorem depart_carries (emitted : Bool) (s : State) : s.Carries (depart emitted s) := by
  unfold depart
  split
  · exact .refl s
  · exact (overridesIntoForce_carries (by simp) (by simp) (by simp) (by simp)).trans
      ((strobeFrom_carries _ _).trans ((commitAtBoundary_carries _).trans (whenEmpty_carries _)))

theorem settleBy_carries (n : Nat) (s : State) : s.Carries (settleBy n s) := by
  induction n generalizing s with
  | zero => exact .refl s
  | succ n ih => exact .ite (fun _ => (depart_carries false s).trans (ih _)) fun _ => .refl s

theorem settle_carries (s : State) : s.Carries (settle s) := settleBy_carries _ s

theorem reevaluate_carries (s : State) : s.Carries (reevaluate s) := (recountAll_carries s).trans (settle_carries _)

theorem flushStep_carries (s : State) : s.Carries (flushStep s) := by
  refine (sealWhere_carries .step (fun _ => true) s).trans (State.Carries.trans ?_ ((settle_carries _).trans (whenEmpty_carries _)))
  exact .of_same rfl rfl rfl rfl id rfl

theorem flushCommit_carries (s : State) : s.Carries (flushCommit s) := by
  refine (sealWhere_carries .flush (fun _ => true) s).trans (State.Carries.trans ?_ ((settle_carries _).trans (whenEmpty_carries _)))
  exact .of_same rfl rfl rfl rfl id rfl

/-! ### Streams (R37 to R44) -/

/-- A change of the entry of one ID that keeps it in order; the state may be read for what the entry is. -/
theorem mapStream_carries {s : State} {id : Nat} {f : StreamEntry → StreamEntry}
    (hf : s.Kept → ∀ e ∈ s.table.streams, e.cfg.id = id → e.Keeps (f e)) : s.Carries (s.mapStream id f) := by
  refine ⟨fun h => h.of_entries (g := fun e => if e.cfg.id == id then f e else e) (fun e he => ?_) rfl rfl rfl rfl (fun c => c) rfl
    (fun c => c), rfl⟩
  split
  · next hid => exact hf h e he (by simpa using hid)
  · exact ⟨rfl, rfl, fun h => h⟩

theorem changeStream_carries {id : Nat} {f : StreamEntry → StreamEntry} (hf : ∀ e, StreamEntry.Keeps e (f e)) (s : State) :
    s.Carries (changeStream id f s) := by
  unfold changeStream reportPassage
  split
  · exact .refl s
  · have hm : s.Carries (s.mapStream id f) := mapStream_carries fun _ e _ _ => hf e
    exact .ite (fun _ => hm.trans (reevaluate_carries _)) fun _ => hm

theorem lifeFrame_carries (id : Nat) (s : State) : s.Carries (lifeFrame id s) :=
  changeStream_carries (StreamEntry.lifeFrame_keeps _) s

theorem timeReport_carries (id : Nat) (bad : Bool) (s : State) : s.Carries (timeReport id bad s) :=
  changeStream_carries (StreamEntry.timeReport_keeps bad) s

theorem finishIsolating_carries (id : Nat) (s : State) : s.Carries (finishIsolating id s) := by
  unfold finishIsolating
  split
  · exact .refl s
  · exact .ite (fun _ => changeStream_carries StreamEntry.isolate_keeps s) fun _ => .refl s

/-- A change of counters or of `last_epoch` at the entry of one ID. -/
theorem mapStream_carries_of_same {id : Nat} {f : StreamEntry → StreamEntry}
    (hf : ∀ e, ∃ c l, f e = { e with counts := c, lastEpoch := l }) (s : State) : s.Carries (s.mapStream id f) :=
  mapStream_carries fun _ e _ _ => by
    obtain ⟨c, l, h⟩ := hf e
    rw [h]
    exact .of_same rfl rfl rfl rfl rfl rfl rfl rfl

/-! ### Placement (R79, R27 to R29) -/

/-- A record put into the ring leaves it with one. -/
theorem putRecord_ne_nil (e : EpochRec) (r : Ring) : putRecord e r ≠ [] := by
  unfold putRecord
  split
  · next h =>
    obtain ⟨x, hx⟩ := Option.isSome_iff_exists.1 h
    exact fun hn => List.ne_nil_of_mem (List.mem_of_find?_eq_some hx) (List.map_eq_nil_iff.1 hn)
  · cases r.recs with
    | nil => simp [insertRecord]
    | cons d ds => simp only [insertRecord]; split <;> simp

theorem accept_carries (s : State) (o : Offer) : s.Carries (accept s o) := by
  have put : s.Carries { s with ring := { s.ring with recs := putRecord (takenRecord s o) s.ring } } :=
    .of_same rfl rfl rfl rfl (fun h => absurd h (putRecord_ne_nil _ _)) rfl
  have raised := put.trans (mapStream_carries_of_same (id := o.id)
    (f := fun x => { x with lastEpoch := some (max (x.lastEpoch.getD 0) o.ordinal) }) (fun e => ⟨_, _, rfl⟩) _)
  unfold accept
  dsimp only
  split
  · exact raised.trans (report_carries _ _)
  · exact raised

theorem ringEffect_carries (a : Answer) (o : Offer) (s : State) : s.Carries (ringEffect a o s) := by
  unfold ringEffect
  split
  · exact accept_carries s o
  · exact sealWhere_carries _ _ s
  · exact .of_same rfl rfl rfl rfl id rfl
  · exact .refl s

theorem countAnswer_carries (a : Answer) (o : Offer) (s : State) : s.Carries (countAnswer a o s) := by
  have counted := mapStream_carries_of_same (id := o.id) (f := fun x => { x with counts := a.countIn x.counts }) (fun e => ⟨_, _, rfl⟩) s
  unfold countAnswer
  dsimp only
  split
  · exact counted.trans (report_carries _ _)
  · split
    · exact counted.trans (recordLatency_carries _ _ _)
    · exact counted

theorem handOff_carries (a : Answer) (o : Offer) (s : State) : s.Carries (handOff a o s) := by
  unfold handOff
  split
  · exact straggler_carries _ _ _ _ s
  · exact straggler_carries _ _ _ _ s
  · exact .refl s

theorem reportTime_carries (a : Answer) (o : Offer) (s : State) : s.Carries (reportTime a o s) :=
  .ite (fun _ => timeReport_carries _ _ s) fun _ => .refl s

theorem placeHeld_carries (o : Offer) (s : State) : s.Carries (placeHeld o s) :=
  (ringEffect_carries _ _ s).trans ((countAnswer_carries _ _ _).trans ((handOff_carries _ _ _).trans ((settle_carries _).trans
    ((finishIsolating_carries _ _).trans (reportTime_carries _ _ _)))))

theorem placeNext_carries (p : Port) (s : State) : s.Carries (placeNext p s) := by
  unfold placeNext
  split
  · exact .refl s
  · refine State.Carries.trans (t := { s with adm := { s.adm with offers := s.adm.offers.eraseP fun x => x.port == p } })
      (.of_same rfl rfl rfl rfl id rfl) ?_
    exact .ite (fun _ => report_carries _ _) fun _ => placeHeld_carries _ _

theorem placeAll_carries (p : Port) (n : Nat) (s : State) : s.Carries (placeAll p n s) := by
  induction n generalizing s with
  | zero => exact .refl s
  | succ n ih => exact .ite (fun _ => (placeNext_carries p s).trans (ih _)) fun _ => .refl s

/-! ### Admission (R18 to R26, R160 to R163, R171, R172) -/

theorem refusedReport_carries (m : Measurement) (c : StreamCfg) (s : State) : s.Carries (refusedReport m c s) :=
  .ite (fun _ => timeReport_carries _ _ s) fun _ => .refl s

theorem snapAndBuild_carries (m : Measurement) (a : ActiveSet) (c : StreamCfg) (s : State) : s.Carries (snapAndBuild m a c s) := by
  unfold snapAndBuild
  split
  · exact (report_carries _ s).trans (refusedReport_carries _ _ _)
  · exact (mapStream_carries_of_same (fun e => ⟨_, _, rfl⟩) s).trans ((report_carries _ _).trans (refusedReport_carries _ _ _))
  · exact .of_same rfl rfl rfl rfl id rfl

theorem admitOne_carries (m : Measurement) (s : State) : s.Carries (admitOne m s) := by
  unfold admitOne
  split
  · exact report_carries _ s
  · refine .ite (fun _ => report_carries _ s) fun _ => .ite (fun _ => ?_) fun _ => ?_
    · exact (mapStream_carries_of_same (fun e => ⟨_, _, rfl⟩) s).trans (report_carries _ _)
    · exact State.Carries.trans (.ite (fun _ => lifeFrame_carries _ s) fun _ => .refl s) (snapAndBuild_carries _ _ _ _)

theorem ingestRecord_carries (f : IngestFrame) (r : WireRecord) (s : State) : s.Carries (ingestRecord f r s) :=
  .ite (fun _ => .refl s) fun _ => .ite (fun _ => report_carries _ s) fun _ => admitOne_carries _ s

theorem ingestNext_carries (s : State) : s.Carries (ingestNext s) := by
  have left (u : State) (fs : List IngestFrame) : u.Carries { u with adm := { u.adm with ingest := fs } } :=
    .of_same rfl rfl rfl rfl id rfl
  unfold ingestNext
  split
  · exact .refl s
  · next f fs _ =>
    refine (placeAll_carries f.port s.adm.offers.length s).trans ?_
    dsimp only
    split
    · exact left _ _
    · exact (left _ _).trans (ingestRecord_carries _ _ _)
    · exact (left _ _).trans (ingestRecord_carries _ _ _)

theorem catchUp_carries (p : Port) (s : State) : s.Carries (catchUp p s) := by
  have by_ (n : Nat) (u : State) : u.Carries (catchUpBy p n u) := by
    induction n generalizing u with
    | zero => exact .refl u
    | succ n ih =>
      refine .ite (fun _ => State.Carries.trans ?_ (ih _)) fun _ => .refl u
      exact .ite (fun _ => placeNext_carries p u) fun _ => ingestNext_carries u
  exact by_ _ s

theorem acceptControl_carries (origin : Nat) (body : List Byte) (s : State) : s.Carries (acceptControl origin body s) :=
  .ite (fun _ => report_carries _ s) fun _ => .ite (fun _ => .of_same rfl rfl rfl rfl id rfl) fun _ => report_carries _ s

theorem acceptAset_carries (p : Port) (arrival origin : Nat) (h : SetHeader) (rs : List WireRecord) (s : State) :
    s.Carries (acceptAset p arrival origin h rs s) :=
  .ite (fun _ => report_carries _ s) fun _ => .ite (fun _ => .refl s) fun _ => .of_same rfl rfl rfl rfl id rfl

theorem dispatch_carries (p : Port) (arrival : Nat) (payload : List Byte) (s : State) : s.Carries (dispatch p arrival payload s) := by
  unfold dispatch
  refine .ite (fun _ => ?_) fun _ => .ite (fun _ => ?_) fun _ => .ite (fun _ => ?_) fun _ => report_carries _ s
  · split
    · exact report_carries _ s
    · exact admitOne_carries _ s
  · split
    · exact report_carries _ s
    · exact acceptAset_carries _ _ _ _ _ s
  · exact .ite (fun _ => report_carries _ s) fun _ => acceptControl_carries _ _ s

theorem frameIn_carries (p : Port) (payload : List Byte) (s : State) : s.Carries (frameIn p payload s) := by
  unfold frameIn
  dsimp only
  split
  · exact (report_carries _ s).trans (report_carries _ _)
  · exact (report_carries _ s).trans (report_carries _ _)
  · exact (report_carries _ s).trans ((catchUp_carries p _).trans (dispatch_carries _ _ _ _))

end Sys2Proof.Machine
end

