-- ==== Sys2Proof/Proofs/KeptRows.lean ====
section
/-! SUPPORT. Which rows carry the order of the tables and of the override table: the commands of the Control Unit, the events of the
Time Reference Unit and of the output side. -/

namespace Sys2Proof.Machine

/-! ### Commands (R173) -/

theorem whileOperating_carries {s t : State} (h : s.operating = true → s.Carries t) : s.Carries (whileOperating s t) :=
  .ite h fun _ => .refl s

theorem popped_carries (q : List CtrlFrame) (s : State) : s.Carries (s.popped q) := .of_same rfl rfl rfl rfl id rfl

/-- A command that carries from any state carries as a row. -/
theorem execute_carries {act : CtrlFrame → State → State} (h : ∀ f u, State.Carries u (act f u)) (code : Nat) (s : State) :
    s.Carries (execute code act s) := by
  refine whileOperating_carries fun _ => ?_
  unfold executeIf
  split
  · exact .refl s
  · exact .ite (fun _ => (popped_carries _ s).trans (h _ _)) fun _ => .refl s

theorem checked_carries {f : CtrlFrame} {l e : Bool} {act : State → State} {s : State} (h : s.Carries (act s)) :
    s.Carries (checked f l e act s) :=
  .ite (fun _ => reply_carries _ _ _ s) fun _ => .ite (fun _ => reply_carries _ _ _ s) fun _ => h

theorem whenNoCommit_carries {f : CtrlFrame} {act : State → State} {s : State} (h : s.ctl.commit = .none → s.Carries (act s)) :
    s.Carries (whenNoCommit f act s) :=
  .ite h fun _ => reply_carries _ _ _ s

/-! ### Staging (R175 to R177) -/

/-- Another staged set in order, while no commit waits (R175 to R178). -/
theorem stage_carries {s : State} {g : StagedSet} (hc : s.ctl.commit = .none)
    (hg : s.TablesOk → entriesOk g.streams ∧ rangesOk g.ranges ∧ g.params.inRange = true) : s.Carries (s.stage g) := by
  refine ⟨fun ⟨ht, ho⟩ => ?_, rfl⟩
  obtain ⟨he, hr, hp⟩ := hg ht
  exact ⟨⟨ht.active, ht.entries, ht.ranges, ht.params, ht.region, he, hr, hp, fun h => absurd hc h⟩,
    ⟨ho.capacity, ho.ids, ho.occupied, ho.emptyRing⟩⟩

/-- A staging command that writes such a set replies in the same event. -/
theorem stageReply_carries {s : State} {g : StagedSet} {re : ReplyTo} {st : Status} {bs : List Byte} (hc : s.ctl.commit = .none)
    (hg : s.TablesOk → entriesOk g.streams ∧ rangesOk g.ranges ∧ g.params.inRange = true) :
    s.Carries (reply re st bs (s.stage g)) := (stage_carries hc hg).trans (reply_carries _ _ _ _)

theorem stageStreamAct_carries (f : CtrlFrame) (s : State) : s.Carries (stageStreamAct f s) := by
  refine checked_carries (whenNoCommit_carries fun hc => .ite (fun hr => ?_) fun _ => reply_carries _ _ _ s)
  split
  · next i hi =>
    exact stageReply_carries hc fun ht => ⟨writeEntry_ok ht.staged hr hi, ht.stagedRanges, ht.stagedParams⟩
  · exact reply_carries _ _ _ s

theorem unstageStreamAct_carries (f : CtrlFrame) (s : State) : s.Carries (unstageStreamAct f s) := by
  refine checked_carries (whenNoCommit_carries fun hc => ?_)
  split
  · exact stageReply_carries hc fun ht => ⟨ht.staged.sublist List.filter_sublist, ht.stagedRanges, ht.stagedParams⟩
  · exact reply_carries _ _ _ s

theorem stageRangeAct_carries (f : CtrlFrame) (s : State) : s.Carries (stageRangeAct f s) := by
  refine checked_carries (whenNoCommit_carries fun hc => ?_)
  dsimp only
  split
  · next h =>
    refine .ite (fun ha => ?_) fun _ => reply_carries _ _ _ s
    exact stageReply_carries hc fun ht => ⟨ht.staged, rangesOk_set ht.stagedRanges h.1 h.2 ha, ht.stagedParams⟩
  · exact reply_carries _ _ _ s

theorem stageParamsAct_carries (f : CtrlFrame) (s : State) : s.Carries (stageParamsAct f s) := by
  unfold stageParamsAct
  split
  · exact checked_carries (.refl s)
  · refine checked_carries (whenNoCommit_carries fun hc => .ite (fun hp => ?_) fun _ => reply_carries _ _ _ s)
    exact stageReply_carries hc fun ht => ⟨ht.staged, ht.stagedRanges, hp⟩

theorem discardStageAct_carries (f : CtrlFrame) (s : State) : s.Carries (discardStageAct f s) :=
  checked_carries (whenNoCommit_carries fun hc =>
    stageReply_carries hc fun ht => ⟨ht.active, ht.ranges, ht.params⟩)

/-! ### COMMIT (R179) -/

/-- A staged region other than 31, within R177's range, is at most 30 (R158, R179). -/
theorem stagedRegion_le {s : State} (h : s.TablesOk) (hr : s.ctl.staged.params.region ≠ 31) : s.ctl.staged.params.region ≤ 30 := by
  have := (Params.inRange_iff.1 h.stagedParams).2.2.2.2.1
  omega

/-- The Control Unit holds another commit state, its region checked. -/
theorem setCommit_carries {s : State} (hr : s.ctl.staged.params.region ≠ 31) (c : CommitState) (re : Option ReplyTo) :
    s.Carries { s with ctl := { s.ctl with commit := c, commitFor := re } } :=
  ⟨fun ⟨ht, ho⟩ => ⟨⟨ht.active, ht.entries, ht.ranges, ht.params, ht.region, ht.staged, ht.stagedRanges, ht.stagedParams,
    fun _ => stagedRegion_le (s := s) ht hr⟩, ⟨ho.capacity, ho.ids, ho.occupied, ho.emptyRing⟩⟩, rfl⟩

theorem placeCommit_carries {s : State} (hr : s.ctl.staged.params.region ≠ 31) (re : ReplyTo) : s.Carries (placeCommit re s) := by
  refine .ite (fun _ => ?_) fun _ => .ite (fun _ => ?_) fun _ => setCommit_carries hr _ _
  · exact ⟨fun h => applyCommit_kept ((setCommit_carries hr s.ctl.commit (some re)).kept h) (stagedRegion_le (s := s) h.tables hr), by simp⟩
  · exact (setCommit_carries hr .pendingDrain (some re)).trans (flushCommit_carries _)

theorem commitAct_carries (f : CtrlFrame) (s : State) : s.Carries (commitAct f s) :=
  checked_carries (.ite (fun _ => reply_carries _ _ _ s) fun _ => .ite (fun _ => reply_carries _ _ _ s) fun hr =>
    placeCommit_carries hr _)

/-! ### Short commands on the running part (R39, R40, R133, R137, R138, R143) -/

theorem isolateStream_carries (id : Nat) (s : State) : s.Carries (isolateStream id s) := by
  unfold isolateStream
  split
  · exact .refl s
  · next e he =>
    refine .ite (fun _ => .refl s) fun hs => .ite (fun _ => ?_) fun _ => changeStream_carries StreamEntry.isolate_keeps s
    refine mapStream_carries fun h x hx hid => ?_
    have hn : (s.table.streams.map fun y => y.cfg.id).Nodup := by simpa [Function.comp_def] using h.tables.active.ids
    exact StreamEntry.isolating_keeps (stream_unique hn he hx hid ▸ hs)

theorem isolateAct_carries (f : CtrlFrame) (s : State) : s.Carries (isolateAct f s) :=
  checked_carries (.ite (fun _ => (isolateStream_carries _ s).trans (reply_carries _ _ _ _)) fun _ => reply_carries _ _ _ s)

theorem restoreAct_carries (f : CtrlFrame) (s : State) : s.Carries (restoreAct f s) :=
  checked_carries (.ite (fun _ => (changeStream_carries (StreamEntry.restore_keeps _) s).trans (reply_carries _ _ _ _))
    fun _ => reply_carries _ _ _ s)

/-- Another override table in order; with an empty ring its pending changes take effect at once (R139). -/
theorem setOverrides_carries {s : State} {es : List OverrideEntry} (h : OverrideTableOk s.comp.overrides → OverrideTableOk es) :
    s.Carries (setOverrides es s) := by
  have tables (ht : s.TablesOk) : State.TablesOk { s with comp := { s.comp with overrides := es } } :=
    ⟨ht.active, ht.entries, ht.ranges, ht.params, ht.region, ht.staged, ht.stagedRanges, ht.stagedParams, ht.stagedRegion⟩
  refine .ite (fun _ => ⟨fun ⟨ht, ho⟩ => ?_, rfl⟩) fun hn => ⟨fun ⟨ht, ho⟩ => ?_, rfl⟩
  · exact overridesIntoForce_kept (tables ht) (h (State.overridesOk_iff.1 ho).1)
  · exact ⟨tables ht, State.overridesOk_iff.2 ⟨h (State.overridesOk_iff.1 ho).1, fun hnil => absurd (List.isEmpty_iff.2 hnil) hn⟩⟩

/-- An accepted SET_OVERRIDE finds its ID's entry or a free one (R137). -/
theorem overrideRefusal_none {s : State} {id : Nat} {o : Override} (h : overrideRefusal s id o = none) :
    s.comp.overrides.any (fun e => e.id == id) = true ∨ s.comp.overrides.length < overrideEntries := by
  unfold overrideRefusal at h
  split_ifs at h with _ _ _ hroom
  by_cases ha : s.comp.overrides.any (fun e => e.id == id) = true
  · exact .inl ha
  · exact .inr (Nat.lt_of_not_le fun hle => hroom ⟨by simpa using ha, hle⟩)

theorem setOverrideAct_carries (f : CtrlFrame) (s : State) : s.Carries (setOverrideAct f s) := by
  unfold setOverrideAct
  dsimp only
  split
  · exact checked_carries (.refl s)
  · refine checked_carries ?_
    split
    · exact reply_carries _ _ _ s
    · next h =>
      exact (setOverrides_carries fun ho => putOverride_ok ho (overrideRefusal_none h) _ _).trans (reply_carries _ _ _ _)

theorem clearOverrideAct_carries (f : CtrlFrame) (s : State) : s.Carries (clearOverrideAct f s) :=
  checked_carries (.ite (fun _ => (setOverrides_carries fun ho => dropOverride_ok ho _ _).trans (reply_carries _ _ _ _))
    fun _ => reply_carries _ _ _ s)

theorem setEmissionAct_carries (f : CtrlFrame) (s : State) : s.Carries (setEmissionAct f s) := by
  have moded (m : EmissionMode) : s.Carries { s with comp := { s.comp with mode := m } } := .of_same rfl rfl rfl rfl id rfl
  unfold setEmissionAct
  split
  · exact checked_carries (.refl s)
  · exact checked_carries ((moded _).trans ((settle_carries _).trans (reply_carries _ _ _ _)))

theorem clearQuiesceAct_carries (f : CtrlFrame) (s : State) : s.Carries (clearQuiesceAct f s) := by
  have cleared : s.Carries { s with comp := { s.comp with seen := false, quiesced := false } } := .of_same rfl rfl rfl rfl id rfl
  exact checked_carries (.ite (fun _ => reply_carries _ _ _ s) fun _ => cleared.trans ((settle_carries _).trans (reply_carries _ _ _ _)))

/-! ### Reads and the Monitor's commands (R185 to R187) -/

theorem readStatusAct_carries (f : CtrlFrame) (s : State) : s.Carries (readStatusAct f s) := checked_carries (reply_carries _ _ _ s)

theorem readRangesAct_carries (f : CtrlFrame) (s : State) : s.Carries (readRangesAct f s) := checked_carries (reply_carries _ _ _ s)

theorem readStreamAct_carries (f : CtrlFrame) (s : State) : s.Carries (readStreamAct f s) := by
  refine checked_carries ?_
  split
  · exact reply_carries _ _ _ s
  · refine State.Carries.trans (.ite (fun _ => ?_) fun _ => .refl s) (reply_carries _ _ _ _)
    exact mapStream_carries_of_same (fun e => ⟨_, _, rfl⟩) s

theorem readOverridesAct_carries (f : CtrlFrame) (s : State) : s.Carries (readOverridesAct f s) := by
  have drawn : s.Carries { s with free := s.free + s.comp.overrides.length } := .of_same rfl rfl rfl rfl id rfl
  exact checked_carries (drawn.trans (reply_carries _ _ _ _))

/-- A command that changes the Monitor alone and replies. -/
theorem setMonitor_carries (m : Monitor) (re : ReplyTo) (st : Status) (bs : List Byte) (s : State) :
    s.Carries (reply re st bs { s with mon := m }) :=
  State.Carries.trans (t := { s with mon := m }) (.of_same rfl rfl rfl rfl id rfl) (reply_carries _ _ _ _)

theorem snapshotAct_carries (f : CtrlFrame) (s : State) : s.Carries (snapshotAct f s) := checked_carries (setMonitor_carries _ _ _ _ s)

theorem setCondition_carries (hold : Bool) (f : CtrlFrame) (s : State) : s.Carries (setCondition hold f s) :=
  checked_carries (setMonitor_carries _ _ _ _ s)

/-! ### RESTART (R188) -/

theorem restartCommit_carries (s : State) : s.Carries (restartCommit s) :=
  .ite (fun h => (applyCommit_carries (by simp [h])).trans (settle_carries _)) fun _ => .refl s

theorem restartRing_carries (s : State) : s.Carries (restartRing s) :=
  (overridesIntoForce_carries (by simp) (by simp) (by simp) (by simp)).trans (whenEmpty_carries _)

/-- RESTART's streams, with the staged set their copy, whose region is the active one's (R35, R188). -/
theorem restartStreams_carries (s : State) : s.Carries (restartStreams s) := by
  have streams : s.Carries { s with table := { s.table with streams := s.table.streams.map (StreamEntry.restart s.tick) } } :=
    ⟨fun h => h.of_entries (fun e _ => e.restart_keeps s.tick) rfl rfl rfl rfl id rfl id, rfl⟩
  have copied (u : State) : u.Carries (u.stage u.table.copy) :=
    ⟨fun ⟨ht, ho⟩ => ⟨⟨ht.active, ht.entries, ht.ranges, ht.params, ht.region, ht.active, ht.ranges, ht.params, fun _ => ht.region⟩,
      ⟨ho.capacity, ho.ids, ho.occupied, ho.emptyRing⟩⟩, rfl⟩
  exact streams.trans (copied _)

theorem restartAct_carries (f : CtrlFrame) (s : State) : s.Carries (restartAct f s) := by
  have queues (u : State) : u.Carries (restartQueues u) := .of_same rfl rfl rfl rfl id rfl
  exact checked_carries ((restartCommit_carries s).trans ((restartRing_carries _).trans ((queues _).trans
    ((restartStreams_carries _).trans (reply_carries _ _ _ _)))))

/-! ### The TIME line (R104 to R106) -/

theorem setChars_carries (cs : List Byte) (s : State) : s.Carries (setChars cs s) := .of_same rfl rfl rfl rfl id rfl

theorem bufferMessage_carries (m : TimeMsg) (s : State) : s.Carries (bufferMessage m s) :=
  State.Carries.trans (.ite (fun _ => report_carries _ s) fun _ => .refl s) (.of_same rfl rfl rfl rfl id rfl)

theorem deliver_carries (b : Byte) (s : State) : s.Carries (deliver b s) := by
  have framing (cs : List Byte) : s.Carries (report .timeFraming (setChars cs s)) := (setChars_carries cs s).trans (report_carries _ _)
  refine .ite (fun _ => .ite (fun _ => setChars_carries _ s) fun _ => .refl s) fun _ => .ite (fun _ => framing _) fun _ =>
    .ite (fun _ => .ite (fun _ => ?_) fun _ => setChars_carries _ s) fun _ => framing _
  exact .ite (fun _ => framing _) fun _ => bufferMessage_carries _ s

theorem receiveChar_carries (c : TimeChar) (s : State) : s.Carries (receiveChar c s) := by
  have line (l : TimeLine) : s.Carries { s with time := l } := .of_same rfl rfl rfl rfl id rfl
  exact .ite (fun _ => (line _).trans (report_carries _ _)) fun _ => .ite (fun _ => (line _).trans (deliver_carries _ _)) fun _ =>
    (line _).trans ((setChars_carries _ _).trans (report_carries _ _))

/-! ### PPS edges, watchdog, holdover limit, pulses (R107 to R117, R121, R122) -/

theorem epochJump_carries (was : Option Nat) (s : State) : s.Carries (epochJump was s) :=
  .of_same (by simp) (by simp) (by simp) (by simp) (by simp) (by simp)

theorem setTru_carries (t : Tru) (s : State) : s.Carries { s with tru := t } := .of_same rfl rfl rfl rfl id rfl

theorem forgetPulse_carries (s : State) : s.Carries (forgetPulse s) := .of_same rfl rfl rfl rfl id rfl

theorem dropMapping_carries (s : State) : s.Carries (dropMapping s) := (setTru_carries _ s).trans (forgetPulse_carries _)

theorem referenceStep_carries (m : TimeMsg) (s : State) : s.Carries (referenceStep m s) :=
  (setTru_carries _ s).trans ((forgetPulse_carries _).trans ((report_carries _ _).trans (flushStep_carries _)))

theorem edgeAcquiring_carries (c : EdgeClass) (m : Option TimeMsg) (s : State) : s.Carries (edgeAcquiring c m s) := by
  unfold edgeAcquiring
  split
  · exact setTru_carries _ s
  · exact .ite (fun _ => (setTru_carries _ s).trans (forgetPulse_carries _)) fun _ => setTru_carries _ s

theorem renew_carries (label : Nat) (mismatch : Option Nat) (msg : Option MsgQuality) (s : State) : s.Carries (renew label mismatch msg s) :=
  (setTru_carries _ s).trans (epochJump_carries _ _)

theorem holdoverReturn_carries (label : Nat) (msg : Option MsgQuality) (s : State) : s.Carries (holdoverReturn label msg s) :=
  (setTru_carries _ s).trans (epochJump_carries _ _)

theorem edgeByState_carries (c : EdgeClass) (m : Option TimeMsg) (s : State) : s.Carries (edgeByState c m s) := by
  unfold edgeByState
  split
  · exact edgeAcquiring_carries _ _ s
  · refine .ite (fun _ => ?_) fun _ => .refl s
    unfold regularLocked
    dsimp only
    split
    · exact renew_carries _ _ _ s
    · exact .ite (fun _ => renew_carries _ _ _ s) fun _ => .ite (fun _ => referenceStep_carries _ s) fun _ => renew_carries _ _ _ s
  · refine .ite (fun _ => ?_) fun _ => setTru_carries _ s
    unfold regularHoldover
    dsimp only
    split
    · exact holdoverReturn_carries _ _ s
    · exact .ite (fun _ => holdoverReturn_carries _ _ s) fun _ => .ite (fun _ => referenceStep_carries _ s) fun _ => setTru_carries _ s
  · exact .refl s

theorem ppsEdge_carries (s : State) : s.Carries (ppsEdge s) := by
  have emptied : s.Carries { s with time := { s.time with buffer := none } } := .of_same rfl rfl rfl rfl id rfl
  have counted (c : Ctr) (p : Prop) [Decidable p] (u : State) : u.Carries (if p then report c u else u) :=
    .ite (fun _ => report_carries c u) fun _ => .refl u
  have pulsed (p : Prop) [Decidable p] (u : State) : u.Carries (if p then strobeFrom .pps u else u) :=
    .ite (fun _ => strobeFrom_carries _ u) fun _ => .refl u
  exact emptied.trans ((counted _ _ _).trans ((counted _ _ _).trans ((pulsed _ _).trans (edgeByState_carries _ _ _))))

theorem enterHoldover_carries (s : State) : s.Carries (enterHoldover s) :=
  .ite (fun _ => (setTru_carries _ s).trans (dropMapping_carries _)) fun _ => setTru_carries _ s

theorem strobePulse_carries (s : State) : s.Carries (strobePulse s) :=
  .of_same (by simp) (by simp) (by simp) (by simp) (by simp) (by simp)

theorem setStrobe_carries (l : Strobe) (s : State) : s.Carries { s with strobe := l } := .of_same rfl rfl rfl rfl id rfl

theorem epochPulse_carries (s : State) : s.Carries (epochPulse s) := by
  unfold epochPulse
  split
  · exact .refl s
  · exact (setStrobe_carries _ s).trans (strobePulse_carries _)

/-! ### Timers, sets and transmissions (R38, R93, R126, R132, R140, R151) -/

theorem silenceExpiry_carries (idx : Nat) (s : State) : s.Carries (silenceExpiry idx s) := by
  unfold silenceExpiry
  split
  · exact .refl s
  · exact .ite (fun _ => changeStream_carries StreamEntry.silence_keeps s) fun _ => .refl s

theorem recountAt_carries (ordinal : Nat) (s : State) : s.Carries (recountAt ordinal s) :=
  .of_same rfl rfl rfl rfl (fun h => List.map_eq_nil_iff.1 h) rfl

theorem expireDeadline_carries (ordinal : Nat) (s : State) : s.Carries (expireDeadline ordinal s) := by
  unfold expireDeadline
  dsimp only
  split
  · exact .refl s
  · exact .ite (fun _ => (recountAt_carries _ s).trans ((sealWhere_carries _ _ _).trans (settle_carries _))) fun _ => .refl s

theorem startSet_carries (s : State) : s.Carries (startSet s) := by
  unfold startSet
  split
  · exact .refl s
  · exact .of_same rfl rfl rfl rfl (fun h => absurd h (List.cons_ne_nil _ _)) rfl

/-- A part that is due is one of the set in composition. -/
theorem partDue_some {s : State} {c : Composition} {p : SetPart} (h : s.partDue = some (c, p)) : s.comp.set = some c ∧ p ∈ c.parts := by
  unfold State.partDue at h
  split at h
  · next c' _ hset =>
    split_ifs at h
    obtain ⟨q, hq, heq⟩ := Option.map_eq_some_iff.1 h
    cases heq
    exact ⟨hset, List.mem_of_getElem? hq⟩
  · cases h

/-- The HELD records of the set in composition keep within the hold limits of their streams (R48). -/
theorem setOk_heldWithin {s : State} (h : s.setOk) {c : Composition} {p : SetPart} (hs : s.comp.set = some c) (hp : p ∈ c.parts) :
    ∀ r ∈ p.records, r.status = .held → ∀ e ∈ s.table.streams, e.idx = r.idx → r.holdAge ≤ e.cfg.holdLimit := by
  rw [State.setOk, hs] at h
  exact h.2.2 p hp

theorem queueNext_carries {s : State} (h : s.setOk) : s.Carries (queueNext s) := by
  unfold queueNext
  split
  · exact .refl s
  · next c p hdue =>
    obtain ⟨hset, hp⟩ := partDue_some hdue
    have moved : s.Carries (joinO p.frame (moveRecords p.records
        { s with comp := { s.comp with set := some { c with queued := c.queued + 1 } } })) :=
      ⟨fun hk => hk.of_entries
        (fun e he => StreamEntry.queuedIn_keeps fun r hr hh hi => setOk_heldWithin h hset hp r hr hh e he hi)
        (by simp [moveRecords]) (by simp [moveRecords]) (by simp [moveRecords]) (by simp [moveRecords]) (by simp [moveRecords])
        (by simp [moveRecords]) (by simp [moveRecords]), by simp [moveRecords]⟩
    exact .ite (fun _ => moved.trans ((depart_carries true _).trans (settle_carries _))) fun _ => moved

theorem endTransmission_carries (s : State) : s.Carries (endTransmission s) := by
  have freed (e : Egress) : s.Carries { s with egress := e } := .of_same rfl rfl rfl rfl id rfl
  unfold endTransmission
  split
  · exact .refl s
  · dsimp only
    split
    · exact (freed _).trans ((report_carries _ _).trans (grant_carries _))
    · exact (freed _).trans (grant_carries _)

theorem quiesceFall_carries (s : State) : s.Carries (quiesceFall s) := by
  have comp (u : State) (seen quiesced : Bool) : u.Carries { u with comp := { u.comp with seen := seen, quiesced := quiesced } } :=
    .of_same rfl rfl rfl rfl id rfl
  have parts (u : State) : u.Carries (discardParts u) := .of_same rfl rfl rfl rfl id rfl
  refine .ite (fun _ => ?_) fun _ => comp s true s.comp.quiesced
  exact (comp s true s.comp.quiesced).trans ((comp _ _ true).trans ((parts _).trans (settle_carries _)))

end Sys2Proof.Machine
end

