-- ==== Sys2Proof/Proofs/KeptSteps.lean ====
section
/-! PROOFS. Every step keeps the tables, the stored image and the override table in order and in range (R33, R34, R38, R43, R48, R52,
R136, R139, R158, R177, R198). -/

namespace Sys2Proof.Machine

/-! ### Supply, RESET and the Profile Store set apart -/

/-- The rows that start the part, hold it, or write its Profile Store. -/
def SupplyOrStore : Instr → Prop
  | .powerUp _ | .resetAssert | .resetRelease | .powerLoss | .saveProfile | .profileWriteComplete _ => True
  | _ => False

/-- Every other row carries the order of the tables and leaves the Profile Store. -/
theorem exec_carries {c : Instr} (hc : ¬ SupplyOrStore c) {s : State} (hset : s.operating = true → s.setOk) :
    ∃ t, exec c s = .next t ∧ s.Carries t := by
  have event {t : State} (h : s.Carries t) : s.Carries (whileOperating s t) := whileOperating_carries fun _ => h
  have due {t : State} {p : Bool} (h : s.Carries t) : s.Carries (whileOperating s (if p then t else s)) :=
    event (.ite (fun _ => h) fun _ => .refl s)
  cases c with
  | powerUp _ | resetAssert | resetRelease | powerLoss | saveProfile | profileWriteComplete _ => exact absurd trivial hc
  | ingressLinkUp p | ingressLinkDown p | portOLinkDown => exact ⟨_, rfl, event (.of_same rfl rfl rfl rfl id rfl)⟩
  | portOLinkUp =>
    exact ⟨_, rfl, event (State.Carries.trans (t := { s with links := { s.links with o := .up } }) (.of_same rfl rfl rfl rfl id rfl)
      (grant_carries _))⟩
  | ingressFrameComplete p good f => exact ⟨_, rfl, event (.ite (fun _ => frameIn_carries _ _ s) fun _ => .refl s)⟩
  | asetRecordIngest => exact ⟨_, rfl, event (ingestNext_carries s)⟩
  | placement p => exact ⟨_, rfl, event (placeNext_carries p s)⟩
  | silenceTimerExpiry idx => exact ⟨_, rfl, event (silenceExpiry_carries idx s)⟩
  | deadlineExpiry ordinal => exact ⟨_, rfl, event (expireDeadline_carries ordinal s)⟩
  | composeSet => exact ⟨_, rfl, due (startSet_carries s)⟩
  | queuePart => exact ⟨_, rfl, whileOperating_carries fun ho => queueNext_carries (hset ho)⟩
  | commitApply =>
    refine ⟨_, rfl, event (.ite (fun h => applyCommit_carries ?_) fun _ => .refl s)⟩
    simp only [State.commitDue, Bool.and_eq_true, bne_iff_ne] at h
    exact h.1
  | transmissionComplete => exact ⟨_, rfl, event (endTransmission_carries s)⟩
  | strobePulseEnd => exact ⟨_, rfl, due (setStrobe_carries _ s)⟩
  | epochPulse => exact ⟨_, rfl, event (epochPulse_carries s)⟩
  | ppsEdge => exact ⟨_, rfl, event (ppsEdge_carries s)⟩
  | edgeWatchdogExpiry => exact ⟨_, rfl, due (enterHoldover_carries s)⟩
  | holdoverLimitReached => exact ⟨_, rfl, due (dropMapping_carries s)⟩
  | timeCharacter c => exact ⟨_, rfl, due (receiveChar_carries c s)⟩
  | quiesceEvent =>
    have low : s.Carries { s with comp := { s.comp with lineLow := true } } := .of_same rfl rfl rfl rfl id rfl
    exact ⟨_, rfl, .ite (fun _ => low.trans (quiesceFall_carries _)) fun _ => low⟩
  | quiesceLineRise => exact ⟨_, rfl, .of_same rfl rfl rfl rfl id rfl⟩
  | elapsedFreeze => exact ⟨_, rfl, due (.of_same rfl rfl rfl rfl id rfl)⟩
  | stageStream => exact ⟨_, rfl, execute_carries stageStreamAct_carries _ s⟩
  | unstageStream => exact ⟨_, rfl, execute_carries unstageStreamAct_carries _ s⟩
  | stageRange => exact ⟨_, rfl, execute_carries stageRangeAct_carries _ s⟩
  | stageParams => exact ⟨_, rfl, execute_carries stageParamsAct_carries _ s⟩
  | discardStage => exact ⟨_, rfl, execute_carries discardStageAct_carries _ s⟩
  | commit => exact ⟨_, rfl, execute_carries commitAct_carries _ s⟩
  | isolate => exact ⟨_, rfl, execute_carries isolateAct_carries _ s⟩
  | restore => exact ⟨_, rfl, execute_carries restoreAct_carries _ s⟩
  | setOverride => exact ⟨_, rfl, execute_carries setOverrideAct_carries _ s⟩
  | clearOverride => exact ⟨_, rfl, execute_carries clearOverrideAct_carries _ s⟩
  | setEmission => exact ⟨_, rfl, execute_carries setEmissionAct_carries _ s⟩
  | clearQuiesce => exact ⟨_, rfl, execute_carries clearQuiesceAct_carries _ s⟩
  | readStatus => exact ⟨_, rfl, execute_carries readStatusAct_carries _ s⟩
  | readRanges => exact ⟨_, rfl, execute_carries readRangesAct_carries _ s⟩
  | readStream => exact ⟨_, rfl, execute_carries readStreamAct_carries _ s⟩
  | readOverrides => exact ⟨_, rfl, execute_carries readOverridesAct_carries _ s⟩
  | snapshotCounters => exact ⟨_, rfl, execute_carries snapshotAct_carries _ s⟩
  | monitorRun => exact ⟨_, rfl, execute_carries (setCondition_carries false) _ s⟩
  | monitorHold => exact ⟨_, rfl, execute_carries (setCondition_carries true) _ s⟩
  | restart => exact ⟨_, rfl, execute_carries restartAct_carries _ s⟩
  | unknownCommand =>
    refine ⟨_, rfl, event ?_⟩
    unfold executeIf
    split
    · exact .refl s
    · exact .ite (fun _ => (popped_carries _ s).trans (reply_carries _ _ _ _)) fun _ => .refl s

/-! ### The stored image (R198, R199) -/

/-- Stream-table indexes read from bytes ascend from the first on (R198). -/
theorem readSlots_ascending (n : Nat) : ∀ (i : Nat) (bs : List Byte) (es : List (Nat × StreamCfg)) (rest : List Byte),
    readSlots n i bs = some (es, rest) → es.Pairwise (fun a b => a.1 < b.1) ∧ ∀ p ∈ es, i ≤ p.1 ∧ p.1 < i + n := by
  induction n with
  | zero => intro i bs es rest h; cases h; simp
  | succ n ih =>
    intro i bs es rest h
    cases bs with
    | nil => cases h
    | cons b bs =>
      unfold readSlots at h
      split_ifs at h
      · obtain ⟨hasc, hin⟩ := ih _ _ _ _ h
        exact ⟨hasc, fun p hp => by have := hin p hp; omega⟩
      · obtain ⟨⟨fs, rest'⟩, hr, heq⟩ := Option.map_eq_some_iff.1 h
        obtain ⟨hasc, hin⟩ := ih _ _ _ _ hr
        cases heq
        refine ⟨List.pairwise_cons.2 ⟨fun p hp => ?_, hasc⟩, fun p hp => ?_⟩
        · have := hin p hp; simp only; omega
        · rcases List.mem_cons.1 hp with rfl | hp
          · simp only; omega
          · have := hin p hp; omega

/-- Whatever a storage holds, an image found GOOD in it is acceptable, at ascending indexes below 256 (R198). -/
theorem goodImage_ok {st : Stored} {i : Image} (h : st.goodImage = some i) :
    i.acceptable = true ∧ i.streams.Pairwise (fun a b => a.1 < b.1) ∧ ∀ p ∈ i.streams, p.1 < 256 := by
  unfold Stored.goodImage at h
  split at h
  · split_ifs at h
    obtain ⟨hr, ha⟩ := Option.filter_eq_some_iff.1 h
    refine ⟨ha, ?_⟩
    simp only [readImage, Option.bind_eq_bind, Option.bind_eq_some_iff] at hr
    obtain ⟨params, -, mode, -, ⟨streams, rest⟩, hslots, himage⟩ := hr
    split_ifs at himage
    cases himage
    obtain ⟨hasc, hin⟩ := readSlots_ascending _ _ _ _ _ hslots
    exact ⟨hasc, fun p hp => by simpa using (hin p hp).2⟩
  · cases h

/-- The storage is in order when the image being written is (R198). -/
theorem State.StoreOk.of_writing {s : State} (h : ∀ i, s.store.writing = some i →
    i.streams.Pairwise (fun a b => a.1 < b.1) ∧ ∀ p ∈ i.streams, p.1 < 256) : s.StoreOk :=
  ⟨fun _ hi => (goodImage_ok hi).2, h⟩

/-- With no write under way it always is. -/
theorem State.StoreOk.of_idle {s : State} (h : s.store.writing = none) : s.StoreOk :=
  .of_writing fun i hi => by rw [h] at hi; cases hi

/-- It depends on the Profile Store alone. -/
theorem State.StoreOk.of_same {s t : State} (h : s.StoreOk) (ht : t.store = s.store) : t.StoreOk :=
  .of_writing fun i hi => h.writing i (ht ▸ hi)

/-- A write that was cut off leaves none under way (R200). -/
theorem cut_writing (p : ProfileStore) : p.cut.writing = none := by
  unfold ProfileStore.cut
  split
  · rfl
  · next h => simpa using h

/-! ### The start (R202) -/

/-- A start's active set is in order, with or without an image (R52, R202, R203). -/
theorem startSetOf_ok {i : Option Image} (h : ∀ x, i = some x →
    x.acceptable = true ∧ x.streams.Pairwise (fun a b => a.1 < b.1) ∧ ∀ p ∈ x.streams, p.1 < 256) :
    entriesOk ((startSetOf i).streams.map fun e => (e.idx, e.cfg)) ∧ (∀ e ∈ (startSetOf i).streams, e.Ok) ∧
      rangesOk (startSetOf i).ranges ∧ (startSetOf i).params.inRange = true ∧ (startSetOf i).params.region ≤ 30 := by
  cases i with
  | none =>
    refine ⟨⟨List.Pairwise.nil, by simp [startSetOf, blankSet], by simp [startSetOf, blankSet], by simp [startSetOf, blankSet]⟩,
      by simp [startSetOf, blankSet], ?_, by decide, by decide⟩
    intro r hr
    obtain rfl : r = blankRange := by simpa [startSetOf, blankSet] using hr
    decide
  | some x =>
    obtain ⟨ha, hasc, hlt⟩ := h x rfl
    obtain ⟨hids, hregion, hparams, hin, hranges⟩ := Image.acceptable_iff.1 ha
    have hcopy : (x.streams.map (freshEntry 0)).map (fun e => (e.idx, e.cfg)) = x.streams := by
      rw [List.map_map]; exact List.map_id _
    have hle := (Params.inRange_iff.1 hparams).2.2.2.2.1
    refine ⟨?_, fun e he => ?_, hranges, hparams, by simp only [startSetOf, Option.elim, Image.activeSet]; omega⟩
    · simp only [startSetOf, Option.elim, Image.activeSet, hcopy]
      exact ⟨hasc, hlt, hids, hin⟩
    · obtain ⟨p, -, rfl⟩ := List.mem_map.1 he
      exact freshEntry_ok 0 p

/-- After a start the tables are in order (R202). -/
theorem start_kept (s : State) : (start s).Kept := by
  have hload : ∀ x, s.loadable = some x →
      x.acceptable = true ∧ x.streams.Pairwise (fun a b => a.1 < b.1) ∧ ∀ p ∈ x.streams, p.1 < 256 := fun x hx => by
    unfold State.loadable at hx
    split_ifs at hx
    exact goodImage_ok hx
  obtain ⟨hstreams, hentries, hranges, hparams, hregion⟩ := startSetOf_ok hload
  exact ⟨⟨hstreams, hentries, hranges, hparams, hregion, hstreams, hranges, hparams, fun _ => hregion⟩,
    ⟨Nat.zero_le _, List.nodup_nil, by simp [start], by simp [start]⟩⟩

/-! ### SAVE_PROFILE and the end of its write (R199) -/

/-- SAVE_PROFILE refuses with a reply, or its write begins. -/
theorem saveProfileAct_cases (f : CtrlFrame) (s : State) :
    (∃ st, saveProfileAct f s = reply f.re st [] s) ∨ saveProfileAct f s = beginWrite f.re s := by
  unfold saveProfileAct checked
  split_ifs
  · exact .inl ⟨_, rfl⟩
  · exact .inl ⟨_, rfl⟩
  · dsimp only
    split
    · exact .inl ⟨_, rfl⟩
    · exact .inr rfl

/-- The row of SAVE_PROFILE: the write begins from the active set, or the part goes on as with any command (R173, R199). -/
theorem exec_saveProfile_cases (s : State) :
    ∃ t, exec .saveProfile s = .next t ∧
      (s.Carries t ∨ (s.operating = true ∧ ∃ re q, t = beginWrite re (s.popped q))) := by
  refine ⟨_, rfl, ?_⟩
  unfold execute whileOperating executeIf
  split
  · next ho =>
    split
    · exact .inl (.refl s)
    · next f q _ =>
      split
      · rcases saveProfileAct_cases f (s.popped q) with ⟨st, h⟩ | h
        · exact .inl (h ▸ (popped_carries q s).trans (reply_carries _ _ _ _))
        · exact .inr ⟨ho, f.re, q, h⟩
      · exact .inl (.refl s)
  · exact .inl (.refl s)

/-- The row that ends a write: none was under way, or none is left, and the tables stand. -/
theorem exec_profileWriteComplete_cases (damage : List (Nat × Byte)) (s : State) :
    ∃ t, exec (.profileWriteComplete damage) s = .next t ∧ (t = s ∨ (t.store.writing = none ∧ (s.Kept → t.Kept))) := by
  have ended (bs : List Byte) (h : s.Kept) : (endWrite bs s).Kept := h.of_same rfl rfl rfl rfl id
  refine ⟨_, rfl, ?_⟩
  unfold whileOperating writeComplete
  split
  · split
    · exact .inl rfl
    · dsimp only
      split
      · exact .inr ⟨by simp [endWrite], fun h => (reply_carries _ _ _ _).kept (ended _ h)⟩
      · exact .inr ⟨rfl, ended _⟩
  · exact .inl rfl

/-! ### Every row and every step -/

/-- A held part takes events again only with a start: after any other row it took them before (log 1). -/
theorem operating_of_exec {c : Instr} {s t : State} (hup : ∀ r, c ≠ .powerUp r) (hrelease : c ≠ .resetRelease)
    (h : exec c s = .next t) (ht : t.operating = true) : s.operating = true := by
  by_contra hs
  have held := heldPartTakesNoOtherEvent.2 c s (by simpa using hs) hup
  cases c with
  | resetAssert => cases h; simp [State.operating] at ht
  | powerLoss => cases h; simp [State.operating] at ht
  | resetRelease => exact hrelease rfl
  | quiesceEvent => cases h; rw [if_neg hs] at ht; exact hs ht
  | quiesceLineRise => cases h; exact hs ht
  | _ =>
    cases h.symm.trans (held (by simp) (by simp) (by simp) (by simp) (by simp))
    exact hs ht

/-- A release of the RESET line starts the part, or leaves one that took events before as it was (R202). -/
theorem exec_resetRelease_cases {s t : State} (h : exec .resetRelease s = .next t) (ht : t.operating = true) :
    (∃ u, t = start u) ∨ (s.operating = true ∧ t = { s with power := { s.power with resetAsserted := false } }) := by
  cases h
  split
  · exact .inl ⟨_, rfl⟩
  · next hn =>
    rw [if_neg hn, operating_iff] at ht
    have hp : s.power.powered = true := ht.1
    exact .inr ⟨operating_iff.2 ⟨hp, by simpa [hp] using hn⟩, rfl⟩

/-- A row leaves a part that takes events with its tables in order. -/
theorem exec_kept {c : Instr} {s t : State} (hk : s.operating = true → s.Kept ∧ s.setOk) (h : exec c s = .next t)
    (ht : t.operating = true) : t.Kept := by
  by_cases hc : SupplyOrStore c
  · cases c with
    | powerUp r => cases h; exact start_kept _
    | resetRelease =>
      rcases exec_resetRelease_cases h ht with ⟨u, rfl⟩ | ⟨ho, rfl⟩
      · exact start_kept u
      · exact (hk ho).1.of_same rfl rfl rfl rfl id
    | resetAssert | powerLoss => cases h; simp [State.operating] at ht
    | saveProfile =>
      have hs := (hk (operating_of_exec (by simp) (by simp) h ht)).1
      obtain ⟨u, hu, hcases⟩ := exec_saveProfile_cases s
      cases hu.symm.trans h
      rcases hcases with hcarries | ⟨-, re, q, rfl⟩
      · exact hcarries.kept hs
      · exact ((popped_carries q s).kept hs).of_same rfl rfl rfl rfl id
    | profileWriteComplete damage =>
      have hs := (hk (operating_of_exec (by simp) (by simp) h ht)).1
      obtain ⟨u, hu, hcases⟩ := exec_profileWriteComplete_cases damage s
      cases hu.symm.trans h
      rcases hcases with rfl | ⟨-, hkept⟩
      · exact hs
      · exact hkept hs
    | _ => exact absurd hc id
  · obtain ⟨u, hu, hcarries⟩ := exec_carries hc fun ho => (hk ho).2
    cases hu.symm.trans h
    refine hcarries.kept (hk (operating_of_exec ?_ ?_ h ht)).1
    · rintro r rfl; exact hc trivial
    · rintro rfl; exact hc trivial

/-- A row leaves the storage in order; an image that SAVE_PROFILE takes is the active set's (R199). -/
theorem exec_storeOk {c : Instr} {s t : State} (hs : s.StoreOk) (hk : s.operating = true → s.Kept ∧ s.setOk)
    (h : exec c s = .next t) : t.StoreOk := by
  have cut {u : State} (hu : u.store = s.store.cut) : u.StoreOk := .of_idle (hu ▸ cut_writing _)
  by_cases hc : SupplyOrStore c
  · cases c with
    | powerUp r => cases h; exact .of_idle rfl
    | resetRelease =>
      cases h
      split
      · exact .of_idle rfl
      · exact hs.of_same rfl
    | resetAssert =>
      cases h
      split
      · exact cut (by simp [resetHold, cutWrite_eq])
      · exact hs.of_same rfl
    | powerLoss => cases h; exact cut (by simp [cutWrite_eq])
    | saveProfile =>
      obtain ⟨u, hu, hcases⟩ := exec_saveProfile_cases s
      cases hu.symm.trans h
      rcases hcases with hcarries | ⟨ho, re, q, rfl⟩
      · exact hs.of_same hcarries.store
      · have ha := (hk ho).1.tables.active
        exact .of_writing fun i hi => by cases hi; exact ⟨ha.ascending, ha.below⟩
    | profileWriteComplete damage =>
      obtain ⟨u, hu, hcases⟩ := exec_profileWriteComplete_cases damage s
      cases hu.symm.trans h
      rcases hcases with rfl | ⟨hidle, -⟩
      · exact hs
      · exact .of_idle hidle
    | _ => exact absurd hc id
  · obtain ⟨u, hu, hcarries⟩ := exec_carries hc fun ho => (hk ho).2
    cases hu.symm.trans h
    exact hs.of_same hcarries.store

/-- A step runs a row on the part, but for the waiting commands, or lets one tick pass (log 2). -/
theorem step_cases {s t : State} (h : step s = .next t) : (∃ c rest, exec c { s with pending := rest } = .next t) ∨ t = oneTick s := by
  unfold step at h
  split at h
  · exact .inl ⟨_, _, h⟩
  · split at h
    · exact .inl ⟨_, s.pending, h⟩
    · cases h; exact .inr rfl

/-- A step keeps tables, storage and override table in order. -/
theorem step_kept {s t : State} (hs : s.Inv) (h : step s = .next t) : t.StoreOk ∧ (t.operating = true → t.Kept) := by
  have sound (ho : s.operating = true) : s.Kept ∧ s.setOk :=
    ⟨⟨(hs.running ho).tables, (hs.running ho).overrides⟩, (hs.running ho).ring.set⟩
  rcases step_cases h with ⟨c, rest, hexec⟩ | rfl
  · have queued (ho : s.operating = true) : State.Kept { s with pending := rest } ∧ State.setOk { s with pending := rest } :=
      ⟨(sound ho).1.of_same rfl rfl rfl rfl id, (sound ho).2⟩
    exact ⟨exec_storeOk (s := { s with pending := rest }) (hs.store.of_same rfl) queued hexec, exec_kept queued hexec⟩
  · have ticked : s.Carries (oneTick s) := whileOperating_carries fun _ => .of_same rfl rfl rfl rfl id rfl
    refine ⟨hs.store.of_same ticked.store, fun ho => ticked.kept (sound ?_).1⟩
    unfold oneTick whileOperating at ho
    split at ho <;> assumption

/-- Settles O57: every row carries the tables, and every image that is written or found GOOD is in order. -/
theorem stepsKeepTheTablesAndOverrides : Obligations.StepsKeepTheTablesAndOverrides := by
  unfold Obligations.StepsKeepTheTablesAndOverrides
  exact ⟨fun s t hs h => ⟨(step_kept hs h).1, fun ho => ((step_kept hs h).2 ho).tables⟩,
    fun s t hs h ho => ((step_kept hs h).2 ho).overrides⟩

end Sys2Proof.Machine
end

