-- ==== Sys2Proof/Proofs/StreamPassages.lean ====
section
/-! PROOFS. Life frames, time-quality reports, silence timers, isolation and restoration (R24, R37 to R44), and the expiry of record
deadlines (R93, R94). -/

namespace Sys2Proof.Machine

/-! ### A change of one known stream (R42) -/

/-- A change that is `g` at the stream's entry, of a state on the same side of ACTIVE, changes the entry alone. -/
theorem changeStream_quiet {s : State} {id : Nat} {e : StreamEntry} {f g : StreamEntry → StreamEntry}
    (hn : (s.table.streams.map fun y => y.cfg.id).Nodup) (he : s.stream id = some e) (hfg : f e = g e)
    (ha : (g e).state = .active ↔ e.state = .active) : changeStream id f s = s.mapStream id g := by
  have hb : (e.state == .active) = ((f e).state == .active) := by rw [hfg, Bool.eq_iff_iff, beq_iff_eq, beq_iff_eq, ha]
  rw [changeStream_known f he, if_pos hb, mapStream_congr hn he hfg]

/-- A change that is `g` there, into or out of ACTIVE, prompts a re-evaluation. -/
theorem changeStream_passage {s : State} {id : Nat} {e : StreamEntry} {f g : StreamEntry → StreamEntry}
    (hn : (s.table.streams.map fun y => y.cfg.id).Nodup) (he : s.stream id = some e) (hfg : f e = g e)
    (ha : ¬ ((g e).state = .active ↔ e.state = .active)) : changeStream id f s = reevaluate (s.mapStream id g) := by
  have hb : ¬ (e.state == .active) = ((f e).state == .active) := by
    rw [hfg, Bool.eq_iff_iff, beq_iff_eq, beq_iff_eq]; exact fun h => ha h.symm
  rw [changeStream_known f he, if_neg hb, mapStream_congr hn he hfg]

/-- A change that keeps the stream's entry changes nothing. -/
theorem changeStream_same {s : State} {id : Nat} {e : StreamEntry} {f : StreamEntry → StreamEntry}
    (hn : (s.table.streams.map fun y => y.cfg.id).Nodup) (he : s.stream id = some e) (hf : f e = e) : changeStream id f s = s := by
  rw [changeStream_quiet (g := fun x => x) hn he hf Iff.rfl, mapStream_same hn he rfl]

/-- An entry of the table is what a lookup of its ID finds, when no ID stands twice (R34). -/
theorem stream_of_mem {s : State} {e : StreamEntry} (hn : (s.table.streams.map fun y => y.cfg.id).Nodup) (he : e ∈ s.table.streams) :
    s.stream e.cfg.id = some e := by
  cases hf : s.stream e.cfg.id with
  | none => exact absurd rfl (stream_none.1 hf e he)
  | some x => rw [stream_unique hn hf he rfl]

/-- A lookup by index finds an entry of the table. -/
theorem streamAt_mem {s : State} {idx : Nat} {e : StreamEntry} (h : s.streamAt idx = some e) : e ∈ s.table.streams :=
  List.mem_of_find?_eq_some h

/-! ### Life frames and time-quality reports (R37, R43, R44) -/

/-- A life frame in ACTIVE or SUSPECT loads the timer. -/
theorem StreamEntry.lifeFrame_heard {e : StreamEntry} (h : e.state = .active ∨ e.state = .suspect) (now : Nat) :
    e.lifeFrame now = { e with timer := some (now + e.cfg.silenceMs * 1000) } := by
  unfold StreamEntry.lifeFrame
  rcases h with h | h <;> simp only [h, StreamEntry.expiry]

/-- A life frame in ENROLLED or SILENT passes to ACTIVE. -/
theorem StreamEntry.lifeFrame_woken {e : StreamEntry} (h : e.state = .enrolled ∨ e.state = .silent) (now : Nat) :
    e.lifeFrame now = { e with state := .active, timer := some (now + e.cfg.silenceMs * 1000) } := by
  unfold StreamEntry.lifeFrame
  rcases h with h | h <;> simp only [h, StreamEntry.expiry]

/-- The streaks after a report (R43). -/
def StreamEntry.badAfter (bad : Bool) (e : StreamEntry) : Nat := if bad then min 15 (e.bad + 1) else 0
def StreamEntry.goodAfter (bad : Bool) (e : StreamEntry) : Nat := if bad then 0 else min 15 (e.good + 1)

/-- The state after a report, by the streaks it leaves (R44). -/
def StreamEntry.stateAfter (bad : Bool) (e : StreamEntry) : StreamState :=
  if e.state = .active ∧ e.cfg.hysteresis ≤ e.badAfter bad then .suspect
  else if e.state = .suspect ∧ e.cfg.hysteresis ≤ e.goodAfter bad then .active
  else e.state

/-- A report in any state but ISOLATED moves the streaks and tests them. -/
theorem StreamEntry.timeReport_moved {e : StreamEntry} (h : e.state ≠ .isolated) (bad : Bool) :
    e.timeReport bad = { e with bad := e.badAfter bad, good := e.goodAfter bad, state := e.stateAfter bad } := by
  have hmoved : e.moveStreaks bad = { e with bad := e.badAfter bad, good := e.goodAfter bad } := by cases bad <;> rfl
  unfold StreamEntry.timeReport
  split
  · next hi => exact absurd hi h
  · rw [hmoved]
    unfold StreamEntry.testStreaks StreamEntry.stateAfter
    cases hs : e.state <;> simp <;> split <;> rfl

/-- A report in ISOLATED is ignored (R43). -/
theorem StreamEntry.timeReport_isolated {e : StreamEntry} (h : e.state = .isolated) (bad : Bool) : e.timeReport bad = e := by
  simp only [StreamEntry.timeReport, h]

/-- A report that changes the state passes between ACTIVE and SUSPECT (R44). -/
theorem StreamEntry.stateAfter_passage {e : StreamEntry} {bad : Bool} (h : e.state ≠ e.stateAfter bad) :
    ¬ (e.stateAfter bad = .active ↔ e.state = .active) := by
  unfold StreamEntry.stateAfter at *
  split_ifs at h ⊢ with ha hs
  · simp [ha.1]
  · simp [hs.1]
  · exact absurd rfl h

/-- Settles O16: the entry after the life frame or the report, and whether the passage is into or out of ACTIVE. -/
theorem lifeFramesAndTimeReports : Obligations.LifeFramesAndTimeReports := by
  unfold Obligations.LifeFramesAndTimeReports
  refine ⟨fun s id e hn he => ⟨fun hs => ?_, fun hs => ?_⟩,
    fun s id bad hn => ⟨fun he => changeStream_unknown _ he, fun e he => ?_⟩⟩
  · exact changeStream_quiet (g := fun x => { x with timer := some (s.tick + x.cfg.silenceMs * 1000) }) hn he
      (StreamEntry.lifeFrame_heard hs _) Iff.rfl
  · exact changeStream_passage (g := fun x => { x with state := .active, timer := some (s.tick + x.cfg.silenceMs * 1000) }) hn he
      (StreamEntry.lifeFrame_woken hs _) (by rcases hs with hs | hs <;> simp [hs])
  · intro b g next moved
    have hnext : e.stateAfter bad = next := rfl
    refine ⟨fun hi => changeStream_same hn he (StreamEntry.timeReport_isolated hi bad), fun hi hsame => ?_, fun hi hpass => ?_⟩
    · exact changeStream_quiet (g := fun x => { x with bad := b, good := g, state := next }) hn he
        (StreamEntry.timeReport_moved hi bad) (by rw [hsame])
    · exact changeStream_passage (g := fun x => { x with bad := b, good := g, state := next }) hn he
        (StreamEntry.timeReport_moved hi bad) (StreamEntry.stateAfter_passage (hnext ▸ hpass))

/-! ### Silence timers (R38) -/

/-- A timer at or past its expiry tick is due in ENROLLED, ACTIVE and SUSPECT. -/
theorem StreamEntry.silenceDue_iff {e : StreamEntry} {now : Nat} :
    e.silenceDue now = true ↔ (e.state = .enrolled ∨ e.state = .active ∨ e.state = .suspect) ∧ ∃ t, e.timer = some t ∧ t ≤ now := by
  unfold StreamEntry.silenceDue
  cases e.timer <;> simp [or_assoc]

/-- SILENCE_TIMER_EXPIRY of an entry whose timer is due. -/
theorem silenceExpiry_due {s : State} {idx : Nat} {e : StreamEntry} (he : s.streamAt idx = some e) (hd : e.silenceDue s.tick = true) :
    silenceExpiry idx s = changeStream e.cfg.id StreamEntry.silence s := by
  simp only [silenceExpiry, he, hd, if_true]

/-- And of one whose timer is not. -/
theorem silenceExpiry_early {s : State} {idx : Nat} {e : StreamEntry} (he : s.streamAt idx = some e) (hd : ¬ e.silenceDue s.tick = true) :
    silenceExpiry idx s = s := by
  simp only [silenceExpiry, he, if_neg hd]

/-! ### Record deadlines (R93, R94) -/

/-- The record of an ordinal, when none stands twice (R73). -/
theorem record_unique {rs : List EpochRec} {e r : EpochRec} (hn : (rs.map fun r => r.ordinal).Nodup) (he : e ∈ rs) (hr : r ∈ rs)
    (ho : r.ordinal = e.ordinal) : r = e := List.inj_on_of_nodup_map hn hr he ho

/-- What re-evaluating one OPEN record makes of the ring. -/
theorem recountAt_recs {s : State} {e : EpochRec} (hn : (s.ring.recs.map fun r => r.ordinal).Nodup) (he : e ∈ s.ring.recs)
    (hs : e.state = .opened) :
    (recountAt e.ordinal s).ring.recs = s.ring.recs.map fun r => if r.ordinal = e.ordinal then e.recount s.table else r := by
  refine List.map_congr_left fun r hr => ?_
  by_cases ho : r.ordinal = e.ordinal
  · rw [record_unique hn he hr ho, if_pos ⟨rfl, hs⟩, if_pos rfl]
  · rw [if_neg fun h => ho h.1, if_neg ho]

/-- The one record of an ordinal sealed: its seal is counted once (R94). -/
theorem sealWhere_ordinal {s : State} {e : EpochRec} (hn : (s.ring.recs.map fun r => r.ordinal).Nodup) (he : e ∈ s.ring.recs)
    (hs : e.state = .opened) (cause : SealCause) :
    sealWhere cause (fun d => d.ordinal == e.ordinal) s = report cause.ctr { s with ring := { s.ring with
      recs := s.ring.recs.map fun r => if r.ordinal = e.ordinal then e.seal cause s.tick else r } } := by
  have hit : ∀ r ∈ s.ring.recs, (r.state == .opened && r.ordinal == e.ordinal) = true ↔ r.ordinal = e.ordinal := fun r hr => by
    simp only [Bool.and_eq_true, beq_iff_eq]
    exact ⟨fun h => h.2, fun h => ⟨record_unique hn he hr h ▸ hs, h⟩⟩
  have hcount : s.ring.recs.countP (fun r => r.state == .opened && r.ordinal == e.ordinal) = 1 := by
    rw [List.countP_congr (q := fun r => r.ordinal == e.ordinal) fun r hr => by rw [hit r hr, beq_iff_eq]]
    have := List.count_eq_one_of_mem hn (List.mem_map_of_mem he)
    rwa [List.count, List.countP_map] at this
  have hrecs : s.ring.recs.map (fun r => if (r.state == .opened && r.ordinal == e.ordinal) = true then r.seal cause s.tick else r) =
      s.ring.recs.map fun r => if r.ordinal = e.ordinal then e.seal cause s.tick else r := by
    refine List.map_congr_left fun r hr => ?_
    by_cases ho : r.ordinal = e.ordinal
    · rw [if_pos ((hit r hr).2 ho), if_pos ho, record_unique hn he hr ho]
    · rw [if_neg fun h => ho ((hit r hr).1 h), if_neg ho]
  simp only [sealWhere, hcount, hrecs]
  rfl

/-- A deadline that has expired: the record re-evaluated and sealed, and then the head considered (R93, R97). -/
theorem expireDeadline_due {s : State} {e : EpochRec} (hn : (s.ring.recs.map fun r => r.ordinal).Nodup) (he : e ∈ s.ring.recs)
    (hs : e.state = .opened) (hd : e.deadline ≤ s.tick) :
    let cause := if (e.recount s.table).isComplete s.table then SealCause.complete else .deadline
    expireDeadline e.ordinal s = settle (report cause.ctr { s with ring := { s.ring with
      recs := s.ring.recs.map fun r => if r.ordinal = e.ordinal then (e.recount s.table).seal cause s.tick else r } }) := by
  intro cause
  have hrecs := recountAt_recs hn he hs
  have hord : (recountAt e.ordinal s).ring.recs.map (fun r => r.ordinal) = s.ring.recs.map fun r => r.ordinal := by
    rw [hrecs, List.map_map]
    refine List.map_congr_left fun r _ => ?_
    simp only [Function.comp]
    split
    · next h => exact h.symm
    · rfl
  have hn' : ((recountAt e.ordinal s).ring.recs.map fun r => r.ordinal).Nodup := hord ▸ hn
  have hm : e.recount s.table ∈ (recountAt e.ordinal s).ring.recs := by
    rw [hrecs]; exact List.mem_map.2 ⟨e, he, if_pos rfl⟩
  have hrec : (recountAt e.ordinal s).ring.recordOf e.ordinal = some (e.recount s.table) := by
    cases hf : (recountAt e.ordinal s).ring.recordOf e.ordinal with
    | none => exact absurd (beq_self_eq_true e.ordinal) (List.find?_eq_none.1 hf (e.recount s.table) hm)
    | some x =>
      have hx : x.ordinal = e.ordinal := by simpa using List.find?_some hf
      rw [record_unique hn' hm (List.mem_of_find?_eq_some hf) hx]
  have hdue : (e.recount s.table).deadlineDue s.tick = true := by simp [EpochRec.deadlineDue, EpochRec.recount, hs, hd]
  have hmaps : (recountAt e.ordinal s).ring.recs.map
      (fun r => if r.ordinal = e.ordinal then (e.recount s.table).seal cause s.tick else r) =
      s.ring.recs.map fun r => if r.ordinal = e.ordinal then (e.recount s.table).seal cause s.tick else r := by
    rw [hrecs, List.map_map]
    refine List.map_congr_left fun r _ => ?_
    by_cases ho : r.ordinal = e.ordinal
    · simp only [Function.comp, if_pos ho]; rw [if_pos (by rfl)]
    · simp only [Function.comp, if_neg ho]
  have hseal := sealWhere_ordinal hn' hm hs cause
  simp only [expireDeadline, hrec, hdue, if_true]
  exact congrArg settle (hseal.trans (congrArg (fun l => report cause.ctr { s with ring := { s.ring with recs := l } }) hmaps))

/-- Settles O26: the timer's stream by its state, and the deadline's record by whether it is complete. -/
theorem silenceAndDeadlinesExpire : Obligations.SilenceAndDeadlinesExpire := by
  unfold Obligations.SilenceAndDeadlinesExpire
  refine ⟨fun idx due s e ho hn hat ht hd => ?_, fun s e ho hn he hs hd => ?_⟩
  · intro t
    have hexec : exec (.silenceTimerExpiry idx) s = .next (silenceExpiry idx s) := congrArg Host.Outcome.next (whileOperating_pos ho _)
    have he := stream_of_mem hn (streamAt_mem hat)
    have hdue (hs : e.state = .enrolled ∨ e.state = .active ∨ e.state = .suspect) :
        silenceExpiry idx s = changeStream e.cfg.id StreamEntry.silence s :=
      silenceExpiry_due hat (StreamEntry.silenceDue_iff.2 ⟨hs, due, ht, hd⟩)
    rw [hexec]
    refine ⟨fun hs => ?_, fun hs => ?_, fun hs => ?_⟩
    · rw [hdue (by tauto), changeStream_quiet (g := StreamEntry.silence) hn he rfl
        (by rcases hs with hs | hs <;> simp [hs, StreamEntry.silence])]
      rfl
    · rw [hdue (by tauto), changeStream_passage (g := StreamEntry.silence) hn he rfl (by simp [hs, StreamEntry.silence])]
      rfl
    · rw [silenceExpiry_early hat fun h => ?_]
      have := (StreamEntry.silenceDue_iff.1 h).1
      rcases hs with hs | hs <;> simp [hs] at this
  · intro n cause
    have hc : (e.recount s.table).isComplete s.table = true ↔ n = requiredCount s.table e.ordinal := by
      simp [EpochRec.isComplete, EpochRec.recount, hs, n]
    have hexec : exec (.deadlineExpiry e.ordinal) s = .next (expireDeadline e.ordinal s) :=
      congrArg Host.Outcome.next (whileOperating_pos ho _)
    rw [hexec, expireDeadline_due hn he hs hd]
    by_cases hn' : n = requiredCount s.table e.ordinal
    · simp only [hc.2 hn', if_true, if_pos hn', cause]; rfl
    · simp only [mt hc.1 hn', if_neg hn', cause]; rfl

/-! ### ISOLATE and RESTORE (R39, R40) -/

/-- RESTORE passes an ISOLATED entry to ENROLLED with its timer loaded, and leaves any other. -/
theorem StreamEntry.restore_isolated {e : StreamEntry} (h : e.state = .isolated) (now : Nat) :
    e.restore now = { e with state := .enrolled, timer := some (now + e.cfg.silenceMs * 1000) } := if_pos h
theorem StreamEntry.restore_other {e : StreamEntry} (h : e.state ≠ .isolated) (now : Nat) : e.restore now = e := if_neg h

/-- ISOLATE or RESTORE of an ID that no active entry holds. -/
theorem isolateAct_unknown {f : CtrlFrame} {s : State} (hl : f.args.length = 2) (he : s.stream (field f.args 0 2) = none) :
    isolateAct f s = reply f.re .unknownStream [] s ∧ restoreAct f s = reply f.re .unknownStream [] s := by
  simp [isolateAct, restoreAct, checked, hl, he]

/-- ISOLATE or RESTORE of an active entry changes the stream and replies. -/
theorem isolateAct_known {f : CtrlFrame} {s : State} {e : StreamEntry} (hl : f.args.length = 2)
    (he : s.stream (field f.args 0 2) = some e) :
    isolateAct f s = reply f.re .ok [] (isolateStream (field f.args 0 2) s) ∧
      restoreAct f s = reply f.re .ok [] (changeStream (field f.args 0 2) (StreamEntry.restore s.tick) s) := by
  simp [isolateAct, restoreAct, checked, hl, he]

/-- What ISOLATE does to a stream: nothing to an ISOLATED one, isolating while a frame of it is in admission, else the passage. -/
theorem isolateStream_known {s : State} {id : Nat} {e : StreamEntry} (he : s.stream id = some e) :
    isolateStream id s =
      if e.state = .isolated then s
      else if s.inAdmission id then s.mapStream id fun x => { x with isolating := true }
      else changeStream id StreamEntry.isolate s := by
  simp only [isolateStream, he]

/-- Settles O49: the stream unknown, or its entry by its state and by what is in admission. -/
theorem isolateAndRestore : Obligations.IsolateAndRestore := by
  unfold Obligations.IsolateAndRestore
  intro s f q ho hq hl hn id
  have row {b : Byte} (h : f.re.code = b) : f.re.code.toNat = b.toNat := congrArg _ h
  have isolate (hc : f.re.code = 0x20#8) : exec .isolate s = .next (isolateAct f (s.popped q)) :=
    exec_act (fun _ => rfl) ho hq (row hc)
  have restore (hc : f.re.code = 0x21#8) : exec .restore s = .next (restoreAct f (s.popped q)) :=
    exec_act (fun _ => rfl) ho hq (row hc)
  refine ⟨fun he => ?_, fun e he => ?_⟩
  · obtain ⟨hi, hr⟩ := isolateAct_unknown (s := s.popped q) hl he
    exact ⟨fun hc => by rw [isolate hc, hi], fun hc => by rw [restore hc, hr]⟩
  · intro isolated
    have he' : (s.popped q).stream id = some e := he
    have hn' : ((s.popped q).table.streams.map fun x => x.cfg.id).Nodup := hn
    obtain ⟨hi, hr⟩ := isolateAct_known (s := s.popped q) hl he
    refine ⟨fun hc => ⟨fun hs => ?_, fun hs hin => ?_, fun hs hout => ?_⟩, fun hc => ⟨fun hs => ?_, fun hs => ?_⟩⟩
    · rw [isolate hc, hi, isolateStream_known he', if_pos hs]
    · obtain ⟨o, hm, hid, hix⟩ := hin
      have hadm : (s.popped q).inAdmission id = true :=
        List.any_eq_true.2 ⟨o, hm, by simp [hid, Option.isSome_iff_ne_none, hix]⟩
      rw [isolate hc, hi, isolateStream_known he', if_neg hs, if_pos hadm]
    · have hadm : ¬ (s.popped q).inAdmission id = true := by
        rw [Bool.not_eq_true, inAdmission_eq_false]; exact hout
      rw [isolate hc, hi, isolateStream_known he', if_neg hs, if_neg hadm]
      by_cases ha : e.state = .active
      · rw [if_pos ha, changeStream_passage (g := StreamEntry.isolate) hn' he' rfl (by simp [ha, StreamEntry.isolate])]; rfl
      · rw [if_neg ha, changeStream_quiet (g := StreamEntry.isolate) hn' he' rfl (by simp [ha, StreamEntry.isolate])]; rfl
    · rw [restore hc, hr, changeStream_same hn' he' (StreamEntry.restore_other hs _)]
    · rw [restore hc, hr, changeStream_quiet (g := fun x => { x with state := .enrolled, timer := some (s.tick + x.cfg.silenceMs * 1000) })
        hn' he' (StreamEntry.restore_isolated hs (s.popped q).tick) (by simp [hs])]

end Sys2Proof.Machine
end

