-- ==== Sys2Proof/Proofs/Acceptance.lean ====
section
/-! PROOFS. The record that opens, where what is inserted stands, what acceptance writes (R47, R76, R77, R89 to R92), and the queueing of
a part (R48, R97, R132). -/

namespace Sys2Proof.Machine

/-! ### The deadline of a record that opens (R91, R118) -/

/-- With base FIRST_ARRIVAL the deadline counts from the open tick. -/
theorem deadlineOf_firstArrival {s : State} (h : s.table.params.base = .firstArrival) (ordinal openTick : Nat) :
    deadlineOf s ordinal openTick = (openTick + s.table.params.budgetMs * 1000, false) := by
  simp only [deadlineOf, h]

/-- With base TIMESTAMP and no mapping it falls back to the open tick. -/
theorem deadlineOf_fallback {s : State} (h : s.table.params.base = .timestamp) (hm : s.tru.mapping = none) (ordinal openTick : Nat) :
    deadlineOf s ordinal openTick = (openTick + s.table.params.budgetMs * 1000, true) := by
  simp only [deadlineOf, h, hm]

/-- With base TIMESTAMP and a mapping it is the tick of the instant and the budget after it. -/
theorem deadlineOf_mapped {s : State} {m : Mapping} (h : s.table.params.base = .timestamp) (hm : s.tru.mapping = some m)
    (ordinal openTick : Nat) :
    deadlineOf s ordinal openTick = (m.tickOf (instantUs s.rate ordinal + s.table.params.budgetMs * 1000), false) := by
  simp only [deadlineOf, h, hm]

/-- The tick of an instant, 0 where it lies below 0. -/
theorem tickOf_eq (m : Mapping) (instant : Nat) :
    m.tickOf instant = ((m.tick : Int) + (instant : Nat) - (m.label * 1000000 : Nat)).toNat := by
  unfold Mapping.tickOf; omega

/-! ### Where what is inserted stands (R76, R77) -/

/-- A contribution stands after those of a lower index and before the others. -/
theorem insertContribution_between {c : Contribution} {cs ds : List Contribution}
    (hcs : ∀ d ∈ cs, d.index ≠ none ∧ d.index.getD 0 < c.index.getD 0)
    (hds : ∀ d ∈ ds.head?, d.index = none ∨ c.index.getD 0 < d.index.getD 0) (hc : c.index ≠ none) :
    insertContribution c (cs ++ ds) = cs ++ c :: ds := by
  obtain ⟨i, hi⟩ := Option.ne_none_iff_exists'.1 hc
  induction cs with
  | nil =>
    cases ds with
    | nil => rfl
    | cons d ds =>
      have hp : c.precedes d = true := by
        have := hds d (by simp)
        cases hd : d.index with
        | none => simp [Contribution.precedes, hi, hd]
        | some j => simpa [Contribution.precedes, hi, hd] using this
      simp only [List.nil_append, insertContribution, if_pos hp]
  | cons d cs ih =>
    obtain ⟨hd, hlt⟩ := hcs d (by simp)
    obtain ⟨j, hj⟩ := Option.ne_none_iff_exists'.1 hd
    have hp : ¬ c.precedes d = true := by
      simp only [hi, hj, Option.getD_some] at hlt
      simp only [Contribution.precedes, hi, hj, decide_eq_true_eq]; omega
    simp only [List.cons_append, insertContribution, if_neg hp, ih fun x hx => hcs x (by simp [hx])]

/-- A record stands after those of a lower ordinal and before the others. -/
theorem insertRecord_between {e : EpochRec} {rs qs : List EpochRec} (hrs : ∀ r ∈ rs, r.ordinal < e.ordinal)
    (hqs : ∀ r ∈ qs.head?, e.ordinal < r.ordinal) : insertRecord e (rs ++ qs) = rs ++ e :: qs := by
  induction rs with
  | nil =>
    cases qs with
    | nil => rfl
    | cons r qs => simp only [List.nil_append, insertRecord, if_pos (hqs r (by simp))]
  | cons r rs ih =>
    have hr := hrs r (by simp)
    simp only [List.cons_append, insertRecord, if_neg (Nat.not_lt.2 hr.le), ih fun x hx => hrs x (by simp [hx])]

/-! ### Acceptance (R89 to R92) -/

/-- The record a contribution goes to is its ordinal's. -/
theorem targetRecord_ordinal (s : State) (o : Offer) : (targetRecord s o).ordinal = o.ordinal := by
  unfold targetRecord Ring.recordOf
  cases h : s.ring.recs.find? fun e => e.ordinal == o.ordinal with
  | none => rfl
  | some e => simpa using List.find?_some h

/-- The ring and the streams after an acceptance that leaves a record: it opens or takes its place, and `last_epoch` rises (R47). -/
def acceptedInto (s : State) (o : Offer) (e : EpochRec) : State :=
  { s with
    ring := { s.ring with recs := if (s.ring.recordOf o.ordinal).isNone then insertRecord e s.ring.recs
                                  else s.ring.recs.map fun d => if d.ordinal = e.ordinal then e else d }
    table := { s.table with streams := s.table.streams.map fun x => if x.cfg.id == o.id then
      { x with lastEpoch := some (max (x.lastEpoch.getD 0) o.ordinal) } else x } }

/-- Acceptance by the record it leaves: its seal is counted, if it was sealed (R89, R94). -/
theorem accept_eq (s : State) (o : Offer) :
    accept s o = match (takenRecord s o).cause with
      | some cause => report cause.ctr (acceptedInto s o (takenRecord s o))
      | none => acceptedInto s o (takenRecord s o) := by
  have hord : (takenRecord s o).ordinal = o.ordinal := by
    rw [← targetRecord_ordinal s o]
    unfold takenRecord
    dsimp only
    split <;> rfl
  have hput : putRecord (takenRecord s o) s.ring =
      if (s.ring.recordOf o.ordinal).isNone then insertRecord (takenRecord s o) s.ring.recs
      else s.ring.recs.map fun d => if d.ordinal = (takenRecord s o).ordinal then takenRecord s o else d := by
    rw [putRecord, hord]
    cases s.ring.recordOf o.ordinal <;> rfl
  simp only [accept, hput]
  rfl

/-- Settles O23: the deadline by base and mapping, the places by what stands before, and acceptance by what seals the record. -/
theorem acceptanceFillsItsRecord : Obligations.AcceptanceFillsItsRecord := by
  unfold Obligations.AcceptanceFillsItsRecord
  refine ⟨fun s ordinal openTick => ⟨fun h => deadlineOf_firstArrival h _ _, fun h hm => deadlineOf_fallback h hm _ _,
      fun m h hm => ?_⟩, fun s ordinal openTick => rfl,
    fun c e cs ds rs qs => ⟨insertContribution_between, insertRecord_between⟩, fun s o => ?_⟩
  · rw [deadlineOf_mapped h hm, tickOf_eq]; rfl
  · intro old n opens filled rest
    have htake : (targetRecord s o).take s.table o.contribution = filled := rfl
    have hrest : acceptedInto s o = rest := rfl
    have htaken : takenRecord s o = match afterTaking s.table s.tick opens filled with
      | some cause => filled.seal cause s.tick
      | none => filled := rfl
    refine ⟨fun hn => ?_, fun hn ho hd => ?_, fun hn ho hcause => ?_⟩
    · have hafter : afterTaking s.table s.tick opens filled = some .complete := if_pos hn
      rw [accept_eq, htaken, hafter, hrest]; rfl
    · have hafter : afterTaking s.table s.tick opens filled = some .deadline := by
        rw [afterTaking, if_neg hn, if_pos (by simpa [ho] using hd)]
      rw [accept_eq, htaken, hafter, hrest]; rfl
    · have hafter : afterTaking s.table s.tick opens filled = none := by
        rw [afterTaking, if_neg hn, if_neg]
        have hdl : filled.deadline = old.deadline := rfl
        rcases ho with ho | ho
        · simp [ho]
        · simp [hdl, ho]
      have hc : filled.cause = none := hcause
      rw [accept_eq, htaken, hafter, hrest]
      simp only [hc]

/-! ### Queueing a part (R132) -/

/-- The next part of an EMITTING head is due while an O slot is free (R97). -/
theorem partDue_of_room {s : State} {r : EpochRec} {rest : List EpochRec} {c : Composition} {p : SetPart}
    (hr : s.ring.recs = r :: rest) (he : r.state = .emitting) (hc : s.comp.set = some c) (hp : c.parts[c.queued]? = some p)
    (ho : s.egress.o.length < 16) : s.partDue = some (c, p) := by
  simp [State.partDue, hr, he, hc, hp, ho]

/-- An entry after a part that may hold a record of it, record by record (R48, R132). -/
theorem queuedIn_eq (rs : List SetRecord) (e : StreamEntry) :
    e.queuedIn rs = match rs.find? (fun x => x.idx == e.idx) with
      | none => e
      | some x => match x.status with
        | .present => { e with hold := x.content, holdAge := 0 }
        | .held => { e with holdAge := x.holdAge, counts := { e.counts with heldEmitted := satInc e.counts.heldEmitted } }
        | .absent => { e with counts := { e.counts with absentEmitted := satInc e.counts.absentEmitted } }
        | .overridden => e := by
  unfold StreamEntry.queuedIn
  cases rs.find? (fun x => x.idx == e.idx) with
  | none => rfl
  | some x => cases hst : x.status <;> simp only [StreamEntry.queued, hst]

/-- Settles O32: the part that is due, with what it moves. -/
theorem queuedPartMovesHoldCaches : Obligations.QueuedPartMovesHoldCaches := by
  unfold Obligations.QueuedPartMovesHoldCaches
  intro s r rest c p ho hr he hc hp hroom moved t
  have hmoved : StreamEntry.queuedIn p.records = moved := funext fun e => (queuedIn_eq p.records e).trans (by
    cases hf : p.records.find? (fun x => x.idx == e.idx) with
    | none => simp only [moved, hf]
    | some x => cases hst : x.status <;> simp only [moved, hf, hst])
  have hjoin : joinO p.frame (moveRecords p.records
      { s with comp := { s.comp with set := some { c with queued := c.queued + 1 } } }) = t := by
    simp only [joinO, moveRecords, hmoved, t]
  have hexec : exec .queuePart s = .next (queueNext s) := congrArg Host.Outcome.next (whileOperating_pos ho _)
  rw [hexec]
  simp only [queueNext, partDue_of_room hr he hc hp hroom, hjoin]

end Sys2Proof.Machine
end

