-- ==== Sys2Proof/Proofs/Staging.lean ====
section
/-! PROOFS. STAGE_STREAM, UNSTAGE_STREAM, DISCARD_STAGE and STAGE_RANGE (R33, R34, R52, R174 to R176). -/

namespace Sys2Proof.Machine

/-- A staging command of the right form acts while no commit waits (R173, R178). -/
theorem checked_staging {f : CtrlFrame} {s : State} (hc : s.ctl.commit = .none) (act : State → State) :
    checked f true true (whenNoCommit f act) s = act s := by
  rw [checked_good, whenNoCommit, if_pos hc]

/-! ### STAGE_STREAM (R175) -/

/-- STAGE_STREAM with the arguments of a configuration: its range, and then its place (R33, R34). -/
theorem stageStreamAct_written {f : CtrlFrame} {s : State} {c : StreamCfg} (hc : s.ctl.commit = .none)
    (ha : f.args = be 2 c.id ++ cfgBytes c) (hfits : c.Fits) :
    stageStreamAct f s =
      if c.inRange then
        match s.ctl.staged.indexFor c.id with
        | some i => reply f.re .ok (be 1 i) (s.stage { s.ctl.staged with streams := writeEntry i c s.ctl.staged.streams })
        | none => reply f.re .noRoom [] s
      else reply f.re .badField [] s := by
  have hr := readStreamCfg_written [] hfits
  rw [List.append_nil, ← ha] at hr
  obtain ⟨hread, h11, h12, h13⟩ := hr
  have hl : f.args.length = 19 := by rw [ha, streamBytes_length]
  rw [stageStreamAct, hl, h11, h12, h13]
  exact (checked_staging hc _).trans (hread ▸ rfl)

/-- Every index below 256 occupied leaves none VACANT (R34). -/
theorem lowestVacant_full {g : StagedSet} (h : ∀ i, i < 256 → ∃ p ∈ g.streams, p.1 = i) : g.lowestVacant = none := by
  cases hv : g.lowestVacant with
  | none => rfl
  | some i =>
    obtain ⟨hfree, hlt, -⟩ := lowestVacant_eq_some.1 hv
    obtain ⟨p, hp, hi⟩ := h i hlt
    exact absurd hi (hfree p hp)

/-- The index of an ID that one entry holds (R34). -/
theorem indexOf_unique {g : StagedSet} {id : Nat} {p : Nat × StreamCfg} (hp : p ∈ g.streams) (hid : p.2.id = id)
    (hu : ∀ q ∈ g.streams, q.2.id = id → q = p) : g.indexOf id = some p.1 := by
  cases h : g.indexOf id with
  | none => exact absurd hid (indexOf_none.1 h p hp)
  | some i =>
    obtain ⟨q, hq, rfl, hqid⟩ := indexOf_some h
    rw [hu q hq hqid]

/-- Settles O44: the configuration read back from its arguments, its range, and the index it is written at. -/
theorem stageStreamWritesByStreamId : Obligations.StageStreamWritesByStreamId := by
  unfold Obligations.StageStreamWritesByStreamId
  intro s f q c ho hq hcode hc ha h0 h1 h2 h3 h4 h5 h6 h7 h8 h9 hasc accepted
  have hfits : c.Fits := ⟨h0, h1, h2, h3, h4, h5, h6, h7, h8, h9⟩
  have hargs : f.args = be 2 c.id ++ cfgBytes c := by simp only [ha, cfgBytes, List.append_assoc]
  have hin : c.inRange = true ↔ accepted := StreamCfg.inRange_iff
  have hexec : exec .stageStream s = .next (stageStreamAct f (s.popped q)) := exec_act (fun _ => rfl) ho hq (congrArg _ hcode)
  have hstaged : (s.popped q).ctl.staged = s.ctl.staged := rfl
  rw [hexec, stageStreamAct_written (s := s.popped q) hc hargs hfits, hstaged]
  refine ⟨fun hn => by rw [if_neg (mt hin.1 hn)], fun hacc hnone hfull => ?_, fun i hacc hplace => ?_⟩
  · have hi : s.ctl.staged.indexFor c.id = none := by
      rw [StagedSet.indexFor, indexOf_none.2 hnone]; exact lowestVacant_full hfull
    rw [if_pos (hin.2 hacc), hi]
  · have hi : s.ctl.staged.indexFor c.id = some i := by
      rcases hplace with ⟨p, hp, hpi, hid, hu⟩ | ⟨hnew, hlt, hlower⟩
      · rw [StagedSet.indexFor, indexOf_unique hp hid hu, hpi]
      · rw [StagedSet.indexFor, indexOf_none.2 fun p hp => (hnew p hp).1]
        exact lowestVacant_eq_some.2 ⟨fun p hp => (hnew p hp).2, hlt, hlower⟩
    obtain ⟨hsorted, hmem⟩ := writeEntry_sorted i c s.ctl.staged.streams hasc
    rw [if_pos (hin.2 hacc), hi]
    exact ⟨_, rfl, hsorted, hmem⟩

/-! ### UNSTAGE_STREAM, DISCARD_STAGE and STAGE_RANGE (R176) -/

/-- UNSTAGE_STREAM by the index of its ID. -/
theorem unstageStreamAct_eq {f : CtrlFrame} {s : State} (hc : s.ctl.commit = .none) (hl : f.args.length = 2) :
    unstageStreamAct f s = match s.ctl.staged.indexOf (field f.args 0 2) with
      | some i => reply f.re .ok (be 1 i) (s.stage { s.ctl.staged with streams := s.ctl.staged.streams.filter fun p => p.1 != i })
      | none => reply f.re .unknownStream [] s := by
  rw [unstageStreamAct, hl]
  exact checked_staging hc _

/-- DISCARD_STAGE copies the active set. -/
theorem discardStageAct_eq {f : CtrlFrame} {s : State} (hc : s.ctl.commit = .none) (hl : f.args = []) :
    discardStageAct f s = reply f.re .ok [] (s.stage s.table.copy) := by
  rw [discardStageAct, hl]
  exact checked_staging hc _

/-- STAGE_RANGE with settings that are on or off: map index and ranges, then the alignment, then the write (R52). -/
theorem stageRangeAct_eq {f : CtrlFrame} {s : State} (hc : s.ctl.commit = .none) (hl : f.args.length = 12)
    (h1 : field f.args 1 1 ≤ 1) (h8 : field f.args 8 1 ≤ 1) (h9 : field f.args 9 1 ≤ 1) (h10 : field f.args 10 1 ≤ 1)
    (h11 : field f.args 11 1 ≤ 1) :
    stageRangeAct f s =
      if h : field f.args 0 1 < 8 ∧ (readRangeEntry f.args).inRange then
        if (readRangeEntry f.args).aligned then
          reply f.re .ok [] (s.stage { s.ctl.staged with ranges := s.ctl.staged.ranges.set (field f.args 0 1) (readRangeEntry f.args) h.1 })
        else reply f.re .misaligned [] s
      else reply f.re .badField [] s := by
  rw [stageRangeAct, hl, isOnOff_eq_true.2 h1, isOnOff_eq_true.2 h8, isOnOff_eq_true.2 h9, isOnOff_eq_true.2 h10, isOnOff_eq_true.2 h11]
  exact checked_staging hc _

/-- A base read from two bytes is in range, so a map entry is in range exactly with a size that is (R52). -/
theorem readRangeEntry_inRange {a : List Byte} :
    (readRangeEntry a).inRange = true ↔ ∃ k : Nat, k ≤ 16 ∧ field a 4 4 = 2 ^ k := by
  have hb := field_lt a 2 2
  rw [RangeEntry.inRange, Bool.and_eq_true, List.contains_iff_mem, mem_rangeSizes]
  exact and_iff_left (decide_eq_true (Nat.le_of_lt_succ hb))

/-- Its alignment is that of the base read with the size read (R52). -/
theorem readRangeEntry_aligned {a : List Byte} : (readRangeEntry a).aligned = true ↔ field a 2 2 % field a 4 4 = 0 := by
  simp only [RangeEntry.aligned, readRangeEntry, beq_iff_eq]

/-- Settles O45: the staged entry of an ID, the copy, and the map entry by its two tests. -/
theorem unstageDiscardAndStageRange : Obligations.UnstageDiscardAndStageRange := by
  unfold Obligations.UnstageDiscardAndStageRange
  refine ⟨fun s f q ho hq hc => ⟨fun hcode hl => ?_, fun hcode hl => ?_⟩, fun s f q ho hq hcode hc hl h1 h8 h9 h10 h11 => ?_⟩
  · have hexec : exec .unstageStream s = .next (unstageStreamAct f (s.popped q)) := exec_act (fun _ => rfl) ho hq (congrArg _ hcode)
    have hstaged : (s.popped q).ctl.staged = s.ctl.staged := rfl
    rw [hexec, unstageStreamAct_eq (s := s.popped q) hc hl, hstaged]
    refine ⟨fun hnone => by rw [indexOf_none.2 hnone], fun p hp hid hn => ?_⟩
    rw [indexOf_unique hp hid fun x hx hxid => List.inj_on_of_nodup_map hn hx hp (hxid.trans hid.symm)]
    rfl
  · rw [exec_act (act := discardStageAct) (fun _ => rfl) ho hq (congrArg _ hcode), discardStageAct_eq (s := s.popped q) hc hl]
    rfl
  · intro i size written goodSize
    have hexec : exec .stageRange s = .next (stageRangeAct f (s.popped q)) := exec_act (fun _ => rfl) ho hq (congrArg _ hcode)
    have hgood : (readRangeEntry f.args).inRange = true ↔ goodSize := readRangeEntry_inRange
    have haligned : (readRangeEntry f.args).aligned = true ↔ field f.args 2 2 % size = 0 := readRangeEntry_aligned
    rw [hexec, stageRangeAct_eq (s := s.popped q) hc hl h1 h8 h9 h10 h11]
    refine ⟨fun h => ?_, fun hi hg hm => ?_, fun hi hg hm => ?_⟩
    · rw [dif_neg fun h' => h.elim (fun hlt => by have : i < 8 := h'.1; omega) fun hn => hn (hgood.1 h'.2)]
    · rw [dif_pos ⟨Nat.lt_succ_of_le hi, hgood.2 hg⟩, if_neg (mt haligned.1 hm)]
    · rw [dif_pos ⟨hi, hgood.2 hg⟩, if_pos (haligned.2 hm)]
      rfl

end Sys2Proof.Machine
end

