-- ==== Sys2Proof/Proofs/Reads.lean ====
section
/-! PROOFS. The four reads, field by field (R34, R99, R110, R124, R185, R186). -/

namespace Sys2Proof.Machine

/-! ### Encodings of R12 -/

/-- A link as a named value (R15). -/
theorem linkField_eq (l : Link) : be 1 l.code = [if l = .up then 0#8 else 1#8] := by cases l <;> rfl

/-- A value that may be absent, by whether it is (R185, log 15). -/
theorem optField_eq (w : Nat) (o : Option Nat) :
    optField w o = match o with
      | none => 0#8 :: List.replicate w 0xFF#8
      | some v => 1#8 :: be w v := by cases o <;> rfl

/-- The degraded indication compares the clock quality with the threshold (R120). -/
theorem degraded_eq (s : State) : s.degraded = decide (s.table.params.tqMax < s.clockQuality) := rfl

/-- Source state as a field: 1 for a source in holdover. -/
theorem holdover_toNat (m : MsgQuality) : m.holdover.toNat = if m.holdover then 1 else 0 := by cases m.holdover <;> rfl

/-- The drain code, by the two drains (R185). -/
theorem drainCode_eq (r : Ring) : r.drainCode = match r.stepDrain, r.commitDrain with
    | false, false => 0 | true, false => 1 | false, true => 2 | true, true => 3 := by
  unfold Ring.drainCode
  cases r.stepDrain <;> cases r.commitDrain <;> rfl

/-- Named values of the reads by their cases (R12, R14). -/
theorem LockState.code_eq (k : LockState) : k.code = match k with | .acquiring => 0 | .locked => 1 | .holdover => 2 := by cases k <;> rfl
theorem EmissionMode.code_eq (m : EmissionMode) : m.code = match m with | .run => 0 | .withhold => 1 | .single => 2 := by cases m <;> rfl
theorem CommitState.code_eq (c : CommitState) : c.code = match c with | .none => 0 | .pendingBoundary => 1 | .pendingDrain => 2 := by
  cases c <;> rfl
theorem ProfileState.code_eq (p : ProfileState) : p.code = match p with | .good => 0 | .bad => 1 | .writing => 2 := by cases p <;> rfl
theorem StreamState.code_eq (x : StreamState) : x.code = match x with
    | .enrolled => 1 | .active => 2 | .suspect => 3 | .silent => 4 | .isolated => 5 := by cases x <;> rfl

/-- The Time Reference Unit's report, field by field (R110). -/
theorem timeBytes_eq (s : State) : timeBytes s =
    be 1 (match s.tru.state with | .acquiring => 0 | .locked => 1 | .holdover => 2) ++ be 1 s.clockQuality
      ++ onOff (decide (s.table.params.tqMax < s.clockQuality)) ++ optField 4 (s.tru.mapping.map fun m => labelField m.label)
      ++ optField 2 (s.tru.holdEntry.map fun e => (s.tick - e) / 1000000)
      ++ be 1 s.tru.streak ++ be 1 (if s.tru.mismatch = none then 0 else 1)
      ++ optField 1 (s.tru.lastMsg.map fun m => m.quality) ++ optField 1 (s.tru.lastMsg.map fun m => if m.holdover then 1 else 0) := by
  have hmismatch : (if s.tru.mismatch.isSome then 1 else 0) = if s.tru.mismatch = none then 0 else 1 := by
    cases s.tru.mismatch <;> rfl
  have hhold : s.holdoverTime.map (· / 1000000) = s.tru.holdEntry.map fun e => (s.tick - e) / 1000000 := by
    simp only [State.holdoverTime, Option.map_map, Function.comp_def]
  have hquality : (fun m : MsgQuality => m.holdover.toNat) = fun m => if m.holdover then 1 else 0 := funext holdover_toNat
  rw [timeBytes, LockState.code_eq, degraded_eq, hhold, hmismatch, hquality]

/-- The records of a state, counted by equality (R99). -/
theorem countState_eq (r : Ring) (st : RecState) : r.countState st = r.recs.countP fun x => decide (x.state = st) := by
  simp only [Ring.countState, beq_eq_decide]

/-- The action of an override as a named value (R136). -/
theorem OverrideAction.code_eq (a : OverrideAction) : a.code = match a with | .substitute => 0 | .markInvalid => 1 | .suppress => 2 := by
  cases a <;> rfl

/-- An override as READ_OVERRIDES shows it: its own Δf and phasors for SUBSTITUTE, free values otherwise (R136, log 18). -/
theorem overrideBytes_eq (n : Nat) (o : Override) : overrideBytes n o =
    be 1 (match o.action with | .substitute => 0 | .markInvalid => 1 | .suppress => 2)
      ++ if o.action = .substitute then be 2 o.df.toNat ++ (be 1 o.phasors.length ++ o.phasors.flatMap phasorBytes)
        else be 2 (Config.idleOverrideDf n).toNat ++ (be 1 (((List.range (Config.idleOverrideCount n).val).map fun i =>
            ({ magnitude := Config.idleOverrideMagnitude n i, angle := Config.idleOverrideAngle n i } : Phasor)).length)
          ++ ((List.range (Config.idleOverrideCount n).val).map fun i =>
            ({ magnitude := Config.idleOverrideMagnitude n i, angle := Config.idleOverrideAngle n i } : Phasor)).flatMap phasorBytes) := by
  obtain ⟨action, df, ps⟩ := o
  cases action <;> simp [overrideBytes, Override.shown, OverrideAction.code_eq]

/-- READ_STREAM of an ID that no active entry holds (R186). -/
theorem readStreamAct_none {f : CtrlFrame} {s : State} (hl : f.args.length = 3) (hb : field f.args 2 1 ≤ 1)
    (hs : s.stream (field f.args 0 2) = none) : readStreamAct f s = reply f.re .unknownStream [] s := by
  simp only [readStreamAct, hl, isOnOff, decide_eq_true hb, BEq.rfl, checked_good, hs]

/-- READ_STREAM of a stream: its report, and its counters cleared when asked (R50, R186). -/
theorem readStreamAct_some {f : CtrlFrame} {s : State} {e : StreamEntry} (hl : f.args.length = 3) (hb : field f.args 2 1 ≤ 1)
    (hs : s.stream (field f.args 0 2) = some e) : readStreamAct f s = reply f.re .ok (streamBytes s.tick e)
      (if field f.args 2 1 = 1 then s.mapStream (field f.args 0 2) fun x => { x with counts := StreamCounts.zero } else s) := by
  simp only [readStreamAct, hl, isOnOff, decide_eq_true hb, BEq.rfl, checked_good, hs, readOnOff, beq_iff_eq]

/-- Whether a hold cache exists (R186). -/
theorem isSome_hold (e : StreamEntry) : e.hold.isSome = decide (e.hold ≠ none) := by cases e.hold <;> rfl

/-- Settles O51: each read is its row of the queue's head, and its report is compared field by field. -/
theorem readsReplyAndChangeNothing : Obligations.ReadsReplyAndChangeNothing := by
  unfold Obligations.ReadsReplyAndChangeNothing
  intro s f q ho hq flag bit link phasors
  have hflag (w : Nat) (o : Option Nat) : optField w o = flag w o := optField_eq w o
  have hbit (b : Bool) : onOff b = bit b := rfl
  have hlink (l : Link) : be 1 l.code = link l := linkField_eq l
  refine ⟨fun hc hl => ?_, fun hc hl => ?_, fun hc hl => ?_, fun hc hl hb => ?_⟩
  · intro identity time count ring composer control
    have hexec : exec .readStatus s = .next (readStatusAct f (s.popped q)) := exec_act (fun _ => rfl) ho hq (congrArg _ hc)
    have hidentity : identityBytes (s.popped q) = identity := by
      simp only [identityBytes, hbit, hlink]
      rfl
    have htime : timeBytes (s.popped q) = time := by
      rw [timeBytes_eq]
      simp only [hflag, hbit]
      rfl
    have hring : ringBytes (s.popped q).ring = ring := by
      simp only [ringBytes, hflag, drainCode_eq, countState_eq]
      rfl
    have hcomposer : composerBytes (s.popped q).comp = composer := by
      simp only [composerBytes, hflag, hbit, EmissionMode.code_eq]
      rfl
    have hcontrol : controlBytes (s.popped q) = control := by
      simp only [controlBytes, CommitState.code_eq, ProfileState.code_eq]
      rfl
    rw [hexec, readStatusAct, hl]
    refine congrArg Host.Outcome.next ((checked_good _ _ _).trans ?_)
    rw [statusBytes, hidentity, htime, hring, hcomposer, hcontrol]
  · have hexec : exec .readRanges s = .next (readRangesAct f (s.popped q)) := exec_act (fun _ => rfl) ho hq (congrArg _ hc)
    rw [hexec, readRangesAct, hl]
    rfl
  · intro given entry
    have hexec : exec .readOverrides s = .next (readOverridesAct f (s.popped q)) := exec_act (fun _ => rfl) ho hq (congrArg _ hc)
    have hgiven (n : Nat) (o : Override) : overrideBytes n o = given n o := overrideBytes_eq n o
    have hentry (n : Nat) (e : OverrideEntry) : overrideEntryBytes n e = entry n e := by
      simp only [overrideEntryBytes, hgiven]
      rfl
    rw [hexec, readOverridesAct, hl]
    refine congrArg Host.Outcome.next ((checked_good _ _ _).trans ?_)
    simp only [overrideListBytes, hentry]
    rfl
  · have hexec : exec .readStream s = .next (readStreamAct f (s.popped q)) := exec_act (fun _ => rfl) ho hq (congrArg _ hc)
    refine ⟨fun hs => ?_, fun e hs => ?_⟩
    · rw [hexec, readStreamAct_none (s := s.popped q) hl hb hs]
    · have hreport : streamBytes s.tick e = be 2 e.cfg.id ++ be 1 e.idx ++ be 4 e.cfg.tb ++ be 1 e.cfg.rs ++ be 2 e.cfg.tol
          ++ be 1 e.cfg.phasors ++ be 1 e.cfg.analogs ++ bit e.cfg.correct ++ bit e.cfg.optional ++ bit e.cfg.straggle
          ++ be 1 e.cfg.holdLimit ++ be 1 e.cfg.tqMax ++ be 1 e.cfg.hysteresis ++ be 2 e.cfg.silenceMs
          ++ be 1 (match e.state with | .enrolled => 1 | .active => 2 | .suspect => 3 | .silent => 4 | .isolated => 5)
          ++ flag 2 (e.timer.map fun t => (t - s.tick) / 1000) ++ be 1 e.bad ++ be 1 e.good ++ flag 6 e.lastEpoch
          ++ bit (decide (e.hold ≠ none)) ++ be 1 e.holdAge ++ countsBytes e.counts := by
        simp only [streamBytes, cfgBytes, StreamState.code_eq, isSome_hold, hflag, hbit, List.append_assoc]
      rw [hexec, readStreamAct_some (s := s.popped q) hl hb hs]
      exact congrArg (fun bs => Host.Outcome.next (reply f.re .ok bs _)) hreport

end Sys2Proof.Machine
end

