-- ==== Sys2Proof/Proofs/CommitEffects.lean ====
section
/-! PROOFS. What the application of a commit changes and keeps (R49, R51, R95, R96, R106, R117, R122, R141, R181 to R183). -/

namespace Sys2Proof.Machine

/-! ### Counting, sealing and re-evaluation (R94, R95, R189) -/

/-- What reports make of the Monitor depends on the Monitor alone (R189). -/
theorem reportMany_mon_congr (c : Ctr) (n : Nat) {s t : State} (h : s.mon = t.mon) : (reportMany c n s).mon = (reportMany c n t).mon := by
  induction n generalizing s t with
  | zero => exact h
  | succ n ih =>
    refine ih ?_
    unfold report
    rw [h]
    split
    · rfl
    · exact h

/-- An OPEN record under a table: its count, and sealed COMPLETE where it is complete (R94, R95). -/
def EpochRec.reevaluated (a : ActiveSet) (now : Nat) (r : EpochRec) : EpochRec :=
  if r.state ≠ .opened then r
  else if (r.recount a).requiredPresent = requiredCount a r.ordinal then (r.recount a).seal .complete now
  else r.recount a

/-- A re-evaluation, record by record (R95). -/
theorem recountAll_recs (s : State) : (recountAll s).ring.recs = s.ring.recs.map (EpochRec.reevaluated s.table s.tick) := by
  rw [recountAll, sealWhere_recs, List.map_map]
  refine List.map_congr_left fun r _ => ?_
  by_cases ho : r.state = .opened
  · simp [EpochRec.reevaluated, EpochRec.isComplete, EpochRec.recount, ho]
  · simp [EpochRec.reevaluated, ho]

/-- A sealing raises the number of SEALED records by those it seals (R94). -/
theorem sealWhere_countP (c : SealCause) (p : EpochRec → Bool) (s : State) :
    (sealWhere c p s).ring.recs.countP (fun r => decide (r.state = .sealed)) =
      s.ring.recs.countP (fun r => decide (r.state = .sealed)) + s.ring.recs.countP (fun r => r.state == .opened && p r) := by
  rw [sealWhere_recs, List.countP_map]
  induction s.ring.recs with
  | nil => rfl
  | cons r rs ih =>
    simp only [List.countP_cons, ih, Function.comp_apply]
    by_cases ho : r.state = .opened
    · by_cases hp : p r = true
      · simp [ho, hp, EpochRec.seal]
        omega
      · simp [ho, hp]
    · simp [ho]
      omega

/-- A re-evaluation reports each record that it seals (R94, R95). -/
theorem recountAll_mon (s : State) : ∃ n, (recountAll s).mon = (reportMany .sealComplete n s).mon ∧
    (recountAll s).ring.recs.countP (fun r => decide (r.state = .sealed)) =
      s.ring.recs.countP (fun r => decide (r.state = .sealed)) + n := by
  refine ⟨_, reportMany_mon_congr _ _ (t := s) rfl, (sealWhere_countP _ _ _).trans (congrArg (· + _) ?_)⟩
  rw [List.countP_map]
  refine List.countP_congr fun r _ => ?_
  by_cases ho : r.state = .opened <;> simp [ho, EpochRec.recount]

/-! ### The parts of a commit (R181) -/

/-- The state of a commit before its re-evaluation and its reply (R181). -/
def committing (s : State) : State :=
  let old := s.table.params
  commitQuiesce old (commitStrobe old (commitHoldover old (commitTimeLine old (commitGrid old (commitTables s)))))

theorem applyCommit_eq (s : State) : applyCommit s = commitReply (recountAll (committing s)) := rfl

@[simp] theorem committing_fields (s : State) :
    (committing s).tick = s.tick ∧ (committing s).links = s.links ∧ (committing s).power = s.power ∧ (committing s).mon = s.mon ∧
    (committing s).ctl = s.ctl ∧ (committing s).adm = (commitTables s).adm ∧
    (committing s).table = (commitGrid s.table.params (commitTables s)).table ∧
    (committing s).ring = (commitGrid s.table.params (commitTables s)).ring := by
  simp [committing]

theorem applyCommit_table (s : State) : (applyCommit s).table = (committing s).table := by simp [applyCommit_eq]

/-- The records after a commit: renumbered, then re-evaluated under the new table (R95, R96, R182). -/
theorem applyCommit_recs (s : State) :
    (applyCommit s).ring.recs = s.ring.recs.map fun r => (r.renumber s).reevaluated (applyCommit s).table s.tick := by
  have h : (applyCommit s).ring = (recountAll (committing s)).ring := by simp [applyCommit_eq]
  rw [h, recountAll_recs, applyCommit_table, (committing_fields s).1]
  simp [commitTables, Function.comp_def]

/-- A change of grid rate at the floor and the departure memory (R56, R183). -/
theorem commitGrid_ring (old : Params) (s : State) :
    (commitGrid old s).ring.floor = (if s.rate ≠ old.rate then s.ring.floor.map (convertOrdinal old.rate s.rate) else s.ring.floor) ∧
    (commitGrid old s).ring.memory = if s.rate ≠ old.rate then [] else s.ring.memory := by
  unfold commitGrid
  by_cases h : old.rate = s.rate
  · simp [h]
  · simp [h, Ne.symm h]

/-- The active entry that a staged entry becomes, as R36, R49 and R56 give it. -/
theorem committedEntry_regrid (s : State) (p : Nat × StreamCfg) :
    (committedEntry s p).regrid s.rate s.ctl.staged.params.rate = match s.stream p.2.id with
      | none => enrolledEntry s.tick p.1 p.2
      | some e =>
        { e with
          idx := p.1
          cfg := p.2
          hold := if s.ctl.staged.params.rate ≠ s.rate ∨ e.cfg.phasors ≠ p.2.phasors ∨ e.cfg.analogs ≠ p.2.analogs then none
            else e.hold
          holdAge := if s.ctl.staged.params.rate ≠ s.rate ∨ e.cfg.phasors ≠ p.2.phasors ∨ e.cfg.analogs ≠ p.2.analogs then 0
            else min e.holdAge p.2.holdLimit
          lastEpoch := if s.ctl.staged.params.rate ≠ s.rate then e.lastEpoch.map (convertOrdinal s.rate s.ctl.staged.params.rate)
            else e.lastEpoch } := by
  unfold committedEntry
  cases s.stream p.2.id with
  | none => simp [StreamEntry.regrid, freshEntry, enrolledEntry, StreamCounts.zero]
  | some e =>
    have hlost : holdLost (s.rate != s.ctl.staged.params.rate) e.cfg p.2 = true ↔
        s.ctl.staged.params.rate ≠ s.rate ∨ e.cfg.phasors ≠ p.2.phasors ∨ e.cfg.analogs ≠ p.2.analogs := by
      simp [holdLost, ne_comm, or_assoc]
    simp only [keptEntry, StreamEntry.regrid, hlost]

/-- A contribution moves by its stream's index (R96, R182). -/
theorem renumbered_eq (s : State) (c : Contribution) : renumbered s c = match c.index with
    | none => c
    | some i => match (s.streamAt i).bind fun e => s.ctl.staged.indexOf e.cfg.id with
      | some j => { c with index := some j }
      | none => { c with index := none, former := some i } := by
  obtain ⟨index, former, content⟩ := c
  cases index with
  | none => rfl
  | some i => 
    simp only [renumbered, newIndex, Option.bind_some]
    cases (s.streamAt i).bind fun e => s.ctl.staged.indexOf e.cfg.id <;> rfl

/-- What no contribution precedes stands in the order of indexes, withdrawn contributions last by former index (R76, R182). -/
theorem Contribution.not_precedes_iff (a b : Contribution) : ¬ b.precedes a = true ↔ match a.index, b.index with
    | some i, some j => i ≤ j
    | some _, none => True
    | none, none => a.former.getD 0 ≤ b.former.getD 0
    | none, some _ => False := by
  unfold Contribution.precedes
  cases a.index <;> cases b.index <;> simp

/-- A changed TIME setting (R106, log 25). -/
theorem commitTimeLine_time (old : Params) (s : State) :
    (commitTimeLine old s).time = if s.table.params.baud ≠ old.baud ∨ s.table.params.parity ≠ old.parity then
      { s.time with chars := [], period := s.time.period + 1 } else s.time := by
  unfold commitTimeLine
  by_cases hb : old.baud = s.table.params.baud <;> by_cases hp : old.parity = s.table.params.parity <;>
    simp [hb, hp, Ne.symm]

/-- Holdover time, 0 outside HOLDOVER (R117). -/
theorem holdoverTime_getD (s : State) : s.holdoverTime.getD 0 = s.tru.holdEntry.elim 0 fun e => s.tick - e := by
  unfold State.holdoverTime
  cases s.tru.holdEntry <;> rfl

/-- A changed holdover limit that the holdover time has reached drops the mapping (R117). -/
theorem commitHoldover_eq (old : Params) (s : State) :
    commitHoldover old s = if s.tru.state = .holdover ∧ s.table.params.holdoverS ≠ old.holdoverS ∧
      s.table.params.holdoverS * 1000000 ≤ s.tru.holdEntry.elim 0 (fun e => s.tick - e) then dropMapping s else s := by
  unfold commitHoldover State.holdoverOver
  rw [holdoverTime_getD]
  refine if_congr ?_ rfl rfl
  simp only [Bool.and_eq_true, bne_iff_ne, beq_iff_eq, decide_eq_true_eq, ne_comm (a := old.holdoverS)]
  tauto

/-- A changed STROBE source or grid rate makes the last pulsed ordinal absent (R122). -/
theorem commitStrobe_eq (old : Params) (s : State) :
    commitStrobe old s = if s.table.params.strobe ≠ old.strobe ∨ s.rate ≠ old.rate then forgetPulse s else s := by
  unfold commitStrobe
  by_cases hb : old.strobe = s.table.params.strobe <;> by_cases hr : old.rate = s.rate <;> simp [hb, hr, Ne.symm]

/-- QUIESCE_ENABLE turned on while quiesce-seen is set latches QUIESCED and discards the waiting parts (R141, R142). -/
theorem commitQuiesce_eq (old : Params) (s : State) :
    commitQuiesce old s = if old.quiesceEnable = false ∧ s.table.params.quiesceEnable = true ∧ s.comp.seen = true then
      discardParts { s with comp := { s.comp with quiesced := true } } else s := by
  unfold commitQuiesce
  exact if_congr (by simp [and_assoc]) rfl rfl

/-- The end of a commit without a reply, and with one (R181). -/
theorem commitReply_none {s : State} (h : s.ctl.commitFor = none) : commitReply s =
    { s with ctl := { s.ctl with generation := (s.ctl.generation + 1) % 65536, commit := .none, commitFor := none } } := by
  rw [commitReply, h]

theorem commitReply_some {s : State} {re : ReplyTo} (h : s.ctl.commitFor = some re) : commitReply s =
    reply re .applied (be 2 ((s.ctl.generation + 1) % 65536))
      { s with ctl := { s.ctl with generation := (s.ctl.generation + 1) % 65536, commit := .none, commitFor := none } } := by
  rw [commitReply, h]

/-- What a commit makes of the Time Reference Unit, the lines and the Composer (R106, R117, R122, R141). -/
theorem committing_changes (s : State) :
    let old := s.table.params
    let new := s.ctl.staged.params
    let reached := s.tru.state = .holdover ∧ new.holdoverS ≠ old.holdoverS ∧
      new.holdoverS * 1000000 ≤ s.tru.holdEntry.elim 0 fun e => s.tick - e
    let latched := old.quiesceEnable = false ∧ new.quiesceEnable = true ∧ s.comp.seen = true
    (committing s).time =
      (if new.baud ≠ old.baud ∨ new.parity ≠ old.parity then { s.time with chars := [], period := s.time.period + 1 } else s.time) ∧
    (committing s).tru = (if reached then
      { s.tru with state := .acquiring, mapping := none, holdEntry := none, streak := 0, streakLabel := 0, mismatch := none }
      else s.tru) ∧
    (committing s).strobe = { s.strobe with
      lastPulsed := if reached ∨ new.strobe ≠ old.strobe ∨ new.rate ≠ old.rate then none else s.strobe.lastPulsed } ∧
    (committing s).comp = { s.comp with quiesced := if latched then true else s.comp.quiesced } ∧
    (committing s).egress = if latched then { s.egress with o := [] } else s.egress := by
  intro old new reached latched
  have hheld : commitHoldover old (commitTimeLine old (commitGrid old (commitTables s))) =
      if reached then dropMapping (commitTimeLine old (commitGrid old (commitTables s)))
      else commitTimeLine old (commitGrid old (commitTables s)) := by
    rw [commitHoldover_eq]
    exact if_congr (by simp [reached, old, new]) rfl rfl
  have hrate : (commitHoldover old (commitTimeLine old (commitGrid old (commitTables s)))).rate = new.rate := by
    simp [State.rate, new]
  have hparams : (commitHoldover old (commitTimeLine old (commitGrid old (commitTables s)))).table.params = new := by simp [new]
  have hquiesced : committing s =
      if latched then
        discardParts { commitStrobe old (commitHoldover old (commitTimeLine old (commitGrid old (commitTables s)))) with
          comp := { s.comp with quiesced := true } }
      else commitStrobe old (commitHoldover old (commitTimeLine old (commitGrid old (commitTables s)))) := by
    rw [committing, commitQuiesce_eq]
    simp [latched, old, new]
  refine ⟨?_, ?_, ?_, ?_, ?_⟩
  · simp [committing, commitTimeLine_time, new, old]
  · have h : (committing s).tru = (commitHoldover old (commitTimeLine old (commitGrid old (commitTables s)))).tru := by
      simp [committing, old]
    rw [h, hheld]
    by_cases hr : reached <;> simp [hr, dropMapping, forgetPulse]
  · have h : (committing s).strobe =
        (commitStrobe old (commitHoldover old (commitTimeLine old (commitGrid old (commitTables s))))).strobe := by
      simp [committing, old]
    rw [h, commitStrobe_eq, hparams, hrate, hheld]
    by_cases hc : new.strobe ≠ old.strobe ∨ new.rate ≠ old.rate <;> by_cases hr : reached <;>
      simp [hc, hr, dropMapping, forgetPulse]
  · rw [hquiesced]
    by_cases hl : latched <;> simp [hl]
  · rw [hquiesced]
    by_cases hl : latched <;> simp [hl, discardParts]

/-- A re-evaluated record keeps its list, and moves its count and, where it is complete, its seal (R94, R95). -/
theorem EpochRec.reevaluated_eq (a : ActiveSet) (now : Nat) (r : EpochRec) : r.reevaluated a now =
    if r.state ≠ .opened then r
    else if r.contributions.countP (countsPresent a r.ordinal) = requiredCount a r.ordinal then
      { r with
        requiredPresent := r.contributions.countP (countsPresent a r.ordinal)
        state := .sealed
        sealTick := some now
        cause := some .complete }
    else { r with requiredPresent := r.contributions.countP (countsPresent a r.ordinal) } := rfl

/-- A re-evaluation keeps a record's list (R95). -/
theorem EpochRec.reevaluated_contributions (a : ActiveSet) (now : Nat) (r : EpochRec) :
    (r.reevaluated a now).contributions = r.contributions := by
  rw [EpochRec.reevaluated_eq]
  split <;> [skip; split] <;> rfl

/-- Settles O48, part by part of the application. -/
theorem commitApplication : Obligations.CommitApplication := by
  unfold Obligations.CommitApplication
  refine ⟨fun s ho hc hr => ?_, fun s => ?_, fun s => ?_, fun s => ?_⟩
  · have hexec : exec .commitApply s = .next (if s.commitDue then applyCommit s else s) :=
      congrArg Host.Outcome.next (whileOperating_pos ho _)
    rw [hexec, if_pos (by simp [State.commitDue, hc, hr])]
  · intro t old new convert regrid
    have hring : t.ring.floor = (if regrid then s.ring.floor.map convert else s.ring.floor) ∧
        t.ring.memory = if regrid then [] else s.ring.memory := by
      have h : t.ring.floor = (commitGrid old (commitTables s)).ring.floor ∧
          t.ring.memory = (commitGrid old (commitTables s)).ring.memory := by simp [t, applyCommit_eq, old]
      have hrate : (commitTables s).rate = new.rate := by simp [State.rate, new]
      rw [h.1, h.2, (commitGrid_ring _ _).1, (commitGrid_ring _ _).2, hrate]
      simp only [commitTables_fields]
      exact ⟨rfl, rfl⟩
    have hstreams := (applyCommit_streams s).trans (List.map_congr_left fun p _ => committedEntry_regrid s p)
    refine ⟨hstreams, ?_⟩
    simp [t, new, hring]
  · intro t newIndex moved ordered
    have hmoved : renumbered s = moved := funext (renumbered_eq s)
    refine ⟨?_, ?_, fun k r u hr hu => ?_, ?_⟩
    · simp [t, applyCommit_eq, commitTables, hmoved]
    · exact applyCommit_recs_length s
    · have hu' : u = (r.renumber s).reevaluated t.table s.tick := by
        rw [applyCommit_recs, List.getElem?_map, hr] at hu
        exact (Option.some.inj hu).symm
      have hlist : u.contributions = sortContributions (r.contributions.map moved) := by
        rw [hu', EpochRec.reevaluated_contributions, ← hmoved]
        rfl
      refine ⟨hlist ▸ sortContributions_perm _, ?_, ?_⟩
      · rw [hlist]
        exact (sortContributions_sorted _).imp fun {a b} h => (Contribution.not_precedes_iff a b).1 h
      · have hrenumbered : r.renumber s = { r with contributions := u.contributions } := by rw [hlist, ← hmoved]; rfl
        rw [hrenumbered, EpochRec.reevaluated_eq] at hu'
        exact hu'
    · have h : t.mon = (recountAll (committing s)).mon ∧ t.ring.recs = (recountAll (committing s)).ring.recs := by
        simp [t, applyCommit_eq]
      obtain ⟨n, hmon, hsealed⟩ := recountAll_mon (committing s)
      refine ⟨n, h.1.trans (hmon.trans (reportMany_mon_congr _ _ (by simp))), ?_⟩
      have hkept : (committing s).ring.recs.countP (fun r => decide (r.state = .sealed)) =
          s.ring.recs.countP (fun r => decide (r.state = .sealed)) := by
        have hrecs : (committing s).ring.recs = s.ring.recs.map (EpochRec.renumber s) := by simp [commitTables]
        rw [hrecs, List.countP_map]
        rfl
      rw [h.2, hsealed, hkept]
  · intro t old new reached latched waiting
    obtain ⟨htime, htru, hstrobe, hcomp, hegress⟩ := committing_changes s
    have hctl : (recountAll (committing s)).ctl = s.ctl := by simp
    have hkept : (recountAll (committing s)).egress = (committing s).egress := by simp
    refine ⟨?_, ?_, ?_, ?_, fun hn => ?_, fun re hre => ?_⟩
    · rw [← htime]; simp [t, applyCommit_eq]
    · rw [← htru]; simp [t, applyCommit_eq]
    · rw [← hstrobe]; simp [t, applyCommit_eq]
    · rw [← hcomp]; simp [t, applyCommit_eq]
    · have h : t = _ := commitReply_none (s := recountAll (committing s)) (by rw [hctl, hn])
      rw [h]
      exact hkept.trans hegress
    · have h : t = _ := commitReply_some (s := recountAll (committing s)) (by rw [hctl, hre])
      rw [hctl] at h
      exact ⟨_, h, hkept.trans hegress, by simp [t, applyCommit_table]⟩

end Sys2Proof.Machine
end

