-- ==== Sys2Proof/Proofs/Restart.lean ====
section
/-! PROOFS. RESTART: the boundary it is for a commit and for a drain, and the empty part it leaves (R35, R78, R102, R139, R149, R180,
R188). -/

namespace Sys2Proof.Machine

/-! ### The ring as it empties -/

/-- An empty ring with no drain and no commit that waits for one stands as it is (R100, R101). -/
theorem whenEmpty_quiet {s : State} (hr : s.ring.recs = []) (hs : s.ring.stepDrain = false) (hd : s.ring.commitDrain = false)
    (hc : s.ctl.commit ≠ .pendingDrain) : whenEmpty s = s := by
  obtain ⟨_, _, _, _, _, _, ring, _, _, _, _, _, ctl, _, _, _⟩ := s
  obtain ⟨_, _, _, _, _, _, _⟩ := ring
  dsimp only at hr hs hd hc
  subst hs hd
  simp [whenEmpty, hr, hc]

/-- The reports of a discard touch the Monitor alone (R189). -/
theorem reportMany_eq (c : Ctr) (n : Nat) (s : State) : reportMany c n s = { s with mon := (reportMany c n s).mon } := by
  have h := reportMany_fields c n s
  generalize reportMany c n s = t at h ⊢
  cases t
  cases s
  simp_all

/-- What stands through departures while no commit waits: the Control Unit, the queues, the links, and each entry's index and
configuration. -/
structure State.SameControl (s t : State) : Prop where
  links : t.links = s.links
  power : t.power = s.power
  ctl : t.ctl = s.ctl
  egress : t.egress = s.egress
  params : t.table.params = s.table.params
  ranges : t.table.ranges = s.table.ranges
  entries : (t.table.streams.map fun e => (e.idx, e.cfg)) = s.table.streams.map fun e => (e.idx, e.cfg)

theorem State.SameControl.refl (s : State) : s.SameControl s := ⟨rfl, rfl, rfl, rfl, rfl, rfl, rfl⟩

theorem State.SameControl.trans {s t u : State} (h : s.SameControl t) (h' : t.SameControl u) : s.SameControl u :=
  ⟨h'.links.trans h.links, h'.power.trans h.power, h'.ctl.trans h.ctl, h'.egress.trans h.egress,
    h'.params.trans h.params, h'.ranges.trans h.ranges, h'.entries.trans h.entries⟩

/-- The end of a step drain moves no index and no configuration (R100). -/
theorem endStepDrain_sameControl (s : State) : s.SameControl (endStepDrain s) :=
  ⟨rfl, rfl, rfl, rfl, rfl, rfl, by simp [endStepDrain]⟩

/-- The drains ended at an empty ring, before a commit that waits for it (R100, R101). -/
def drainsEnded (s : State) : State :=
  let t := if s.ring.stepDrain then endStepDrain s else s
  { t with ring := { t.ring with commitDrain := false } }

/-- What follows from an empty ring: the drains end, and a commit that waited for them applies (R100, R101, R180). -/
theorem whenEmpty_nil {s : State} (h : s.ring.recs = []) :
    whenEmpty s = if s.ctl.commit = .pendingDrain then applyCommit (drainsEnded s) else drainsEnded s := by
  have hctl : (drainsEnded s).ctl = s.ctl := by
    unfold drainsEnded
    dsimp only
    split <;> rfl
  rw [← hctl, whenEmpty, h]
  rfl

theorem drainsEnded_sameControl (s : State) : s.SameControl (drainsEnded s) := by
  have h : s.SameControl (if s.ring.stepDrain then endStepDrain s else s) := by
    split
    · exact endStepDrain_sameControl s
    · exact .refl s
  exact ⟨h.links, h.power, h.ctl, h.egress, h.params, h.ranges, h.entries⟩

theorem drainsEnded_ring (s : State) : (drainsEnded s).ring.stepDrain = false ∧ (drainsEnded s).ring.commitDrain = false ∧
    (drainsEnded s).comp.set = s.comp.set := by
  unfold drainsEnded
  dsimp only
  split
  · exact ⟨rfl, rfl, rfl⟩
  · exact ⟨Bool.eq_false_iff.2 ‹_›, rfl, rfl⟩

theorem whenEmpty_sameControl {s : State} (h : s.ctl.commit = .none) : s.SameControl (whenEmpty s) := by
  by_cases hr : s.ring.recs = []
  · rw [whenEmpty_nil hr, if_neg (by rw [h]; decide)]
    exact drainsEnded_sameControl s
  · rw [whenEmpty, if_neg (by simpa using hr)]
    exact .refl s

/-- A departure while no commit waits (R98, R180). -/
theorem depart_sameControl {emitted : Bool} {s : State} (h : s.ctl.commit = .none) : s.SameControl (depart emitted s) := by
  unfold depart
  split
  · exact .refl s
  · rename_i r rest _
    have hleft : s.SameControl (strobeFrom .emit (overridesIntoForce (reportDeparture emitted (leaveRing r rest s)))) :=
      ⟨by simp, by simp, by simp, by simp, by simp, by simp, by simp⟩
    rw [commitAtBoundary, if_neg (by rw [hleft.ctl, h]; decide)]
    exact hleft.trans (whenEmpty_sameControl (by rw [hleft.ctl, h]))

theorem settleBy_sameControl {n : Nat} {s : State} (h : s.ctl.commit = .none) : s.SameControl (settleBy n s) := by
  induction n generalizing s with
  | zero => exact .refl s
  | succ n ih =>
    unfold settleBy
    split
    · exact (depart_sameControl h).trans (ih (by rw [(depart_sameControl h).ctl, h]))
    · exact .refl s

/-! ### Replies while Port O cannot grant -/

/-- Port O takes no frame: it is DOWN or transmits (R150, R152). -/
def State.PortBusy (s : State) : Prop := s.links.o = .down ∨ s.egress.tx ≠ none

theorem grant_busy {s : State} (h : s.PortBusy) : grant s = s := by
  unfold grant
  refine if_neg ?_
  rcases h with h | h
  · simp [h]
  · simp [Option.isNone_iff_eq_none, h]

/-- A reply built while Port O cannot grant waits in M (R148). -/
theorem reply_busy {re : ReplyTo} {st : Status} {bs : List Byte} {s : State} (h : s.PortBusy) :
    (reply re st bs s).egress = { s.egress with
      m := s.egress.m ++ [s.originate kindRply (replyBody re st bs)], reserved := s.egress.reserved - 1 } := by
  rw [reply, grant_busy (by exact h)]

/-- The reply APPLIED of a commit, built from what the application made of the rest (R181, log 28). -/
theorem applyCommit_reply {s : State} {re : ReplyTo} (hre : s.ctl.commitFor = some re) :
    ∃ u, applyCommit s = reply re .applied (be 2 ((s.ctl.generation + 1) % 65536)) u ∧ u.egress.m = s.egress.m ∧
      u.egress.tx = s.egress.tx ∧ u.links = s.links ∧ u.originate = (applyCommit s).originate := by
  obtain ⟨-, -, -, hparts⟩ := commitApplication
  obtain ⟨-, -, -, -, -, happlied⟩ := hparts s
  obtain ⟨u, ht, hegress, htable, hlinks, hpower, -⟩ := happlied re hre
  refine ⟨u, ht, ?_, ?_, hlinks, ?_⟩
  · rw [hegress]
    split <;> rfl
  · rw [hegress]
    split <;> rfl
  · funext kind body
    simp [State.originate, State.nodeId, htable, hpower]

/-- A commit's reply APPLIED waits in M while Port O cannot grant (R148, R181). -/
theorem applyCommit_busy {s : State} {re : ReplyTo} (hre : s.ctl.commitFor = some re) (h : s.PortBusy) :
    (applyCommit s).PortBusy ∧ (applyCommit s).egress.m = s.egress.m ++
      [(applyCommit s).originate kindRply (replyBody re .applied (be 2 ((s.ctl.generation + 1) % 65536)))] := by
  obtain ⟨u, ht, hm, htx, hlinks, horiginate⟩ := applyCommit_reply hre
  have hu : u.PortBusy := by rwa [State.PortBusy, hlinks, htx]
  have hegress := congrArg State.egress ht
  rw [reply_busy hu] at hegress
  refine ⟨?_, ?_⟩
  · rw [State.PortBusy, hegress]
    simpa [State.PortBusy, htx] using h
  · rw [hegress, ← horiginate, ← hm]

/-! ### The steps of RESTART (R188) -/

/-- Step 2 before what follows from the empty ring: the ring's records discarded, the set abandoned, pending overrides in force. -/
def ringDiscarded (s : State) : State :=
  overridesIntoForce (reportMany .flushed s.ring.recs.length
    { s with ring := { s.ring with recs := [] }, comp := { s.comp with set := none } })

theorem restartRing_eq (s : State) : restartRing s = whenEmpty (ringDiscarded s) := rfl

@[simp] theorem ringDiscarded_fields (s : State) :
    (ringDiscarded s).power = s.power ∧ (ringDiscarded s).tick = s.tick ∧ (ringDiscarded s).links = s.links ∧
    (ringDiscarded s).store = s.store ∧ (ringDiscarded s).free = s.free ∧ (ringDiscarded s).ctl = s.ctl ∧
    (ringDiscarded s).egress = s.egress ∧ (ringDiscarded s).table = s.table ∧ (ringDiscarded s).adm = s.adm ∧
    (ringDiscarded s).ring = { s.ring with recs := [] } ∧ (ringDiscarded s).comp.set = none := by
  simp [ringDiscarded]

/-- The emptied ring holds no record and no drain, and no set is in composition (R78, R102). -/
theorem restartRing_ring (s : State) : (restartRing s).ring.recs = [] ∧ (restartRing s).ring.stepDrain = false ∧
    (restartRing s).ring.commitDrain = false ∧ (restartRing s).comp.set = none := by
  have hnil : (ringDiscarded s).ring.recs = [] := by simp
  have hended := drainsEnded_ring (ringDiscarded s)
  refine ⟨List.eq_nil_of_length_eq_zero ?_, ?_⟩
  · rw [restartRing_eq, whenEmpty_recs_length, hnil, List.length_nil]
  · rw [restartRing_eq, whenEmpty_nil hnil]
    split <;> simp [hended]

/-- What a commit that was applied on the way leaves: the staged set active, and its reply built under it. -/
structure State.CommittedTo (s t : State) : Prop where
  links : t.links = s.links
  power : t.power = s.power
  commit : t.ctl.commit = .none
  generation : t.ctl.generation = (s.ctl.generation + 1) % 65536
  params : t.table.params = s.ctl.staged.params
  ranges : t.table.ranges = s.ctl.staged.ranges
  entries : (t.table.streams.map fun e => (e.idx, e.cfg)) = s.ctl.staged.streams
  applied : ∀ re, s.ctl.commitFor = some re → s.PortBusy → t.PortBusy ∧ t.egress.m = s.egress.m ++
    [t.originate kindRply (replyBody re .applied (be 2 ((s.ctl.generation + 1) % 65536)))]

theorem applyCommit_committedTo (s : State) : s.CommittedTo (applyCommit s) where
  links := by simp
  power := by simp
  commit := by simp
  generation := by simp
  params := by simp
  ranges := by simp
  entries := applyCommit_entries s
  applied _ hre h := applyCommit_busy hre h

/-- Departures after the application keep what it did. -/
theorem State.CommittedTo.trans {s t u : State} (h : s.CommittedTo t) (h' : t.SameControl u) : s.CommittedTo u where
  links := h'.links.trans h.links
  power := h'.power.trans h.power
  commit := by rw [h'.ctl, h.commit]
  generation := by rw [h'.ctl, h.generation]
  params := h'.params.trans h.params
  ranges := h'.ranges.trans h.ranges
  entries := h'.entries.trans h.entries
  applied re hre hb := by
    simp only [State.PortBusy, State.originate, State.nodeId, h'.links, h'.egress, h'.params, h'.power]
    exact h.applied re hre hb

/-- Only the Control Unit, the M queue, the transmission and the links of the former state matter. -/
theorem State.SameControl.committedTo {s t u : State} (h : s.SameControl t) (h' : t.CommittedTo u) : s.CommittedTo u where
  links := h'.links.trans h.links
  power := h'.power.trans h.power
  commit := h'.commit
  generation := by rw [h'.generation, h.ctl]
  params := by rw [h'.params, h.ctl]
  ranges := by rw [h'.ranges, h.ctl]
  entries := by rw [h'.entries, h.ctl]
  applied re hre hb := by
    have hb' : t.PortBusy := by rwa [State.PortBusy, h.links, h.egress]
    have := h'.applied re (by rw [h.ctl, hre]) hb'
    rwa [h.egress, h.ctl] at this

/-- RESTART's first two steps with no commit waiting (R188). -/
theorem restart_sameControl {s : State} (h : s.ctl.commit = .none) : s.SameControl (restartRing (restartCommit s)) := by
  have hdiscarded : s.SameControl (ringDiscarded s) := ⟨by simp, by simp, by simp, by simp, by simp, by simp, by simp⟩
  rw [restartCommit, if_neg (by rw [h]; decide), restartRing_eq]
  exact hdiscarded.trans (whenEmpty_sameControl (by simp [h]))

/-- RESTART's first two steps apply the commit that waits: at the boundary, or with the ring empty (R180, R188). -/
theorem restart_committedTo {s : State} (h : s.ctl.commit ≠ .none) : s.CommittedTo (restartRing (restartCommit s)) := by
  have hdiscarded (u : State) : u.SameControl (ringDiscarded u) := ⟨by simp, by simp, by simp, by simp, by simp, by simp, by simp⟩
  cases hc : s.ctl.commit with
  | none => exact absurd hc h
  | pendingBoundary =>
    have happly : s.CommittedTo (settle (applyCommit s)) :=
      (applyCommit_committedTo s).trans (settleBy_sameControl (by simp))
    rw [restartCommit, if_pos hc, restartRing_eq]
    exact happly.trans ((hdiscarded _).trans (whenEmpty_sameControl (by simp [happly.commit])))
  | pendingDrain =>
    rw [restartCommit, if_neg (by rw [hc]; decide), restartRing_eq, whenEmpty_nil (by simp), if_pos (by simp [hc])]
    exact ((hdiscarded s).trans (drainsEnded_sameControl _)).committedTo (applyCommit_committedTo _)

/-- What RESTART's first two steps leave alone (R188). -/
theorem restart_fields (s : State) :
    (restartRing (restartCommit s)).tick = s.tick ∧ (restartRing (restartCommit s)).links = s.links ∧
    (restartRing (restartCommit s)).power = s.power ∧ (restartRing (restartCommit s)).store = s.store ∧
    (restartRing (restartCommit s)).adm.ingest = s.adm.ingest ∧ (restartRing (restartCommit s)).free = s.free ∧
    (restartRing (restartCommit s)).ctl.queue = s.ctl.queue := by
  unfold restartCommit
  split <;> simp [restartRing_eq]

/-- A grant from empty O and L queues leaves them empty (R152). -/
theorem grant_empty {s : State} (ho : s.egress.o = []) (hl : s.egress.l = []) : (grant s).egress.o = [] ∧ (grant s).egress.l = [] := by
  unfold grant
  split <;> [split; skip]
  · rename_i k _
    cases k <;> simp only [Egress.granted] <;> split <;> simp_all
  · exact ⟨ho, hl⟩
  · exact ⟨ho, hl⟩

/-- A stream after RESTART is ENROLLED or ISOLATED (R35). -/
theorem StreamEntry.restart_state (now : Nat) (e : StreamEntry) :
    (e.restart now).state = .enrolled ∨ (e.restart now).state = .isolated := by
  unfold StreamEntry.restart
  by_cases h : e.state = .isolated <;> simp [h]

/-- A restarted stream keeps its place and its configuration (R35). -/
theorem StreamEntry.restart_entry (now : Nat) (e : StreamEntry) : ((e.restart now).idx, (e.restart now).cfg) = (e.idx, e.cfg) := by
  unfold StreamEntry.restart
  split <;> rfl

/-- The part after RESTART's first two steps, and what the others make of it (R188). -/
def restarted (s : State) : State := restartStreams (restartQueues (restartRing (restartCommit s)))

theorem exec_restart {s : State} {f : CtrlFrame} {q : List CtrlFrame} (ho : s.operating = true) (hq : s.ctl.queue = f :: q)
    (hc : f.re.code = 0x51#8) (hl : f.args = []) : exec .restart s = .next (reply f.re .ok [] (restarted (s.popped q))) := by
  rw [exec_act (act := restartAct) (fun _ => rfl) ho hq (congrArg _ hc), restartAct, hl]
  exact congrArg Host.Outcome.next (checked_good _ _ _)

theorem restarted_fields (s : State) :
    (restarted s).ring = (restartRing (restartCommit s)).ring ∧ (restarted s).comp = (restartRing (restartCommit s)).comp ∧
    (restarted s).ctl.commit = (restartRing (restartCommit s)).ctl.commit ∧
    (restarted s).ctl.generation = (restartRing (restartCommit s)).ctl.generation ∧
    (restarted s).table.params = (restartRing (restartCommit s)).table.params ∧
    (restarted s).table.ranges = (restartRing (restartCommit s)).table.ranges ∧
    (restarted s).egress = { (restartRing (restartCommit s)).egress with o := [], l := [] } ∧
    (restarted s).ctl.staged = (restarted s).table.copy ∧
    (restarted s).table.streams = (restartRing (restartCommit s)).table.streams.map (StreamEntry.restart s.tick) ∧
    (restarted s).ctl.queue = s.ctl.queue ∧ (restarted s).tick = s.tick ∧ (restarted s).links = s.links ∧
    (restarted s).power = s.power ∧ (restarted s).store = s.store ∧ (restarted s).adm.ingest = s.adm.ingest ∧
    (restarted s).free = s.free := by
  obtain ⟨htick, hlinks, hpower, hstore, hingest, hfree, hqueue⟩ := restart_fields s
  simp [restarted, restartStreams, restartQueues, htick, hlinks, hpower, hstore, hingest, hfree, hqueue]

/-- A restarted table holds the same entries under the same configurations (R35). -/
theorem restarted_entries (s : State) : ((restarted s).table.streams.map fun e => (e.idx, e.cfg)) =
    (restartRing (restartCommit s)).table.streams.map fun e => (e.idx, e.cfg) := by
  obtain ⟨-, -, -, -, -, -, -, -, hstreams, -⟩ := restarted_fields s
  rw [hstreams, List.map_map]
  exact List.map_congr_left fun e _ => StreamEntry.restart_entry _ e

/-- Settles O52: RESTART without a commit and a drain whole, and what it leaves of any part. -/
theorem restartEmptiesThePart : Obligations.RestartEmptiesThePart := by
  unfold Obligations.RestartEmptiesThePart
  refine ⟨fun s f q ho hq hc hl hcommit hstep hdrain => ?_, fun s f q ho hq hc hl => ⟨_, exec_restart ho hq hc hl, ?_⟩⟩
  · intro streams u
    have hquiet : restartRing (restartCommit (s.popped q)) = ringDiscarded (s.popped q) := by
      rw [restartCommit, if_neg (by simp [hcommit]), restartRing_eq]
      exact whenEmpty_quiet (by simp) (by simp [hstep]) (by simp [hdrain]) (by simp [hcommit])
    have hleft : ringDiscarded (s.popped q) = { s.popped q with
        ring := { s.ring with recs := [] }, comp := { (overridesIntoForce s).comp with set := none }, mon := u.mon } := by
      have hmon := reportMany_mon_congr .flushed s.ring.recs.length (t := s.popped q)
        (s := { s.popped q with ring := { s.ring with recs := [] }, comp := { s.comp with set := none } }) rfl
      rw [ringDiscarded, reportMany_eq]
      exact congrArg (fun m : Monitor => { s.popped q with
        ring := { s.ring with recs := [] }, comp := { (overridesIntoForce s).comp with set := none }, mon := m }) hmon
    have hu : u = { s.popped q with mon := u.mon } := reportMany_eq _ _ _
    rw [exec_restart ho hq hc hl, restarted, hquiet, hleft, hu]
    rfl
  · obtain ⟨hring, hcomp, hcommit, hgeneration, hparams, hranges, hegress, hstaged, hstreams, hqueue, hkept⟩ :=
      restarted_fields (s.popped q)
    obtain ⟨hrecs, hstep, hdrain, hset⟩ := restartRing_ring (restartCommit (s.popped q))
    have hentries := restarted_entries (s.popped q)
    have hempty := grant_empty (s := { restarted (s.popped q) with egress := { (restarted (s.popped q)).egress with
      m := (restarted (s.popped q)).egress.m ++ [(restarted (s.popped q)).originate kindRply (replyBody f.re .ok [])]
      reserved := (restarted (s.popped q)).egress.reserved - 1 } }) (by simp [hegress]) (by simp [hegress])
    have hstates : ∀ e ∈ (restarted (s.popped q)).table.streams, e.state = .enrolled ∨ e.state = .isolated := by
      rw [hstreams]
      simpa using fun e _ => StreamEntry.restart_state _ e
    have hnone : (restarted (s.popped q)).ctl.commit = .none := by
      by_cases hc : s.ctl.commit = .none
      · rw [hcommit, (restart_sameControl (s := s.popped q) hc).ctl]
        exact hc
      · rw [hcommit, (restart_committedTo (s := s.popped q) hc).commit]
    refine ⟨by simp [hring, hrecs], by simp [hring, hstep], by simp [hring, hdrain], by simp [hcomp, hset], by simp [hnone],
      fun hcw => ?_, fun hcn => ?_, hempty.1, hempty.2, by simp [hqueue], by simpa using hstates, by simp [hstaged, ActiveSet.copy],
      by simp [hkept], by simp [hkept], by simp [hkept], by simp [hkept], by simp [hkept], by simp [hkept]⟩
    · have hdone := restart_committedTo (s := s.popped q) hcw
      refine ⟨by simp [hparams, hdone.params], by simp [hranges, hdone.ranges], by simp [hentries, hdone.entries],
        by simp [hgeneration, hdone.generation], fun re hre hb => ?_⟩
      intro answer
      obtain ⟨hbusy, hm⟩ := hdone.applied re hre hb
      have hanswer (r : ReplyTo) (st : Status) (res : List Byte) {u : State} (hp : u.table.params = s.ctl.staged.params)
          (hw : u.power = s.power) : u.originate kindRply (replyBody r st res) = answer r st res := by
        simp only [State.originate, State.nodeId, hp, hw]
        rfl
      have hbusy' : (restarted (s.popped q)).PortBusy := by
        simpa [State.PortBusy, hkept, hegress, hdone.links] using hbusy
      rw [reply_busy hbusy', hanswer f.re .ok [] (by simp [hparams, hdone.params]) (by simp [hkept])]
      simp [hegress, hm, hanswer re .applied _ (u := restartRing (restartCommit (s.popped q))) hdone.params hdone.power]
    · have hdone := restart_sameControl (s := s.popped q) hcn
      exact ⟨by simp [hparams, hdone.params], by simp [hranges, hdone.ranges], by simp [hentries, hdone.entries],
        by simp [hgeneration, hdone.ctl]⟩

end Sys2Proof.Machine
end

