-- ==== Sys2Proof/Proofs/Waiting.lean ====
section
/-! SUPPORT. No command touches the commands that wait (log 2): the commands of the Control Unit through their shared form, and the
events one by one. -/

namespace Sys2Proof.Machine

/-! ### The shared forms (R173) -/

theorem ite_pending {p : Prop} [Decidable p] {s t u : State} (ht : t.pending = s.pending) (hu : u.pending = s.pending) :
    (if p then t else u).pending = s.pending := by
  split
  · exact ht
  · exact hu

theorem whileOperating_pending {s t : State} (h : t.pending = s.pending) : (whileOperating s t).pending = s.pending :=
  ite_pending h rfl

theorem execute_pending {act : CtrlFrame → State → State} (h : ∀ f u, (act f u).pending = u.pending) (code : Nat) (s : State) :
    (execute code act s).pending = s.pending := by
  refine whileOperating_pending ?_
  unfold executeIf
  split
  · rfl
  · exact ite_pending (h _ _) rfl

theorem reply_pending (re : ReplyTo) (st : Status) (bs : List Byte) (s : State) : (reply re st bs s).pending = s.pending := by simp

theorem checked_pending {f : CtrlFrame} {l e : Bool} {act : State → State} {s : State} (h : (act s).pending = s.pending) :
    (checked f l e act s).pending = s.pending :=
  ite_pending (reply_pending _ _ _ s) (ite_pending (reply_pending _ _ _ s) h)

theorem whenNoCommit_pending {f : CtrlFrame} {act : State → State} {s : State} (h : (act s).pending = s.pending) :
    (whenNoCommit f act s).pending = s.pending :=
  ite_pending h (reply_pending _ _ _ s)

/-! ### Commands (R175 to R188) -/

theorem stageStreamAct_pending (f : CtrlFrame) (s : State) : (stageStreamAct f s).pending = s.pending := by
  refine checked_pending (whenNoCommit_pending (ite_pending ?_ (reply_pending _ _ _ s)))
  split <;> simp

theorem unstageStreamAct_pending (f : CtrlFrame) (s : State) : (unstageStreamAct f s).pending = s.pending := by
  refine checked_pending (whenNoCommit_pending ?_)
  split <;> simp

theorem stageRangeAct_pending (f : CtrlFrame) (s : State) : (stageRangeAct f s).pending = s.pending := by
  refine checked_pending (whenNoCommit_pending ?_)
  dsimp only
  split
  · exact ite_pending (by simp) (by simp)
  · simp

theorem stageParamsAct_pending (f : CtrlFrame) (s : State) : (stageParamsAct f s).pending = s.pending := by
  unfold stageParamsAct
  split
  · exact checked_pending rfl
  · exact checked_pending (whenNoCommit_pending (ite_pending (by simp) (by simp)))

theorem discardStageAct_pending (f : CtrlFrame) (s : State) : (discardStageAct f s).pending = s.pending :=
  checked_pending (whenNoCommit_pending (by simp))

theorem flushCommit_pending (s : State) : (flushCommit s).pending = s.pending := by simp [flushCommit]

theorem flushStep_pending (s : State) : (flushStep s).pending = s.pending := by simp [flushStep]

theorem commitAct_pending (f : CtrlFrame) (s : State) : (commitAct f s).pending = s.pending := by
  refine checked_pending (ite_pending (by simp) (ite_pending (by simp) ?_))
  exact ite_pending (by simp) (ite_pending (by simp [flushCommit_pending]) rfl)

theorem isolateAct_pending (f : CtrlFrame) (s : State) : (isolateAct f s).pending = s.pending := by
  have isolated (id : Nat) : (isolateStream id s).pending = s.pending := by
    unfold isolateStream
    split
    · rfl
    · exact ite_pending rfl (ite_pending (by simp) (by simp))
  exact checked_pending (ite_pending (by simp [isolated]) (by simp))

theorem restoreAct_pending (f : CtrlFrame) (s : State) : (restoreAct f s).pending = s.pending :=
  checked_pending (ite_pending (by simp) (by simp))

theorem setOverrides_pending (es : List OverrideEntry) (s : State) : (setOverrides es s).pending = s.pending :=
  ite_pending (by simp) rfl

theorem setOverrideAct_pending (f : CtrlFrame) (s : State) : (setOverrideAct f s).pending = s.pending := by
  unfold setOverrideAct
  dsimp only
  split
  · exact checked_pending rfl
  · refine checked_pending ?_
    split <;> simp [setOverrides_pending]

theorem clearOverrideAct_pending (f : CtrlFrame) (s : State) : (clearOverrideAct f s).pending = s.pending :=
  checked_pending (ite_pending (by simp [setOverrides_pending]) (by simp))

theorem setEmissionAct_pending (f : CtrlFrame) (s : State) : (setEmissionAct f s).pending = s.pending := by
  unfold setEmissionAct
  split
  · exact checked_pending rfl
  · exact checked_pending (by simp [setMode])

theorem clearQuiesceAct_pending (f : CtrlFrame) (s : State) : (clearQuiesceAct f s).pending = s.pending :=
  checked_pending (ite_pending (by simp) (by simp))

theorem readStreamAct_pending (f : CtrlFrame) (s : State) : (readStreamAct f s).pending = s.pending := by
  refine checked_pending ?_
  split
  · simp
  · exact (reply_pending _ _ _ _).trans (ite_pending (by simp) rfl)

theorem saveProfileAct_pending (f : CtrlFrame) (s : State) : (saveProfileAct f s).pending = s.pending :=
  checked_pending (ite_pending (by simp) rfl)

theorem restartAct_pending (f : CtrlFrame) (s : State) : (restartAct f s).pending = s.pending := by
  have committed : (restartCommit s).pending = s.pending := ite_pending (by simp) rfl
  have emptied (u : State) : (restartRing u).pending = u.pending := by simp [restartRing]
  exact checked_pending (by simp [restartStreams, restartQueues, emptied, committed])

/-! ### The TIME line, edges and pulses (R104 to R122) -/

theorem receiveChar_pending (c : TimeChar) (s : State) : (receiveChar c s).pending = s.pending := by
  have buffered (m : TimeMsg) (u : State) : (bufferMessage m u).pending = u.pending := by
    unfold bufferMessage
    dsimp only
    split <;> simp
  have delivered (b : Byte) (u : State) : (deliver b u).pending = u.pending := by
    unfold deliver completeMessage
    split_ifs <;> simp [buffered]
  unfold receiveChar
  split_ifs <;> simp [delivered]

theorem edgeAcquiring_pending (c : EdgeClass) (m : Option TimeMsg) (s : State) : (edgeAcquiring c m s).pending = s.pending := by
  unfold edgeAcquiring
  split
  · rfl
  · exact ite_pending (by simp) rfl

theorem referenceStep_pending (m : TimeMsg) (s : State) : (referenceStep m s).pending = s.pending := by
  simp [referenceStep, flushStep_pending]

/-- A regular edge keeps the scale, takes a step, or notes a mismatch (R112, R113, R116). -/
theorem regularLocked_pending (mp : Mapping) (m : Option TimeMsg) (s : State) : (regularLocked mp m s).pending = s.pending := by
  unfold regularLocked
  dsimp only
  split
  · simp [renew]
  · exact ite_pending (by simp [renew]) (ite_pending (referenceStep_pending _ s) (by simp [renew]))

theorem regularHoldover_pending (mp : Mapping) (m : Option TimeMsg) (s : State) : (regularHoldover mp m s).pending = s.pending := by
  unfold regularHoldover
  dsimp only
  split
  · simp [holdoverReturn]
  · exact ite_pending (by simp [holdoverReturn]) (ite_pending (referenceStep_pending _ s) rfl)

theorem edgeByState_pending (c : EdgeClass) (m : Option TimeMsg) (s : State) : (edgeByState c m s).pending = s.pending := by
  unfold edgeByState
  split
  · exact edgeAcquiring_pending c m s
  · exact ite_pending (regularLocked_pending _ m s) rfl
  · exact ite_pending (regularHoldover_pending _ m s) rfl
  · rfl

theorem ppsEdge_pending (s : State) : (ppsEdge s).pending = s.pending := by
  have counted (c : Ctr) (p : Prop) [Decidable p] (u : State) : (if p then report c u else u).pending = u.pending :=
    ite_pending (by simp) rfl
  have pulsed (p : Prop) [Decidable p] (u : State) : (if p then strobeFrom .pps u else u).pending = u.pending :=
    ite_pending (by simp) rfl
  exact (edgeByState_pending _ _ _).trans ((pulsed _ _).trans ((counted _ _ _).trans (counted _ _ _)))

theorem enterHoldover_pending (s : State) : (enterHoldover s).pending = s.pending := ite_pending (by simp) rfl

theorem epochPulse_pending (s : State) : (epochPulse s).pending = s.pending := by
  unfold epochPulse
  split <;> simp

/-! ### Timers, sets, transmissions, QUIESCE (R38, R93, R126, R132, R140, R151) -/

theorem silenceExpiry_pending (idx : Nat) (s : State) : (silenceExpiry idx s).pending = s.pending := by
  unfold silenceExpiry
  split
  · rfl
  · exact ite_pending (by simp) rfl

theorem expireDeadline_pending (ordinal : Nat) (s : State) : (expireDeadline ordinal s).pending = s.pending := by
  unfold expireDeadline
  dsimp only
  split
  · rfl
  · exact ite_pending (by simp [recountAt]) rfl

theorem startSet_pending (s : State) : (startSet s).pending = s.pending := by
  unfold startSet
  split <;> rfl

theorem queueNext_pending (s : State) : (queueNext s).pending = s.pending := by
  unfold queueNext
  split
  · rfl
  · exact ite_pending (by simp [moveRecords]) (by simp [moveRecords])

theorem endTransmission_pending (s : State) : (endTransmission s).pending = s.pending := by
  unfold endTransmission
  split
  · rfl
  · dsimp only
    split <;> simp

theorem quiesceFall_pending (s : State) : (quiesceFall s).pending = s.pending :=
  ite_pending (by simp [latchQuiesce]) rfl

theorem frameIn_pending (p : Port) (payload : List Byte) (s : State) : (frameIn p payload s).pending = s.pending := by
  unfold frameIn
  dsimp only
  split
  · simp
  · simp
  · rw [dispatch_pending, catchUp, catchUpBy_pending, (report_fields _ s).1]

/-! ### Supply and storage (R199, R202) -/

theorem writeComplete_pending (damage : List (Nat × Byte)) (s : State) : (writeComplete damage s).pending = s.pending := by
  unfold writeComplete
  split
  · rfl
  · dsimp only
    split <;> simp [endWrite]

theorem cutWrite_pending (s : State) : (cutWrite s).pending = s.pending := by rw [cutWrite_eq]

theorem powerUp_pending (r : StrapReading) (s : State) : (powerUp r s).pending = s.pending := cutWrite_pending s

/-- No command faults, refuses or touches the commands that wait (log 2). -/
theorem exec_pending (c : Instr) (s : State) : ∃ t, exec c s = .next t ∧ t.pending = s.pending := by
  have event {t : State} (h : t.pending = s.pending) : (whileOperating s t).pending = s.pending := whileOperating_pending h
  have due {t : State} {p : Bool} (h : t.pending = s.pending) : (whileOperating s (if p then t else s)).pending = s.pending :=
    event (ite_pending h rfl)
  cases c with
  | powerUp r => exact ⟨_, rfl, powerUp_pending r s⟩
  | resetAssert =>
    have held : (if s.operating then resetHold s else s).pending = s.pending := ite_pending (cutWrite_pending s) rfl
    exact ⟨_, rfl, held⟩
  | resetRelease => exact ⟨_, rfl, ite_pending rfl rfl⟩
  | powerLoss => exact ⟨_, rfl, cutWrite_pending s⟩
  | saveProfile => exact ⟨_, rfl, execute_pending saveProfileAct_pending _ s⟩
  | profileWriteComplete damage => exact ⟨_, rfl, event (writeComplete_pending damage s)⟩
  | ingressLinkUp p | ingressLinkDown p | portOLinkDown => exact ⟨_, rfl, event rfl⟩
  | portOLinkUp => exact ⟨_, rfl, event (by simp)⟩
  | ingressFrameComplete p good f => exact ⟨_, rfl, event (ite_pending (frameIn_pending _ _ s) rfl)⟩
  | asetRecordIngest => exact ⟨_, rfl, event (ingestNext_pending s)⟩
  | placement p => exact ⟨_, rfl, event (placeNext_pending p s).1⟩
  | silenceTimerExpiry idx => exact ⟨_, rfl, event (silenceExpiry_pending idx s)⟩
  | deadlineExpiry ordinal => exact ⟨_, rfl, event (expireDeadline_pending ordinal s)⟩
  | composeSet => exact ⟨_, rfl, due (startSet_pending s)⟩
  | queuePart => exact ⟨_, rfl, event (queueNext_pending s)⟩
  | commitApply => exact ⟨_, rfl, due (by simp)⟩
  | transmissionComplete => exact ⟨_, rfl, event (endTransmission_pending s)⟩
  | strobePulseEnd | elapsedFreeze => exact ⟨_, rfl, due rfl⟩
  | epochPulse => exact ⟨_, rfl, event (epochPulse_pending s)⟩
  | ppsEdge => exact ⟨_, rfl, event (ppsEdge_pending s)⟩
  | edgeWatchdogExpiry => exact ⟨_, rfl, due (enterHoldover_pending s)⟩
  | holdoverLimitReached => exact ⟨_, rfl, due (by simp)⟩
  | timeCharacter c => exact ⟨_, rfl, due (receiveChar_pending c s)⟩
  | quiesceEvent => exact ⟨_, rfl, ite_pending (quiesceFall_pending _) rfl⟩
  | quiesceLineRise => exact ⟨_, rfl, rfl⟩
  | stageStream => exact ⟨_, rfl, execute_pending stageStreamAct_pending _ s⟩
  | unstageStream => exact ⟨_, rfl, execute_pending unstageStreamAct_pending _ s⟩
  | stageRange => exact ⟨_, rfl, execute_pending stageRangeAct_pending _ s⟩
  | stageParams => exact ⟨_, rfl, execute_pending stageParamsAct_pending _ s⟩
  | discardStage => exact ⟨_, rfl, execute_pending discardStageAct_pending _ s⟩
  | commit => exact ⟨_, rfl, execute_pending commitAct_pending _ s⟩
  | isolate => exact ⟨_, rfl, execute_pending isolateAct_pending _ s⟩
  | restore => exact ⟨_, rfl, execute_pending restoreAct_pending _ s⟩
  | setOverride => exact ⟨_, rfl, execute_pending setOverrideAct_pending _ s⟩
  | clearOverride => exact ⟨_, rfl, execute_pending clearOverrideAct_pending _ s⟩
  | setEmission => exact ⟨_, rfl, execute_pending setEmissionAct_pending _ s⟩
  | clearQuiesce => exact ⟨_, rfl, execute_pending clearQuiesceAct_pending _ s⟩
  | readStatus => exact ⟨_, rfl, execute_pending (fun _ _ => checked_pending (by simp)) _ s⟩
  | readRanges => exact ⟨_, rfl, execute_pending (fun _ _ => checked_pending (by simp)) _ s⟩
  | readStream => exact ⟨_, rfl, execute_pending readStreamAct_pending _ s⟩
  | readOverrides => exact ⟨_, rfl, execute_pending (fun _ _ => checked_pending (by simp)) _ s⟩
  | snapshotCounters => exact ⟨_, rfl, execute_pending (fun _ _ => checked_pending (by simp)) _ s⟩
  | monitorRun => exact ⟨_, rfl, execute_pending (fun _ _ => checked_pending (by simp)) _ s⟩
  | monitorHold => exact ⟨_, rfl, execute_pending (fun _ _ => checked_pending (by simp)) _ s⟩
  | restart => exact ⟨_, rfl, execute_pending restartAct_pending _ s⟩
  | unknownCommand =>
    refine ⟨_, rfl, event ?_⟩
    unfold executeIf
    split
    · rfl
    · exact ite_pending (by simp) rfl

end Sys2Proof.Machine
end

