-- ==== Sys2Proof/Proofs/OwnEvents.lean ====
section
/-! PROOFS. The step of an empty queue: the part's own next event in the order of log 2, and no command touches what waits. -/

namespace Sys2Proof.Machine

/-! ### What is due (R38, R93, R97, R114, R117, R121, R122, R132, R151) -/

/-- The instant of an ordinal reaches that ordinal, on every grid of R48 (R55, R122). -/
theorem ordinalReached_instantUs {rate : Nat} (h : rate ∈ gridRates) (e : Nat) : ordinalReached rate (instantUs rate e) = e := by
  unfold ordinalReached instantUs ceilDiv
  simp only [gridRates, List.mem_cons, List.not_mem_nil, or_false] at h
  rcases h with rfl | rfl | rfl | rfl | rfl | rfl | rfl <;> omega

/-- Without a last pulsed ordinal, a pulse is due at the instant of some ordinal (R122). -/
theorem pulseDueAt_none {rate : Nat} (h : rate ∈ gridRates) (now : Nat) :
    (pulseDueAt rate now none).isSome = true ↔ ∃ e, instantUs rate e = now := by
  unfold pulseDueAt
  dsimp only
  split
  · next hi => exact iff_of_true rfl ⟨_, hi⟩
  · next hi =>
    refine iff_of_false (by simp) ?_
    rintro ⟨e, rfl⟩
    exact hi (by rw [ordinalReached_instantUs h])

/-- After an ordinal, a pulse is due once the next instant is reached (R122). -/
theorem pulseDueAt_some (rate now e : Nat) : (pulseDueAt rate now (some e)).isSome = true ↔ instantUs rate (e + 1) ≤ now := by
  unfold pulseDueAt
  dsimp only
  split <;> simp_all

/-- When an EPOCH pulse is due (R122, log 43). -/
theorem epochDue_isSome_iff {s : State} (h : s.table.params.rate ∈ gridRates) :
    s.epochDue.isSome = true ↔ s.table.params.strobe = .epoch ∧ ∃ now, s.refNow = some now ∧
      ((∃ e, s.strobe.lastPulsed = some e ∧ instantUs s.table.params.rate (e + 1) ≤ now) ∨
        (s.strobe.lastPulsed = none ∧ ∃ e, instantUs s.table.params.rate e = now)) := by
  have hrate : s.rate ∈ gridRates := h
  unfold State.epochDue
  cases hn : s.refNow with
  | none => simp
  | some now =>
    by_cases hs : s.table.params.strobe = .epoch
    · cases hl : s.strobe.lastPulsed with
      | none => simpa [hs, State.rate] using pulseDueAt_none hrate now
      | some e => simpa [hs, State.rate] using pulseDueAt_some s.rate now e
    · simp [hs]

/-- An entry whose silence timer has run out (R38). -/
theorem StreamEntry.silenceDue_eq (now : Nat) (e : StreamEntry) :
    e.silenceDue now = (decide (e.state = .enrolled ∨ e.state = .active ∨ e.state = .suspect) &&
      e.timer.any fun t => decide (t ≤ now)) := by
  unfold StreamEntry.silenceDue
  cases e.timer <;> simp [Bool.or_assoc, beq_eq_decide, Bool.decide_or]

theorem EpochRec.deadlineDue_eq (now : Nat) (r : EpochRec) : r.deadlineDue now = decide (r.state = .opened ∧ r.deadline ≤ now) := by
  rw [Bool.decide_and]
  rfl

theorem State.watchdogDue_eq (s : State) :
    s.watchdogDue = (decide (s.tru.state = .locked) && s.tru.watchdog.any fun w => decide (w ≤ s.tick)) := rfl

theorem State.holdoverOver_eq (s : State) : s.holdoverOver = decide (s.tru.state = .holdover ∧
    s.table.params.holdoverS * 1000000 ≤ s.tru.holdEntry.elim 0 fun e => s.tick - e) := by
  rw [State.holdoverOver, holdoverTime_getD, Bool.decide_and]
  rfl

theorem Monitor.freezeDue_eq (m : Monitor) : m.freezeDue = decide (m.elapsed = 0xFFFFFFFF#32 ∧ m.frozen = false) := by
  unfold Monitor.freezeDue
  cases m.frozen <;> simp [Word.top, beq_eq_decide]

theorem State.commitDue_eq (s : State) : s.commitDue = decide (s.ctl.commit ≠ .none ∧ s.ring.recs = []) := by
  unfold State.commitDue
  cases s.ring.recs <;> simp [bne, beq_eq_decide]

/-- A SEALED head goes on to the Composer with a free O slot, unless it is withheld (R97, R125). -/
theorem State.composeDue_eq (s : State) : s.composeDue = (s.ring.recs.head?.any (fun r =>
    decide (r.state = .sealed ∧ s.comp.quiesced = false ∧ s.comp.mode ≠ .withhold)) && decide (s.egress.o.length < 16)) := by
  unfold State.composeDue Composer.withholds
  cases s.ring.recs with
  | nil => rfl
  | cons r rest => cases s.comp.quiesced <;> simp [beq_eq_decide, Bool.decide_and]

/-- The next part of an EMITTING head waits for a free O slot (R132). -/
theorem State.partDue_isSome (s : State) : s.partDue.isSome = (s.ring.recs.head?.any (fun r =>
    decide (r.state = .emitting) && s.comp.set.any fun c => decide (c.queued < c.parts.length)) && decide (s.egress.o.length < 16)) := by
  unfold State.partDue
  cases s.ring.recs with
  | nil => rfl
  | cons r rest =>
    cases s.comp.set with
    | none => simp
    | some c =>
      have hpart : c.parts[c.queued]?.isSome = decide (c.queued < c.parts.length) := by
        by_cases hq : c.queued < c.parts.length <;> simp [hq]
      by_cases he : r.state = .emitting <;> by_cases ho : s.egress.o.length < 16 <;> simp [he, ho, hpart]

/-- The row of a command code is the one that R14's list gives it (R173). -/
theorem commandRow_eq (n : Nat) : commandRow n = if n = 0x22 then .setOverride else
    match argumentLengths.find? fun x => x.2.1 == n with | some x => x.1 | none => .unknownCommand := by
  unfold commandRow
  split
  case h_22 =>
    have hnone : argumentLengths.find? (fun x => x.2.1 == n) = none := by
      simp only [List.find?_eq_none, argumentLengths, List.forall_mem_cons, beq_iff_eq]
      simp_all [eq_comm]
    rw [if_neg (by assumption), hnone]
  all_goals rfl

/-- Settles O2: the empty queue's step, the waiting commands, and the order of the part's own events. -/
theorem theQueueIsTheStepsAlone : Obligations.TheQueueIsTheStepsAlone := by
  unfold Obligations.TheQueueIsTheStepsAlone
  refine ⟨fun s h => ?_, fun c s => ?_, fun s h => ?_, fun s pulseDue ho hrate hpulse => ?_⟩
  · cases hown : ownEvent s with
    | some c =>
      have hstep : step s = exec c s := by simp only [step, h, hown]
      exact hstep
    | none =>
      have hstep : step s = .next (oneTick s) := by simp only [step, h, hown]
      exact hstep
  · exact exec_pending c s
  · simp [ownEvent, h]
  · intro reached when silent row timers head work
    have hepoch : s.epochDue.isSome = pulseDue := Bool.eq_iff_iff.2 ((epochDue_isSome_iff hrate).trans hpulse.symm)
    have htimers : timersDue s = timers := by
      simp only [timersDue, State.watchdogDue_eq, State.holdoverOver_eq, hepoch, Monitor.freezeDue_eq]
      simp only [StreamEntry.silenceDue_eq, EpochRec.deadlineDue_eq]
      rfl
    have hrow : ∀ f : CtrlFrame, commandRow f.re.code.toNat = row f := fun f => by
      rw [commandRow_eq]
      exact if_congr ⟨fun h => BitVec.eq_of_toNat_eq h, fun h => congrArg BitVec.toNat h⟩ rfl rfl
    have hwork : workDue s = work := by
      simp only [workDue, State.commitDue_eq, State.composeDue_eq, State.partDue_isSome, hrow]
      rfl
    unfold ownEvent admissionDue
    rw [if_pos ho, htimers, hwork]
    cases s.adm.offers with
    | cons o os => rfl
    | nil => cases s.adm.ingest <;> rfl

end Sys2Proof.Machine
end

