-- ==== Sys2Proof/Proofs/Snap.lean ====
section
/-! PROOFS. The epoch grid and the Snap Unit: ordinals across a rate change, instants, the nearest slot, the residual, and the
correction of angles (R55, R56, R60 to R68). -/

namespace Sys2Proof.Machine

/-! ### Ordinals and instants (R55, R56) -/

/-- Conversion second by second is the floor of the ordinal on the new grid (R56). -/
theorem convertOrdinal_eq {r1 : Nat} (h : 0 < r1) (r2 e : Nat) : convertOrdinal r1 r2 e = e * r2 / r1 := by
  have hsplit : e * r2 = r1 * (e / r1 * r2) + e % r1 * r2 := by
    calc e * r2 = (r1 * (e / r1) + e % r1) * r2 := by rw [Nat.div_add_mod]
      _ = r1 * (e / r1 * r2) + e % r1 * r2 := by ring
  rw [convertOrdinal, hsplit, Nat.mul_add_div h]

/-- A quotient rounded up reaches the exact one and stays less than a unit above it. -/
theorem ceilDiv_bounds (a : Nat) {b : Nat} (h : 0 < b) : a ≤ ceilDiv a b * b ∧ ceilDiv a b * b < a + b := by
  have hle : ceilDiv a b * b ≤ a + b - 1 := Nat.div_mul_le_self ..
  have hlt : a + b - 1 < b * ceilDiv a b + b := Nat.lt_mul_div_succ _ h
  rw [Nat.mul_comm b] at hlt
  omega

/-- An instant second by second is the exact one rounded up (R55). -/
theorem instantUs_eq {r : Nat} (h : 0 < r) (e : Nat) : instantUs r e = ceilDiv (e * 1000000) r := by
  have hsplit : e * 1000000 = r * (e / r * 1000000) + e % r * 1000000 := by
    calc e * 1000000 = (r * (e / r) + e % r) * 1000000 := by rw [Nat.div_add_mod]
      _ = r * (e / r * 1000000) + e % r * 1000000 := by ring
  have hpart (a b : Nat) : a + b + r - 1 = a + (b + r - 1) := by omega
  rw [instantUs, ceilDiv, ceilDiv, hsplit, hpart, Nat.mul_add_div h]

/-- Settles O19: the conversion is a floor and the instant a ceiling, whatever the rates. -/
theorem gridConversionAndInstants : Obligations.GridConversionAndInstants := by
  unfold Obligations.GridConversionAndInstants
  refine ⟨fun r1 r2 e h1 _ => ?_, fun r e h => ?_⟩
  · rw [convertOrdinal_eq h1, Nat.mul_comm _ r1, Nat.mul_comm _ r1]
    exact ⟨Nat.mul_div_le .., Nat.lt_mul_div_succ _ h1⟩
  · rw [instantUs_eq h]
    exact ceilDiv_bounds _ h

/-! ### The nearest slot and the residual (R60 to R64) -/

/-- No slot lies nearer a label than the nearest one, the later of two at equal distance (R61). -/
theorem nearestSlot_near (frac rate : Nat) {tb : Nat} (h : 0 < tb) :
    2 * nearestSlot frac tb rate * tb ≤ 2 * (frac * rate) + tb ∧ 2 * (frac * rate) < (2 * nearestSlot frac tb rate + 1) * tb := by
  have hle : 2 * tb * nearestSlot frac tb rate ≤ 2 * (frac * rate) + tb := Nat.mul_div_le ..
  have hlt : 2 * (frac * rate) + tb < 2 * tb * (nearestSlot frac tb rate + 1) := Nat.lt_mul_div_succ _ (by omega)
  constructor <;> linarith

/-- The slots run to R, which stands for slot 0 of the next second (R62). -/
theorem nearestSlot_le_rate {frac tb : Nat} (rate : Nat) (h : frac < tb) : nearestSlot frac tb rate ≤ rate := by
  have hlt : 2 * (frac * rate) + tb < (rate + 1) * (2 * tb) := by nlinarith [Nat.mul_le_mul_right rate h.le]
  exact Nat.le_of_lt_succ (Nat.div_lt_of_lt_mul (by linarith))

/-- A label is bad where FRAC is not below TB, or where it rolls past the last second (R60, R62). -/
theorem isBadLabel_iff {q : SnapRequest} :
    isBadLabel q = true ↔ q.tb ≤ q.frac ∨ (nearestSlot q.frac q.tb q.rate = q.rate ∧ q.soe = 4294967295) := by
  simp [isBadLabel]

/-- Rounding keeps the sign and rounds the magnitude (00_scope, "Rounding"). -/
theorem roundHalfAway_scaled (num : Int) {c : Nat} (hc : 0 < c) (den : Nat) :
    roundHalfAway (num * c) den =
      let size := (2 * (num.natAbs * c) + den) / (2 * den)
      if num < 0 then -(size : Int) else size := by
  have hsign : 0 ≤ num * c ↔ ¬ num < 0 := by
    rw [not_lt]; exact mul_nonneg_iff_of_pos_right (by exact_mod_cast hc)
  by_cases hn : num < 0 <;> simp [roundHalfAway, hsign, hn, Int.natAbs_mul]

/-- Settles O20: a good label snaps to its nearest slot, unless its residual is beyond the tolerance. -/
theorem snapTakesTheNearestSlot : Obligations.SnapTakesTheNearestSlot := by
  unfold Obligations.SnapTakesTheNearestSlot
  intro q htb _ k num size
  have hresidual : residualNs q.frac q.tb q.rate = if num < 0 then -(size : Int) else size :=
    roundHalfAway_scaled num (c := 1000000000) (by decide) (q.tb * q.rate)
  have hsize : (residualNs q.frac q.tb q.rate).natAbs = size := by
    rw [hresidual]; split <;> simp
  refine ⟨fun h => snap_badLabel.2 (isBadLabel_iff.2 (.inl h)),
    fun h => ⟨nearestSlot_le_rate q.rate h, nearestSlot_near q.frac q.rate htb⟩,
    fun _ hk hsoe => snap_badLabel.2 (isBadLabel_iff.2 (.inr ⟨hk, hsoe⟩)), fun hfrac hroll => ?_⟩
  have hgood : ¬ isBadLabel q = true := by
    rw [isBadLabel_iff]
    rintro (h | ⟨hk, hsoe⟩)
    · exact absurd hfrac h.not_gt
    · exact hroll hk hsoe
  refine ⟨fun hfar => snap_offGrid.2 ⟨by simpa using hgood, hsize ▸ hfar⟩, fun hnear => ?_⟩
  cases hsnap : snap q with
  | badLabel => exact absurd (snap_badLabel.1 hsnap) hgood
  | offGrid => exact absurd (snap_offGrid.1 hsnap).2 (by omega)
  | snapped e d as u =>
    obtain ⟨_, _, rfl, rfl, _⟩ := snap_snapped hsnap
    exact ⟨as, u, by rw [hresidual]; rfl⟩

/-! ### Correction of angles (R66 to R68) -/

/-- Correction applies where it is on, the frequency is known and there is a residual (R66). -/
theorem correctionApplies_iff {q : SnapRequest} {d : Int} :
    correctionApplies q d = true ↔ q.correction = true ∧ q.df ≠ 0x8000#16 ∧ d ≠ 0 := by
  simp [correctionApplies, and_assoc]

/-- Δθ is the negated product rounded to the nearest unit (R67). -/
theorem angleShift_near (df : Half) (d : Int) :
    2 * (angleShift df d * 1000000000000 + df.toInt * d * 65536).natAbs ≤ 1000000000000 := by
  have hnear := roundHalfAway_near (df.toInt * d * 65536) 1000000000000 (by decide)
  unfold angleShift
  omega

/-- A shifted angle is wrapped by whole turns (R68). -/
theorem shiftAngle_turns (shift : Int) (a : Half) : ∃ turns : Int, (shiftAngle shift a).toInt = a.toInt + shift + turns * 65536 := by
  refine ⟨-(Int.bdiv (a.toInt + shift) 65536), ?_⟩
  rw [shiftAngle, BitVec.toInt_ofInt, Int.bmod_eq_self_sub_bdiv_mul, neg_mul, ← sub_eq_add_neg]
  rfl

/-- Settles O21: by R66's two outcomes, one shift for every angle where correction applies. -/
theorem angleCorrectionWraps : Obligations.AngleCorrectionWraps := by
  unfold Obligations.AngleCorrectionWraps
  intro q e d as u hsnap
  obtain ⟨_, _, _, _, hangles⟩ := snap_snapped hsnap
  rcases hangles with ⟨happ, rfl, rfl⟩ | ⟨happ, rfl, rfl⟩
  · obtain ⟨hon, hdf, hd⟩ := correctionApplies_iff.1 happ
    refine ⟨List.length_map .., fun h => absurd h hd, ?_,
      fun _ _ _ => ⟨rfl, angleShift q.df d, angleShift_near .., fun i hi => ?_⟩⟩
    · rintro _ (hoff | hunknown)
      · exact absurd hon (by simp [hoff])
      · exact absurd hunknown hdf
    · exact ⟨shiftAngle (angleShift q.df d) q.angles[i], by simp [hi], shiftAngle_turns ..⟩
  · have hnot : ¬ (q.correction = true ∧ q.df ≠ 0x8000#16 ∧ d ≠ 0) := by simp [← correctionApplies_iff, happ]
    exact ⟨rfl, fun h => ⟨rfl, by simp [h]⟩, fun h _ => ⟨rfl, by simp [h]⟩, fun hd hon hdf => absurd ⟨hon, hdf, hd⟩ hnot⟩

end Sys2Proof.Machine
end

