-- ==== Sys2Proof/Proofs/PlacementTests.lean ====
section
/-! PROOFS. The eight tests of placement: what each finds, and the answer of the first that matches (R69, R79 to R89). -/

namespace Sys2Proof.Machine

/-! ### What the tests find (R80 to R82) -/

/-- Test 1 (R69, R80). -/
theorem isDraining_iff {s : State} {o : Offer} :
    isDraining s o = true ↔ s.ring.stepDrain = true ∨ s.ring.commitDrain = true ∨ o.rate ≠ s.table.params.rate := by
  simp [isDraining, State.rate, or_assoc]

/-- An ordinal lies at or below a floor that is set. -/
theorem belowFloor_iff {r : Ring} {ordinal : Nat} : belowFloor r ordinal = true ↔ ∃ f, r.floor = some f ∧ ordinal ≤ f := by
  unfold belowFloor
  cases r.floor <;> simp

/-- Test 2 (R81). -/
theorem isLate_iff {r : Ring} {ordinal : Nat} :
    isLate r ordinal = true ↔ (∃ f, r.floor = some f ∧ ordinal ≤ f) ∨ ∃ x ∈ r.recs, x.state = .emitting ∧ ordinal < x.ordinal := by
  simp [isLate, belowFloor_iff, belowEmitting]

/-- Test 3 (R82). -/
theorem isAhead_iff {s : State} {ordinal : Nat} : isAhead s ordinal = true ↔
    ∃ now, s.refNow = some now ∧ now + s.table.params.aheadMs * 1000 < instantUs s.table.params.rate ordinal := by
  unfold isAhead
  cases s.refNow with
  | none => simp
  | some now => exact decide_eq_true_iff.trans ⟨fun h => ⟨now, rfl, h⟩, fun ⟨_, rfl, h⟩ => h⟩

/-! ### From when lateness counts (R81) -/

/-- Lateness counts from the departure of the epoch where its slot remembers it. -/
theorem lateSince_remembered {r : Ring} {ordinal : Nat} {m : Departed} (h : memoryOf r.memory ordinal = some m)
    (hm : m.ordinal = ordinal) : lateSince r ordinal = m.tick := by
  simp [lateSince, h, hm]

/-- Without that memory it counts from the floor tick or the seal tick. -/
theorem lateSince_forgotten {r : Ring} {ordinal : Nat} (h : ∀ m, memoryOf r.memory ordinal = some m → m.ordinal ≠ ordinal) :
    lateSince r ordinal = lateSince.lateElse r ordinal := by
  unfold lateSince
  cases hm : memoryOf r.memory ordinal with
  | none => rfl
  | some m => exact if_neg (h m hm)

/-- At or below the floor it is the floor tick. -/
theorem lateElse_floor {r : Ring} {ordinal f t : Nat} (hf : r.floor = some f) (hle : ordinal ≤ f) (ht : r.floorTick = some t) :
    lateSince.lateElse r ordinal = t := by
  rw [lateSince.lateElse, if_pos (belowFloor_iff.2 ⟨f, hf, hle⟩), ht, Option.getD_some]

/-- The only EMITTING record is the one that a lower ordinal lies below. -/
theorem belowEmitting_only {r : Ring} {ordinal : Nat} {e : EpochRec} (hmem : e ∈ r.recs) (he : e.state = .emitting)
    (hlt : ordinal < e.ordinal) (honly : ∀ x ∈ r.recs, x.state = .emitting → x = e) : belowEmitting r ordinal = some e := by
  cases hfind : belowEmitting r ordinal with
  | none => simpa [he, hlt] using List.find?_eq_none.1 hfind e hmem
  | some x =>
    have hx := List.find?_some hfind
    simp only [Bool.and_eq_true, beq_iff_eq] at hx
    rw [honly x (List.mem_of_find?_eq_some hfind) hx.1]

/-- Above the floor it is the seal tick of the EMITTING record. -/
theorem lateElse_emitting {r : Ring} {ordinal t : Nat} {e : EpochRec} (hfloor : ∀ f, r.floor = some f → f < ordinal)
    (hbelow : belowEmitting r ordinal = some e) (ht : e.sealTick = some t) : lateSince.lateElse r ordinal = t := by
  have habove : ¬ belowFloor r ordinal = true := by
    rw [belowFloor_iff]
    rintro ⟨f, hf, hle⟩
    exact absurd (hfloor f hf) hle.not_gt
  rw [lateSince.lateElse, if_neg habove, hbelow, Option.bind_some, ht, Option.getD_some]

/-! ### The span (R83 to R85) -/

/-- Test 4 on a ring with records: the lowest and the highest bound the span. -/
theorem spanAnswer_held {r : Ring} {lo hi : EpochRec} (hlo : r.recs.head? = some lo) (hhi : r.recs.getLast? = some hi) (ordinal : Nat) :
    spanAnswer r ordinal = if lo.ordinal + 511 < ordinal then some .crowds
      else if ordinal + 511 < hi.ordinal then some .belowSpan else none := by
  simp only [spanAnswer, hlo, hhi]

/-- Test 4 on an empty ring: a floor that is set bounds the span. -/
theorem spanAnswer_floor {r : Ring} {f : Nat} (h : r.recs = []) (hf : r.floor = some f) (ordinal : Nat) :
    spanAnswer r ordinal = if f + 512 < ordinal then some .advances else none := by
  simp only [spanAnswer, h, hf, List.head?_nil]

/-- Test 4 on an empty ring without a floor: every ordinal fits. -/
theorem spanAnswer_noFloor {r : Ring} (h : r.recs = []) (hf : r.floor = none) (ordinal : Nat) : spanAnswer r ordinal = none := by
  simp only [spanAnswer, h, hf, List.head?_nil]

/-! ### The first test that matches (R79) -/

/-- A drain answers before every other test (R80). -/
theorem answer_draining {s : State} {o : Offer} (h : isDraining s o = true) : answer s o = .draining := if_pos h

/-- A gone epoch answers by the stream's `last_epoch` (R81). -/
theorem answer_gone {s : State} {o : Offer} (hd : ¬ isDraining s o = true) (hl : isLate s.ring o.ordinal = true) :
    answer s o = if (s.stream o.id).bind (·.lastEpoch) = some o.ordinal then .duplicate else .late (lateSince s.ring o.ordinal) := by
  rw [answer, if_neg hd, if_pos hl]

/-- An epoch too far ahead (R82). -/
theorem answer_ahead {s : State} {o : Offer} (hd : ¬ isDraining s o = true) (hl : ¬ isLate s.ring o.ordinal = true)
    (ha : isAhead s o.ordinal = true) : answer s o = .ahead := by
  rw [answer, if_neg hd, if_neg hl, if_pos ha]

/-- Past the first three tests the span answers, or the record (R83 to R89). -/
theorem answer_span {s : State} {o : Offer} (hd : ¬ isDraining s o = true) (hl : ¬ isLate s.ring o.ordinal = true)
    (ha : ¬ isAhead s o.ordinal = true) : answer s o = (spanAnswer s.ring o.ordinal).getD (recordAnswer s.ring o) := by
  rw [answer, if_neg hd, if_neg hl, if_neg ha]
  cases spanAnswer s.ring o.ordinal <;> rfl

/-! ### The record and room (R86 to R89) -/

/-- Test 5: a record that is not OPEN (R86). -/
theorem recordAnswer_afterSeal {r : Ring} {o : Offer} {e : EpochRec} {t : Nat} (hrec : r.recordOf o.ordinal = some e)
    (hs : e.state ≠ .opened) (ht : e.sealTick = some t) : recordAnswer r o = .afterSeal t := by
  simp [recordAnswer, hrec, hs, ht]

/-- Test 6: an OPEN record that holds the stream (R87). -/
theorem recordAnswer_sameStream {r : Ring} {o : Offer} {e : EpochRec} {d : Contribution} (hrec : r.recordOf o.ordinal = some e)
    (hs : e.state = .opened) (hd : e.sameStream o.contribution = some d) :
    recordAnswer r o = if d.frac = o.contribution.frac then .duplicate else .collision := by
  simp [recordAnswer, hrec, hs, hd]

/-- Tests 7 and 8: room decides where no record holds the stream (R88, R89). -/
theorem recordAnswer_room {r : Ring} {o : Offer} (h : r.recordOf o.ordinal = none ∨
    ∃ e, r.recordOf o.ordinal = some e ∧ e.state = .opened ∧ e.sameStream o.contribution = none) :
    recordAnswer r o = if 8192 ≤ r.occupancy then .storeFull else .accepted := by
  rcases h with hrec | ⟨e, hrec, hs, hd⟩
  · simp [recordAnswer, hrec, roomAnswer]
  · simp [recordAnswer, hrec, hs, hd, roomAnswer]

/-- Settles O22: each test by what it finds, and the answer of the first that matches. -/
theorem placementTestsInOrder : Obligations.PlacementTestsInOrder := by
  unfold Obligations.PlacementTestsInOrder
  refine ⟨fun s o => ?_, fun r o => ⟨fun _ _ => recordAnswer_afterSeal, fun _ _ => recordAnswer_sameStream, recordAnswer_room⟩,
    fun _ _ _ _ => ⟨rfl, rfl, rfl⟩⟩
  intro drains gone tooFar
  have hdrains : isDraining s o = true ↔ drains := isDraining_iff
  have hgone : isLate s.ring o.ordinal = true ↔ gone := isLate_iff
  have hahead : isAhead s o.ordinal = true ↔ tooFar := isAhead_iff
  rw [← hdrains, ← hgone, ← hahead]
  refine ⟨answer_draining, fun hd hl => ⟨fun hlast => ?_, fun hlast => ?_⟩, answer_ahead,
    fun hd hl ha => ⟨?_, fun hempty => ?_⟩⟩
  · rw [answer_gone hd hl, if_pos (Option.bind_eq_some_iff.2 hlast)]
  · have hlate : answer s o = .late (lateSince s.ring o.ordinal) := by
      rw [answer_gone hd hl, if_neg]
      rw [Option.bind_eq_some_iff]
      rintro ⟨e, he, hlastEpoch⟩
      exact hlast e he hlastEpoch
    rw [hlate]
    intro recalled
    refine ⟨fun m hm hord => ?_, fun hforgot => ?_⟩
    · rw [lateSince_remembered hm hord]
    · rw [lateSince_forgotten hforgot]
      exact ⟨fun f t hf hle ht => by rw [lateElse_floor hf hle ht],
        fun r t hf hmem he hlt honly ht => by rw [lateElse_emitting hf (belowEmitting_only hmem he hlt honly) ht]⟩
  · intro lo hi hlo hhi
    rw [answer_span hd hl ha, spanAnswer_held hlo hhi]
    exact ⟨fun h => by rw [if_pos h, Option.getD_some], fun h h' => by rw [if_neg h, if_pos h', Option.getD_some],
      fun h h' => by rw [if_neg h, if_neg h', Option.getD_none]⟩
  · rw [answer_span hd hl ha]
    cases hf : s.ring.floor with
    | none =>
      rw [spanAnswer_noFloor hempty hf]
      exact ⟨fun _ hg => (nomatch hg), fun _ => rfl⟩
    | some f =>
      rw [spanAnswer_floor hempty hf]
      refine ⟨?_, fun hfits => by rw [if_neg (hfits f rfl), Option.getD_none]⟩
      rintro _ ⟨⟩ hbeyond
      rw [if_pos hbeyond, Option.getD_some]

end Sys2Proof.Machine
end

