-- ==== Sys2Proof/Proofs/RingRecords.lean ====
section
/-! SUPPORT. The ring by itself: what its records, its floor and its departure memory must satisfy, and which changes of the records keep
it so: a change record by record, a departure of the head, and a record put in its place (R73 to R77, R98, R100). -/

namespace Sys2Proof.Machine

/-! ### The ring in order (R73 to R77) -/

/-- The clauses of `RingOk` that speak of the ring alone: order, span, floor, records, cells and departure memory, and no OPEN record
during a drain. -/
structure Ring.Ordered (r : Ring) : Prop where
  ascending : r.recs.Pairwise fun a b => a.ordinal < b.ordinal
  span : ∀ a ∈ r.recs, ∀ b ∈ r.recs, b.ordinal ≤ a.ordinal + 511
  aboveFloor : ∀ f, r.floor = some f → ∀ e ∈ r.recs, f < e.ordinal
  floorTick : r.floorTick.isSome = r.floor.isSome
  records : ∀ e ∈ r.recs, e.Ok
  emitting : ∀ e ∈ r.recs.tail, e.state ≠ .emitting
  cells : r.occupancy ≤ cells
  memory : r.memory.Pairwise fun a b => a.ordinal % slots < b.ordinal % slots
  drain : r.stepDrain = true ∨ r.commitDrain = true → ∀ e ∈ r.recs, e.state ≠ .opened

/-- An empty ring is in order with its floor and its memory. -/
theorem Ring.Ordered.of_nil {r : Ring} (hr : r.recs = []) (ht : r.floorTick.isSome = r.floor.isSome)
    (hm : r.memory.Pairwise fun a b => a.ordinal % slots < b.ordinal % slots) : r.Ordered := by
  refine ⟨?_, ?_, ?_, ht, ?_, ?_, ?_, hm, ?_⟩ <;> simp [hr, Ring.occupancy]

/-- In ascending order an EMITTING record is at most the head exactly when none stands below one (R74). -/
theorem emitting_tail_iff {rs : List EpochRec} (h : rs.Pairwise fun a b => a.ordinal < b.ordinal) :
    (∀ e ∈ rs.tail, e.state ≠ .emitting) ↔ ∀ e ∈ rs, e.state = .emitting → ∀ x ∈ rs, e.ordinal ≤ x.ordinal := by
  cases rs with
  | nil => simp
  | cons r rest =>
    obtain ⟨hlt, -⟩ := List.pairwise_cons.1 h
    refine ⟨fun ht e he hs x hx => ?_, fun hall e he hs => ?_⟩
    · rcases List.mem_cons.1 he with rfl | he
      · rcases List.mem_cons.1 hx with rfl | hx
        · exact le_rfl
        · exact (hlt x hx).le
      · exact absurd hs (ht e he)
    · exact absurd (hall e (List.mem_cons_of_mem r he) hs r List.mem_cons_self) (hlt e he).not_ge

/-- An EMITTING record is the head (R74). -/
theorem Ring.Ordered.head_of_emitting {r : Ring} (h : r.Ordered) {e : EpochRec} (he : e ∈ r.recs) (hs : e.state = .emitting) :
    r.recs.head? = some e := by
  have htail := h.emitting
  cases hr : r.recs with
  | nil => simp [hr] at he
  | cons x rest =>
    rw [hr] at he htail
    rcases List.mem_cons.1 he with rfl | he
    · rfl
    · exact absurd hs (htail e he)

/-- No ordinal stands twice (R73). -/
theorem Ring.Ordered.nodup {r : Ring} (h : r.Ordered) : (r.recs.map fun e => e.ordinal).Nodup :=
  List.pairwise_map.2 (h.ascending.imp fun hlt => hlt.ne)

/-! ### A change record by record (R94, R95, R96) -/

/-- A change of a record that keeps its ordinal and the number of its cells, opens nothing and emits nothing. -/
structure EpochRec.Keeps (r u : EpochRec) : Prop where
  ordinal : u.ordinal = r.ordinal
  cells : u.contributions.length = r.contributions.length
  ok : r.Ok → u.Ok
  emitting : u.state = .emitting ↔ r.state = .emitting
  opened : u.state = .opened → r.state = .opened

theorem EpochRec.Keeps.refl (r : EpochRec) : r.Keeps r := ⟨rfl, rfl, id, Iff.rfl, id⟩

theorem EpochRec.Keeps.trans {r u v : EpochRec} (h : r.Keeps u) (h' : u.Keeps v) : r.Keeps v :=
  ⟨h'.ordinal.trans h.ordinal, h'.cells.trans h.cells, fun ho => h'.ok (h.ok ho), h'.emitting.trans h.emitting,
    fun ho => h.opened (h'.opened ho)⟩

/-- A change of the contributions' order or of the required-present count. -/
theorem EpochRec.Keeps.of_list {r u : EpochRec} (ho : u.ordinal = r.ordinal) (hl : u.contributions.length = r.contributions.length)
    (hs : u.state = r.state) (ht : u.sealTick = r.sealTick) (hc : u.cause = r.cause) : r.Keeps u := by
  refine ⟨ho, hl, fun ⟨hn, hseal, hcause⟩ => ⟨?_, by rw [ht, hs]; exact hseal, by rw [hc, hs]; exact hcause⟩, by rw [hs],
    fun h => hs ▸ h⟩
  rwa [← List.length_pos_iff_ne_nil, hl, List.length_pos_iff_ne_nil]

/-- The seal of an OPEN record (R94). -/
theorem EpochRec.seal_keeps {r : EpochRec} (h : r.state = .opened) (cause : SealCause) (now : Nat) : r.Keeps (r.seal cause now) :=
  ⟨rfl, rfl, fun hok => ⟨hok.nonempty, by simp [EpochRec.seal], by simp [EpochRec.seal]⟩, by simp [EpochRec.seal, h], fun _ => h⟩

theorem EpochRec.recount_keeps (a : ActiveSet) (r : EpochRec) : r.Keeps (r.recount a) := .of_list rfl rfl rfl rfl rfl

/-- A re-evaluation (R95). -/
theorem EpochRec.reevaluated_keeps (a : ActiveSet) (now : Nat) (r : EpochRec) : r.Keeps (r.reevaluated a now) := by
  unfold EpochRec.reevaluated
  split
  · exact .refl r
  · next ho =>
    split
    · exact (r.recount_keeps a).trans (EpochRec.seal_keeps (r := r.recount a) (not_not.1 ho) _ _)
    · exact r.recount_keeps a

/-- A renumbering (R96, R182). -/
theorem EpochRec.renumber_keeps (s : State) (r : EpochRec) : r.Keeps (r.renumber s) := by
  refine .of_list rfl ?_ rfl rfl rfl
  simpa [EpochRec.renumber] using (sortContributions_perm (r.contributions.map (renumbered s))).length_eq

/-- The ring after a change of its records that keeps each, with floor, memory and drains as they were. -/
theorem Ring.Ordered.map {r t : Ring} {g : EpochRec → EpochRec} (h : r.Ordered) (hg : ∀ e ∈ r.recs, e.Keeps (g e))
    (hrecs : t.recs = r.recs.map g) (hfloor : t.floor = r.floor) (htick : t.floorTick = r.floorTick) (hmemory : t.memory = r.memory)
    (hstep : t.stepDrain = r.stepDrain) (hdrain : t.commitDrain = r.commitDrain) : t.Ordered := by
  have mem {x : EpochRec} (hx : x ∈ t.recs) : ∃ e ∈ r.recs, e.Keeps x := by
    obtain ⟨e, he, rfl⟩ := List.mem_map.1 (hrecs ▸ hx)
    exact ⟨e, he, hg e he⟩
  refine ⟨?_, fun a ha b hb => ?_, fun f hf x hx => ?_, by rw [htick, hfloor]; exact h.floorTick, fun x hx => ?_, fun x hx => ?_, ?_,
    hmemory ▸ h.memory, fun hd x hx ho => ?_⟩
  · rw [hrecs, List.pairwise_map]
    exact (List.Pairwise.and_mem.1 h.ascending).imp fun ⟨ha, hb, hlt⟩ => by rwa [(hg _ ha).ordinal, (hg _ hb).ordinal]
  · obtain ⟨⟨c, hc, hac⟩, ⟨d, hd, hbd⟩⟩ := And.intro (mem ha) (mem hb)
    rw [hac.ordinal, hbd.ordinal]
    exact h.span c hc d hd
  · obtain ⟨e, he, hk⟩ := mem hx
    rw [hk.ordinal]
    exact h.aboveFloor f (hfloor ▸ hf) e he
  · obtain ⟨e, he, hk⟩ := mem hx
    exact hk.ok (h.records e he)
  · rw [hrecs, ← List.map_tail] at hx
    obtain ⟨e, he, rfl⟩ := List.mem_map.1 hx
    rw [Ne, (hg e (List.mem_of_mem_tail he)).emitting]
    exact h.emitting e he
  · have hsum : t.occupancy = r.occupancy := by
      rw [Ring.occupancy, Ring.occupancy, hrecs, List.map_map]
      exact congrArg List.sum (List.map_congr_left fun e he => (hg e he).cells)
    exact hsum ▸ h.cells
  · obtain ⟨e, he, hk⟩ := mem hx
    rw [hstep, hdrain] at hd
    exact h.drain hd e he (hk.opened ho)

/-! ### The departure of the head (R98) -/

/-- The departure memory stands in the order of its slots (R73). -/
theorem remember_ascending {d : Departed} {ms : List Departed} (h : ms.Pairwise fun a b => a.ordinal % slots < b.ordinal % slots) :
    (remember d ms).Pairwise fun a b => a.ordinal % slots < b.ordinal % slots := by
  induction ms with
  | nil => exact List.pairwise_singleton _ _
  | cons m ms ih =>
    obtain ⟨hm, hms⟩ := List.pairwise_cons.1 h
    unfold remember
    split
    · next heq => exact List.pairwise_cons.2 ⟨fun x hx => heq ▸ hm x hx, hms⟩
    · next hne =>
      split
      · next hlt =>
        refine List.pairwise_cons.2 ⟨fun x hx => ?_, h⟩
        rcases List.mem_cons.1 hx with rfl | hx
        · exact hlt
        · exact hlt.trans (hm x hx)
      · next hge =>
        refine List.pairwise_cons.2 ⟨fun x hx => ?_, ih hms⟩
        rcases mem_remember d ms x hx with rfl | hx
        · exact lt_of_le_of_ne (Nat.le_of_not_lt hge) hne
        · exact hm x hx

/-- The ring without its head, whose ordinal is the floor, is in order, and nothing left of it is EMITTING (R74, R98). -/
theorem Ring.Ordered.leave {r : Ring} {e : EpochRec} {rest : List EpochRec} (h : r.Ordered) (hr : r.recs = e :: rest) (now : Nat) :
    Ring.Ordered { r with recs := rest, memory := remember ⟨e.ordinal, now⟩ r.memory,
                           floor := some e.ordinal, floorTick := some now } ∧
      ∀ x ∈ rest, x.state ≠ .emitting := by
  obtain ⟨ascending, span, -, -, records, emitting, hcells, memory, drain⟩ := h
  simp only [hr, Ring.occupancy, List.map_cons, List.sum_cons, List.tail_cons, List.pairwise_cons, List.forall_mem_cons] at *
  refine ⟨⟨ascending.2, fun a ha b hb => span.2 a ha |>.2 b hb, ?_, rfl, records.2, fun x hx => emitting x (List.mem_of_mem_tail hx),
    ?_, remember_ascending memory, fun hd => (drain hd).2⟩, emitting⟩
  · rintro f ⟨⟩
    exact ascending.1
  · exact (Nat.le_add_left _ _).trans hcells

/-! ### A record put in its place (R77, R89) -/

/-- A new record stands between the records below it and those above it. -/
theorem insertRecord_split {e : EpochRec} {rs : List EpochRec} (h : rs.Pairwise fun a b => a.ordinal < b.ordinal)
    (hn : ∀ r ∈ rs, r.ordinal ≠ e.ordinal) : ∃ as bs, rs = as ++ bs ∧ insertRecord e rs = as ++ e :: bs ∧
      (∀ a ∈ as, a.ordinal < e.ordinal) ∧ ∀ b ∈ bs, e.ordinal < b.ordinal := by
  induction rs with
  | nil => exact ⟨[], [], rfl, rfl, by simp, by simp⟩
  | cons r rs ih =>
    obtain ⟨hr, hrs⟩ := List.pairwise_cons.1 h
    obtain ⟨hre, hn⟩ := List.forall_mem_cons.1 hn
    unfold insertRecord
    split
    · next hlt => exact ⟨[], r :: rs, rfl, rfl, by simp, List.forall_mem_cons.2 ⟨hlt, fun b hb => hlt.trans (hr b hb)⟩⟩
    · next hge =>
      obtain ⟨as, bs, rfl, hins, has, hbs⟩ := ih hrs hn
      exact ⟨r :: as, bs, rfl, by rw [hins, List.cons_append], List.forall_mem_cons.2 ⟨by omega, has⟩, hbs⟩

/-- The ring's records around the place of an ordinal, before and after a record of that ordinal is put there. -/
theorem putRecord_split {r : Ring} (h : r.recs.Pairwise fun a b => a.ordinal < b.ordinal) (e : EpochRec) :
    ∃ as bs, r.recs = as ++ (r.recordOf e.ordinal).toList ++ bs ∧ putRecord e r = as ++ e :: bs ∧
      (∀ a ∈ as, a.ordinal < e.ordinal) ∧ ∀ b ∈ bs, e.ordinal < b.ordinal := by
  cases hf : r.recordOf e.ordinal with
  | none =>
    have hn : ∀ x ∈ r.recs, x.ordinal ≠ e.ordinal := by simpa [Ring.recordOf] using hf
    obtain ⟨as, bs, hrecs, hins, hlow, hhigh⟩ := insertRecord_split h hn
    exact ⟨as, bs, by simpa using hrecs, by simpa [putRecord, hf] using hins, hlow, hhigh⟩
  | some d =>
    obtain ⟨hd, as, bs, hrecs, -⟩ := List.find?_eq_some_iff_append.1 hf
    have hord : d.ordinal = e.ordinal := by simpa using hd
    rw [hrecs, List.pairwise_append, List.pairwise_cons] at h
    obtain ⟨-, ⟨habove, -⟩, hbelow⟩ := h
    have hlow : ∀ a ∈ as, a.ordinal < e.ordinal := fun a ha => hord ▸ hbelow a ha d List.mem_cons_self
    have hhigh : ∀ b ∈ bs, e.ordinal < b.ordinal := fun b hb => hord ▸ habove b hb
    have keeps {l : List EpochRec} (hl : ∀ x ∈ l, x.ordinal ≠ e.ordinal) :
        l.map (fun x => if x.ordinal = e.ordinal then e else x) = l :=
      (List.map_congr_left fun x hx => if_neg (hl x hx)).trans (List.map_id l)
    refine ⟨as, bs, by simpa using hrecs, ?_, hlow, hhigh⟩
    rw [putRecord, hf, Option.isSome_some, if_pos rfl, hrecs, List.map_append, List.map_cons, if_pos hord,
      keeps fun x hx => (hlow x hx).ne, keeps fun x hx => (hhigh x hx).ne']

/-- Every other record stays, and the put one is there. -/
theorem mem_putRecord {r : Ring} (h : r.recs.Pairwise fun a b => a.ordinal < b.ordinal) (e x : EpochRec) :
    x ∈ putRecord e r ↔ x = e ∨ (x ∈ r.recs ∧ x.ordinal ≠ e.ordinal) := by
  obtain ⟨as, bs, hrecs, hput, hlow, hhigh⟩ := putRecord_split h e
  have hof : ∀ d ∈ (r.recordOf e.ordinal).toList, d.ordinal = e.ordinal := fun d hd => by
    simpa using List.find?_some (Option.mem_toList.1 hd)
  rw [hput, hrecs]
  simp only [List.mem_append, List.mem_cons]
  constructor
  · rintro (hx | rfl | hx)
    · exact .inr ⟨.inl (.inl hx), (hlow x hx).ne⟩
    · exact .inl rfl
    · exact .inr ⟨.inr hx, (hhigh x hx).ne'⟩
  · rintro (rfl | ⟨(hx | hx) | hx, hne⟩)
    · exact .inr (.inl rfl)
    · exact .inl hx
    · exact absurd (hof x hx) hne
    · exact .inr (.inr hx)

/-- The record that an ordinal's new record replaces is not EMITTING and has one cell less; a new record has one cell (R89). -/
def Ring.Receives (r : Ring) (e : EpochRec) : Prop :=
  e.contributions.length = ((r.recordOf e.ordinal).elim 0 fun d => d.contributions.length) + 1 ∧
    ∀ d, r.recordOf e.ordinal = some d → d.state ≠ .emitting

/-- A record put into its place keeps the ring in order, where the ordinal fits the span, lies above the floor and above the EMITTING
record, a cell is free and no drain is under way (R77, R79, R89). -/
theorem Ring.Ordered.put {r : Ring} {e : EpochRec} (h : r.Ordered) (hok : e.Ok) (hs : e.state ≠ .emitting) (hrec : r.Receives e)
    (hfits : ∀ b ∈ r.recs, b.ordinal ≤ e.ordinal + 511 ∧ e.ordinal ≤ b.ordinal + 511)
    (hfloor : ∀ f, r.floor = some f → f < e.ordinal) (habove : ∀ x ∈ r.recs, x.state = .emitting → x.ordinal ≤ e.ordinal)
    (hroom : r.occupancy < Machine.cells) (hstep : r.stepDrain = false) (hdrain : r.commitDrain = false) :
    Ring.Ordered { r with recs := putRecord e r } := by
  obtain ⟨as, bs, hrecs, hput, hlow, hhigh⟩ := putRecord_split h.ascending e
  have mem := mem_putRecord h.ascending e
  have hasc : (putRecord e r).Pairwise fun a b => a.ordinal < b.ordinal := by
    have hsub : (as ++ bs).Pairwise fun a b => a.ordinal < b.ordinal := by
      refine h.ascending.sublist ?_
      rw [hrecs, List.append_assoc]
      exact (List.sublist_append_right _ bs).append_left as
    obtain ⟨ha, hb, hab⟩ := List.pairwise_append.1 hsub
    rw [hput]
    exact List.pairwise_append.2 ⟨ha, List.pairwise_cons.2 ⟨hhigh, hb⟩, fun a ha' b hb' => by
      rcases List.mem_cons.1 hb' with rfl | hb'
      · exact hlow a ha'
      · exact hab a ha' b hb'⟩
  refine ⟨hasc, fun a ha b hb => ?_, fun f hf x hx => ?_, h.floorTick, fun x hx => ?_, ?_, ?_, h.memory, fun hd => ?_⟩
  · rcases (mem a).1 ha with rfl | ⟨ha', -⟩ <;> rcases (mem b).1 hb with rfl | ⟨hb', -⟩
    · omega
    · exact (hfits b hb').1
    · exact (hfits a ha').2
    · exact h.span a ha' b hb'
  · rcases (mem x).1 hx with rfl | ⟨hx, -⟩
    · exact hfloor f hf
    · exact h.aboveFloor f hf x hx
  · rcases (mem x).1 hx with rfl | ⟨hx, -⟩
    · exact hok
    · exact h.records x hx
  · refine (emitting_tail_iff hasc).2 fun x hx hxs y hy => ?_
    rcases (mem x).1 hx with rfl | ⟨hx', -⟩
    · exact absurd hxs hs
    · rcases (mem y).1 hy with rfl | ⟨hy', -⟩
      · exact habove x hx' hxs
      · exact (emitting_tail_iff h.ascending).1 h.emitting x hx' hxs y hy'
  · have hcells := hrec.1
    simp only [Ring.occupancy, hput] at hroom ⊢
    rw [hrecs] at hroom
    cases hf : r.recordOf e.ordinal <;> simp [hf] at hroom hcells ⊢ <;> omega
  · simp [hstep, hdrain] at hd

end Sys2Proof.Machine
end

