-- ==== Sys2Proof/Proofs/RingLists.lean ====
section
/-! SUPPORT. The lists of the ring's records: in the order of R76 with one contribution a stream, kept so by an insertion, a commit and
a departure, and which contributions the required-present count counts (R46, R76, R87, R90, R95, R96, R182). -/

namespace Sys2Proof.Machine

/-! ### The order of a list (R76, R182) -/

/-- Two contributions of one stream. -/
def Contribution.SameStream (a b : Contribution) : Prop := a.index.isSome = true ∧ a.index = b.index

theorem Contribution.SameStream.symm {a b : Contribution} (h : a.SameStream b) : b.SameStream a := ⟨h.2 ▸ h.1, h.2.symm⟩

/-- A contribution stands before another when the other does not precede it and is not of its stream. -/
theorem Contribution.before_iff {a b : Contribution} : a.before b ↔ ¬ b.precedes a = true ∧ ¬ a.SameStream b := by
  rw [Contribution.not_precedes_iff, Contribution.before, Contribution.SameStream]
  cases a.index <;> cases b.index <;> simp
  omega

theorem Contribution.before_of_precedes {a b : Contribution} (h : a.precedes b = true) : a.before b := by
  unfold Contribution.precedes at h
  unfold Contribution.before
  cases ha : a.index <;> cases hb : b.index <;> simp [ha, hb] at h ⊢ <;> omega

theorem Contribution.before_trans {a b c : Contribution} (h : a.before b) (h' : b.before c) : a.before c := by
  unfold Contribution.before at *
  cases ha : a.index <;> cases hb : b.index <;> cases hc : c.index <;> simp [ha, hb, hc] at h h' ⊢ <;> omega

/-- An insertion of a contribution of another stream than every one of the list keeps the order (R76). -/
theorem insertContribution_before {c : Contribution} {ds : List Contribution} (h : ds.Pairwise Contribution.before)
    (hn : ∀ d ∈ ds, ¬ c.SameStream d) : (insertContribution c ds).Pairwise Contribution.before := by
  induction ds with
  | nil => exact List.pairwise_singleton _ _
  | cons d ds ih =>
    obtain ⟨hd, hds⟩ := List.pairwise_cons.1 h
    obtain ⟨hcd, hn⟩ := List.forall_mem_cons.1 hn
    unfold insertContribution
    split
    · next hp =>
      have hbefore := Contribution.before_of_precedes hp
      exact List.pairwise_cons.2 ⟨List.forall_mem_cons.2 ⟨hbefore, fun x hx => Contribution.before_trans hbefore (hd x hx)⟩, h⟩
    · next hp =>
      refine List.pairwise_cons.2 ⟨fun x hx => ?_, ih hds hn⟩
      rcases (mem_insertContribution c ds x).1 hx with rfl | hx
      · exact Contribution.before_iff.2 ⟨hp, fun hs => hcd hs.symm⟩
      · exact hd x hx

/-- A list in order holds one contribution a stream (R76). -/
theorem distinct_of_before {cs : List Contribution} (h : cs.Pairwise Contribution.before) :
    cs.Pairwise fun a b => ¬ a.SameStream b := h.imp fun hab => (Contribution.before_iff.1 hab).2

/-- Sorting contributions of distinct streams puts them in order (R96, R182). -/
theorem sortContributions_before {cs : List Contribution} (h : cs.Pairwise fun a b => ¬ a.SameStream b) :
    (sortContributions cs).Pairwise Contribution.before := by
  have hdistinct := ((sortContributions_perm cs).pairwise_iff fun hab hba => hab hba.symm).2 h
  exact ((sortContributions_sorted cs).and hdistinct).imp Contribution.before_iff.2

/-! ### Renumbering (R96, R182) -/

/-- A contribution moves to its stream's new index. -/
theorem renumbered_index (s : State) (c : Contribution) : (renumbered s c).index = newIndex s c.index := by
  unfold renumbered
  cases h : newIndex s c.index <;> rfl

/-- Two streams do not meet at one new index: neither an active nor a staged ID stands twice (R34). -/
theorem newIndex_inj {s : State} (h : s.TablesOk) {a b : Option Nat} {k : Nat} (ha : newIndex s a = some k) (hb : newIndex s b = some k) :
    a = b := by
  have found {old : Option Nat} (ho : newIndex s old = some k) :
      ∃ e ∈ s.table.streams, old = some e.idx ∧ ∃ p ∈ s.ctl.staged.streams, p.1 = k ∧ p.2.id = e.cfg.id := by
    simp only [newIndex, Option.bind_eq_some_iff] at ho
    obtain ⟨i, rfl, e, he, hk⟩ := ho
    have hidx : e.idx = i := by simpa using List.find?_some he
    exact ⟨e, streamAt_mem he, by rw [hidx], indexOf_some hk⟩
  obtain ⟨e, he, rfl, p, hp, hpk, hpe⟩ := found ha
  obtain ⟨f, hf, rfl, q, hq, hqk, hqf⟩ := found hb
  have hslots : (s.ctl.staged.streams.map fun x => x.1).Nodup := List.pairwise_map.2 (h.staged.ascending.imp fun hlt => hlt.ne)
  have hids : (s.table.streams.map fun x => x.cfg.id).Nodup := by simpa [Function.comp_def] using h.active.ids
  have hpq : p = q := List.inj_on_of_nodup_map hslots hp hq (hpk.trans hqk.symm)
  rw [List.inj_on_of_nodup_map hids he hf (hpe.symm.trans (hpq ▸ hqf))]

/-- A record's list after a commit is in order (R96, R182). -/
theorem renumber_before {s : State} (h : s.TablesOk) {r : EpochRec} (hr : r.contributions.Pairwise Contribution.before) :
    (r.renumber s).contributions.Pairwise Contribution.before := by
  refine sortContributions_before (List.pairwise_map.2 ((distinct_of_before hr).imp fun hab hs => hab ?_))
  obtain ⟨hsome, heq⟩ := hs
  rw [renumbered_index] at hsome
  rw [renumbered_index, renumbered_index] at heq
  obtain ⟨k, hk⟩ := Option.isSome_iff_exists.1 hsome
  have hidx := newIndex_inj h hk (heq ▸ hk)
  refine Contribution.SameStream.symm ⟨?_, hidx.symm⟩
  rw [← hidx]
  exact Option.isSome_of_isSome_bind hsome

/-! ### Counts (R46, R90, R95) -/

/-- A record whose count is that of its list and which is not complete, while it is OPEN. -/
def EpochRec.Counted (a : ActiveSet) (r : EpochRec) : Prop :=
  r.state = .opened → r.requiredPresent = r.contributions.countP (countsPresent a r.ordinal) ∧ r.isComplete a = false

theorem State.countsOk_iff {s : State} : s.CountsOk ↔ ∀ r ∈ s.ring.recs, r.Counted s.table := Iff.rfl

/-- A record that is not OPEN has no count to keep. -/
theorem EpochRec.Counted.of_closed {a : ActiveSet} {r : EpochRec} (h : r.state ≠ .opened) : r.Counted a := fun ho => absurd ho h

/-- A re-evaluated record is counted (R95). -/
theorem EpochRec.reevaluated_counted (a : ActiveSet) (now : Nat) (r : EpochRec) : (r.reevaluated a now).Counted a := by
  unfold EpochRec.reevaluated
  split
  · exact .of_closed ‹_›
  · split
    · exact .of_closed (by simp [EpochRec.seal])
    · next hn => exact fun _ => ⟨rfl, Bool.and_eq_false_iff.2 (.inr (beq_false_of_ne hn))⟩

/-- A contribution taken into a counted record moves its count as it moves its list (R89). -/
theorem EpochRec.take_count {a : ActiveSet} {r : EpochRec} (c : Contribution)
    (h : r.requiredPresent = r.contributions.countP (countsPresent a r.ordinal)) :
    (r.take a c).requiredPresent = (r.take a c).contributions.countP (countsPresent a r.ordinal) := by
  simp only [EpochRec.take]
  rw [(insertContribution_perm c r.contributions).countP_eq, List.countP_cons, h]

/-! ### What completeness reads of the tables (R45, R46, R53) -/

/-- Two active sets that require the same streams at every ordinal and count the same contributions as present. -/
structure ActiveSet.SameNeeds (a b : ActiveSet) : Prop where
  required : requiredCount b = requiredCount a
  present : countsPresent b = countsPresent a

theorem ActiveSet.SameNeeds.refl (a : ActiveSet) : a.SameNeeds a := ⟨rfl, rfl⟩

/-- A change of the entries that keeps index, configuration and the side of ACTIVE of each. -/
theorem ActiveSet.SameNeeds.of_entries {a b : ActiveSet} {g : StreamEntry → StreamEntry} (hs : b.streams = a.streams.map g)
    (hr : b.ranges = a.ranges) (hp : b.params = a.params)
    (hg : ∀ e ∈ a.streams, (g e).idx = e.idx ∧ (g e).cfg = e.cfg ∧ ((g e).state = .active ↔ e.state = .active)) :
    a.SameNeeds b := by
  have hreq (ordinal : Nat) {e : StreamEntry} (he : e ∈ a.streams) : requiredAt b ordinal (g e) = requiredAt a ordinal e := by
    obtain ⟨-, hcfg, hactive⟩ := hg e he
    have hside : ((g e).state == .active) = (e.state == .active) := by rw [Bool.eq_iff_iff, beq_iff_eq, beq_iff_eq, hactive]
    simp only [requiredAt, optionalOn, hside, hcfg, hr, hp]
  refine ⟨funext fun ordinal => ?_, funext fun ordinal => funext fun c => ?_⟩
  · rw [requiredCount, hs, List.countP_map]
    exact List.countP_congr fun e he => by simp only [Function.comp, hreq ordinal he]
  · rw [countsPresent, countsPresent, hs, List.any_map]
    congr 1
    rw [Bool.eq_iff_iff, List.any_eq_true, List.any_eq_true]
    exact exists_congr fun e => and_congr_right fun he => by simp only [Function.comp, hreq ordinal he, (hg e he).1]

/-- Under the same needs a record is counted as before. -/
theorem ActiveSet.SameNeeds.counted {a b : ActiveSet} (h : a.SameNeeds b) {r : EpochRec} (hr : r.Counted a) : r.Counted b := by
  unfold EpochRec.Counted EpochRec.isComplete at *
  rwa [h.required, h.present]

end Sys2Proof.Machine
end

