-- ==== Sys2Proof/Proofs/RingPassages.lean ====
section
/-! SUPPORT. What holds of the ring and of what hangs on it, the commit that waits and the set in composition, between any two events:
the changes that leave it alone, and the shared operations that keep it: sealing, re-evaluation, the application of a commit, the
departure of the head, the empty ring and the flushes (R73 to R77, R94 to R101, R180). -/

namespace Sys2Proof.Machine

/-! ### What is kept -/

/-- The ring in order, its drain and its boundary those of the commit that waits, and its lists in order. -/
structure State.RingFit (s : State) : Prop where
  ordered : s.ring.Ordered
  commitDrain : s.ring.commitDrain = true ↔ s.ctl.commit = .pendingDrain
  boundary : s.ctl.commit = .pendingBoundary → s.ring.recs ≠ [] ∧ s.needsDrain = false
  lists : s.ListsOk

/-- No drain outlasts the records of the ring (R100, R101). -/
def State.DrainsOk (s : State) : Prop := s.ring.recs = [] → s.ring.stepDrain = false ∧ s.ring.commitDrain = false

/-- All that O56 and O58 say of a state. -/
structure State.RingSound (s : State) : Prop where
  fit : s.RingFit
  drains : s.DrainsOk
  set : s.setOk
  counts : s.CountsOk

theorem State.ringSound_iff {s : State} : s.RingSound ↔ s.RingOk ∧ s.ListsOk ∧ s.CountsOk := by
  constructor
  · rintro ⟨⟨h, hdrain, hboundary, hlists⟩, hdrains, hset, hcounts⟩
    refine ⟨⟨h.ascending, h.span, h.aboveFloor, h.floorTick, h.records, h.emitting, h.cells, h.memory,
      fun hd => ⟨fun hr => ?_, h.drain hd⟩,
      hdrain, hboundary, hset⟩, hlists, hcounts⟩
    obtain ⟨hstep, hcommit⟩ := hdrains hr
    simp [hstep, hcommit] at hd
  · rintro ⟨h, hlists, hcounts⟩
    refine ⟨⟨⟨h.ascending, h.span, h.aboveFloor, h.floorTick, h.records, h.emitting, h.cells, h.memory, fun hd => (h.drain hd).2⟩,
      h.commitDrain, h.boundary, hlists⟩, fun hr => ?_, h.set, hcounts⟩
    have hn : ¬ (s.ring.stepDrain = true ∨ s.ring.commitDrain = true) := fun hd => (h.drain hd).1 hr
    simpa using hn

/-! ### The set in composition (R124, R126) -/

/-- Without a set and without an EMITTING record. -/
def State.NoSet (s : State) : Prop := s.comp.set = none ∧ ∀ r ∈ s.ring.recs, r.state ≠ .emitting

theorem State.NoSet.setOk {s : State} (h : s.NoSet) : s.setOk := by
  rw [State.setOk, h.1]
  exact h.2

/-- A set in composition, wherever its EMITTING record stands in a ring in order. -/
theorem State.setOk_of_mem {s : State} (h : s.ring.Ordered) {c : Composition} (hs : s.comp.set = some c) (hq : c.queued < c.parts.length)
    {r : EpochRec} (hr : r ∈ s.ring.recs) (he : r.state = .emitting) (ho : r.ordinal = c.ordinal)
    (hheld : ∀ p ∈ c.parts, ∀ r ∈ p.records, r.status = .held → ∀ e ∈ s.table.streams, e.idx = r.idx →
      r.holdAge ≤ e.cfg.holdLimit) : s.setOk := by
  rw [State.setOk, hs]
  exact ⟨hq, ⟨r, h.head_of_emitting hr he, he, ho⟩, hheld⟩

/-- An empty ring has no set in composition. -/
theorem State.noSet_of_nil {s : State} (h : s.setOk) (hr : s.ring.recs = []) : s.NoSet := by
  refine ⟨?_, by simp [hr]⟩
  rw [State.setOk] at h
  cases hs : s.comp.set with
  | none => rfl
  | some c => simp [hs, hr] at h

/-- The set in composition stands while the records' ordinals and EMITTING states, and the entries' limits, do. -/
theorem State.setOk_congr {s t : State} (h : s.setOk) (hs : t.comp.set = s.comp.set) {g : EpochRec → EpochRec}
    (hrecs : t.ring.recs = s.ring.recs.map g) (hg : ∀ r ∈ s.ring.recs, r.Keeps (g r))
    (he : (t.table.streams.map fun e => (e.idx, e.cfg)) = s.table.streams.map fun e => (e.idx, e.cfg)) : t.setOk := by
  rw [State.setOk, hs, hrecs]
  rw [State.setOk] at h
  cases hc : s.comp.set with
  | none =>
    rw [hc] at h
    simpa using fun r hr => mt (hg r hr).emitting.1 (h r hr)
  | some c =>
    rw [hc] at h
    obtain ⟨hq, ⟨r, hhead, hemit, hord⟩, hheld⟩ := h
    have hr := hg r (List.mem_of_head? hhead)
    refine ⟨hq, ⟨g r, by simp [hhead], hr.emitting.2 hemit, hr.ordinal.trans hord⟩, fun p hp x hx hxs e hm hi => ?_⟩
    have hmem : (e.idx, e.cfg) ∈ s.table.streams.map fun e => (e.idx, e.cfg) := he ▸ List.mem_map_of_mem hm
    obtain ⟨e', hm', heq⟩ := List.mem_map.1 hmem
    obtain ⟨hidx, hcfg⟩ := Prod.mk.inj heq
    exact hcfg ▸ hheld p hp x hx hxs e' hm' (hidx.trans hi)

/-! ### Changes that leave the ring alone -/

/-- A change that leaves the ring, the set in composition, the commit state with what it waits for, and the entries' indexes and
configurations. -/
structure State.LeavesRing (s t : State) : Prop where
  ring : t.ring = s.ring
  set : t.comp.set = s.comp.set
  commit : t.ctl.commit = s.ctl.commit
  needsDrain : t.ctl.commit = .pendingBoundary → t.needsDrain = s.needsDrain
  entries : (t.table.streams.map fun e => (e.idx, e.cfg)) = s.table.streams.map fun e => (e.idx, e.cfg)

theorem State.LeavesRing.of_table {s t : State} (hr : t.ring = s.ring) (hs : t.comp.set = s.comp.set) (hc : t.ctl.commit = s.ctl.commit)
    (hg : t.ctl.staged = s.ctl.staged) (ht : t.table = s.table) : s.LeavesRing t :=
  ⟨hr, hs, hc, fun _ => by simp only [State.needsDrain, State.rate, hg, ht], by rw [ht]⟩

theorem State.LeavesRing.fit {s t : State} (h : s.LeavesRing t) (hs : s.RingFit) : t.RingFit := by
  obtain ⟨ordered, commitDrain, boundary, lists⟩ := hs
  refine ⟨h.ring ▸ ordered, by rw [h.ring, h.commit]; exact commitDrain, fun hc => ?_, ?_⟩
  · obtain ⟨hn, hd⟩ := boundary (h.commit ▸ hc)
    exact ⟨h.ring ▸ hn, (h.needsDrain hc).trans hd⟩
  · rw [State.ListsOk, h.ring]
    exact lists

theorem State.LeavesRing.setOk {s t : State} (h : s.LeavesRing t) (hs : s.setOk) : t.setOk :=
  State.setOk_congr hs h.set (g := id) (by rw [h.ring, List.map_id]) (fun r _ => .refl r) h.entries

theorem State.LeavesRing.sound {s t : State} (h : s.LeavesRing t) (hn : s.table.SameNeeds t.table) (hs : s.RingSound) : t.RingSound := by
  refine ⟨h.fit hs.fit, ?_, h.setOk hs.set, ?_⟩
  · rw [State.DrainsOk, h.ring]
    exact hs.drains
  · rw [State.countsOk_iff, h.ring]
    exact fun r hr => hn.counted (hs.counts r hr)

/-! ### Passages that keep it -/

/-- A passage that carries the tables and, from a part whose tables are in order, all that holds of the ring. -/
structure State.Aligns (s t : State) : Prop where
  carries : s.Carries t
  sound : s.Kept → s.RingSound → t.RingSound

theorem State.Aligns.refl (s : State) : s.Aligns s := ⟨.refl s, fun _ h => h⟩

theorem State.Aligns.trans {s t u : State} (h : s.Aligns t) (h' : t.Aligns u) : s.Aligns u :=
  ⟨h.carries.trans h'.carries, fun hk hs => h'.sound (h.carries.kept hk) (h.sound hk hs)⟩

theorem State.Aligns.ite {s t u : State} {c : Prop} [Decidable c] (ht : c → s.Aligns t) (hu : ¬ c → s.Aligns u) :
    s.Aligns (if c then t else u) := by
  split
  · next h => exact ht h
  · next h => exact hu h

theorem State.Aligns.of_leaves {s t : State} (hc : s.Carries t) (h : s.LeavesRing t) (hn : s.table.SameNeeds t.table) : s.Aligns t :=
  ⟨hc, fun _ => h.sound hn⟩

/-- A change of anything but the ring, the set, the commit state, the staged set and the active set. -/
theorem State.Aligns.of_table {s t : State} (hc : s.Carries t) (hr : t.ring = s.ring) (hs : t.comp.set = s.comp.set)
    (hm : t.ctl.commit = s.ctl.commit) (hg : t.ctl.staged = s.ctl.staged) (ht : t.table = s.table) : s.Aligns t :=
  .of_leaves hc (.of_table hr hs hm hg ht) (ht ▸ .refl _)

/-- A change of an entry that keeps index and configuration leaves the ring alone. -/
theorem mapStream_leaves {id : Nat} {f : StreamEntry → StreamEntry} (hf : ∀ e, (f e).idx = e.idx ∧ (f e).cfg = e.cfg) (s : State) :
    s.LeavesRing (s.mapStream id f) := by
  refine ⟨rfl, rfl, rfl, fun _ => rfl, ?_⟩
  simp only [State.mapStream, List.map_map]
  refine List.map_congr_left fun e _ => ?_
  simp only [Function.comp]
  split
  · exact Prod.ext (hf e).1 (hf e).2
  · rfl

/-- A change of entries that also keeps their side of ACTIVE leaves what completeness reads. -/
theorem mapStream_sameNeeds {s : State} {id : Nat} {f : StreamEntry → StreamEntry}
    (hf : ∀ e ∈ s.table.streams, e.cfg.id = id →
      (f e).idx = e.idx ∧ (f e).cfg = e.cfg ∧ ((f e).state = .active ↔ e.state = .active)) :
    s.table.SameNeeds (s.mapStream id f).table := by
  refine .of_entries (g := fun e => if e.cfg.id == id then f e else e) rfl rfl rfl fun e he => ?_
  split
  · next hid => exact hf e he (by simpa using hid)
  · exact ⟨rfl, rfl, Iff.rfl⟩

/-- A change of counters or of `last_epoch` at the entry of one ID. -/
theorem mapStream_aligns {id : Nat} {f : StreamEntry → StreamEntry} (hf : ∀ e, ∃ c l, f e = { e with counts := c, lastEpoch := l })
    (s : State) : s.Aligns (s.mapStream id f) := by
  refine .of_leaves (mapStream_carries_of_same hf s) (mapStream_leaves (fun e => ?_) s) (mapStream_sameNeeds fun e _ _ => ?_) <;>
    obtain ⟨c, l, h⟩ := hf e <;> rw [h]
  · exact ⟨rfl, rfl⟩
  · exact ⟨rfl, rfl, Iff.rfl⟩

/-! ### Sealing and re-evaluation (R94, R95) -/

/-- A change of the records alone, each kept with its list. -/
theorem State.RingFit.map {s t : State} {g : EpochRec → EpochRec} (h : s.RingFit)
    (hr : t.ring = { s.ring with recs := s.ring.recs.map g }) (hc : t.ctl = s.ctl) (ht : t.table = s.table)
    (hg : ∀ r ∈ s.ring.recs, r.Keeps (g r) ∧ (g r).contributions = r.contributions) : t.RingFit := by
  refine ⟨?_, by rw [hr, hc]; exact h.commitDrain, fun hb => ?_, ?_⟩
  · rw [hr]
    exact h.ordered.map (fun e he => (hg e he).1) rfl rfl rfl rfl rfl rfl
  · obtain ⟨hn, hd⟩ := h.boundary (hc ▸ hb)
    exact ⟨by simpa [hr] using hn, by simpa only [State.needsDrain, State.rate, hc, ht] using hd⟩
  · rw [State.ListsOk, hr]
    simp only [List.forall_mem_map]
    exact fun r hm => (hg r hm).2 ▸ h.lists r hm

/-- Such a change after which every record is counted. -/
theorem State.RingSound.map {s t : State} {g : EpochRec → EpochRec} (h : s.RingFit) (hd : s.DrainsOk) (hs : s.setOk)
    (hr : t.ring = { s.ring with recs := s.ring.recs.map g }) (hc : t.ctl = s.ctl) (ht : t.table = s.table) (hm : t.comp = s.comp)
    (hg : ∀ r ∈ s.ring.recs, r.Keeps (g r) ∧ (g r).contributions = r.contributions)
    (hn : ∀ r ∈ s.ring.recs, (g r).Counted s.table) : t.RingSound := by
  refine ⟨h.map hr hc ht hg, ?_, State.setOk_congr hs (by rw [hm]) (by rw [hr]) (fun r hx => (hg r hx).1) (by rw [ht]), ?_⟩
  · rw [State.DrainsOk, hr]
    simpa [State.DrainsOk] using hd
  · rw [State.countsOk_iff, hr, ht]
    simpa using hn

theorem sealWhere_ring (c : SealCause) (p : EpochRec → Bool) (s : State) : (sealWhere c p s).ring =
    { s.ring with recs := s.ring.recs.map fun r => if r.state == .opened && p r then r.seal c s.tick else r } := by
  simp [sealWhere]

/-- A record that a sealing hits or passes by. -/
theorem sealed_keeps (c : SealCause) (p : EpochRec → Bool) (now : Nat) (r : EpochRec) :
    r.Keeps (if r.state == .opened && p r then r.seal c now else r) ∧
      (if r.state == .opened && p r then r.seal c now else r).contributions = r.contributions := by
  split
  · next h =>
    simp only [Bool.and_eq_true, beq_iff_eq] at h
    exact ⟨EpochRec.seal_keeps h.1 c now, rfl⟩
  · exact ⟨.refl r, rfl⟩

theorem sealWhere_aligns (c : SealCause) (p : EpochRec → Bool) (s : State) : s.Aligns (sealWhere c p s) := by
  refine ⟨sealWhere_carries c p s, fun _ h => .map h.fit h.drains h.set (sealWhere_ring c p s) (by simp) (by simp) (by simp)
    (fun r _ => sealed_keeps c p s.tick r) fun r hr => ?_⟩
  split
  · exact .of_closed (by simp [EpochRec.seal])
  · exact h.counts r hr

theorem recountAll_ring (s : State) :
    (recountAll s).ring = { s.ring with recs := s.ring.recs.map (EpochRec.reevaluated s.table s.tick) } := by
  rw [← recountAll_recs, recountAll, sealWhere_ring]

/-- A re-evaluation leaves every record counted, whatever changed what completeness reads (R95). -/
theorem recountAll_sound {s : State} (h : s.RingFit) (hd : s.DrainsOk) (hs : s.setOk) : (recountAll s).RingSound :=
  .map h hd hs (recountAll_ring s) (by simp) (by simp) (by simp)
    (fun r _ => ⟨r.reevaluated_keeps _ _, EpochRec.reevaluated_contributions _ _ r⟩) fun r _ => r.reevaluated_counted _ _

/-! ### The application of a commit (R181) -/

/-- A commit at floor and departure memory: nothing while the grid rate stands (R56, R183). -/
theorem applyCommit_floor (s : State) :
    (applyCommit s).ring.floor = (if s.ctl.staged.params.rate ≠ s.rate then
      s.ring.floor.map (convertOrdinal s.rate s.ctl.staged.params.rate) else s.ring.floor) ∧
    (applyCommit s).ring.memory = if s.ctl.staged.params.rate ≠ s.rate then [] else s.ring.memory := by
  have hrate : (commitTables s).rate = s.ctl.staged.params.rate := by simp [State.rate]
  have hring : (applyCommit s).ring.floor = (commitGrid s.table.params (commitTables s)).ring.floor ∧
      (applyCommit s).ring.memory = (commitGrid s.table.params (commitTables s)).ring.memory := by simp [applyCommit_eq]
  rw [hring.1, hring.2, (commitGrid_ring _ _).1, (commitGrid_ring _ _).2, hrate]
  simp only [commitTables_fields]
  exact ⟨rfl, rfl⟩

/-- What a commit makes of a record keeps it (R95, R96, R182). -/
theorem committed_keeps (s : State) (r : EpochRec) : r.Keeps ((r.renumber s).reevaluated (applyCommit s).table s.tick) :=
  (r.renumber_keeps s).trans (EpochRec.reevaluated_keeps _ _ _)

/-- A commit whose grid rate is the ring's, or that finds no record, keeps the ring in order (R180, R183). -/
theorem applyCommit_fit {s : State} (h : s.ring.Ordered) (hl : s.ListsOk) (ht : s.TablesOk) (hd : s.ring.commitDrain = false)
    (hw : s.ring.recs = [] ∨ s.needsDrain = false) : (applyCommit s).RingFit := by
  have hrecs := applyCommit_recs s
  obtain ⟨hfloor, hmemory⟩ := applyCommit_floor s
  refine ⟨?_, by simp [hd], by simp, fun r hr => ?_⟩
  · by_cases hrate : s.ctl.staged.params.rate = s.rate
    · rw [if_neg (not_not.2 hrate)] at hfloor hmemory
      exact h.map (fun r _ => committed_keeps s r) hrecs hfloor (by simp) hmemory (by simp) (by simp)
    · have hnil : s.ring.recs = [] := hw.resolve_right fun hn => hrate (by simp [State.needsDrain] at hn; exact hn.1)
      rw [if_pos hrate] at hfloor hmemory
      exact .of_nil (by rw [hrecs, hnil, List.map_nil]) (by rw [hfloor]; simpa using h.floorTick) (hmemory ▸ .nil)
  · obtain ⟨x, hx, rfl⟩ := List.mem_map.1 (hrecs ▸ hr)
    rw [EpochRec.reevaluated_contributions]
    exact renumber_before ht (hl x hx)

/-- A commit re-evaluates every record under its new table (R95, R181). -/
theorem applyCommit_counts (s : State) : (applyCommit s).CountsOk := by
  rw [State.countsOk_iff, applyCommit_recs]
  simpa using fun r _ => EpochRec.reevaluated_counted _ _ _

/-- A commit begins no composition. -/
theorem applyCommit_noSet {s : State} (h : s.NoSet) : (applyCommit s).NoSet := by
  refine ⟨by simp [h.1], ?_⟩
  rw [applyCommit_recs]
  simpa using fun r hr => mt (committed_keeps s r).emitting.1 (h.2 r hr)

/-! ### The empty ring (R100, R101) -/

/-- An empty ring without drains, with no set, and with no commit that waits for it. -/
theorem State.RingSound.of_nil {s : State} (hr : s.ring.recs = []) (ht : s.ring.floorTick.isSome = s.ring.floor.isSome)
    (hm : s.ring.memory.Pairwise fun a b => a.ordinal % slots < b.ordinal % slots) (hstep : s.ring.stepDrain = false)
    (hdrain : s.ring.commitDrain = false) (hc : s.ctl.commit = .none) (hs : s.comp.set = none) : s.RingSound :=
  ⟨⟨.of_nil hr ht hm, by simp [hdrain, hc], by simp [hc], by simp [State.ListsOk, hr]⟩, fun _ => ⟨hstep, hdrain⟩,
    State.NoSet.setOk ⟨hs, by simp [hr]⟩, by simp [State.CountsOk, hr]⟩

/-- The drains that end leave the floor and its tick, or clear both (R100). -/
theorem drainsEnded_ordered {s : State} (h : s.ring.Ordered) (hr : s.ring.recs = []) : (drainsEnded s).ring.Ordered := by
  unfold drainsEnded
  dsimp only
  split
  · exact .of_nil hr rfl .nil
  · exact .of_nil hr h.floorTick h.memory

/-- What an empty ring prompts leaves no drain and no commit that waits for it (R100, R101, R180). -/
theorem whenEmpty_sound {s : State} (h : s.RingFit) (hk : s.Kept) (hs : s.setOk) (hc : s.CountsOk) : (whenEmpty s).RingSound := by
  by_cases hr : s.ring.recs = []
  · have hordered := drainsEnded_ordered h.ordered hr
    obtain ⟨hstep, hdrain, hset⟩ := drainsEnded_ring s
    have hctl := (drainsEnded_sameControl s).ctl
    have hrecs : (drainsEnded s).ring.recs = [] := by unfold drainsEnded endStepDrain; dsimp only; split <;> exact hr
    have hnone : (drainsEnded s).comp.set = none := hset.trans (State.noSet_of_nil hs hr).1
    rw [whenEmpty_nil hr]
    split
    · have hended : s.Carries (drainsEnded s) := by
        have ended (u : State) : u.Carries { u with ring := { u.ring with commitDrain := false } } := .of_same rfl rfl rfl rfl id rfl
        exact State.Carries.trans (.ite (fun _ => endStepDrain_carries s) fun _ => .refl s) (ended _)
      have hfit := applyCommit_fit hordered (by simp [State.ListsOk, hrecs]) (hended.kept hk).tables hdrain (.inl hrecs)
      have hnil : (applyCommit (drainsEnded s)).ring.recs = [] := by rw [applyCommit_recs, hrecs, List.map_nil]
      exact .of_nil hnil hfit.ordered.floorTick hfit.ordered.memory (by simp [hstep]) (by simp [hdrain]) (by simp) (by simp [hnone])
    · next hn =>
      have hwaits : s.ctl.commit = .none := by
        cases hcm : s.ctl.commit with
        | none => rfl
        | pendingBoundary => exact absurd hr (h.boundary hcm).1
        | pendingDrain => exact absurd hcm hn
      exact .of_nil hrecs hordered.floorTick hordered.memory hstep hdrain (by rw [hctl, hwaits]) hnone
  · rw [whenEmpty, if_neg (by simpa using hr)]
    exact ⟨h, fun hn => absurd hn hr, hs, hc⟩

/-! ### Departure and settling (R98, R125) -/

/-- The part without its head, before the boundary's commit and what an empty ring prompts (R98). -/
def departed (emitted : Bool) (r : EpochRec) (rest : List EpochRec) (s : State) : State :=
  strobeFrom .emit (overridesIntoForce (reportDeparture emitted (leaveRing r rest s)))

theorem depart_cons {emitted : Bool} {s : State} {r : EpochRec} {rest : List EpochRec} (hr : s.ring.recs = r :: rest) :
    depart emitted s = whenEmpty (commitAtBoundary (departed emitted r rest s)) := by
  simp only [depart, hr]
  rfl

@[simp] theorem departed_fields (emitted : Bool) (r : EpochRec) (rest : List EpochRec) (s : State) :
    (departed emitted r rest s).ring = (leaveRing r rest s).ring ∧ (departed emitted r rest s).table = s.table ∧
    (departed emitted r rest s).ctl = s.ctl ∧ (departed emitted r rest s).comp.set = none := by
  simp [departed, leaveRing]

theorem departed_carries (emitted : Bool) (r : EpochRec) (rest : List EpochRec) (s : State) :
    s.Carries (departed emitted r rest s) :=
  (overridesIntoForce_carries (by simp) (by simp) (by simp) (by simp)).trans (strobeFrom_carries _ _)

/-- A departure leaves the ring sound, whatever set was in composition and whatever drain is under way (R98, R139, R180). -/
theorem depart_sound {emitted : Bool} {s : State} {r : EpochRec} {rest : List EpochRec} (h : s.RingFit) (hk : s.Kept) (hc : s.CountsOk)
    (hr : s.ring.recs = r :: rest) : (depart emitted s).RingSound := by
  obtain ⟨hordered, hemitting⟩ := h.ordered.leave hr s.tick
  rw [depart_cons hr]
  have hkept := (departed_carries emitted r rest s).kept hk
  obtain ⟨hring, htable, hctl, hset⟩ := departed_fields emitted r rest s
  generalize departed emitted r rest s = u at *
  have hrest : u.ring.recs = rest := by rw [hring]; rfl
  have hrecs {x : EpochRec} (hx : x ∈ u.ring.recs) : x ∈ s.ring.recs := by rw [hr]; exact List.mem_cons_of_mem r (hrest ▸ hx)
  have hnoSet : u.NoSet := ⟨hset, hrest ▸ hemitting⟩
  have hlists : u.ListsOk := fun x hx => h.lists x (hrecs hx)
  have hdrain : u.ring.commitDrain = s.ring.commitDrain := by rw [hring]; rfl
  have hordered' : u.ring.Ordered := hring ▸ hordered
  by_cases hb : s.ctl.commit = .pendingBoundary
  · have hidle : s.ring.commitDrain = false := by simpa [hb] using h.commitDrain
    have hneeds : u.needsDrain = false := by
      rw [← (h.boundary hb).2, State.needsDrain, State.needsDrain, State.rate, State.rate, htable, hctl]
    have hfit := applyCommit_fit hordered' hlists hkept.tables (hdrain.trans hidle) (.inr hneeds)
    rw [commitAtBoundary, if_pos (by rw [hctl, hb])]
    exact whenEmpty_sound hfit ((applyCommit_carries (by rw [hctl, hb]; decide)).kept hkept) (applyCommit_noSet hnoSet).setOk
      (applyCommit_counts u)
  · have hfit : u.RingFit := ⟨hordered', by rw [hdrain, hctl]; exact h.commitDrain, fun hb' => absurd (hctl ▸ hb') hb, hlists⟩
    rw [commitAtBoundary, if_neg (by rwa [hctl])]
    refine whenEmpty_sound hfit hkept hnoSet.setOk fun x hx => ?_
    rw [htable]
    exact hc x (hrecs hx)

/-- A head that must leave is there. -/
theorem headMustLeave_cons {s : State} (h : s.headMustLeave = true) : ∃ r rest, s.ring.recs = r :: rest := by
  unfold State.headMustLeave at h
  cases hr : s.ring.recs with
  | nil => simp [hr] at h
  | cons r rest => exact ⟨r, rest, rfl⟩

/-- The consideration of the head keeps the part as it is, or leaves the ring sound by its departures (R97, R125). -/
theorem settle_cases {s : State} (h : s.RingFit) (hk : s.Kept) (hc : s.CountsOk) : settle s = s ∨ (settle s).RingSound := by
  unfold settle
  generalize s.ring.recs.length = n
  induction n generalizing s with
  | zero => exact .inl rfl
  | succ n ih =>
    rw [settleBy]
    split
    · next hm =>
      obtain ⟨r, rest, hr⟩ := headMustLeave_cons hm
      have hleft : (depart false s).RingSound := depart_sound h hk hc hr
      rcases ih hleft.fit ((depart_carries false s).kept hk) hleft.counts with heq | hsound
      · exact .inr (by rwa [heq])
      · exact .inr hsound
    · exact .inl rfl

theorem settle_aligns (s : State) : s.Aligns (settle s) := by
  refine ⟨settle_carries s, fun hk h => ?_⟩
  rcases settle_cases h.fit hk h.counts with heq | hsound
  · rwa [heq]
  · exact hsound

/-- The head considered, and then the empty ring. -/
theorem settle_whenEmpty_sound {s : State} (h : s.RingFit) (hk : s.Kept) (hs : s.setOk) (hc : s.CountsOk) :
    (whenEmpty (settle s)).RingSound := by
  have hkept := (settle_carries s).kept hk
  rcases settle_cases h hk hc with heq | hsound
  · rw [heq]
    exact whenEmpty_sound h hk hs hc
  · exact whenEmpty_sound hsound.fit hkept hsound.set hsound.counts

/-! ### Flushes (R100, R101, R183) -/

/-- A flush leaves no record OPEN. -/
theorem sealAll_closed (c : SealCause) (s : State) : ∀ r ∈ (sealWhere c (fun _ => true) s).ring.recs, r.state ≠ .opened := by
  rw [sealWhere_recs]
  simp only [List.forall_mem_map]
  intro r _
  split
  · simp [EpochRec.seal]
  · next h => simpa using h

/-- The ring of a flush in order, whichever drains are under way. -/
theorem sealAll_ordered {c : SealCause} {s : State} (h : s.ring.Ordered) (step drain : Bool) :
    Ring.Ordered { (sealWhere c (fun _ => true) s).ring with stepDrain := step, commitDrain := drain } := by
  have hmap : (sealWhere c (fun _ => true) s).ring.Ordered := by
    rw [sealWhere_ring]
    exact h.map (fun r _ => (sealed_keeps c (fun _ => true) s.tick r).1) rfl rfl rfl rfl rfl rfl
  exact ⟨hmap.ascending, hmap.span, hmap.aboveFloor, hmap.floorTick, hmap.records, hmap.emitting, hmap.cells, hmap.memory,
    fun _ => sealAll_closed c s⟩

/-- A state whose ring is that of a flush: its lists, its counts and its set (R100, R101). -/
theorem sealAll_rest {c : SealCause} {s t : State} (hl : s.ListsOk) (hs : s.setOk)
    (hr : t.ring.recs = (sealWhere c (fun _ => true) s).ring.recs) (hm : t.comp.set = s.comp.set) (ht : t.table = s.table) :
    t.ListsOk ∧ t.setOk ∧ t.CountsOk := by
  refine ⟨?_, State.setOk_congr hs hm (hr.trans (sealWhere_recs _ _ _))
    (fun r _ => (sealed_keeps c (fun _ => true) s.tick r).1) (by rw [ht]), ?_⟩
  · rw [State.ListsOk, hr, sealWhere_recs]
    simp only [List.forall_mem_map]
    exact fun r hx => (sealed_keeps c (fun _ => true) s.tick r).2 ▸ hl r hx
  · rw [State.countsOk_iff, hr]
    exact fun r hx => .of_closed (sealAll_closed c s r hx)

/-- The flush of a step keeps the ring sound (R100). -/
theorem flushStep_aligns (s : State) : s.Aligns (flushStep s) := by
  refine ⟨flushStep_carries s, fun hk h => ?_⟩
  have hsealed := (sealWhere_aligns .step (fun _ => true) s).sound hk h
  have hkept := (sealWhere_carries .step (fun _ => true) s).kept hk
  obtain ⟨hlists, hset, hcounts⟩ := sealAll_rest (c := .step) (t := { sealWhere .step (fun _ => true) s with
    ring := { (sealWhere .step (fun _ => true) s).ring with stepDrain := true } }) h.fit.lists h.set rfl (by simp) (by simp)
  refine settle_whenEmpty_sound ⟨sealAll_ordered h.fit.ordered _ _, hsealed.fit.commitDrain, hsealed.fit.boundary, hlists⟩
    (hkept.of_same rfl rfl rfl rfl id) hset hcounts

/-- The flush of a commit that has come to wait for the drain leaves the ring sound (R101, R183). -/
theorem flushCommit_sound {s : State} (h : s.ring.Ordered) (hl : s.ListsOk) (hs : s.setOk) (hk : s.Kept)
    (hc : s.ctl.commit = .pendingDrain) : (flushCommit s).RingSound := by
  have hkept := (sealWhere_carries .flush (fun _ => true) s).kept hk
  obtain ⟨hlists, hset, hcounts⟩ := sealAll_rest (c := .flush) (t := { sealWhere .flush (fun _ => true) s with
    ring := { (sealWhere .flush (fun _ => true) s).ring with commitDrain := true } }) hl hs rfl (by simp) (by simp)
  exact settle_whenEmpty_sound ⟨sealAll_ordered h _ _, by simp [hc], by simp [hc], hlists⟩
    (hkept.of_same rfl rfl rfl rfl id) hset hcounts

/-! ### Passages of streams (R42) -/

/-- A change of a stream's entry that keeps it, with the re-evaluation that a passage into or out of ACTIVE prompts (R42, R95). -/
theorem changeStream_aligns {id : Nat} {f : StreamEntry → StreamEntry} (hf : ∀ e, StreamEntry.Keeps e (f e)) (s : State) :
    s.Aligns (changeStream id f s) := by
  refine ⟨changeStream_carries hf s, fun hk h => ?_⟩
  have hleaves := mapStream_leaves (id := id) (fun e => ⟨(hf e).idx, (hf e).cfg⟩) s
  have hmapped : s.Carries (s.mapStream id f) := mapStream_carries fun _ e _ _ => hf e
  cases he : s.stream id with
  | none => rwa [changeStream_unknown f he]
  | some e =>
    rw [changeStream_known f he]
    split
    · next hside =>
      have hids : (s.table.streams.map fun x => x.cfg.id).Nodup := by simpa [Function.comp_def] using hk.tables.active.ids
      refine hleaves.sound (mapStream_sameNeeds fun x hx hid => ?_) h
      obtain rfl := stream_unique hids he hx hid
      exact ⟨(hf x).idx, (hf x).cfg, by rw [← beq_iff_eq, ← hside, beq_iff_eq]⟩
    · have hdrains : (s.mapStream id f).DrainsOk := h.drains
      exact (settle_aligns _).sound ((recountAll_carries _).kept (hmapped.kept hk))
        (recountAll_sound (hleaves.fit h.fit) hdrains (hleaves.setOk h.set))

end Sys2Proof.Machine
end

