-- ==== Sys2Proof/Proofs/RingPlacement.lean ====
section
/-! SUPPORT. Placement and admission keep what holds of the ring: an accepted contribution fits its record, the span, the floor and the
store (R18 to R29, R77, R79 to R92). -/

namespace Sys2Proof.Machine

/-! ### What acceptance finds (R79) -/

/-- What the eight tests leave to an accepted contribution: no drain, an ordinal above the floor and the EMITTING record and within the
span, an OPEN record without its stream or none, and a free cell. -/
structure State.Accepts (s : State) (o : Offer) : Prop where
  stepDrain : s.ring.stepDrain = false
  commitDrain : s.ring.commitDrain = false
  aboveFloor : ∀ f, s.ring.floor = some f → f < o.ordinal
  aboveEmitting : ∀ x ∈ s.ring.recs, x.state = .emitting → x.ordinal ≤ o.ordinal
  fits : ∀ b ∈ s.ring.recs, b.ordinal ≤ o.ordinal + 511 ∧ o.ordinal ≤ b.ordinal + 511
  record : ∀ e, s.ring.recordOf o.ordinal = some e → e.state = .opened ∧ e.sameStream o.contribution = none
  room : s.ring.occupancy < cells

/-- A record of a ring in ascending order stands between its first and its last. -/
theorem between_ends {rs : List EpochRec} {lo hi b : EpochRec} (h : rs.Pairwise fun a b => a.ordinal < b.ordinal)
    (hlo : rs.head? = some lo) (hhi : rs.getLast? = some hi) (hb : b ∈ rs) : lo.ordinal ≤ b.ordinal ∧ b.ordinal ≤ hi.ordinal := by
  obtain ⟨tl, rfl⟩ := List.head?_eq_some_iff.1 hlo
  obtain ⟨init, heq⟩ := List.getLast?_eq_some_iff.1 hhi
  constructor
  · rcases List.mem_cons.1 hb with rfl | hb
    · exact le_rfl
    · exact ((List.pairwise_cons.1 h).1 b hb).le
  · rw [heq] at h hb
    rcases List.mem_append.1 hb with hb | hb
    · exact ((List.pairwise_append.1 h).2.2 b hb hi (by simp)).le
    · rw [List.mem_singleton.1 hb]

/-- An ordinal that the span of a ring with records does not refuse (R83, R85). -/
theorem spanAnswer_none {r : Ring} {ordinal : Nat} (h : r.recs.Pairwise fun a b => a.ordinal < b.ordinal)
    (hs : spanAnswer r ordinal = none) : ∀ b ∈ r.recs, b.ordinal ≤ ordinal + 511 ∧ ordinal ≤ b.ordinal + 511 := by
  intro b hb
  have hne : r.recs ≠ [] := List.ne_nil_of_mem hb
  obtain ⟨lo, hlo⟩ := Option.isSome_iff_exists.1 (List.isSome_head?.2 hne)
  obtain ⟨hi, hhi⟩ := Option.isSome_iff_exists.1 (List.getLast?_isSome.2 hne)
  obtain ⟨hlow, hhigh⟩ := between_ends h hlo hhi hb
  rw [spanAnswer_held hlo hhi] at hs
  split_ifs at hs
  omega

/-- The span answers with an advance of the floor only to an empty ring (R84). -/
theorem spanAnswer_advances {r : Ring} {ordinal : Nat} (hs : spanAnswer r ordinal = some .advances) : r.recs = [] := by
  by_contra hne
  obtain ⟨lo, hlo⟩ := Option.isSome_iff_exists.1 (List.isSome_head?.2 hne)
  obtain ⟨hi, hhi⟩ := Option.isSome_iff_exists.1 (List.getLast?_isSome.2 hne)
  rw [spanAnswer_held hlo hhi] at hs
  split_ifs at hs <;> simp at hs

/-- The span itself accepts nothing (R83 to R85). -/
theorem spanAnswer_ne_accepted (r : Ring) (ordinal : Nat) : spanAnswer r ordinal ≠ some .accepted := by
  unfold spanAnswer
  split
  · split_ifs <;> simp
  · split
    · split_ifs <;> simp
    · simp

/-- The record accepts where it is OPEN without the stream, or not there yet, and a cell is free (R86 to R89). -/
theorem recordAnswer_accepted {r : Ring} {o : Offer} (h : recordAnswer r o = .accepted) :
    (∀ e, r.recordOf o.ordinal = some e → e.state = .opened ∧ e.sameStream o.contribution = none) ∧ r.occupancy < cells := by
  have room (hroom : roomAnswer r = .accepted) : r.occupancy < cells := by
    unfold roomAnswer at hroom
    split_ifs at hroom
    exact Nat.lt_of_not_le ‹_›
  unfold recordAnswer at h
  split at h
  · next hf => exact ⟨fun e he => absurd (hf.symm.trans he) (by simp), room h⟩
  · next x hf =>
    split at h
    · next ho =>
      split at h
      · split_ifs at h
      · next hn => exact ⟨fun e he => by obtain rfl := Option.some.inj (hf.symm.trans he); exact ⟨ho, hn⟩, room h⟩
    · cases h

/-- The record never answers with an advance of the floor. -/
theorem recordAnswer_ne_advances (r : Ring) (o : Offer) : recordAnswer r o ≠ .advances := by
  unfold recordAnswer roomAnswer
  split
  · split_ifs <;> simp
  · split
    · split <;> split_ifs <;> simp
    · simp

/-- The answer of the span or the record is given past the first three tests (R79). -/
theorem answer_past_tests {s : State} {o : Offer} {a : Answer} (h : answer s o = a) (ha : a = .accepted ∨ a = .advances) :
    ¬ isDraining s o = true ∧ ¬ isLate s.ring o.ordinal = true ∧ (spanAnswer s.ring o.ordinal).getD (recordAnswer s.ring o) = a := by
  have hd : ¬ isDraining s o = true := fun hd => by rw [answer_draining hd] at h; rcases ha with rfl | rfl <;> cases h
  have hl : ¬ isLate s.ring o.ordinal = true := fun hl => by
    rw [answer_gone hd hl] at h
    split at h <;> rcases ha with rfl | rfl <;> cases h
  have hh : ¬ isAhead s o.ordinal = true := fun hh => by rw [answer_ahead hd hl hh] at h; rcases ha with rfl | rfl <;> cases h
  exact ⟨hd, hl, by rw [← answer_span hd hl hh, h]⟩

theorem answer_accepted {s : State} {o : Offer} (ho : s.ring.Ordered) (h : answer s o = .accepted) : s.Accepts o := by
  obtain ⟨hd, hl, hrest⟩ := answer_past_tests h (.inl rfl)
  have hspan : spanAnswer s.ring o.ordinal = none := by
    cases hspan : spanAnswer s.ring o.ordinal with
    | none => rfl
    | some a =>
      rw [hspan, Option.getD_some] at hrest
      exact absurd (hspan.trans (congrArg some hrest)) (spanAnswer_ne_accepted _ _)
  rw [hspan, Option.getD_none] at hrest
  obtain ⟨hrecord, hroom⟩ := recordAnswer_accepted hrest
  simp only [isDraining_iff, not_or, Bool.not_eq_true] at hd
  simp only [isLate_iff, not_or, not_exists, not_and, not_le, not_lt] at hl
  exact ⟨hd.1, hd.2.1, hl.1, hl.2, spanAnswer_none ho.ascending hspan, hrecord, hroom⟩

/-- The floor advances only over an empty ring (R84). -/
theorem answer_advances {s : State} {o : Offer} (h : answer s o = .advances) : s.ring.recs = [] := by
  obtain ⟨-, -, hrest⟩ := answer_past_tests h (.inr rfl)
  cases hspan : spanAnswer s.ring o.ordinal with
  | none =>
    rw [hspan] at hrest
    exact absurd hrest (recordAnswer_ne_advances _ _)
  | some a =>
    rw [hspan, Option.getD_some] at hrest
    exact spanAnswer_advances (hspan.trans (congrArg some hrest))

/-! ### The record that takes a contribution (R87, R89 to R92) -/

/-- The record that an accepted contribution goes to: OPEN and in order, counted by its list, without the contribution's stream. -/
theorem targetRecord_ready {s : State} {o : Offer} (h : s.RingSound) (ha : s.Accepts o) :
    (targetRecord s o).state = .opened ∧ (targetRecord s o).sealTick = none ∧ (targetRecord s o).cause = none ∧
      (targetRecord s o).contributions.Pairwise Contribution.before ∧
      (∀ d ∈ (targetRecord s o).contributions, ¬ o.contribution.SameStream d) ∧
      (targetRecord s o).requiredPresent = (targetRecord s o).contributions.countP (countsPresent s.table o.ordinal) := by
  unfold targetRecord
  cases hf : s.ring.recordOf o.ordinal with
  | none => exact ⟨rfl, rfl, rfl, .nil, by simp [openRecord], rfl⟩
  | some e =>
    have hm : e ∈ s.ring.recs := List.mem_of_find?_eq_some hf
    have hord : e.ordinal = o.ordinal := by simpa using List.find?_some hf
    obtain ⟨hs, hn⟩ := ha.record e hf
    have hok := h.fit.ordered.records e hm
    refine ⟨hs, ?_, ?_, h.fit.lists e hm, fun d hd hsame => ?_, ?_⟩
    · simpa [hs] using hok.sealTick
    · simpa [hs] using hok.cause
    · have hnot := List.find?_eq_none.1 hn d hd
      simp [← hsame.2, hsame.1] at hnot
    · rw [← hord]
      exact (h.counts e hm hs).1

/-- The taken record is the contribution's record with it, OPEN and not complete, or sealed (R89, R90, R92). -/
theorem takenRecord_cases (s : State) (o : Offer) :
    (takenRecord s o = (targetRecord s o).take s.table o.contribution ∧
      ((targetRecord s o).take s.table o.contribution).requiredPresent ≠
        requiredCount s.table ((targetRecord s o).take s.table o.contribution).ordinal) ∨
    ∃ cause, takenRecord s o = ((targetRecord s o).take s.table o.contribution).seal cause s.tick := by
  unfold takenRecord
  dsimp only
  split
  · next cause _ => exact .inr ⟨cause, rfl⟩
  · next hnone =>
    refine .inl ⟨rfl, fun heq => ?_⟩
    rw [afterTaking, if_pos heq] at hnone
    cases hnone

/-- The taken record: its ordinal, its list in order, its fields, its count, and its cells (R76, R89). -/
theorem takenRecord_ready {s : State} {o : Offer} (h : s.RingSound) (ha : s.Accepts o) :
    (takenRecord s o).ordinal = o.ordinal ∧ (takenRecord s o).contributions.Pairwise Contribution.before ∧ (takenRecord s o).Ok ∧
      (takenRecord s o).state ≠ .emitting ∧ (takenRecord s o).Counted s.table ∧
      (takenRecord s o).contributions.length = (targetRecord s o).contributions.length + 1 := by
  obtain ⟨hstate, hseal, hcause, hlist, hnew, hcount⟩ := targetRecord_ready h ha
  have hord := targetRecord_ordinal s o
  have hinserted := insertContribution_before hlist hnew
  have hlen := insertContribution_length o.contribution (targetRecord s o).contributions
  have hne : insertContribution o.contribution (targetRecord s o).contributions ≠ [] := by
    rw [← List.length_pos_iff_ne_nil, hlen]
    exact Nat.succ_pos _
  rcases takenRecord_cases s o with ⟨heq, hopen⟩ | ⟨cause, heq⟩
  · rw [heq]
    refine ⟨hord, hinserted, ⟨hne, by simp [EpochRec.take, hseal, hstate], by simp [EpochRec.take, hcause, hstate]⟩,
      by simp [EpochRec.take, hstate], fun _ => ⟨?_, Bool.and_eq_false_iff.2 (.inr (beq_false_of_ne hopen))⟩, hlen⟩
    exact EpochRec.take_count o.contribution (hord ▸ hcount)
  · rw [heq]
    exact ⟨hord, hinserted, ⟨hne, by simp [EpochRec.seal], by simp [EpochRec.seal]⟩, by simp [EpochRec.seal],
      .of_closed (by simp [EpochRec.seal]), hlen⟩

/-- The record of an ordinal is the one that holds it (R73). -/
theorem Ring.Ordered.recordOf_mem {r : Ring} (h : r.Ordered) {e : EpochRec} (he : e ∈ r.recs) : r.recordOf e.ordinal = some e := by
  cases hf : r.recordOf e.ordinal with
  | none => exact absurd (beq_self_eq_true e.ordinal) (List.find?_eq_none.1 hf e he)
  | some x => rw [record_unique h.nodup he (List.mem_of_find?_eq_some hf) (by simpa using List.find?_some hf)]

/-- A record put in its place, where it replaces no EMITTING one, leaves the set in composition (R126). -/
theorem setOk_put {s : State} {e : EpochRec} (hs : s.setOk) (h : s.ring.Ordered)
    (hput : Ring.Ordered { s.ring with recs := putRecord e s.ring }) (he : e.state ≠ .emitting) (hrec : s.ring.Receives e) :
    State.setOk { s with ring := { s.ring with recs := putRecord e s.ring } } := by
  have hmem := mem_putRecord h.ascending e
  rw [State.setOk] at hs
  cases hc : s.comp.set with
  | none =>
    rw [hc] at hs
    refine State.NoSet.setOk ⟨hc, fun r hr => ?_⟩
    rcases (hmem r).1 hr with rfl | ⟨hr', -⟩
    · exact he
    · exact hs r hr'
  | some c =>
    rw [hc] at hs
    obtain ⟨hq, ⟨x, hx, hxs, hxo⟩, hheld⟩ := hs
    have hxm : x ∈ s.ring.recs := List.mem_of_head? hx
    have hne : x.ordinal ≠ e.ordinal := fun heq => hrec.2 x (heq ▸ h.recordOf_mem hxm) hxs
    exact State.setOk_of_mem hput hc hq ((hmem x).2 (.inr ⟨hxm, hne⟩)) hxs hxo hheld

/-- Acceptance puts the taken record in its place; what else it changes leaves the ring alone (R47, R89). -/
theorem accept_aligns {s : State} {o : Offer} (h : s.RingSound → s.Accepts o) : s.Aligns (accept s o) := by
  have put : s.Aligns { s with ring := { s.ring with recs := putRecord (takenRecord s o) s.ring } } := by
    refine ⟨.of_same rfl rfl rfl rfl (fun hn => absurd hn (putRecord_ne_nil _ _)) rfl, fun hk hs => ?_⟩
    have ha := h hs
    obtain ⟨hord, hlist, hok, hemit, hcounted, hlen⟩ := takenRecord_ready hs ha
    have hmem := mem_putRecord hs.fit.ordered.ascending (takenRecord s o)
    have hreceives : s.ring.Receives (takenRecord s o) := by
      refine ⟨?_, fun d hd => ?_⟩
      · rw [hlen, hord, targetRecord]
        cases s.ring.recordOf o.ordinal <;> rfl
      · rw [(ha.record d (hord ▸ hd)).1]
        decide
    have hordered := hs.fit.ordered.put hok hemit hreceives (hord ▸ ha.fits) (hord ▸ ha.aboveFloor) (hord ▸ ha.aboveEmitting) ha.room
      ha.stepDrain ha.commitDrain
    refine ⟨⟨hordered, hs.fit.commitDrain, fun hb => ⟨putRecord_ne_nil _ _, (hs.fit.boundary hb).2⟩, fun r hr => ?_⟩,
      fun hn => absurd hn (putRecord_ne_nil _ _), ?_, fun r hr => ?_⟩
    · rcases (hmem r).1 hr with rfl | ⟨hr', -⟩
      · exact hlist
      · exact hs.fit.lists r hr'
    · exact setOk_put hs.set hs.fit.ordered hordered hemit hreceives
    · rcases (hmem r).1 hr with rfl | ⟨hr', -⟩
      · exact hcounted
      · exact hs.counts r hr'
  have raised := put.trans (mapStream_aligns (id := o.id)
    (f := fun x => { x with lastEpoch := some (max (x.lastEpoch.getD 0) o.ordinal) }) (fun e => ⟨_, _, rfl⟩) _)
  unfold accept
  dsimp only
  split
  · exact raised.trans (.of_table (report_carries _ _) (by simp) (by simp) (by simp) (by simp) (by simp))
  · exact raised

/-! ### Changes beside the ring -/

theorem report_aligns (c : Ctr) (s : State) : s.Aligns (report c s) :=
  .of_table (report_carries c s) (by simp) (by simp) (by simp) (by simp) (by simp)

theorem reply_aligns (re : ReplyTo) (st : Status) (bs : List Byte) (s : State) : s.Aligns (reply re st bs s) :=
  .of_table (reply_carries re st bs s) (by simp) (by simp) (by simp) (by simp) (by simp)

/-- Offers and frames of admission stand beside the ring. -/
theorem setAdm_aligns (a : Admission) (s : State) : s.Aligns { s with adm := a } :=
  .of_table (.of_same rfl rfl rfl rfl id rfl) rfl rfl rfl rfl rfl

/-! ### One placement (R27 to R29, R39, R83, R84) -/

/-- The floor may advance over an empty ring (R84). -/
theorem State.RingSound.advanceFloor {s : State} (h : s.RingSound) (hr : s.ring.recs = []) (f : Nat) :
    State.RingSound { s with ring := { s.ring with floor := some f, floorTick := some s.tick } } :=
  ⟨⟨.of_nil hr rfl h.fit.ordered.memory, h.fit.commitDrain, h.fit.boundary, h.fit.lists⟩, h.drains, h.set, h.counts⟩

theorem ringEffect_aligns (o : Offer) (s : State) : s.Aligns (ringEffect (answer s o) (suspectNow s o) s) := by
  rw [ringEffect_eq]
  refine .ite (fun ha => accept_aligns fun h => ?_) fun _ => .ite (fun _ => sealWhere_aligns _ _ s) fun _ =>
    .ite (fun ha => ?_) fun _ => .refl s
  · obtain ⟨hstep, hdrain, hfloor, hemit, hfits, hrecord, hroom⟩ := answer_accepted h.fit.ordered ha
    exact ⟨hstep, hdrain, hfloor, hemit, hfits, hrecord, hroom⟩
  · exact ⟨.of_same rfl rfl rfl rfl id rfl, fun _ h => h.advanceFloor (answer_advances ha) _⟩

theorem countAnswer_aligns (a : Answer) (o : Offer) (s : State) : s.Aligns (countAnswer a o s) := by
  have counted := mapStream_aligns (id := o.id) (f := fun x => { x with counts := a.countIn x.counts }) (fun e => ⟨_, _, rfl⟩) s
  unfold countAnswer
  dsimp only
  split
  · exact counted.trans (report_aligns _ _)
  · split
    · exact counted.trans (.of_table (recordLatency_carries _ _ _) (by simp) (by simp) (by simp) (by simp) (by simp))
    · exact counted

theorem handOff_aligns (a : Answer) (o : Offer) (s : State) : s.Aligns (handOff a o s) := by
  refine .of_table (handOff_carries a o s) ?_ ?_ ?_ ?_ ?_ <;> unfold handOff <;> split <;> simp

theorem finishIsolating_aligns (id : Nat) (s : State) : s.Aligns (finishIsolating id s) := by
  unfold finishIsolating
  split
  · exact .refl s
  · exact .ite (fun _ => changeStream_aligns StreamEntry.isolate_keeps s) fun _ => .refl s

theorem timeReport_aligns (id : Nat) (bad : Bool) (s : State) : s.Aligns (timeReport id bad s) :=
  changeStream_aligns (StreamEntry.timeReport_keeps bad) s

theorem placeHeld_aligns (o : Offer) (s : State) : s.Aligns (placeHeld o s) :=
  (ringEffect_aligns o s).trans ((countAnswer_aligns _ _ _).trans ((handOff_aligns _ _ _).trans ((settle_aligns _).trans
    ((finishIsolating_aligns _ _).trans (.ite (fun _ => timeReport_aligns _ _ _) fun _ => .refl _)))))

theorem placeNext_aligns (p : Port) (s : State) : s.Aligns (placeNext p s) := by
  unfold placeNext
  split
  · exact .refl s
  · exact (setAdm_aligns _ s).trans (.ite (fun _ => report_aligns _ _) fun _ => placeHeld_aligns _ _)

theorem placeAll_aligns (p : Port) (n : Nat) (s : State) : s.Aligns (placeAll p n s) := by
  induction n generalizing s with
  | zero => exact .refl s
  | succ n ih => exact .ite (fun _ => (placeNext_aligns p s).trans (ih _)) fun _ => .refl s

/-! ### Admission (R18 to R26, R160 to R163, R171, R172) -/

theorem snapAndBuild_aligns (m : Measurement) (a : ActiveSet) (c : StreamCfg) (s : State) : s.Aligns (snapAndBuild m a c s) := by
  have refused (u : State) : u.Aligns (refusedReport m c u) := .ite (fun _ => timeReport_aligns _ _ u) fun _ => .refl u
  unfold snapAndBuild
  split
  · exact (report_aligns _ s).trans (refused _)
  · exact (mapStream_aligns (fun e => ⟨_, _, rfl⟩) s).trans ((report_aligns _ _).trans (refused _))
  · exact setAdm_aligns _ s

theorem admitOne_aligns (m : Measurement) (s : State) : s.Aligns (admitOne m s) := by
  unfold admitOne
  split
  · exact report_aligns _ s
  · refine .ite (fun _ => report_aligns _ s) fun _ => .ite (fun _ => ?_) fun _ => ?_
    · exact (mapStream_aligns (fun e => ⟨_, _, rfl⟩) s).trans (report_aligns _ _)
    · exact State.Aligns.trans (.ite (fun _ => changeStream_aligns (StreamEntry.lifeFrame_keeps _) s) fun _ => .refl s)
        (snapAndBuild_aligns _ _ _ _)

theorem ingestNext_aligns (s : State) : s.Aligns (ingestNext s) := by
  have ingested (f : IngestFrame) (r : WireRecord) (u : State) : u.Aligns (ingestRecord f r u) :=
    .ite (fun _ => .refl u) fun _ => .ite (fun _ => report_aligns _ u) fun _ => admitOne_aligns _ u
  unfold ingestNext
  split
  · exact .refl s
  · next f fs _ =>
    refine (placeAll_aligns f.port s.adm.offers.length s).trans ?_
    dsimp only
    split
    · exact setAdm_aligns _ _
    · exact (setAdm_aligns _ _).trans (ingested _ _ _)
    · exact (setAdm_aligns _ _).trans (ingested _ _ _)

theorem catchUp_aligns (p : Port) (s : State) : s.Aligns (catchUp p s) := by
  have by_ (n : Nat) (u : State) : u.Aligns (catchUpBy p n u) := by
    induction n generalizing u with
    | zero => exact .refl u
    | succ n ih =>
      refine .ite (fun _ => State.Aligns.trans ?_ (ih _)) fun _ => .refl u
      exact .ite (fun _ => placeNext_aligns p u) fun _ => ingestNext_aligns u
  exact by_ _ s

theorem dispatch_aligns (p : Port) (arrival : Nat) (payload : List Byte) (s : State) : s.Aligns (dispatch p arrival payload s) := by
  unfold dispatch
  refine .ite (fun _ => ?_) fun _ => .ite (fun _ => ?_) fun _ => .ite (fun _ => ?_) fun _ => report_aligns _ s
  · split
    · exact report_aligns _ s
    · exact admitOne_aligns _ s
  · split
    · exact report_aligns _ s
    · exact .ite (fun _ => report_aligns _ s) fun _ => .ite (fun _ => .refl s) fun _ => setAdm_aligns _ s
  · refine .ite (fun _ => report_aligns _ s) fun _ => .ite (fun _ => report_aligns _ s) fun _ =>
      .ite (fun _ => ?_) fun _ => report_aligns _ s
    exact .of_table (.of_same rfl rfl rfl rfl id rfl) rfl rfl rfl rfl rfl

theorem frameIn_aligns (p : Port) (payload : List Byte) (s : State) : s.Aligns (frameIn p payload s) := by
  unfold frameIn
  dsimp only
  split
  · exact (report_aligns _ s).trans (report_aligns _ _)
  · exact (report_aligns _ s).trans (report_aligns _ _)
  · exact (report_aligns _ s).trans ((catchUp_aligns p _).trans (dispatch_aligns _ _ _ _))

end Sys2Proof.Machine
end

