-- ==== Sys2Proof/Proofs/RingRows.lean ====
section
/-! SUPPORT. The rows and the ring: those that pass it by, the commands of the Control Unit that move it, and the events of the Time
Reference Unit and of the output side (R93, R97, R100, R126, R132, R140, R173, R179, R188). -/

namespace Sys2Proof.Machine

/-! ### Rows that pass the ring by -/

/-- A change that passes by the ring, the set in composition, the commit state and the active set, and while a commit waits the staged
set too (R178). -/
structure State.PassesBy (s t : State) : Prop where
  ring : t.ring = s.ring
  set : t.comp.set = s.comp.set
  commit : t.ctl.commit = s.ctl.commit
  table : t.table = s.table
  staged : s.ctl.commit ≠ .none → t.ctl.staged = s.ctl.staged

theorem State.PassesBy.refl (s : State) : s.PassesBy s := ⟨rfl, rfl, rfl, rfl, fun _ => rfl⟩

theorem State.PassesBy.trans {s t u : State} (h : s.PassesBy t) (h' : t.PassesBy u) : s.PassesBy u :=
  ⟨h'.ring.trans h.ring, h'.set.trans h.set, h'.commit.trans h.commit, h'.table.trans h.table,
    fun hc => (h'.staged (h.commit ▸ hc)).trans (h.staged hc)⟩

theorem State.PassesBy.ite {s t u : State} {c : Prop} [Decidable c] (ht : c → s.PassesBy t) (hu : ¬ c → s.PassesBy u) :
    s.PassesBy (if c then t else u) := by
  split
  · next h => exact ht h
  · next h => exact hu h

/-- A change beside ring, set, Control Unit and active set. -/
theorem State.PassesBy.of_ctl {s t : State} (hr : t.ring = s.ring) (hs : t.comp.set = s.comp.set) (hc : t.ctl = s.ctl)
    (ht : t.table = s.table) : s.PassesBy t := ⟨hr, hs, by rw [hc], ht, fun _ => by rw [hc]⟩

theorem State.PassesBy.leaves {s t : State} (h : s.PassesBy t) : s.LeavesRing t := by
  refine ⟨h.ring, h.set, h.commit, fun hb => ?_, by rw [h.table]⟩
  have hc : s.ctl.commit ≠ .none := by rw [← h.commit, hb]; decide
  simp only [State.needsDrain, State.rate, h.staged hc, h.table]

theorem State.PassesBy.sound {s t : State} (h : s.PassesBy t) : s.RingSound → t.RingSound :=
  h.leaves.sound (h.table ▸ .refl _)

theorem State.Aligns.of_passesBy {s t : State} (hc : s.Carries t) (h : s.PassesBy t) : s.Aligns t := ⟨hc, fun _ => h.sound⟩

theorem report_passesBy (c : Ctr) (s : State) : s.PassesBy (report c s) := .of_ctl (by simp) (by simp) (by simp) (by simp)

theorem reply_passesBy (re : ReplyTo) (st : Status) (bs : List Byte) (s : State) : s.PassesBy (reply re st bs s) :=
  .of_ctl (by simp) (by simp) (by simp) (by simp)

theorem popped_passesBy (q : List CtrlFrame) (s : State) : s.PassesBy (s.popped q) := ⟨rfl, rfl, rfl, rfl, fun _ => rfl⟩

theorem checked_passesBy {f : CtrlFrame} {l e : Bool} {act : State → State} {s : State} (h : s.PassesBy (act s)) :
    s.PassesBy (checked f l e act s) :=
  .ite (fun _ => reply_passesBy _ _ _ s) fun _ => .ite (fun _ => reply_passesBy _ _ _ s) fun _ => h

/-- A command that passes the ring by from any state does so as a row (R173). -/
theorem execute_passesBy {act : CtrlFrame → State → State} (h : ∀ f u, State.PassesBy u (act f u)) (code : Nat) (s : State) :
    s.PassesBy (execute code act s) := by
  refine .ite (fun _ => ?_) fun _ => .refl s
  unfold executeIf
  split
  · exact .refl s
  · exact .ite (fun _ => (popped_passesBy _ s).trans (h _ _)) fun _ => .refl s

/-! ### Staging, reads, overrides, the Monitor and the Profile Store (R137, R138, R175 to R177, R185 to R187, R199) -/

/-- Staging passes by: it acts only while no commit waits (R178). -/
theorem whenNoCommit_passesBy {f : CtrlFrame} {act : State → State} {s : State}
    (h : s.ctl.commit = .none → s.PassesBy (act s)) : s.PassesBy (whenNoCommit f act s) :=
  .ite h fun _ => reply_passesBy _ _ _ s

theorem stageReply_passesBy {s : State} (hc : s.ctl.commit = .none) (g : StagedSet) (re : ReplyTo) (st : Status) (bs : List Byte) :
    s.PassesBy (reply re st bs (s.stage g)) :=
  State.PassesBy.trans (t := s.stage g) ⟨rfl, rfl, rfl, rfl, fun hn => absurd hc hn⟩ (reply_passesBy _ _ _ _)

theorem stageStreamAct_passesBy (f : CtrlFrame) (s : State) : s.PassesBy (stageStreamAct f s) := by
  refine checked_passesBy (whenNoCommit_passesBy fun hc => .ite (fun _ => ?_) fun _ => reply_passesBy _ _ _ s)
  split
  · exact stageReply_passesBy hc _ _ _ _
  · exact reply_passesBy _ _ _ s

theorem unstageStreamAct_passesBy (f : CtrlFrame) (s : State) : s.PassesBy (unstageStreamAct f s) := by
  refine checked_passesBy (whenNoCommit_passesBy fun hc => ?_)
  split
  · exact stageReply_passesBy hc _ _ _ _
  · exact reply_passesBy _ _ _ s

theorem stageRangeAct_passesBy (f : CtrlFrame) (s : State) : s.PassesBy (stageRangeAct f s) := by
  refine checked_passesBy (whenNoCommit_passesBy fun hc => ?_)
  dsimp only
  split
  · exact .ite (fun _ => stageReply_passesBy hc _ _ _ _) fun _ => reply_passesBy _ _ _ s
  · exact reply_passesBy _ _ _ s

theorem stageParamsAct_passesBy (f : CtrlFrame) (s : State) : s.PassesBy (stageParamsAct f s) := by
  unfold stageParamsAct
  split
  · exact checked_passesBy (.refl s)
  · exact checked_passesBy (whenNoCommit_passesBy fun hc =>
      .ite (fun _ => stageReply_passesBy hc _ _ _ _) fun _ => reply_passesBy _ _ _ s)

theorem discardStageAct_passesBy (f : CtrlFrame) (s : State) : s.PassesBy (discardStageAct f s) :=
  checked_passesBy (whenNoCommit_passesBy fun hc => stageReply_passesBy hc _ _ _ _)

theorem setOverrides_passesBy (es : List OverrideEntry) (s : State) : s.PassesBy (setOverrides es s) :=
  .ite (fun _ => .of_ctl rfl rfl rfl rfl) fun _ => .of_ctl rfl rfl rfl rfl

theorem setOverrideAct_passesBy (f : CtrlFrame) (s : State) : s.PassesBy (setOverrideAct f s) := by
  unfold setOverrideAct
  dsimp only
  split
  · exact checked_passesBy (.refl s)
  · refine checked_passesBy ?_
    split
    · exact reply_passesBy _ _ _ s
    · exact (setOverrides_passesBy _ s).trans (reply_passesBy _ _ _ _)

theorem clearOverrideAct_passesBy (f : CtrlFrame) (s : State) : s.PassesBy (clearOverrideAct f s) :=
  checked_passesBy (.ite (fun _ => (setOverrides_passesBy _ s).trans (reply_passesBy _ _ _ _)) fun _ => reply_passesBy _ _ _ s)

theorem readOverridesAct_passesBy (f : CtrlFrame) (s : State) : s.PassesBy (readOverridesAct f s) :=
  checked_passesBy (State.PassesBy.trans (t := { s with free := s.free + s.comp.overrides.length }) (.of_ctl rfl rfl rfl rfl)
    (reply_passesBy _ _ _ _))

theorem setMonitor_passesBy (m : Monitor) (re : ReplyTo) (st : Status) (bs : List Byte) (s : State) :
    s.PassesBy (reply re st bs { s with mon := m }) :=
  State.PassesBy.trans (t := { s with mon := m }) (.of_ctl rfl rfl rfl rfl) (reply_passesBy _ _ _ _)

theorem snapshotAct_passesBy (f : CtrlFrame) (s : State) : s.PassesBy (snapshotAct f s) :=
  checked_passesBy (setMonitor_passesBy _ _ _ _ s)

theorem setCondition_passesBy (hold : Bool) (f : CtrlFrame) (s : State) : s.PassesBy (setCondition hold f s) :=
  checked_passesBy (setMonitor_passesBy _ _ _ _ s)

theorem readStatusAct_passesBy (f : CtrlFrame) (s : State) : s.PassesBy (readStatusAct f s) :=
  checked_passesBy (reply_passesBy _ _ _ s)

theorem readRangesAct_passesBy (f : CtrlFrame) (s : State) : s.PassesBy (readRangesAct f s) :=
  checked_passesBy (reply_passesBy _ _ _ s)

theorem saveProfileAct_passesBy (f : CtrlFrame) (s : State) : s.PassesBy (saveProfileAct f s) := by
  rcases saveProfileAct_cases f s with ⟨st, h⟩ | h <;> rw [h]
  · exact reply_passesBy _ _ _ s
  · exact .of_ctl rfl rfl rfl rfl

theorem writeComplete_passesBy (damage : List (Nat × Byte)) (s : State) : s.PassesBy (writeComplete damage s) := by
  have ended (bs : List Byte) : s.PassesBy (endWrite bs s) := .of_ctl rfl rfl rfl rfl
  unfold writeComplete
  split
  · exact .refl s
  · dsimp only
    split
    · exact (ended _).trans (reply_passesBy _ _ _ _)
    · exact ended _

/-! ### The TIME line, edges and pulses (R104 to R123) -/

theorem setTru_passesBy (t : Tru) (s : State) : s.PassesBy { s with tru := t } := .of_ctl rfl rfl rfl rfl

theorem setTime_passesBy (t : TimeLine) (s : State) : s.PassesBy { s with time := t } := .of_ctl rfl rfl rfl rfl

theorem deliver_passesBy (b : Byte) (s : State) : s.PassesBy (deliver b s) := by
  have chars (cs : List Byte) : s.PassesBy (setChars cs s) := setTime_passesBy _ s
  have framing (cs : List Byte) : s.PassesBy (report .timeFraming (setChars cs s)) := (chars cs).trans (report_passesBy _ _)
  refine .ite (fun _ => .ite (fun _ => chars _) fun _ => .refl s) fun _ => .ite (fun _ => framing _) fun _ =>
    .ite (fun _ => .ite (fun _ => .ite (fun _ => framing _) fun _ => ?_) fun _ => chars _) fun _ => framing _
  exact State.PassesBy.trans (.ite (fun _ => report_passesBy _ s) fun _ => .refl s) (setTime_passesBy _ _)

theorem receiveChar_passesBy (c : TimeChar) (s : State) : s.PassesBy (receiveChar c s) :=
  .ite (fun _ => (setTime_passesBy _ s).trans (report_passesBy _ _)) fun _ =>
    .ite (fun _ => (setTime_passesBy _ s).trans (deliver_passesBy _ _)) fun _ =>
      (setTime_passesBy _ s).trans ((setTime_passesBy _ _).trans (report_passesBy _ _))

theorem edgeTaken_passesBy (regular irregular : Bool) (s : State) : s.PassesBy (edgeTaken regular irregular s) := by
  refine State.PassesBy.of_ctl ?_ ?_ ?_ ?_ <;> simp only [edgeTaken] <;> split_ifs <;> simp

theorem edgeAcquiring_passesBy (c : EdgeClass) (m : Option TimeMsg) (s : State) : s.PassesBy (edgeAcquiring c m s) := by
  unfold edgeAcquiring
  split
  · exact setTru_passesBy _ s
  · exact .ite (fun _ => .of_ctl rfl rfl rfl rfl) fun _ => setTru_passesBy _ s

/-- A jump of reference now after a change of the mapping (R112, R116, R122). -/
theorem jumped_passesBy (was : Option Nat) (t : Tru) (s : State) : s.PassesBy (epochJump was { s with tru := t }) :=
  .of_ctl (by simp) (by simp) (by simp) (by simp)

/-- An edge passes the ring by, or is a reference step (R111 to R116). -/
theorem edgeByState_cases (c : EdgeClass) (m : Option TimeMsg) (s : State) :
    s.PassesBy (edgeByState c m s) ∨ ∃ msg, edgeByState c m s = referenceStep msg s := by
  unfold edgeByState
  split
  · exact .inl (edgeAcquiring_passesBy _ _ s)
  · split
    · unfold regularLocked
      dsimp only
      split
      · exact .inl (jumped_passesBy _ _ s)
      · split_ifs
        · exact .inl (jumped_passesBy _ _ s)
        · exact .inr ⟨_, rfl⟩
        · exact .inl (jumped_passesBy _ _ s)
    · exact .inl (.refl s)
  · split
    · unfold regularHoldover
      dsimp only
      split
      · exact .inl (jumped_passesBy _ _ s)
      · split_ifs
        · exact .inl (jumped_passesBy _ _ s)
        · exact .inr ⟨_, rfl⟩
        · exact .inl (setTru_passesBy _ s)
    · exact .inl (setTru_passesBy _ s)
  · exact .inl (.refl s)

/-- A reference step flushes the ring (R100, R115). -/
theorem referenceStep_aligns (m : TimeMsg) (s : State) : s.Aligns (referenceStep m s) := by
  have locked : s.Aligns (forgetPulse { s with tru := s.tru.lock m.label s.tick (some m.source) }) :=
    .of_passesBy ((setTru_carries _ s).trans (forgetPulse_carries _)) (.of_ctl rfl rfl rfl rfl)
  exact locked.trans ((report_aligns _ _).trans (flushStep_aligns _))

theorem edgeByState_aligns (c : EdgeClass) (m : Option TimeMsg) (s : State) : s.Aligns (edgeByState c m s) := by
  refine ⟨edgeByState_carries c m s, fun hk h => ?_⟩
  rcases edgeByState_cases c m s with hpass | ⟨msg, heq⟩
  · exact hpass.sound h
  · rw [heq]
    exact (referenceStep_aligns msg s).sound hk h

theorem ppsEdge_aligns (s : State) : s.Aligns (ppsEdge s) := by
  refine ⟨ppsEdge_carries s, fun hk h => ?_⟩
  rw [ppsEdge_eq]
  have taken := edgeTaken_passesBy (decide (edgeClass s.tru.edgeRef s.tick = .regular))
    (decide (edgeClass s.tru.edgeRef s.tick = .irregular)) s
  have hkept := hk.of_same taken.table (by simp only [edgeTaken]; split_ifs <;> simp) taken.commit
    (by simp only [edgeTaken]; split_ifs <;> simp) (by rw [taken.ring]; exact id)
  exact (edgeByState_aligns _ _ _).sound hkept (taken.sound h)

theorem dropMapping_passesBy (s : State) : s.PassesBy (dropMapping s) := .of_ctl rfl rfl rfl rfl

theorem enterHoldover_passesBy (s : State) : s.PassesBy (enterHoldover s) :=
  .ite (fun _ => .of_ctl rfl rfl rfl rfl) fun _ => setTru_passesBy _ s

theorem epochPulse_passesBy (s : State) : s.PassesBy (epochPulse s) := by
  unfold epochPulse
  split
  · exact .refl s
  · exact .of_ctl (by simp) (by simp) (by simp) (by simp)

theorem endTransmission_passesBy (s : State) : s.PassesBy (endTransmission s) := by
  unfold endTransmission
  split
  · exact .refl s
  · dsimp only
    split <;> exact .of_ctl (by simp) (by simp) (by simp) (by simp)

/-! ### The shared form of the commands that move the ring (R173) -/

theorem checked_aligns {f : CtrlFrame} {l e : Bool} {act : State → State} {s : State} (h : s.Aligns (act s)) :
    s.Aligns (checked f l e act s) :=
  .ite (fun _ => reply_aligns _ _ _ s) fun _ => .ite (fun _ => reply_aligns _ _ _ s) fun _ => h

theorem popped_aligns (q : List CtrlFrame) (s : State) : s.Aligns (s.popped q) := .of_passesBy (popped_carries q s) (popped_passesBy q s)

theorem execute_aligns {act : CtrlFrame → State → State} (h : ∀ f u, State.Aligns u (act f u)) (code : Nat) (s : State) :
    s.Aligns (execute code act s) := by
  refine .ite (fun _ => ?_) fun _ => .refl s
  unfold executeIf
  split
  · exact .refl s
  · exact .ite (fun _ => (popped_aligns _ s).trans (h _ _)) fun _ => .refl s

/-! ### COMMIT (R179, R180) -/

/-- A commit that finds the ring empty applies at once, one that needs a drain flushes the ring, and any other waits for the boundary. -/
theorem placeCommit_aligns {s : State} (hn : s.ctl.commit = .none) (hr : s.ctl.staged.params.region ≠ 31) (re : ReplyTo) :
    s.Aligns (placeCommit re s) := by
  refine ⟨placeCommit_carries hr re, fun hk h => ?_⟩
  have hidle : s.ring.commitDrain = false := by simpa [hn] using h.fit.commitDrain
  have hheld (c : CommitState) : State.Kept { s with ctl := { s.ctl with commit := c, commitFor := some re } } :=
    (setCommit_carries hr c (some re)).kept hk
  have hset (c : CommitState) : State.setOk { s with ctl := { s.ctl with commit := c, commitFor := some re } } := h.set
  unfold placeCommit
  dsimp only
  split
  · next hempty =>
    have hnil : s.ring.recs = [] := List.isEmpty_iff.1 hempty
    have hordered : State.RingFit (applyCommit { s with ctl := { s.ctl with commitFor := some re } }) :=
      applyCommit_fit (s := { s with ctl := { s.ctl with commitFor := some re } }) h.fit.ordered h.fit.lists (hheld s.ctl.commit).tables
        hidle (.inl hnil)
    exact .of_nil (by rw [applyCommit_recs, hnil, List.map_nil]) hordered.ordered.floorTick hordered.ordered.memory
      (by simp [(h.drains hnil).1]) (by simp [hidle]) (by simp) (by simp [(State.noSet_of_nil h.set hnil).1])
  · next hheldRecs =>
    split
    · exact flushCommit_sound h.fit.ordered h.fit.lists (hset .pendingDrain) (hheld .pendingDrain) rfl
    · next hd =>
      have hneeds : s.needsDrain = false := Bool.eq_false_iff.2 hd
      exact ⟨⟨h.fit.ordered, by simp [hidle], fun _ => ⟨by simpa using hheldRecs, hneeds⟩, h.fit.lists⟩, h.drains,
        hset .pendingBoundary, h.counts⟩

theorem commitAct_aligns (f : CtrlFrame) (s : State) : s.Aligns (commitAct f s) :=
  checked_aligns (.ite (fun _ => reply_aligns _ _ _ s) fun hn => .ite (fun _ => reply_aligns _ _ _ s) fun hr =>
    placeCommit_aligns (not_not.1 hn) hr _)

/-- COMMIT_APPLY finds nothing to apply: a commit waits only while the ring holds an epoch (R101, R180, log 13). -/
theorem commitDue_false {s : State} (h : s.RingSound) : s.commitDue = false := by
  unfold State.commitDue
  cases hr : s.ring.recs with
  | cons r rest => simp
  | nil =>
    obtain ⟨-, hdrain⟩ := h.drains hr
    cases hc : s.ctl.commit with
    | none => rfl
    | pendingBoundary => exact absurd hr (h.fit.boundary hc).1
    | pendingDrain =>
      have := h.fit.commitDrain.2 hc
      simp [hdrain] at this

/-! ### Short commands on the running part (R39, R40, R133, R143, R186) -/

theorem isolateStream_aligns (id : Nat) (s : State) : s.Aligns (isolateStream id s) := by
  refine ⟨isolateStream_carries id s, fun hk h => ?_⟩
  cases he : s.stream id with
  | none => rwa [isolateStream, he]
  | some e =>
    rw [isolateStream_known he]
    split_ifs
    · exact h
    · exact (mapStream_leaves (f := fun x => { x with isolating := true }) (fun _ => ⟨rfl, rfl⟩) s).sound
        (mapStream_sameNeeds fun _ _ _ => ⟨rfl, rfl, Iff.rfl⟩) h
    · exact (changeStream_aligns StreamEntry.isolate_keeps s).sound hk h

theorem isolateAct_aligns (f : CtrlFrame) (s : State) : s.Aligns (isolateAct f s) :=
  checked_aligns (.ite (fun _ => (isolateStream_aligns _ s).trans (reply_aligns _ _ _ _)) fun _ => reply_aligns _ _ _ s)

theorem restoreAct_aligns (f : CtrlFrame) (s : State) : s.Aligns (restoreAct f s) :=
  checked_aligns (.ite (fun _ => (changeStream_aligns (StreamEntry.restore_keeps _) s).trans (reply_aligns _ _ _ _))
    fun _ => reply_aligns _ _ _ s)

/-- A change of the Composer's conditions beside its set. -/
theorem setComp_aligns {c : Composer} {s : State} (hs : c.set = s.comp.set) (ho : c.overrides = s.comp.overrides) :
    s.Aligns { s with comp := c } := .of_table (.of_same rfl rfl rfl ho id rfl) rfl hs rfl rfl rfl

theorem setEmissionAct_aligns (f : CtrlFrame) (s : State) : s.Aligns (setEmissionAct f s) := by
  have moded (m : EmissionMode) : s.Aligns { s with comp := { s.comp with mode := m } } := setComp_aligns rfl rfl
  unfold setEmissionAct
  split
  · exact checked_aligns (.refl s)
  · exact checked_aligns ((moded _).trans ((settle_aligns _).trans (reply_aligns _ _ _ _)))

theorem clearQuiesceAct_aligns (f : CtrlFrame) (s : State) : s.Aligns (clearQuiesceAct f s) := by
  have cleared : s.Aligns { s with comp := { s.comp with seen := false, quiesced := false } } := setComp_aligns rfl rfl
  exact checked_aligns (.ite (fun _ => reply_aligns _ _ _ s) fun _ => cleared.trans ((settle_aligns _).trans (reply_aligns _ _ _ _)))

theorem readStreamAct_aligns (f : CtrlFrame) (s : State) : s.Aligns (readStreamAct f s) := by
  refine checked_aligns ?_
  split
  · exact reply_aligns _ _ _ s
  · exact State.Aligns.trans (.ite (fun _ => mapStream_aligns (fun e => ⟨_, _, rfl⟩) s) fun _ => .refl s) (reply_aligns _ _ _ _)

/-! ### RESTART (R188) -/

/-- RESTART's first step applies the boundary's commit, under which a set in composition may have lost its limits (R180). -/
theorem restartCommit_fit {s : State} (h : s.RingSound) (hk : s.Kept) : (restartCommit s).RingFit := by
  unfold restartCommit
  split
  · next hb =>
    have hidle : s.ring.commitDrain = false := by simpa [hb] using h.fit.commitDrain
    have hfit := applyCommit_fit h.fit.ordered h.fit.lists hk.tables hidle (.inr (h.fit.boundary hb).2)
    rcases settle_cases hfit ((applyCommit_carries (by simp [hb])).kept hk) (applyCommit_counts s) with heq | hsound
    · rwa [heq]
    · exact hsound.fit
  · exact h.fit

/-- After it no commit waits for a boundary. -/
theorem restartCommit_commit (s : State) : (restartCommit s).ctl.commit ≠ .pendingBoundary := by
  unfold restartCommit
  split
  · rw [settle, (settleBy_sameControl (by simp)).ctl]
    simp
  · assumption

/-- RESTART's second step leaves the empty ring sound (R102). -/
theorem restartRing_sound {s : State} (h : s.RingFit) (hk : s.Kept) (hc : s.ctl.commit ≠ .pendingBoundary) :
    (restartRing s).RingSound := by
  have hkept : (ringDiscarded s).Kept :=
    (overridesIntoForce_carries (s := s) (by simp) (by simp) (by simp) (by simp)).kept hk
  have hordered : (ringDiscarded s).ring.Ordered :=
    .of_nil (by simp) (by simpa using h.ordered.floorTick) (by simpa using h.ordered.memory)
  have hfit : (ringDiscarded s).RingFit := ⟨hordered, by simpa using h.commitDrain,
    fun hb => absurd (by simpa using hb) hc, by simp [State.ListsOk]⟩
  exact whenEmpty_sound hfit hkept (State.NoSet.setOk ⟨by simp, by simp⟩) (by simp [State.CountsOk])

/-- RESTART leaves an empty ring, no set, no drain and no commit (R78, R102, R188). -/
theorem restartAct_aligns (f : CtrlFrame) (s : State) : s.Aligns (restartAct f s) := by
  have restarts : s.Aligns (restartStreams (restartQueues (restartRing (restartCommit s)))) := by
    have queues (u : State) : u.Carries (restartQueues u) := .of_same rfl rfl rfl rfl id rfl
    refine ⟨(restartCommit_carries s).trans ((restartRing_carries _).trans ((queues _).trans (restartStreams_carries _))),
      fun hk h => ?_⟩
    have hsound := restartRing_sound (restartCommit_fit h hk) ((restartCommit_carries s).kept hk) (restartCommit_commit s)
    obtain ⟨hrecs, hstep, hdrain, hset⟩ := restartRing_ring (restartCommit s)
    have hnone : (restartRing (restartCommit s)).ctl.commit = .none := by
      by_cases hc : s.ctl.commit = .none
      · rw [(restart_sameControl hc).ctl, hc]
      · exact (restart_committedTo hc).commit
    exact .of_nil hrecs hsound.fit.ordered.floorTick hsound.fit.ordered.memory hstep hdrain hnone hset
  exact checked_aligns (restarts.trans (reply_aligns _ _ _ _))

end Sys2Proof.Machine
end

