-- ==== Sys2Proof/Proofs/RingSteps.lean ====
section
/-! PROOFS. Every step keeps the ring in order and leaves no complete record OPEN (R73 to R77, R87, R90, R95, R98, R100, R101, R182): the
timers, the start of a composition, the queueing of a part, the quiesce event, and then every row. -/

namespace Sys2Proof.Machine

/-! ### Timers (R38, R93) -/

theorem silenceExpiry_aligns (idx : Nat) (s : State) : s.Aligns (silenceExpiry idx s) := by
  unfold silenceExpiry
  split
  · exact .refl s
  · exact .ite (fun _ => changeStream_aligns StreamEntry.silence_keeps s) fun _ => .refl s

/-- Re-evaluating one record changes nothing while every count is that of its list (R93). -/
theorem recountAt_self {s : State} (h : s.CountsOk) (ordinal : Nat) : recountAt ordinal s = s := by
  have hrecs : s.ring.recs.map (fun e => if e.ordinal = ordinal ∧ e.state = .opened then e.recount s.table else e) = s.ring.recs := by
    refine (List.map_congr_left fun e he => ?_).trans (List.map_id _)
    split
    · next ho => rw [EpochRec.recount, ← (h e he ho.2).1]; rfl
    · rfl
  rw [recountAt, hrecs]

theorem expireDeadline_aligns (ordinal : Nat) (s : State) : s.Aligns (expireDeadline ordinal s) := by
  refine ⟨expireDeadline_carries ordinal s, fun hk h => ?_⟩
  unfold expireDeadline
  rw [recountAt_self h.counts]
  dsimp only
  split
  · exact h
  · split
    · exact ((sealWhere_aligns _ _ s).trans (settle_aligns _)).sound hk h
    · exact h

/-! ### The start of a composition (R126) -/

/-- A SEALED head passes to EMITTING in a ring in order (R74, R126). -/
theorem Ring.Ordered.emit {r : Ring} {e : EpochRec} {rest : List EpochRec} (h : r.Ordered) (hr : r.recs = e :: rest)
    (hs : e.state = .sealed) (stepped mark : Bool) :
    Ring.Ordered { r with recs := { e with state := .emitting, stepped := stepped } :: rest, stepMark := mark } := by
  obtain ⟨ascending, span, aboveFloor, floorTick, records, emitting, hcells, memory, drain⟩ := h
  simp only [hr, List.pairwise_cons, List.forall_mem_cons, List.tail_cons, Ring.occupancy, List.map_cons] at *
  refine ⟨List.pairwise_cons.2 ascending, List.forall_mem_cons.2 ⟨List.forall_mem_cons.2 span.1,
      fun a ha => List.forall_mem_cons.2 (span.2 a ha)⟩,
    fun f hf => List.forall_mem_cons.2 (aboveFloor f hf), floorTick, List.forall_mem_cons.2 ⟨?_, records.2⟩, emitting, hcells, memory,
    fun hd => List.forall_mem_cons.2 ⟨by simp, (drain hd).2⟩⟩
  exact ⟨records.1.nonempty, by simpa [hs] using records.1.sealTick, by simpa [hs] using records.1.cause⟩

/-- A HELD record is its stream's, within the stream's hold limit (R129, R130). -/
theorem streamRecord_held {a : ActiveSet} {ordinal : Nat} {e : StreamEntry} {c : Option Contribution} {o : Option Override} {r : SetRecord}
    (h : streamRecord a ordinal e c o = some r) (hr : r.status = .held) : r.idx = e.idx ∧ r.holdAge ≤ e.cfg.holdLimit := by
  have missing (hm : missingRecord a e = r) : r.idx = e.idx ∧ r.holdAge ≤ e.cfg.holdLimit := by
    unfold missingRecord at hm
    split at hm
    · split at hm
      · next hl =>
        simp only [Bool.and_eq_true, decide_eq_true_eq] at hl
        subst hm
        exact ⟨rfl, hl.2⟩
      · subst hm; cases hr
    · subst hm; cases hr
  have plain {c : Option Contribution} (hp : plainRecord a ordinal e c = some r) : r.idx = e.idx ∧ r.holdAge ≤ e.cfg.holdLimit := by
    unfold plainRecord at hp
    split at hp
    · cases hp; cases hr
    · split at hp
      · exact missing (Option.some.inj hp)
      · cases hp
  unfold streamRecord at h
  split at h
  · exact plain h
  · split at h
    · cases h
    · split at h
      · obtain ⟨x, -, rfl⟩ := Option.map_eq_some_iff.1 h
        cases hr
      · exact plain h
    · split at h
      · cases h; cases hr
      · exact plain h

/-- A set has a part, and every record of its parts is one of the set's (R9). -/
theorem setParts_records (s : State) (r : EpochRec) :
    0 < (setParts s r).length ∧ ∀ p ∈ setParts s r, ∀ x ∈ p.records, x ∈ setRecords s r := by
  have hflat := cutFrom_flatten (setRecords s r) []
  rw [← cutParts_eq, List.nil_append] at hflat
  refine ⟨?_, fun p hp x hx => ?_⟩
  · obtain ⟨q, ps, hhead⟩ := cutFrom_head (setRecords s r) []
    rw [← cutParts_eq] at hhead
    simp [setParts, hhead]
  · obtain ⟨g, hg, rfl⟩ := List.mem_map.1 hp
    rw [← hflat]
    exact List.mem_flatten.2 ⟨g.1, (List.mem_zipIdx hg).2.2 ▸ List.getElem_mem _, hx⟩

/-- The HELD records of a set keep within the hold limits of their streams, which no index names twice (R34, R48). -/
theorem setParts_held {s : State} (h : s.TablesOk) (r : EpochRec) : ∀ p ∈ setParts s r, ∀ x ∈ p.records, x.status = .held →
    ∀ e ∈ s.table.streams, e.idx = x.idx → x.holdAge ≤ e.cfg.holdLimit := by
  intro p hp x hx hs e he hi
  obtain ⟨y, hy, hrec⟩ := List.mem_filterMap.1 ((setParts_records s r).2 p hp x hx)
  obtain ⟨hidx, hage⟩ := streamRecord_held hrec hs
  have hindexes : (s.table.streams.map fun y => y.idx).Nodup :=
    List.pairwise_map.2 ((List.pairwise_map.1 h.active.ascending).imp fun hlt => hlt.ne)
  rwa [List.inj_on_of_nodup_map hindexes he hy (hi.trans hidx)]

/-- The start of a composition that is due leaves the ring sound (R97, R126). -/
theorem startSet_sound {s : State} (h : s.RingSound) (hk : s.Kept) (hd : s.composeDue = true) : (startSet s).RingSound := by
  unfold State.composeDue at hd
  cases hr : s.ring.recs with
  | nil => simp [hr] at hd
  | cons r rest =>
    simp only [hr, Bool.and_eq_true, beq_iff_eq] at hd
    have hsealed : r.state = .sealed := hd.1.1
    have hordered := h.fit.ordered.emit hr hsealed s.ring.stepMark false
    have hlists := h.fit.lists
    have hcounts := h.counts
    rw [State.ListsOk, hr, List.forall_mem_cons] at hlists
    rw [State.countsOk_iff, hr, List.forall_mem_cons] at hcounts
    simp only [startSet, hr]
    refine ⟨⟨hordered, h.fit.commitDrain, fun hb => ⟨List.cons_ne_nil _ _, (h.fit.boundary hb).2⟩, List.forall_mem_cons.2 hlists⟩,
      fun hn => absurd hn (List.cons_ne_nil _ _), ?_, List.forall_mem_cons.2 ⟨EpochRec.Counted.of_closed (by simp), hcounts.2⟩⟩
    exact ⟨(setParts_records s r).1, ⟨_, rfl, rfl, rfl⟩, setParts_held hk.tables r⟩

/-! ### The queueing of a part (R132) -/

/-- One more part of the set counted as queued (R124, R132). -/
def setAdvanced (c : Composition) (s : State) : State := { s with comp := { s.comp with set := some { c with queued := c.queued + 1 } } }

/-- The part after a part of the set has joined O with what it moves, before a departure (R132). -/
def partQueued (c : Composition) (p : SetPart) (s : State) : State := joinO p.frame (moveRecords p.records (setAdvanced c s))

theorem queueNext_due {s : State} {c : Composition} {p : SetPart} (h : s.partDue = some (c, p)) :
    queueNext s = if c.queued + 1 = c.parts.length then settle (depart true (partQueued c p s)) else partQueued c p s := by
  rw [queueNext, h]
  rfl

@[simp] theorem partQueued_fields (c : Composition) (p : SetPart) (s : State) :
    (partQueued c p s).ring = s.ring ∧ (partQueued c p s).ctl = s.ctl ∧ (partQueued c p s).comp = (setAdvanced c s).comp ∧
    (partQueued c p s).table = { s.table with streams := s.table.streams.map (StreamEntry.queuedIn p.records) } := by
  simp [partQueued, moveRecords, setAdvanced]

/-- A part that is due: the ring has a head, and the part is the set's next one. -/
theorem partDue_next {s : State} {c : Composition} {p : SetPart} (h : s.partDue = some (c, p)) :
    (∃ r rest, s.ring.recs = r :: rest) ∧ c.queued < c.parts.length := by
  unfold State.partDue at h
  split at h
  · next hr _ =>
    split_ifs at h
    obtain ⟨q, hq, heq⟩ := Option.map_eq_some_iff.1 h
    cases heq
    exact ⟨⟨_, _, hr⟩, (List.getElem?_eq_some_iff.1 hq).1⟩
  · cases h

/-- A queued part moves none of an entry's index, configuration and state (R132). -/
theorem queuedIn_same (rs : List SetRecord) (e : StreamEntry) :
    (e.queuedIn rs).idx = e.idx ∧ (e.queuedIn rs).cfg = e.cfg ∧ ((e.queuedIn rs).state = .active ↔ e.state = .active) := by
  rw [queuedIn_eq]
  split
  · exact ⟨rfl, rfl, Iff.rfl⟩
  · split <;> exact ⟨rfl, rfl, Iff.rfl⟩

/-- A queued part leaves the ring alone but for the count of its set. -/
theorem partQueued_leaves (c : Composition) (p : SetPart) (s : State) :
    (setAdvanced c s).LeavesRing (partQueued c p s) ∧ s.table.SameNeeds (partQueued c p s).table := by
  obtain ⟨hring, hctl, hcomp, htable⟩ := partQueued_fields c p s
  refine ⟨⟨hring, by rw [hcomp], by rw [hctl]; rfl, fun _ => by simp only [State.needsDrain, State.rate, hctl, htable]; rfl, ?_⟩,
    .of_entries (by rw [htable]) (by rw [htable]) (by rw [htable]) fun e _ => queuedIn_same _ e⟩
  rw [htable, List.map_map]
  exact List.map_congr_left fun e _ => Prod.ext (queuedIn_same _ e).1 (queuedIn_same _ e).2.1

/-- A queued part of the set in composition keeps the tables in order (R48, R132). -/
theorem partQueued_kept {s : State} {c : Composition} {p : SetPart} (h : s.setOk) (hk : s.Kept) (hdue : s.partDue = some (c, p)) :
    (partQueued c p s).Kept := by
  obtain ⟨hset, hp⟩ := partDue_some hdue
  obtain ⟨hring, hctl, hcomp, htable⟩ := partQueued_fields c p s
  exact hk.of_entries
    (fun e he => StreamEntry.queuedIn_keeps fun r hr hh hi => setOk_heldWithin h hset hp r hr hh e he hi)
    (by rw [htable]) (by rw [htable]) (by rw [htable]) (by rw [hctl]) (by rw [hctl]; exact id)
    (by rw [hcomp]; rfl) (by rw [hring]; exact id)

/-- A queued part leaves the ring sound; with the last part the head departs (R98, R132). -/
theorem queueNext_sound {s : State} (h : s.RingSound) (hk : s.Kept) : (queueNext s).RingSound := by
  cases hdue : s.partDue with
  | none => rwa [queueNext, hdue]
  | some cp =>
    obtain ⟨c, p⟩ := cp
    obtain ⟨⟨r, rest, hr⟩, hqueued⟩ := partDue_next hdue
    obtain ⟨hleaves, hneeds⟩ := partQueued_leaves c p s
    have hring : (partQueued c p s).ring = s.ring := hleaves.ring
    have hkept := partQueued_kept h.set hk hdue
    have hfit : (setAdvanced c s).RingFit := ⟨h.fit.ordered, h.fit.commitDrain, h.fit.boundary, h.fit.lists⟩
    rw [queueNext_due hdue]
    split
    · have hcounts : (partQueued c p s).CountsOk := by
        rw [State.countsOk_iff, hring]
        exact fun x hx => hneeds.counted (h.counts x hx)
      exact (settle_aligns _).sound ((depart_carries true _).kept hkept) (depart_sound (hleaves.fit hfit) hkept hcounts (by rw [hring, hr]))
    · have hset := h.set
      rw [State.setOk, (partDue_some hdue).1] at hset
      obtain ⟨-, hhead, hheld⟩ := hset
      have hadvanced : (setAdvanced c s).setOk := ⟨by dsimp only; omega, hhead, hheld⟩
      exact hleaves.sound hneeds ⟨hfit, h.drains, hadvanced, h.counts⟩

/-! ### The quiesce event (R140, R142) -/

theorem quiesceFall_aligns (s : State) : s.Aligns (quiesceFall s) := by
  have seen : s.Aligns { s with comp := { s.comp with seen := true } } := setComp_aligns rfl rfl
  have latched (u : State) : u.Aligns { u with comp := { u.comp with quiesced := true } } := setComp_aligns rfl rfl
  have parts (u : State) : u.Aligns (discardParts u) := .of_table (.of_same rfl rfl rfl rfl id rfl) rfl rfl rfl rfl rfl
  exact .ite (fun _ => seen.trans ((latched _).trans ((parts _).trans (settle_aligns _)))) fun _ => seen

/-! ### Every row and every step -/

/-- The rows that start the part or hold it. -/
def IsSupply : Instr → Prop
  | .powerUp _ | .resetAssert | .resetRelease | .powerLoss => True
  | _ => False

/-- Every other row keeps the ring of a part that takes events sound. -/
theorem exec_sound {c : Instr} (hc : ¬ IsSupply c) {s : State} (h : s.operating = true → s.Kept ∧ s.RingSound) :
    ∃ t, exec c s = .next t ∧ (s.operating = true → t.RingSound) := by
  have aligned {t : State} (ha : s.Aligns t) (ho : s.operating = true) : t.RingSound := ha.sound (h ho).1 (h ho).2
  have passed {t : State} (hp : s.PassesBy t) (ho : s.operating = true) : t.RingSound := hp.sound (h ho).2
  have event {t : State} (ha : s.Aligns t) : s.operating = true → (whileOperating s t).RingSound :=
    aligned (.ite (fun _ => ha) fun _ => .refl s)
  have beside {t : State} (hp : s.PassesBy t) : s.operating = true → (whileOperating s t).RingSound :=
    passed (.ite (fun _ => hp) fun _ => .refl s)
  have due {t : State} {p : Bool} (hp : s.PassesBy t) : s.operating = true → (whileOperating s (if p then t else s)).RingSound :=
    beside (.ite (fun _ => hp) fun _ => .refl s)
  cases c with
  | powerUp _ | resetAssert | resetRelease | powerLoss => exact absurd trivial hc
  | ingressLinkUp p | ingressLinkDown p | portOLinkDown => exact ⟨_, rfl, beside (.of_ctl rfl rfl rfl rfl)⟩
  | portOLinkUp => exact ⟨_, rfl, beside (.of_ctl (by simp) (by simp) (by simp) (by simp))⟩
  | ingressFrameComplete p good f => exact ⟨_, rfl, event (.ite (fun _ => frameIn_aligns _ _ s) fun _ => .refl s)⟩
  | asetRecordIngest => exact ⟨_, rfl, event (ingestNext_aligns s)⟩
  | placement p => exact ⟨_, rfl, event (placeNext_aligns p s)⟩
  | silenceTimerExpiry idx => exact ⟨_, rfl, event (silenceExpiry_aligns idx s)⟩
  | deadlineExpiry ordinal => exact ⟨_, rfl, event (expireDeadline_aligns ordinal s)⟩
  | composeSet =>
    refine ⟨_, rfl, fun ho => ?_⟩
    rw [whileOperating_pos ho]
    split
    · next hd => exact startSet_sound (h ho).2 (h ho).1 hd
    · exact (h ho).2
  | queuePart =>
    refine ⟨_, rfl, fun ho => ?_⟩
    rw [whileOperating_pos ho]
    exact queueNext_sound (h ho).2 (h ho).1
  | commitApply =>
    refine ⟨_, rfl, fun ho => ?_⟩
    rw [whileOperating_pos ho, commitDue_false (h ho).2]
    exact (h ho).2
  | transmissionComplete => exact ⟨_, rfl, beside (endTransmission_passesBy s)⟩
  | strobePulseEnd | elapsedFreeze => exact ⟨_, rfl, due (.of_ctl rfl rfl rfl rfl)⟩
  | epochPulse => exact ⟨_, rfl, beside (epochPulse_passesBy s)⟩
  | ppsEdge => exact ⟨_, rfl, event (ppsEdge_aligns s)⟩
  | edgeWatchdogExpiry => exact ⟨_, rfl, due (enterHoldover_passesBy s)⟩
  | holdoverLimitReached => exact ⟨_, rfl, due (dropMapping_passesBy s)⟩
  | timeCharacter c => exact ⟨_, rfl, due (receiveChar_passesBy c s)⟩
  | quiesceEvent =>
    have low : s.Aligns { s with comp := { s.comp with lineLow := true } } := setComp_aligns rfl rfl
    exact ⟨_, rfl, aligned (.ite (fun _ => low.trans (quiesceFall_aligns _)) fun _ => low)⟩
  | quiesceLineRise => exact ⟨_, rfl, passed (.of_ctl rfl rfl rfl rfl)⟩
  | profileWriteComplete damage => exact ⟨_, rfl, beside (writeComplete_passesBy damage s)⟩
  | stageStream => exact ⟨_, rfl, passed (execute_passesBy stageStreamAct_passesBy _ s)⟩
  | unstageStream => exact ⟨_, rfl, passed (execute_passesBy unstageStreamAct_passesBy _ s)⟩
  | stageRange => exact ⟨_, rfl, passed (execute_passesBy stageRangeAct_passesBy _ s)⟩
  | stageParams => exact ⟨_, rfl, passed (execute_passesBy stageParamsAct_passesBy _ s)⟩
  | discardStage => exact ⟨_, rfl, passed (execute_passesBy discardStageAct_passesBy _ s)⟩
  | commit => exact ⟨_, rfl, aligned (execute_aligns commitAct_aligns _ s)⟩
  | isolate => exact ⟨_, rfl, aligned (execute_aligns isolateAct_aligns _ s)⟩
  | restore => exact ⟨_, rfl, aligned (execute_aligns restoreAct_aligns _ s)⟩
  | setOverride => exact ⟨_, rfl, passed (execute_passesBy setOverrideAct_passesBy _ s)⟩
  | clearOverride => exact ⟨_, rfl, passed (execute_passesBy clearOverrideAct_passesBy _ s)⟩
  | setEmission => exact ⟨_, rfl, aligned (execute_aligns setEmissionAct_aligns _ s)⟩
  | clearQuiesce => exact ⟨_, rfl, aligned (execute_aligns clearQuiesceAct_aligns _ s)⟩
  | readStatus => exact ⟨_, rfl, passed (execute_passesBy readStatusAct_passesBy _ s)⟩
  | readRanges => exact ⟨_, rfl, passed (execute_passesBy readRangesAct_passesBy _ s)⟩
  | readStream => exact ⟨_, rfl, aligned (execute_aligns readStreamAct_aligns _ s)⟩
  | readOverrides => exact ⟨_, rfl, passed (execute_passesBy readOverridesAct_passesBy _ s)⟩
  | snapshotCounters => exact ⟨_, rfl, passed (execute_passesBy snapshotAct_passesBy _ s)⟩
  | monitorRun | monitorHold => exact ⟨_, rfl, passed (execute_passesBy (setCondition_passesBy _) _ s)⟩
  | saveProfile => exact ⟨_, rfl, passed (execute_passesBy saveProfileAct_passesBy _ s)⟩
  | restart => exact ⟨_, rfl, aligned (execute_aligns restartAct_aligns _ s)⟩
  | unknownCommand =>
    refine ⟨_, rfl, beside ?_⟩
    unfold executeIf
    split
    · exact .refl s
    · exact .ite (fun _ => (popped_passesBy _ s).trans (reply_passesBy _ _ _ _)) fun _ => .refl s

/-- A start leaves an empty ring (R202). -/
theorem start_ringSound (s : State) : (start s).RingSound := .of_nil rfl rfl .nil rfl rfl rfl rfl

/-- A row leaves a part that takes events with its ring sound. -/
theorem exec_ringSound {c : Instr} {s t : State} (hs : s.operating = true → s.Kept ∧ s.RingSound) (h : exec c s = .next t)
    (ht : t.operating = true) : t.RingSound := by
  by_cases hc : IsSupply c
  · cases c with
    | powerUp r => cases h; exact start_ringSound _
    | resetRelease =>
      rcases exec_resetRelease_cases h ht with ⟨u, rfl⟩ | ⟨ho, rfl⟩
      · exact start_ringSound u
      · exact State.PassesBy.sound (s := s) (.of_ctl rfl rfl rfl rfl) (hs ho).2
    | resetAssert | powerLoss => cases h; simp [State.operating] at ht
    | _ => exact absurd hc id
  · obtain ⟨u, hu, hsound⟩ := exec_sound hc hs
    cases hu.symm.trans h
    refine hsound (operating_of_exec ?_ ?_ h ht)
    · rintro r rfl; exact hc trivial
    · rintro rfl; exact hc trivial

/-- A step keeps the ring sound. -/
theorem step_ringSound {s t : State} (hs : s.Inv) (h : step s = .next t) (ht : t.operating = true) : t.RingSound := by
  have sound (ho : s.operating = true) : s.Kept ∧ s.RingSound := by
    have hsound := hs.running ho
    exact ⟨⟨hsound.tables, hsound.overrides⟩, State.ringSound_iff.2 ⟨hsound.ring, hsound.lists, hsound.counts⟩⟩
  rcases step_cases h with ⟨c, rest, hexec⟩ | rfl
  · refine exec_ringSound (s := { s with pending := rest }) (fun ho => ?_) hexec ht
    exact ⟨(sound ho).1.of_same rfl rfl rfl rfl id, State.PassesBy.sound (s := s) (.of_ctl rfl rfl rfl rfl) (sound ho).2⟩
  · have ho : s.operating = true := by
      unfold oneTick whileOperating at ht
      split at ht <;> assumption
    rw [oneTick, whileOperating_pos ho]
    exact State.PassesBy.sound (s := s) (.of_ctl rfl rfl rfl rfl) (sound ho).2

/-- Settles O56: the ring and what hangs on it are sound after every row. -/
theorem stepsKeepTheRing : Obligations.StepsKeepTheRing := by
  unfold Obligations.StepsKeepTheRing
  exact fun s t hs h ht => (State.ringSound_iff.1 (step_ringSound hs h ht)).1

/-- Settles O58: the lists and the counts are part of the same. -/
theorem stepsLeaveNoCompleteRecordOpen : Obligations.StepsLeaveNoCompleteRecordOpen := by
  unfold Obligations.StepsLeaveNoCompleteRecordOpen
  exact fun s t hs h ht => (State.ringSound_iff.1 (step_ringSound hs h ht)).2

end Sys2Proof.Machine
end

