-- ==== Sys2Proof/Proofs/Departures.lean ====
section
/-! PROOFS. Re-evaluation, flushes and withheld heads, and the departure of the head with the empty ring, each as one equation (R73, R94,
R95, R98, R100, R101, R123, R125, R134, R135, R139, R142, R180). -/

namespace Sys2Proof.Machine

/-! ### Reports among other changes (R189) -/

/-- Reports and a change of the ring pass one another. -/
theorem reportMany_setRing (c : Ctr) (n : Nat) (s : State) (r : Ring) :
    { reportMany c n s with ring := r } = reportMany c n { s with ring := r } := by
  rw [reportMany_eq c n s, reportMany_eq c n { s with ring := r }, reportMany_mon_congr c n (s := s) (t := { s with ring := r }) rfl]

/-- A report and override changes coming into force pass one another. -/
theorem overridesIntoForce_report (c : Ctr) (s : State) : overridesIntoForce (report c s) = report c (overridesIntoForce s) := by
  unfold report overridesIntoForce
  split <;> rfl

/-- STROBE after a pulse that falls due now (R123). -/
def Strobe.pulsed (now : Nat) (st : Strobe) : Strobe :=
  { st with endTick := match st.endTick with
      | some x => if now < x then some x else some (now + 10)
      | none => some (now + 10) }

theorem strobePulse_eq (s : State) : strobePulse s = { s with strobe := s.strobe.pulsed s.tick } := by
  obtain ⟨_, _, _, _, _, _, _, _, _, ⟨line⟩, _, _, _, _, _, _⟩ := s
  unfold strobePulse Strobe.pulsed
  cases line with
  | none => rfl
  | some x =>
    dsimp only
    split <;> rfl

/-- A source's pulse moves STROBE where that source is selected (R121). -/
theorem strobeFrom_eq (src : StrobeSource) (s : State) : strobeFrom src s =
    { s with strobe := if s.table.params.strobe = src then s.strobe.pulsed s.tick else s.strobe } := by
  rw [strobeFrom, strobePulse_eq]
  simp only [beq_iff_eq]
  split <;> rfl

/-- A report and a pulse pass one another. -/
theorem strobeFrom_report (src : StrobeSource) (c : Ctr) (s : State) : strobeFrom src (report c s) = report c (strobeFrom src s) := by
  rw [strobeFrom_eq, strobeFrom_eq]
  unfold report
  split <;> rfl

/-! ### Re-evaluation (R94, R95) -/

/-- An OPEN record whose recomputed count completes it. -/
def EpochRec.completesAt (a : ActiveSet) (r : EpochRec) : Bool :=
  decide (r.state = .opened) && decide (r.contributions.countP (countsPresent a r.ordinal) = requiredCount a r.ordinal)

/-- The recount makes complete the records that complete. -/
theorem EpochRec.recount_isComplete (a : ActiveSet) (r : EpochRec) (h : r.state = .opened) :
    (r.recount a).isComplete a = r.completesAt a := by
  simp [EpochRec.isComplete, EpochRec.recount, EpochRec.completesAt, h, beq_eq_decide]

/-- The record after its re-evaluation, by whether it completes. -/
theorem EpochRec.reevaluated_apart (a : ActiveSet) (now : Nat) (r : EpochRec) : r.reevaluated a now =
    if r.completesAt a then
      { r with requiredPresent := requiredCount a r.ordinal, state := .sealed, sealTick := some now, cause := some .complete }
    else if r.state = .opened then { r with requiredPresent := r.contributions.countP (countsPresent a r.ordinal) } else r := by
  unfold EpochRec.reevaluated
  by_cases ho : r.state = .opened
  · by_cases hc : r.contributions.countP (countsPresent a r.ordinal) = requiredCount a r.ordinal
    · simp [EpochRec.completesAt, EpochRec.recount, EpochRec.seal, ho, hc]
    · simp [EpochRec.completesAt, EpochRec.recount, ho, hc]
  · simp [EpochRec.completesAt, ho]

/-- A re-evaluation, with one seal counted for each record that completes (R95). -/
theorem recountAll_eq (s : State) : recountAll s = reportMany .sealComplete (s.ring.recs.countP (EpochRec.completesAt s.table))
    { s with ring := { s.ring with recs := s.ring.recs.map (EpochRec.reevaluated s.table s.tick) } } := by
  have hcount : (s.ring.recs.map fun r => if r.state == .opened then r.recount s.table else r).countP
      (fun r => r.state == .opened && r.isComplete s.table) = s.ring.recs.countP (EpochRec.completesAt s.table) := by
    rw [List.countP_map]
    refine List.countP_congr fun r _ => ?_
    by_cases ho : r.state = .opened
    · simp [ho, r.recount_isComplete s.table ho, show (r.recount s.table).state = .opened from ho]
    · simp [ho, EpochRec.completesAt]
  have hring := recountAll_ring s
  unfold recountAll sealWhere at hring ⊢
  simp only [reportMany_fields, hcount] at hring ⊢
  rw [hring]
  rfl

/-! ### Withheld heads (R125, R135, R142) -/

theorem State.headMustLeave_iff (s : State) : s.headMustLeave = true ↔ ∃ r rest, s.ring.recs = r :: rest ∧
    ((r.state = .sealed ∧ (s.comp.quiesced = true ∨ s.comp.mode = .withhold)) ∨
      (r.state = .emitting ∧ s.comp.quiesced = true)) := by
  unfold State.headMustLeave Composer.withholds
  cases s.ring.recs with
  | nil => simp
  | cons r rest => simp

theorem settle_of_stays {s : State} (h : s.headMustLeave = false) : settle s = s := by
  unfold settle
  cases s.ring.recs.length with
  | zero => rfl
  | succ n => rw [settleBy, h]; rfl

theorem settle_of_leaves {s : State} (h : s.headMustLeave = true) : settle s = settle (depart false s) := by
  obtain ⟨r, rest, hr⟩ := headMustLeave_cons h
  have hlength : (depart false s).ring.recs.length = rest.length := by rw [depart_recs_length, hr]; rfl
  rw [settle, settle, hlength, hr, List.length_cons, settleBy, if_pos h]

/-! ### Flushes (R100, R101, R183) -/

/-- The seal of every OPEN record, with one seal counted for each, under a change of the ring's other fields. -/
theorem sealAll_setRing (c : SealCause) (s : State) (f : Ring → Ring) :
    { sealWhere c (fun _ => true) s with ring := f (sealWhere c (fun _ => true) s).ring } =
      reportMany c.ctr (s.ring.recs.countP fun r => decide (r.state = .opened)) { s with ring := f { s.ring with
        recs := s.ring.recs.map fun r => if r.state = .opened then r.seal c s.tick else r } } := by
  rw [sealWhere_ring, sealWhere]
  simp only [reportMany_setRing, Bool.and_true, beq_eq_decide, decide_eq_true_eq]

/-- Settles O27: each operation by its equation. -/
theorem reevaluationFlushesAndWithheldHeads : Obligations.ReevaluationFlushesAndWithheldHeads := by
  unfold Obligations.ReevaluationFlushesAndWithheldHeads
  refine ⟨fun s => ⟨?_, rfl⟩, fun s => ⟨s.headMustLeave_iff, settle_of_leaves, settle_of_stays, settleBy_done _ s le_rfl⟩,
    fun s => ⟨?_, ?_⟩⟩
  · rw [recountAll_eq, funext fun r => EpochRec.reevaluated_apart s.table s.tick r]
    rfl
  · exact congrArg (fun t => whenEmpty (settle t)) (sealAll_setRing .step s fun r => { r with stepDrain := true })
  · exact congrArg (fun t => whenEmpty (settle t)) (sealAll_setRing .flush s fun r => { r with commitDrain := true })

/-! ### The departure of the head (R98, R123, R134, R139) -/

/-- The Composer's part in a departure: its report, with SINGLE spent by an emitted set (R132, R134, R135). -/
theorem reportDeparture_eq (emitted : Bool) (s : State) : reportDeparture emitted s = report (if emitted then .setsEmitted else .withheld)
    { s with comp := { s.comp with mode := if emitted = true ∧ s.comp.mode = .single then .withhold else s.comp.mode } } := by
  cases emitted with
  | false => rfl
  | true =>
    by_cases hm : s.comp.mode = .single
    · simp [reportDeparture, hm]
    · simp [reportDeparture, hm]

/-- What the head's departure leaves but for its report: the record gone and remembered, the override changes in force, SINGLE spent by
an emitted set, and the EMIT pulse. -/
def headGone (emitted : Bool) (r : EpochRec) (rest : List EpochRec) (s : State) : State :=
  { s with
    ring := { s.ring with recs := rest, floor := some r.ordinal, floorTick := some s.tick
                          memory := remember ⟨r.ordinal, s.tick⟩ s.ring.memory }
    comp := { s.comp with
      set := none
      overrides := s.comp.overrides.filterMap OverrideEntry.comeIntoForce
      mode := if emitted = true ∧ s.comp.mode = .single then .withhold else s.comp.mode }
    strobe := if s.table.params.strobe = .emit then s.strobe.pulsed s.tick else s.strobe }

theorem departed_eq (emitted : Bool) (r : EpochRec) (rest : List EpochRec) (s : State) :
    departed emitted r rest s = report (if emitted then .setsEmitted else .withheld) (headGone emitted r rest s) := by
  rw [departed, reportDeparture_eq, overridesIntoForce_report, strobeFrom_report, strobeFrom_eq]
  rfl

/-! ### The departure memory (R73) -/

/-- A slot that is not the departed one's remembers what it did. -/
theorem memoryOf_remember_other {d : Departed} {ordinal : Nat} (h : ordinal % slots ≠ d.ordinal % slots) (ms : List Departed) :
    memoryOf (remember d ms) ordinal = memoryOf ms ordinal := by
  have skip (l : List Departed) : memoryOf (d :: l) ordinal = memoryOf l ordinal :=
    List.find?_cons_of_neg (by simpa using h.symm)
  induction ms with
  | nil => exact skip []
  | cons m ms ih =>
    unfold remember
    split
    · next hm =>
      have hskip : memoryOf (m :: ms) ordinal = memoryOf ms ordinal := List.find?_cons_of_neg (by simpa [hm] using h.symm)
      rw [skip, hskip]
    · split
      · exact skip _
      · by_cases hm : m.ordinal % slots = ordinal % slots
        · simp [memoryOf, hm]
        · simpa [memoryOf, hm] using ih

/-- Settles O28: the head's departure, the slots of the memory and the empty ring, each by its equation. -/
theorem departureAndEmptyRing : Obligations.DepartureAndEmptyRing := by
  unfold Obligations.DepartureAndEmptyRing
  refine ⟨fun emitted s => ⟨fun hr => by rw [depart, hr], fun r rest hr => ?_⟩, fun d ms ordinal => ?_,
    fun s => ⟨fun hr => ?_, fun hr => ?_⟩⟩
  · intro left
    have hleft : departed emitted r rest s = left := departed_eq emitted r rest s
    have hctl : left.ctl = s.ctl := by rw [← hleft, (departed_fields emitted r rest s).2.2.1]
    rw [depart_cons hr, hleft, commitAtBoundary, hctl]
    exact ⟨fun hn => by rw [if_neg hn], fun hb => by rw [if_pos hb]⟩
  · intro recalled
    split
    · next hslot =>
      have hsame : recalled (remember d ms) = memoryOf (remember d ms) d.ordinal := by rw [memoryOf, ← hslot]
      rw [hsame, memoryOf_remember]
    · next hslot => exact memoryOf_remember_other hslot ms
  · rw [whenEmpty, if_neg (by simpa using hr)]
  · intro ended
    have hended : drainsEnded s = ended := by
      unfold drainsEnded
      simp only [ended]
      split <;> rfl
    rw [whenEmpty_nil hr, hended]
    exact ⟨fun hn => by rw [if_neg hn], fun hd => by rw [if_pos hd]⟩

end Sys2Proof.Machine
end

