-- ==== Sys2Proof/Proofs/SetComposition.lean ====
section
/-! PROOFS. The start of a composition (R97, R100, R125, R126). -/

namespace Sys2Proof.Machine

/-- The start of a composition at a head (R126). -/
theorem startSet_cons {s : State} {r : EpochRec} {rest : List EpochRec} (h : s.ring.recs = r :: rest) : startSet s = { s with
    ring := { s.ring with recs := { r with state := .emitting, stepped := s.ring.stepMark } :: rest, stepMark := false }
    comp := { s.comp with set := some { ordinal := r.ordinal, parts := setParts s r, queued := 0 } } } := by
  rw [startSet, h]

/-- The header of a sealed record's set, with the cause of its seal (R126). -/
theorem setHeader_of_cause {s : State} {r : EpochRec} {cause : SealCause} (h : r.cause = some cause) : setHeader s r =
    { rate := s.table.params.rate, soe := r.ordinal / s.table.params.rate, slot := r.ordinal % s.table.params.rate, cause := cause
      fallback := r.fallback, test := s.power.bench, stepped := s.ring.stepMark, clock := s.tru.state, quality := s.clockQuality
      partIndex := 1, partCount := 1, recordCount := 0 } := by
  rw [setHeader, h]
  rfl

/-- Settles O31: a composition that is due starts, and the parts of its set are those of the head's records. -/
theorem compositionFixesTheSet : Obligations.CompositionFixesTheSet := by
  unfold Obligations.CompositionFixesTheSet
  intro s r rest cause ho hr hs hcause hq hm hroom records groups part
  have hdue : s.composeDue = true := by simp [State.composeDue_eq, hr, hs, hq, hm, hroom]
  have hexec : exec .composeSet s = .next (startSet s) := by
    rw [show exec .composeSet s = .next (whileOperating s (if s.composeDue then startSet s else s)) from rfl, if_pos hdue,
      whileOperating_pos ho]
  have hparts : setParts s r = (groups.zipIdx 1).map part := by
    rw [setParts, setHeader_of_cause hcause]
    rfl
  rw [hexec, startSet_cons hr, hparts]

end Sys2Proof.Machine
end

