-- ==== Sys2Proof/Proofs/Clock.lean ====
section
/-! SUPPORT. Which shared operations keep the Time Reference Unit, the TIME line, the last pulsed ordinal, and the Monitor's remainder and
freeze consistent: all but the application of a commit leave them as they stand (R106, R109, R117, R122, R181, R191, R192). -/

namespace Sys2Proof.Machine

/-! ### What is kept -/

/-- What the invariants of the Time Reference Unit and of the Monitor read of a state. -/
structure Clock where
  tru : Tru
  chars : List Byte
  lastPulsed : Option Nat
  elapsed : Word
  remainder : Nat
  frozen : Bool

def State.clock (s : State) : Clock :=
  ⟨s.tru, s.time.chars, s.strobe.lastPulsed, s.mon.elapsed, s.mon.remainder, s.mon.frozen⟩

/-- The Time Reference Unit's own fields agree with its lock state (R108, R109, R111, R114, R117). -/
structure Tru.Ok (t : Tru) : Prop where
  mapping : t.mapping.isSome = true ↔ t.state ≠ .acquiring
  watchdog : t.watchdog.isSome = true ↔ t.state = .locked
  holdEntry : t.holdEntry.isSome = true ↔ t.state = .holdover
  streak : t.streak ≤ 2
  settled : t.state ≠ .acquiring → t.streak = 0 ∧ t.lastMsg.isSome = true
  mismatch : t.state = .acquiring → t.mismatch = none

/-- All that O54 says of a state. -/
structure State.Timed (s : State) : Prop where
  tru : s.tru.Ok
  unpulsed : s.tru.state = .acquiring → s.strobe.lastPulsed = none
  chars : s.time.chars.length ≤ 13
  monitor : s.MonitorOk

theorem State.timed_iff {s : State} : s.Timed ↔ s.TimeOk ∧ s.MonitorOk := by
  constructor
  · rintro ⟨⟨mapping, watchdog, holdEntry, streak, settled, mismatch⟩, unpulsed, chars, monitor⟩
    exact ⟨⟨mapping, watchdog, holdEntry, streak, settled, fun ha => ⟨mismatch ha, unpulsed ha⟩, chars⟩, monitor⟩
  · rintro ⟨⟨mapping, watchdog, holdEntry, streak, settled, acquiring, chars⟩, monitor⟩
    exact ⟨⟨mapping, watchdog, holdEntry, streak, settled, fun ha => (acquiring ha).1⟩, fun ha => (acquiring ha).2, chars, monitor⟩

/-- A passage that keeps it. -/
def State.KeepsTime (s t : State) : Prop := s.Timed → t.Timed

theorem State.KeepsTime.refl (s : State) : s.KeepsTime s := id

theorem State.KeepsTime.trans {s t u : State} (h : s.KeepsTime t) (h' : t.KeepsTime u) : s.KeepsTime u := h' ∘ h

theorem State.KeepsTime.ite {s t u : State} {c : Prop} [Decidable c] (ht : c → s.KeepsTime t) (hu : ¬ c → s.KeepsTime u) :
    s.KeepsTime (if c then t else u) := by
  split
  · next h => exact ht h
  · next h => exact hu h

/-- A passage that leaves the clock as it stands. -/
theorem State.KeepsTime.of_clock {s t : State} (h : t.clock = s.clock) : s.KeepsTime t := by
  simp only [State.clock, Clock.mk.injEq] at h
  obtain ⟨htru, hchars, hpulsed, helapsed, hremainder, hfrozen⟩ := h
  rintro ⟨tru, unpulsed, chars, ⟨remainder, frozen⟩⟩
  exact ⟨htru ▸ tru, by rwa [htru, hpulsed], hchars ▸ chars, ⟨hremainder ▸ remainder, by rwa [hfrozen, helapsed, hremainder]⟩⟩

/-! ### Updates that leave the clock as it stands -/

@[simp] theorem report_clock (c : Ctr) (s : State) : (report c s).clock = s.clock := by simp [State.clock]

@[simp] theorem recordLatency_clock (w : Nat) (l : Option Nat) (s : State) : (recordLatency w l s).clock = s.clock := by
  simp [State.clock]

@[simp] theorem mapStream_clock (id : Nat) (f : StreamEntry → StreamEntry) (s : State) : (s.mapStream id f).clock = s.clock := rfl

@[simp] theorem grant_clock (s : State) : (grant s).clock = s.clock := by simp [State.clock]

@[simp] theorem joinO_clock (f : EthFrame) (s : State) : (joinO f s).clock = s.clock := by simp [State.clock]

@[simp] theorem reply_clock (re : ReplyTo) (st : Status) (bs : List Byte) (s : State) : (reply re st bs s).clock = s.clock := by
  simp [State.clock]

@[simp] theorem straggler_clock (r since : Nat) (o : Offer) (b : List Byte) (s : State) : (straggler r since o b s).clock = s.clock := by
  unfold straggler joinL
  split
  · exact grant_clock _
  · exact report_clock _ s

@[simp] theorem strobePulse_clock (s : State) : (strobePulse s).clock = s.clock := by simp [State.clock]

@[simp] theorem strobeFrom_clock (src : StrobeSource) (s : State) : (strobeFrom src s).clock = s.clock := by simp [State.clock]

@[simp] theorem sealWhere_clock (c : SealCause) (p : EpochRec → Bool) (s : State) : (sealWhere c p s).clock = s.clock := by
  simp [State.clock, sealWhere]

@[simp] theorem recountAll_clock (s : State) : (recountAll s).clock = s.clock := sealWhere_clock _ _ _

@[simp] theorem commitReply_clock (s : State) : (commitReply s).clock = s.clock := by simp [State.clock]

@[simp] theorem commitQuiesce_clock (p : Params) (s : State) : (commitQuiesce p s).clock = s.clock := by simp [State.clock]

@[simp] theorem commitGrid_clock (p : Params) (s : State) : (commitGrid p s).clock = s.clock := by simp [State.clock]

@[simp] theorem reportDeparture_clock (emitted : Bool) (s : State) : (reportDeparture emitted s).clock = s.clock := by
  unfold reportDeparture
  split <;> exact report_clock _ _

theorem departed_clock (emitted : Bool) (r : EpochRec) (rest : List EpochRec) (s : State) :
    (departed emitted r rest s).clock = s.clock :=
  (strobeFrom_clock _ _).trans (reportDeparture_clock emitted (leaveRing r rest s))

/-! ### Changes of the clock (R105, R111 to R117, R122) -/

/-- Characters of the message in progress, 13 at most (R105). -/
theorem setTime_keepsTime {l : TimeLine} (h : l.chars.length ≤ 13) (s : State) : s.KeepsTime { s with time := l } :=
  fun hs => ⟨hs.tru, hs.unpulsed, h, hs.monitor.remainder, hs.monitor.frozen⟩

/-- An ordinal is pulsed while a mapping exists (R122). -/
theorem setPulsed_keepsTime {s : State} {e : Option Nat} (h : s.Timed → s.tru.state = .acquiring → e = none) :
    s.KeepsTime { s with strobe := { s.strobe with lastPulsed := e } } :=
  fun hs => ⟨hs.tru, h hs, hs.chars, hs.monitor.remainder, hs.monitor.frozen⟩

theorem forgetPulse_keepsTime (s : State) : s.KeepsTime (forgetPulse s) := setPulsed_keepsTime fun _ _ => rfl

/-- A change of the Time Reference Unit that does not pass it to ACQUIRING. -/
theorem setTru_keepsTime {s : State} {t : Tru} (ha : t.state = .acquiring → s.tru.state = .acquiring) (h : s.tru.Ok → t.Ok) :
    s.KeepsTime { s with tru := t } :=
  fun hs => ⟨h hs.tru, fun hn => hs.unpulsed (ha hn), hs.chars, hs.monitor.remainder, hs.monitor.frozen⟩

theorem State.holdover_of_over {s : State} (h : s.holdoverOver = true) : s.tru.state = .holdover := by
  simp only [State.holdoverOver, Bool.and_eq_true, beq_iff_eq] at h
  exact h.1

/-- The passage from HOLDOVER to ACQUIRING leaves no ordinal pulsed (R117, R122). -/
theorem dropMapping_keepsTime {s : State} (h : s.holdoverOver = true) : s.KeepsTime (dropMapping s) := by
  intro hs
  have hnone : s.tru.watchdog = none := by simpa [State.holdover_of_over h] using hs.tru.watchdog
  refine ⟨⟨?_, ?_, ?_, ?_, ?_, ?_⟩, fun _ => rfl, hs.chars, hs.monitor.remainder, hs.monitor.frozen⟩ <;>
    simp [dropMapping, forgetPulse, hnone]

/-! ### The application of a commit (R181) -/

/-- A commit reaches the clock where it changes the TIME line's setting, the holdover limit, or the pulses' source or grid (R106, R117,
R122). -/
theorem applyCommit_keepsTime (s : State) : s.KeepsTime (applyCommit s) := by
  have line (p : Params) (u : State) : u.KeepsTime (commitTimeLine p u) :=
    .ite (fun _ => .refl u) fun _ => setTime_keepsTime (Nat.zero_le _) u
  have limit (p : Params) (u : State) : u.KeepsTime (commitHoldover p u) :=
    .ite (fun h => dropMapping_keepsTime (Bool.and_eq_true_iff.1 h).2) fun _ => .refl u
  have pulses (p : Params) (u : State) : u.KeepsTime (commitStrobe p u) :=
    .ite (fun _ => .refl u) fun _ => forgetPulse_keepsTime u
  have tables : s.KeepsTime (commitTables s) := .of_clock rfl
  have grid (p : Params) (u : State) : u.KeepsTime (commitGrid p u) := .of_clock (commitGrid_clock p u)
  have rest (p : Params) (u : State) : u.KeepsTime (commitReply (recountAll (commitQuiesce p u))) := .of_clock (by simp)
  exact tables.trans ((grid _ _).trans ((line _ _).trans ((limit _ _).trans ((pulses _ _).trans (rest _ _)))))

/-! ### Departure, settling and flushes (R95, R98, R100, R101, R125) -/

theorem whenEmpty_keepsTime (s : State) : s.KeepsTime (whenEmpty s) := by
  have commits (u : State) : u.KeepsTime (if u.ctl.commit = .pendingDrain then applyCommit u else u) :=
    .ite (fun _ => applyCommit_keepsTime u) fun _ => .refl u
  have drained (b : Bool) : s.KeepsTime (if b then endStepDrain s else s) := .ite (fun _ => .of_clock rfl) fun _ => .refl s
  have ended (u : State) : u.KeepsTime { u with ring := { u.ring with commitDrain := false } } := .of_clock rfl
  exact .ite (fun _ => (drained _).trans ((ended _).trans (commits _))) fun _ => .refl s

theorem commitAtBoundary_keepsTime (s : State) : s.KeepsTime (commitAtBoundary s) :=
  .ite (fun _ => applyCommit_keepsTime s) fun _ => .refl s

theorem depart_keepsTime (emitted : Bool) (s : State) : s.KeepsTime (depart emitted s) := by
  cases hr : s.ring.recs with
  | nil =>
    rw [depart, hr]
    exact .refl s
  | cons r rest =>
    rw [depart_cons hr]
    exact (State.KeepsTime.of_clock (departed_clock _ _ _ s)).trans ((commitAtBoundary_keepsTime _).trans (whenEmpty_keepsTime _))

theorem settle_keepsTime (s : State) : s.KeepsTime (settle s) := by
  unfold settle
  generalize s.ring.recs.length = n
  induction n generalizing s with
  | zero => exact .refl s
  | succ n ih => exact .ite (fun _ => (depart_keepsTime false s).trans (ih _)) fun _ => .refl s

/-- Every OPEN record sealed, a drain begun, the head considered, and the empty ring (R100, R101). -/
theorem flushed_keepsTime {c : SealCause} {s : State} {r : Ring} :
    s.KeepsTime (whenEmpty (settle { sealWhere c (fun _ => true) s with ring := r })) :=
  (State.KeepsTime.of_clock (t := { sealWhere c (fun _ => true) s with ring := r }) (sealWhere_clock c (fun _ => true) s)).trans
    ((settle_keepsTime _).trans (whenEmpty_keepsTime _))

theorem flushStep_keepsTime (s : State) : s.KeepsTime (flushStep s) := flushed_keepsTime

theorem flushCommit_keepsTime (s : State) : s.KeepsTime (flushCommit s) := flushed_keepsTime

/-! ### Streams (R37 to R44) -/

theorem changeStream_keepsTime (id : Nat) (f : StreamEntry → StreamEntry) (s : State) : s.KeepsTime (changeStream id f s) := by
  unfold changeStream
  split
  · exact .refl s
  · have mapped : s.KeepsTime (s.mapStream id f) := .of_clock rfl
    have reevaluated (u : State) : u.KeepsTime (reevaluate u) :=
      (State.KeepsTime.of_clock (recountAll_clock u)).trans (settle_keepsTime _)
    exact mapped.trans (.ite (fun _ => reevaluated _) fun _ => .refl _)

theorem timeReport_keepsTime (id : Nat) (bad : Bool) (s : State) : s.KeepsTime (timeReport id bad s) := changeStream_keepsTime _ _ s

theorem finishIsolating_keepsTime (id : Nat) (s : State) : s.KeepsTime (finishIsolating id s) := by
  unfold finishIsolating
  split
  · exact .refl s
  · exact .ite (fun _ => changeStream_keepsTime _ _ s) fun _ => .refl s

/-! ### Placement (R27 to R29, R79) -/

theorem ringEffect_clock (a : Answer) (o : Offer) (s : State) : (ringEffect a o s).clock = s.clock := by
  unfold ringEffect
  split
  · unfold accept
    dsimp only
    split
    · exact report_clock _ _
    · rfl
  · exact sealWhere_clock _ _ s
  · rfl
  · rfl

theorem countAnswer_clock (a : Answer) (o : Offer) (s : State) : (countAnswer a o s).clock = s.clock := by
  unfold countAnswer
  dsimp only
  split
  · exact report_clock _ _
  · split
    · exact recordLatency_clock _ _ _
    · rfl

theorem handOff_clock (a : Answer) (o : Offer) (s : State) : (handOff a o s).clock = s.clock := by
  unfold handOff
  split
  · exact straggler_clock _ _ _ _ s
  · exact straggler_clock _ _ _ _ s
  · rfl

theorem placeHeld_keepsTime (o : Offer) (s : State) : s.KeepsTime (placeHeld o s) := by
  have answered (a : Answer) (o' : Offer) : s.KeepsTime (handOff a o (countAnswer a o (ringEffect a o' s))) :=
    .of_clock ((handOff_clock _ _ _).trans ((countAnswer_clock _ _ _).trans (ringEffect_clock _ _ s)))
  have reported (a : Answer) (u : State) : u.KeepsTime (reportTime a o u) := .ite (fun _ => timeReport_keepsTime _ _ u) fun _ => .refl u
  exact (answered _ _).trans ((settle_keepsTime _).trans ((finishIsolating_keepsTime _ _).trans (reported _ _)))

theorem placeNext_keepsTime (p : Port) (s : State) : s.KeepsTime (placeNext p s) := by
  have taken (a : Admission) : s.KeepsTime { s with adm := a } := .of_clock rfl
  unfold placeNext
  split
  · exact .refl s
  · exact (taken _).trans (.ite (fun _ => .of_clock (report_clock _ _)) fun _ => placeHeld_keepsTime _ _)

theorem placeAll_keepsTime (p : Port) (n : Nat) (s : State) : s.KeepsTime (placeAll p n s) := by
  induction n generalizing s with
  | zero => exact .refl s
  | succ n ih => exact .ite (fun _ => (placeNext_keepsTime p s).trans (ih _)) fun _ => .refl s

/-! ### Admission (R18 to R26, R160 to R163, R171, R172) -/

theorem snapAndBuild_keepsTime (m : Measurement) (a : ActiveSet) (c : StreamCfg) (s : State) : s.KeepsTime (snapAndBuild m a c s) := by
  have refused (u : State) : u.KeepsTime (refusedReport m c u) := .ite (fun _ => timeReport_keepsTime _ _ u) fun _ => .refl u
  unfold snapAndBuild
  split
  · exact (State.KeepsTime.of_clock (report_clock _ s)).trans (refused _)
  · exact (State.KeepsTime.of_clock ((report_clock _ _).trans (mapStream_clock _ _ s))).trans (refused _)
  · exact .of_clock rfl

theorem admitOne_keepsTime (m : Measurement) (s : State) : s.KeepsTime (admitOne m s) := by
  have alive : s.KeepsTime (if m.life then lifeFrame m.id s else s) := .ite (fun _ => changeStream_keepsTime _ _ s) fun _ => .refl s
  unfold admitOne
  split
  · exact .of_clock (report_clock _ s)
  · exact .ite (fun _ => .of_clock (report_clock _ s)) fun _ => .ite (fun _ => .of_clock (report_clock _ _)) fun _ =>
      alive.trans (snapAndBuild_keepsTime _ _ _ _)

theorem ingestNext_keepsTime (s : State) : s.KeepsTime (ingestNext s) := by
  have ingested (f : IngestFrame) (r : WireRecord) (u : State) : u.KeepsTime (ingestRecord f r u) :=
    .ite (fun _ => .refl u) fun _ => .ite (fun _ => .of_clock (report_clock _ u)) fun _ => admitOne_keepsTime _ u
  have taken (a : Admission) (u : State) : u.KeepsTime { u with adm := a } := .of_clock rfl
  unfold ingestNext
  split
  · exact .refl s
  · next f fs _ =>
    refine (placeAll_keepsTime f.port s.adm.offers.length s).trans ?_
    dsimp only
    split
    · exact taken _ _
    · exact (taken _ _).trans (ingested _ _ _)
    · exact (taken _ _).trans (ingested _ _ _)

theorem catchUpBy_keepsTime (p : Port) (n : Nat) (s : State) : s.KeepsTime (catchUpBy p n s) := by
  induction n generalizing s with
  | zero => exact .refl s
  | succ n ih =>
    have step : s.KeepsTime (catchUpStep p s) := .ite (fun _ => placeNext_keepsTime p s) fun _ => ingestNext_keepsTime s
    exact .ite (fun _ => step.trans (ih _)) fun _ => .refl s

theorem dispatch_keepsTime (p : Port) (arrival : Nat) (payload : List Byte) (s : State) : s.KeepsTime (dispatch p arrival payload s) := by
  have counted (c : Ctr) : s.KeepsTime (report c s) := .of_clock (report_clock c s)
  unfold dispatch
  refine .ite (fun _ => ?_) fun _ => .ite (fun _ => ?_) fun _ => .ite (fun _ => ?_) fun _ => counted _
  · split
    · exact counted _
    · exact admitOne_keepsTime _ s
  · split
    · exact counted _
    · exact .ite (fun _ => counted _) fun _ => .ite (fun _ => .refl s) fun _ => .of_clock rfl
  · exact .ite (fun _ => counted _) fun _ => .ite (fun _ => counted _) fun _ => .ite (fun _ => .of_clock rfl) fun _ => counted _

theorem frameIn_keepsTime (p : Port) (payload : List Byte) (s : State) : s.KeepsTime (frameIn p payload s) := by
  have counted (c : Ctr) (u : State) : u.KeepsTime (report c u) := .of_clock (report_clock c u)
  unfold frameIn
  dsimp only
  split
  · exact (counted _ s).trans (counted _ _)
  · exact (counted _ s).trans (counted _ _)
  · exact (counted _ s).trans ((catchUpBy_keepsTime p _ _).trans (dispatch_keepsTime _ _ _ _))

end Sys2Proof.Machine
end

