-- ==== Sys2Proof/Proofs/ClockSteps.lean ====
section
/-! PROOFS. Every step keeps the Time Reference Unit consistent with its lock state, and the Monitor's remainder and freeze (R108, R109,
R111, R114, R117, R122, R191, R192). -/

namespace Sys2Proof.Machine

/-! ### The shared form of the commands (R173) -/

theorem reply_keepsTime (re : ReplyTo) (st : Status) (bs : List Byte) (s : State) : s.KeepsTime (reply re st bs s) :=
  .of_clock (reply_clock re st bs s)

theorem checked_keepsTime {f : CtrlFrame} {l e : Bool} {act : State → State} {s : State} (h : s.KeepsTime (act s)) :
    s.KeepsTime (checked f l e act s) :=
  .ite (fun _ => reply_keepsTime _ _ _ s) fun _ => .ite (fun _ => reply_keepsTime _ _ _ s) fun _ => h

theorem whenNoCommit_keepsTime {f : CtrlFrame} {act : State → State} {s : State} (h : s.KeepsTime (act s)) :
    s.KeepsTime (whenNoCommit f act s) := .ite (fun _ => h) fun _ => reply_keepsTime _ _ _ s

theorem executeIf_keepsTime {p : Nat → Bool} {act : CtrlFrame → State → State} (h : ∀ f u, State.KeepsTime u (act f u)) (s : State) :
    s.KeepsTime (executeIf p act s) := by
  unfold executeIf
  split
  · exact .refl s
  · next f q _ =>
    have popped : s.KeepsTime (s.popped q) := .of_clock rfl
    exact .ite (fun _ => popped.trans (h _ _)) fun _ => .refl s

theorem execute_keepsTime {act : CtrlFrame → State → State} (h : ∀ f u, State.KeepsTime u (act f u)) (code : Nat) (s : State) :
    s.KeepsTime (execute code act s) := .ite (fun _ => executeIf_keepsTime h s) fun _ => .refl s

/-! ### Staging and COMMIT (R175 to R179) -/

theorem stageReply_keepsTime (g : StagedSet) (re : ReplyTo) (st : Status) (bs : List Byte) (s : State) :
    s.KeepsTime (reply re st bs (s.stage g)) := .of_clock (reply_clock re st bs (s.stage g))

theorem stageStreamAct_keepsTime (f : CtrlFrame) (s : State) : s.KeepsTime (stageStreamAct f s) := by
  refine checked_keepsTime (whenNoCommit_keepsTime (.ite (fun _ => ?_) fun _ => reply_keepsTime _ _ _ s))
  split
  · exact stageReply_keepsTime _ _ _ _ s
  · exact reply_keepsTime _ _ _ s

theorem unstageStreamAct_keepsTime (f : CtrlFrame) (s : State) : s.KeepsTime (unstageStreamAct f s) := by
  refine checked_keepsTime (whenNoCommit_keepsTime ?_)
  split
  · exact stageReply_keepsTime _ _ _ _ s
  · exact reply_keepsTime _ _ _ s

theorem stageRangeAct_keepsTime (f : CtrlFrame) (s : State) : s.KeepsTime (stageRangeAct f s) := by
  refine checked_keepsTime (whenNoCommit_keepsTime ?_)
  dsimp only
  split
  · exact .ite (fun _ => stageReply_keepsTime _ _ _ _ s) fun _ => reply_keepsTime _ _ _ s
  · exact reply_keepsTime _ _ _ s

theorem stageParamsAct_keepsTime (f : CtrlFrame) (s : State) : s.KeepsTime (stageParamsAct f s) := by
  unfold stageParamsAct
  split
  · exact checked_keepsTime (.refl s)
  · exact checked_keepsTime (whenNoCommit_keepsTime (.ite (fun _ => stageReply_keepsTime _ _ _ _ s) fun _ => reply_keepsTime _ _ _ s))

theorem discardStageAct_keepsTime (f : CtrlFrame) (s : State) : s.KeepsTime (discardStageAct f s) :=
  checked_keepsTime (whenNoCommit_keepsTime (stageReply_keepsTime _ _ _ _ s))

theorem commitAct_keepsTime (f : CtrlFrame) (s : State) : s.KeepsTime (commitAct f s) := by
  have waits (c : CommitState) (re : Option ReplyTo) : s.KeepsTime { s with ctl := { s.ctl with commit := c, commitFor := re } } :=
    .of_clock rfl
  have placed : s.KeepsTime (placeCommit f.re s) :=
    .ite (fun _ => (waits _ _).trans (applyCommit_keepsTime _)) fun _ =>
      .ite (fun _ => (waits _ _).trans (flushCommit_keepsTime _)) fun _ => waits _ _
  exact checked_keepsTime (.ite (fun _ => reply_keepsTime _ _ _ s) fun _ => .ite (fun _ => reply_keepsTime _ _ _ s) fun _ => placed)

/-! ### Short commands and reads (R39, R40, R133, R137, R138, R143, R185, R186) -/

theorem isolateAct_keepsTime (f : CtrlFrame) (s : State) : s.KeepsTime (isolateAct f s) := by
  have isolated (id : Nat) : s.KeepsTime (isolateStream id s) := by
    unfold isolateStream
    split
    · exact .refl s
    · exact .ite (fun _ => .refl s) fun _ => .ite (fun _ => .of_clock rfl) fun _ => changeStream_keepsTime _ _ s
  exact checked_keepsTime (.ite (fun _ => (isolated _).trans (reply_keepsTime _ _ _ _)) fun _ => reply_keepsTime _ _ _ s)

theorem restoreAct_keepsTime (f : CtrlFrame) (s : State) : s.KeepsTime (restoreAct f s) :=
  checked_keepsTime (.ite (fun _ => (changeStream_keepsTime _ _ s).trans (reply_keepsTime _ _ _ _)) fun _ => reply_keepsTime _ _ _ s)

theorem setOverrides_clock (es : List OverrideEntry) (s : State) : (setOverrides es s).clock = s.clock := by
  unfold setOverrides
  dsimp only
  split <;> rfl

theorem setOverrideAct_keepsTime (f : CtrlFrame) (s : State) : s.KeepsTime (setOverrideAct f s) := by
  unfold setOverrideAct
  dsimp only
  split
  · exact checked_keepsTime (.refl s)
  · refine checked_keepsTime ?_
    split
    · exact reply_keepsTime _ _ _ s
    · exact .of_clock ((reply_clock _ _ _ _).trans (setOverrides_clock _ s))

theorem clearOverrideAct_keepsTime (f : CtrlFrame) (s : State) : s.KeepsTime (clearOverrideAct f s) :=
  checked_keepsTime (.ite (fun _ => .of_clock ((reply_clock _ _ _ _).trans (setOverrides_clock _ s))) fun _ => reply_keepsTime _ _ _ s)

/-- A change of the Composer after which the head is considered (R133, R143). -/
theorem settleComp_keepsTime (c : Composer) (s : State) : s.KeepsTime (settle { s with comp := c }) := by
  have set : s.KeepsTime { s with comp := c } := .of_clock rfl
  exact set.trans (settle_keepsTime _)

theorem setEmissionAct_keepsTime (f : CtrlFrame) (s : State) : s.KeepsTime (setEmissionAct f s) := by
  unfold setEmissionAct
  split
  · exact checked_keepsTime (.refl s)
  · exact checked_keepsTime ((settleComp_keepsTime _ s).trans (reply_keepsTime _ _ _ _))

theorem clearQuiesceAct_keepsTime (f : CtrlFrame) (s : State) : s.KeepsTime (clearQuiesceAct f s) :=
  checked_keepsTime (.ite (fun _ => reply_keepsTime _ _ _ s) fun _ => (settleComp_keepsTime _ s).trans (reply_keepsTime _ _ _ _))

theorem readStatusAct_keepsTime (f : CtrlFrame) (s : State) : s.KeepsTime (readStatusAct f s) := checked_keepsTime (reply_keepsTime _ _ _ s)

theorem readRangesAct_keepsTime (f : CtrlFrame) (s : State) : s.KeepsTime (readRangesAct f s) := checked_keepsTime (reply_keepsTime _ _ _ s)

theorem readStreamAct_keepsTime (f : CtrlFrame) (s : State) : s.KeepsTime (readStreamAct f s) := by
  refine checked_keepsTime ?_
  split
  · exact reply_keepsTime _ _ _ s
  · exact State.KeepsTime.trans (.ite (fun _ => .of_clock (mapStream_clock _ _ s)) fun _ => .refl s) (reply_keepsTime _ _ _ _)

theorem readOverridesAct_keepsTime (f : CtrlFrame) (s : State) : s.KeepsTime (readOverridesAct f s) := by
  have drawn : s.KeepsTime { s with free := s.free + s.comp.overrides.length } := .of_clock rfl
  exact checked_keepsTime (drawn.trans (reply_keepsTime _ _ _ _))

/-! ### The Profile Store and RESTART (R188, R199) -/

theorem saveProfileAct_keepsTime (f : CtrlFrame) (s : State) : s.KeepsTime (saveProfileAct f s) :=
  checked_keepsTime (.ite (fun _ => reply_keepsTime _ _ _ s) fun _ => .of_clock rfl)

theorem writeComplete_keepsTime (damage : List (Nat × Byte)) (s : State) : s.KeepsTime (writeComplete damage s) := by
  have ended (bs : List Byte) : s.KeepsTime (endWrite bs s) := .of_clock rfl
  unfold writeComplete
  split
  · exact .refl s
  · dsimp only
    split
    · exact (ended _).trans (reply_keepsTime _ _ _ _)
    · exact ended _

theorem restartAct_keepsTime (f : CtrlFrame) (s : State) : s.KeepsTime (restartAct f s) := by
  have committed : s.KeepsTime (restartCommit s) := .ite (fun _ => (applyCommit_keepsTime s).trans (settle_keepsTime _)) fun _ => .refl s
  have discarded (u : State) : u.KeepsTime (restartRing u) :=
    State.KeepsTime.trans (.of_clock (t := ringDiscarded u) (by simp [ringDiscarded, State.clock])) (whenEmpty_keepsTime _)
  have queues (u : State) : u.KeepsTime (restartStreams (restartQueues u)) := .of_clock rfl
  exact checked_keepsTime (committed.trans ((discarded _).trans ((queues _).trans (reply_keepsTime _ _ _ _))))

/-! ### The Monitor (R190 to R192, R195) -/

/-- A change of the Monitor alone that keeps it consistent. -/
theorem setMon_keepsTime {m : Monitor} {s : State} (h : s.MonitorOk → State.MonitorOk { s with mon := m }) :
    s.KeepsTime { s with mon := m } :=
  fun hs => ⟨hs.tru, hs.unpulsed, hs.chars, h hs.monitor⟩

theorem snapshotAct_keepsTime (f : CtrlFrame) (s : State) : s.KeepsTime (snapshotAct f s) := by
  have cleared : s.KeepsTime { s with mon := s.mon.cleared } := setMon_keepsTime fun _ => ⟨Nat.zero_lt_succ _, fun h => by cases h⟩
  exact checked_keepsTime (cleared.trans (reply_keepsTime _ _ _ _))

theorem setCondition_keepsTime (hold : Bool) (f : CtrlFrame) (s : State) : s.KeepsTime (setCondition hold f s) := by
  have set : s.KeepsTime { s with mon := { s.mon with hold := hold } } := .of_clock rfl
  exact checked_keepsTime (set.trans (reply_keepsTime _ _ _ _))

/-- A Monitor whose ELAPSED stands at its largest value freezes with remainder 0 (R192). -/
theorem freeze_keepsTime {s : State} (h : s.mon.freezeDue = true) :
    s.KeepsTime { s with mon := { s.mon with frozen := true, remainder := 0 } } := by
  have top : s.mon.elapsed = Word.top := by
    simp only [Monitor.freezeDue, Bool.and_eq_true, beq_iff_eq] at h
    exact h.1
  exact setMon_keepsTime fun _ => ⟨Nat.zero_lt_succ _, fun _ => ⟨top, rfl⟩⟩

/-- One tick moves ELAPSED at each thousandth, and nothing while a freeze stands (R191, R192). -/
theorem advance_keepsTime (s : State) : s.KeepsTime { s with tick := s.tick + 1, mon := s.mon.advance } := by
  have ticked : s.KeepsTime { s with tick := s.tick + 1 } := .of_clock rfl
  refine ticked.trans (setMon_keepsTime (s := { s with tick := s.tick + 1 }) fun h => ?_)
  obtain ⟨remainder, frozen⟩ := h
  simp only at remainder frozen
  unfold Monitor.advance
  split
  · next hc =>
    have running : s.mon.frozen = false := by
      simp only [Monitor.counting, Bool.and_eq_true, Bool.not_eq_true'] at hc
      exact hc.1.2
    split
    · exact ⟨Nat.zero_lt_succ _, fun hf => absurd (running.symm.trans hf) (by decide)⟩
    · next hlt => exact ⟨Nat.lt_of_not_le hlt, fun hf => absurd (running.symm.trans hf) (by decide)⟩
  · exact ⟨remainder, frozen⟩

/-! ### The TIME line (R104 to R106) -/

theorem setChars_keepsTime {cs : List Byte} (h : cs.length ≤ 13) (s : State) : s.KeepsTime (setChars cs s) := setTime_keepsTime h s

/-- The fourteenth character completes a message, so that no more than 13 are in progress (R105). -/
theorem deliver_keepsTime (b : Byte) (s : State) : s.KeepsTime (deliver b s) := by
  have framing {cs : List Byte} (h : cs.length ≤ 13) : s.KeepsTime (report .timeFraming (setChars cs s)) :=
    (setChars_keepsTime h s).trans (.of_clock (report_clock _ _))
  have buffered (m : TimeMsg) : s.KeepsTime (bufferMessage m s) :=
    State.KeepsTime.trans (.ite (fun _ => .of_clock (report_clock _ s)) fun _ => .refl s) (setTime_keepsTime (Nat.zero_le _) _)
  have completed (cs : List Byte) : s.KeepsTime (completeMessage cs s) :=
    .ite (fun _ => framing (Nat.zero_le _)) fun _ => buffered _
  have grown (h : ¬ s.time.chars.length + 1 = 14) : s.KeepsTime (setChars (s.time.chars ++ [b]) s) := fun hs =>
    setChars_keepsTime (by have := hs.chars; simp only [List.length_append, List.length_singleton]; omega) s hs
  have one : [b].length ≤ 13 := Nat.succ_le_succ (Nat.zero_le _)
  exact .ite (fun _ => .ite (fun _ => setChars_keepsTime one s) fun _ => .refl s) fun _ => .ite (fun _ => framing one) fun _ =>
    .ite (fun _ => .ite (fun _ => completed _) grown) fun _ => framing (Nat.zero_le _)

theorem receiveChar_keepsTime (c : TimeChar) (s : State) : s.KeepsTime (receiveChar c s) := by
  have line (w : Bool) : s.KeepsTime { s with time := { s.time with waitHigh := w } } := .of_clock rfl
  have faulty (c : Ctr) (u : State) (w : Bool) : u.KeepsTime (report c { u with time := { u.time with chars := [], waitHigh := w } }) :=
    (setTime_keepsTime (Nat.zero_le _) u).trans (.of_clock (report_clock _ _))
  exact .ite (fun _ => faulty _ s _) fun _ => .ite (fun _ => (line _).trans (deliver_keepsTime _ _)) fun _ => faulty _ s _

/-! ### PPS edges (R107 to R116) -/

theorem edgeTaken_clock (regular irregular : Bool) (s : State) : (edgeTaken regular irregular s).clock = s.clock := by
  simp only [edgeTaken]
  split_ifs <;> simp [State.clock]

theorem Tru.lock_ok {msg : Option MsgQuality} (h : msg.isSome = true) (t : Tru) (label now : Nat) : (t.lock label now msg).Ok := by
  constructor <;> simp [Tru.lock, h]

/-- The unit LOCKED with a message applied (R111, R115, R116). -/
theorem lock_keepsTime (s : State) (label now : Nat) (q : MsgQuality) :
    s.KeepsTime { s with tru := s.tru.lock label now (some q) } :=
  setTru_keepsTime (fun hn => by cases hn) fun _ => Tru.lock_ok rfl _ _ _

/-- A jump of reference now pulses while a mapping exists (R122). -/
theorem epochJump_keepsTime (was : Option Nat) {s : State} (h : s.tru.state ≠ .acquiring) : s.KeepsTime (epochJump was s) := by
  unfold epochJump
  split
  · exact .ite (fun _ => (setPulsed_keepsTime fun _ ha => absurd ha h).trans (.of_clock (strobePulse_clock _))) fun _ => .refl s
  · exact .refl s

/-- A change of the mapping after which reference now may have jumped (R112, R116, R122). -/
theorem jumped_keepsTime {s : State} {t : Tru} (was : Option Nat) (hn : t.state ≠ .acquiring) (h : s.tru.Ok → t.Ok) :
    s.KeepsTime (epochJump was { s with tru := t }) :=
  (setTru_keepsTime (fun ha => absurd ha hn) h).trans (epochJump_keepsTime was hn)

theorem referenceStep_keepsTime (m : TimeMsg) (s : State) : s.KeepsTime (referenceStep m s) :=
  (lock_keepsTime s _ _ _).trans ((forgetPulse_keepsTime _).trans
    ((State.KeepsTime.of_clock (report_clock _ _)).trans (flushStep_keepsTime _)))

/-- The streak stays below 3, which locks (R111). -/
theorem edgeAcquiring_keepsTime (c : EdgeClass) (m : Option TimeMsg) {s : State} (h : s.tru.state = .acquiring) :
    s.KeepsTime (edgeAcquiring c m s) := by
  have streaked (n label : Nat) (hn : s.tru.Ok → n ≤ 2) :
      s.KeepsTime { s with tru := { s.tru with edgeRef := some s.tick, streak := n, streakLabel := label } } :=
    setTru_keepsTime id fun ht => ⟨ht.mapping, ht.watchdog, ht.holdEntry, hn ht, fun hn => absurd h hn, ht.mismatch⟩
  unfold edgeAcquiring
  split
  · exact streaked _ _ fun _ => Nat.zero_le _
  · refine .ite (fun _ => (lock_keepsTime s _ _ _).trans (forgetPulse_keepsTime _)) fun hne => streaked _ _ fun ht => ?_
    have hstreak := ht.streak
    unfold Tru.nextStreak at hne ⊢
    split_ifs at hne ⊢ <;> omega

/-- The renewed unit is LOCKED as before (R112, R113). -/
theorem renew_keepsTime {s : State} {msg : Option MsgQuality} (hl : s.tru.state = .locked) (h : s.tru.Ok → msg.isSome = true)
    (label : Nat) (mismatch : Option Nat) : s.KeepsTime (renew label mismatch msg s) := by
  refine jumped_keepsTime _ (by simp [hl]) fun ht => ?_
  exact ⟨by simp [hl], by simp [hl], ht.holdEntry, ht.streak, fun hn => ⟨(ht.settled hn).1, h ht⟩, fun ha => by simp [hl] at ha⟩

theorem edgeByState_keepsTime (c : EdgeClass) (m : Option TimeMsg) (s : State) : s.KeepsTime (edgeByState c m s) := by
  have applied (hn : s.tru.state ≠ .acquiring) (ht : s.tru.Ok) : s.tru.lastMsg.isSome = true := (ht.settled hn).2
  unfold edgeByState
  split
  · next hstate => exact edgeAcquiring_keepsTime c m hstate
  · next mp hl _ =>
    have last := applied (by rw [hl]; decide)
    refine .ite (fun _ => ?_) fun _ => .refl s
    unfold regularLocked
    dsimp only
    split
    · exact renew_keepsTime hl last _ _
    · exact .ite (fun _ => renew_keepsTime hl (fun _ => rfl) _ _) fun _ => .ite (fun _ => referenceStep_keepsTime _ s) fun _ =>
        renew_keepsTime hl last _ _
  · next mp hh _ =>
    have last := applied (by rw [hh]; decide)
    have returned {msg : Option MsgQuality} (h : s.tru.Ok → msg.isSome = true) (label : Nat) :
        s.KeepsTime (holdoverReturn label msg s) := jumped_keepsTime _ (by simp [Tru.lock]) fun ht => Tru.lock_ok (h ht) _ _ _
    have noted (mismatch : Option Nat) :
        s.KeepsTime { s with tru := { s.tru with edgeRef := some s.tick, mismatch := mismatch } } :=
      setTru_keepsTime id fun ht => ⟨ht.mapping, ht.watchdog, ht.holdEntry, ht.streak, ht.settled, fun ha => by simp [hh] at ha⟩
    refine .ite (fun _ => ?_) fun _ => noted _
    unfold regularHoldover
    dsimp only
    split
    · exact returned last _
    · exact .ite (fun _ => returned (fun _ => rfl) _) fun _ => .ite (fun _ => referenceStep_keepsTime _ s) fun _ => noted _
  · exact .refl s

theorem ppsEdge_keepsTime (s : State) : s.KeepsTime (ppsEdge s) := by
  rw [ppsEdge_eq]
  exact (State.KeepsTime.of_clock (edgeTaken_clock _ _ s)).trans (edgeByState_keepsTime _ _ _)

/-! ### Watchdog and pulses (R114, R117, R122) -/

theorem enterHoldover_keepsTime {s : State} (h : s.watchdogDue = true) : s.KeepsTime (enterHoldover s) := by
  have hl : s.tru.state = .locked := by
    simp only [State.watchdogDue, Bool.and_eq_true, beq_iff_eq] at h
    exact h.1
  have entered : s.KeepsTime { s with
      tru := { s.tru with state := .holdover, watchdog := none, holdEntry := some s.tick, mismatch := none } } :=
    setTru_keepsTime (fun ha => by cases ha) fun ht => ⟨by simpa [hl] using ht.mapping, by simp, by simp, ht.streak,
      fun _ => ht.settled (by rw [hl]; decide), fun ha => by cases ha⟩
  exact .ite (fun h => entered.trans (dropMapping_keepsTime h)) fun _ => entered

/-- An EPOCH pulse falls due only while a mapping exists (R122). -/
theorem epochPulse_keepsTime (s : State) : s.KeepsTime (epochPulse s) := by
  unfold epochPulse
  split
  · exact .refl s
  · next e hdue =>
    refine (setPulsed_keepsTime fun hs ha => ?_).trans (.of_clock (strobePulse_clock _))
    have hnone : s.tru.mapping = none := by simpa [ha] using hs.tru.mapping
    simp [State.epochDue, State.refNow, hnone] at hdue

/-! ### Timers, sets, transmissions, QUIESCE (R38, R93, R126, R132, R140, R151) -/

theorem silenceExpiry_keepsTime (idx : Nat) (s : State) : s.KeepsTime (silenceExpiry idx s) := by
  unfold silenceExpiry
  split
  · exact .refl s
  · exact .ite (fun _ => changeStream_keepsTime _ _ s) fun _ => .refl s

theorem expireDeadline_keepsTime (ordinal : Nat) (s : State) : s.KeepsTime (expireDeadline ordinal s) := by
  have sealed (c : SealCause) (p : EpochRec → Bool) : s.KeepsTime (sealWhere c p (recountAt ordinal s)) :=
    .of_clock (sealWhere_clock c p (recountAt ordinal s))
  unfold expireDeadline
  dsimp only
  split
  · exact .refl s
  · exact .ite (fun _ => (sealed _ _).trans (settle_keepsTime _)) fun _ => .refl s

theorem startSet_clock (s : State) : (startSet s).clock = s.clock := by
  unfold startSet
  split <;> rfl

theorem queueNext_keepsTime (s : State) : s.KeepsTime (queueNext s) := by
  unfold queueNext
  split
  · exact .refl s
  · next c p _ =>
    have queued : s.KeepsTime (partQueued c p s) := .of_clock (joinO_clock _ _)
    exact .ite (fun _ => queued.trans ((depart_keepsTime true _).trans (settle_keepsTime _))) fun _ => queued

theorem endTransmission_clock (s : State) : (endTransmission s).clock = s.clock := by
  unfold endTransmission
  split
  · rfl
  · dsimp only
    split
    · exact (grant_clock _).trans (report_clock _ _)
    · exact grant_clock _

theorem quiesceFall_keepsTime (s : State) : s.KeepsTime (quiesceFall s) := by
  have latched (c : Composer) : s.KeepsTime (discardParts { s with comp := c }) := .of_clock rfl
  exact .ite (fun _ => (latched _).trans (settle_keepsTime _)) fun _ => .of_clock rfl

/-! ### Every row and every step -/

/-- Every row but those of supply and RESET keeps the clock of a part. -/
theorem exec_keepsTime {c : Instr} (hc : ¬ IsSupply c) (s : State) : ∃ t, exec c s = .next t ∧ s.KeepsTime t := by
  have event {t : State} (h : s.KeepsTime t) : s.KeepsTime (whileOperating s t) := .ite (fun _ => h) fun _ => .refl s
  have due {t : State} {p : Bool} (h : p = true → s.KeepsTime t) : s.KeepsTime (whileOperating s (if p then t else s)) :=
    event (.ite h fun _ => .refl s)
  cases c with
  | powerUp _ | resetAssert | resetRelease | powerLoss => exact absurd trivial hc
  | ingressLinkUp p | ingressLinkDown p | portOLinkDown => exact ⟨_, rfl, event (.of_clock rfl)⟩
  | portOLinkUp => exact ⟨_, rfl, event (.of_clock (grant_clock _))⟩
  | ingressFrameComplete p good f => exact ⟨_, rfl, event (.ite (fun _ => frameIn_keepsTime _ _ s) fun _ => .refl s)⟩
  | asetRecordIngest => exact ⟨_, rfl, event (ingestNext_keepsTime s)⟩
  | placement p => exact ⟨_, rfl, event (placeNext_keepsTime p s)⟩
  | silenceTimerExpiry idx => exact ⟨_, rfl, event (silenceExpiry_keepsTime idx s)⟩
  | deadlineExpiry ordinal => exact ⟨_, rfl, event (expireDeadline_keepsTime ordinal s)⟩
  | composeSet => exact ⟨_, rfl, due fun _ => .of_clock (startSet_clock s)⟩
  | queuePart => exact ⟨_, rfl, event (queueNext_keepsTime s)⟩
  | commitApply => exact ⟨_, rfl, due fun _ => applyCommit_keepsTime s⟩
  | transmissionComplete => exact ⟨_, rfl, event (.of_clock (endTransmission_clock s))⟩
  | strobePulseEnd => exact ⟨_, rfl, due fun _ => .of_clock rfl⟩
  | elapsedFreeze => exact ⟨_, rfl, due freeze_keepsTime⟩
  | epochPulse => exact ⟨_, rfl, event (epochPulse_keepsTime s)⟩
  | ppsEdge => exact ⟨_, rfl, event (ppsEdge_keepsTime s)⟩
  | edgeWatchdogExpiry => exact ⟨_, rfl, due enterHoldover_keepsTime⟩
  | holdoverLimitReached => exact ⟨_, rfl, due dropMapping_keepsTime⟩
  | timeCharacter c => exact ⟨_, rfl, due fun _ => receiveChar_keepsTime c s⟩
  | quiesceEvent =>
    have low : s.KeepsTime { s with comp := { s.comp with lineLow := true } } := .of_clock rfl
    exact ⟨_, rfl, .ite (fun _ => low.trans (quiesceFall_keepsTime _)) fun _ => low⟩
  | quiesceLineRise => exact ⟨_, rfl, .of_clock rfl⟩
  | profileWriteComplete damage => exact ⟨_, rfl, event (writeComplete_keepsTime damage s)⟩
  | stageStream => exact ⟨_, rfl, execute_keepsTime stageStreamAct_keepsTime _ s⟩
  | unstageStream => exact ⟨_, rfl, execute_keepsTime unstageStreamAct_keepsTime _ s⟩
  | stageRange => exact ⟨_, rfl, execute_keepsTime stageRangeAct_keepsTime _ s⟩
  | stageParams => exact ⟨_, rfl, execute_keepsTime stageParamsAct_keepsTime _ s⟩
  | discardStage => exact ⟨_, rfl, execute_keepsTime discardStageAct_keepsTime _ s⟩
  | commit => exact ⟨_, rfl, execute_keepsTime commitAct_keepsTime _ s⟩
  | isolate => exact ⟨_, rfl, execute_keepsTime isolateAct_keepsTime _ s⟩
  | restore => exact ⟨_, rfl, execute_keepsTime restoreAct_keepsTime _ s⟩
  | setOverride => exact ⟨_, rfl, execute_keepsTime setOverrideAct_keepsTime _ s⟩
  | clearOverride => exact ⟨_, rfl, execute_keepsTime clearOverrideAct_keepsTime _ s⟩
  | setEmission => exact ⟨_, rfl, execute_keepsTime setEmissionAct_keepsTime _ s⟩
  | clearQuiesce => exact ⟨_, rfl, execute_keepsTime clearQuiesceAct_keepsTime _ s⟩
  | readStatus => exact ⟨_, rfl, execute_keepsTime readStatusAct_keepsTime _ s⟩
  | readRanges => exact ⟨_, rfl, execute_keepsTime readRangesAct_keepsTime _ s⟩
  | readStream => exact ⟨_, rfl, execute_keepsTime readStreamAct_keepsTime _ s⟩
  | readOverrides => exact ⟨_, rfl, execute_keepsTime readOverridesAct_keepsTime _ s⟩
  | snapshotCounters => exact ⟨_, rfl, execute_keepsTime snapshotAct_keepsTime _ s⟩
  | monitorRun | monitorHold => exact ⟨_, rfl, execute_keepsTime (setCondition_keepsTime _) _ s⟩
  | saveProfile => exact ⟨_, rfl, execute_keepsTime saveProfileAct_keepsTime _ s⟩
  | restart => exact ⟨_, rfl, execute_keepsTime restartAct_keepsTime _ s⟩
  | unknownCommand => exact ⟨_, rfl, event (executeIf_keepsTime (fun _ _ => reply_keepsTime _ _ _ _) s)⟩

/-- A start leaves the unit ACQUIRING and the Monitor cleared (R109, R197, R202). -/
theorem start_timed (s : State) : (start s).Timed := by
  refine ⟨⟨?_, ?_, ?_, ?_, ?_, ?_⟩, ?_, ?_, ?_, ?_⟩ <;> simp [start]

/-- A row leaves a part that takes events with its clock consistent. -/
theorem exec_timed {c : Instr} {s t : State} (hs : s.operating = true → s.Timed) (h : exec c s = .next t)
    (ht : t.operating = true) : t.Timed := by
  by_cases hc : IsSupply c
  · cases c with
    | powerUp r => cases h; exact start_timed _
    | resetRelease =>
      rcases exec_resetRelease_cases h ht with ⟨u, rfl⟩ | ⟨ho, rfl⟩
      · exact start_timed u
      · exact State.KeepsTime.of_clock (s := s) rfl (hs ho)
    | resetAssert | powerLoss => cases h; simp [State.operating] at ht
    | _ => exact absurd hc id
  · obtain ⟨u, hu, hkeeps⟩ := exec_keepsTime hc s
    cases hu.symm.trans h
    refine hkeeps (hs (operating_of_exec ?_ ?_ h ht))
    · rintro r rfl; exact hc trivial
    · rintro rfl; exact hc trivial

/-- Settles O54: a step is a row, or one tick of ELAPSED. -/
theorem stepsKeepTimeAndMonitor : Obligations.StepsKeepTimeAndMonitor := by
  unfold Obligations.StepsKeepTimeAndMonitor
  intro s t hs h ht
  have timed (ho : s.operating = true) : s.Timed := State.timed_iff.2 ⟨(hs.running ho).time, (hs.running ho).monitor⟩
  refine State.timed_iff.1 ?_
  rcases step_cases h with ⟨c, rest, hexec⟩ | rfl
  · exact exec_timed (s := { s with pending := rest }) (fun ho => State.KeepsTime.of_clock (s := s) rfl (timed ho)) hexec ht
  · have ho : s.operating = true := by
      unfold oneTick whileOperating at ht
      split at ht <;> assumption
    rw [oneTick, whileOperating_pos ho]
    exact advance_keepsTime s (timed ho)

end Sys2Proof.Machine
end

