-- ==== Sys2Proof/Proofs/Starts.lean ====
section
/-! PROOFS. What a start gives: every block at its start value, with a GOOD image or without one (R109, R197, R198, R202, R203). -/

namespace Sys2Proof.Machine

/-- The Profile Store after a start from a storage in which no write is under way (R198). -/
def Stored.started (st : Stored) : ProfileStore where
  image := st
  state := if st.goodImage.isSome then .good else .bad
  writing := none
  saveFor := none

/-- A start gives every block its start value, under the image that it loads or the reset values (R202). -/
theorem start_eq (s : State) : start s =
    startValues (startSetOf s.loadable) (s.loadable.elim .run (·.mode)) s.power s.store.image.started s := rfl

/-- A write that was cut off has left a wrong check, and the stored image stands otherwise (R200). -/
theorem started_cut (p : ProfileStore) : p.cut.image.started = p.started := by
  unfold ProfileStore.cut ProfileStore.started Stored.started
  cases p.writing <;> rfl

/-- A storage with a GOOD image starts GOOD (R198). -/
theorem Stored.started_good {st : Stored} {i : Image} (h : st.goodImage = some i) :
    st.started = { image := st, state := .good, writing := none, saveFor := none } := by simp [Stored.started, h]

theorem cut_idle {p : ProfileStore} (h : p.writing = none) : p.cut = p := by simp [ProfileStore.cut, h]

/-- No image is GOOD after a cut when none was, or when a write was under way (R200). -/
theorem cut_noImage {p : ProfileStore} (h : p.writing.isSome = true ∨ p.image.goodImage = none) : p.cut.image.goodImage = none := by
  unfold ProfileStore.cut
  split
  · rfl
  · next hn => exact h.resolve_left hn

/-- Power-up is a start under what the strap says, from a storage whose write was cut off (R200, R201). -/
theorem exec_powerUp_eq (r : StrapReading) (s : State) : exec (.powerUp r) s = .next (start { s with
    power := { powered := true, resetAsserted := s.power.resetAsserted, strapCode := strapCode r, bench := strapBench r }
    store := s.store.cut }) := by
  simp only [exec, execPowerUp, powerUp, cutWrite_eq]

/-- The release of an asserted RESET line is a start under the strap as it stood (R201). -/
theorem exec_resetRelease_eq {s : State} (hp : s.power.powered = true) (ha : s.power.resetAsserted = true) :
    exec .resetRelease s = .next (start { s with power := { s.power with resetAsserted := false } }) := by
  simp [exec, execResetRelease, hp, ha]

/-- A start that loads no image (R202, R203). -/
theorem start_blank {s : State} (h : s.power.bench = true ∨ s.store.image.goodImage = none) :
    start s = startValues State.reset.table .run s.power s.store.image.started s := by
  have hload : s.loadable = none := by
    unfold State.loadable
    split
    · rfl
    · next hn => exact h.resolve_left hn
  rw [start_eq, hload]
  rfl

/-- A start that loads a GOOD image, index for index, each stream ENROLLED with its timer loaded (R35, R202). -/
theorem start_image {s : State} {i : Image} (hb : s.power.bench = false) (h : s.store.image.goodImage = some i) : start s = startValues
    { streams := i.streams.map fun p => enrolledEntry 0 p.1 p.2, ranges := i.ranges, params := i.params } i.mode s.power
    { image := s.store.image, state := .good, writing := none, saveFor := none } s := by
  have hload : s.loadable = some i := by simp [State.loadable, hb, h]
  rw [start_eq, hload, Stored.started_good h]
  rfl

/-- Settles O4: the start values one by one, and each start as one without or with an image. -/
theorem startsGiveTheirValues : Obligations.StartsGiveTheirValues := by
  unfold Obligations.StartsGiveTheirValues
  refine ⟨⟨rfl, fun _ _ _ _ _ => rfl⟩, ⟨fun r s h => ?_, fun s hp ha hw h => ?_⟩, fun r s i hb hw hi => ?_, fun s i hp ha hb hw hi => ?_⟩
  · refine (exec_powerUp_eq r s).trans (congrArg Host.Outcome.next ((start_blank (h.imp id cut_noImage)).trans ?_))
    rw [started_cut]
    rfl
  · have blank := start_blank (s := { s with power := { s.power with resetAsserted := false } }) h
    have store : s.store.image.started = s.store.started := by rw [← started_cut, cut_idle hw]
    exact (exec_resetRelease_eq hp ha).trans (congrArg Host.Outcome.next (blank.trans (store ▸ rfl)))
  · have hstored : s.store.cut.image.goodImage = some i := by rw [cut_idle hw, hi]
    refine (exec_powerUp_eq r s).trans (congrArg Host.Outcome.next ((start_image hb hstored).trans ?_))
    rw [cut_idle hw, hb]
    rfl
  · exact (exec_resetRelease_eq hp ha).trans (congrArg Host.Outcome.next (start_image hb hi))

end Sys2Proof.Machine
end

