-- ==== Sys2Proof/Proofs/Edges.lean ====
section
/-! PROOFS. PPS edges in each lock state, with the acquisition streak, renewal, mismatch, step and return (R107, R108, R111 to R116). -/

namespace Sys2Proof.Machine

/-! ### The interval class of an edge (R107) -/

/-- An edge whose interval from the edge reference lies in the window. -/
def State.EdgeRegular (s : State) : Prop := ∃ r, s.tru.edgeRef = some r ∧ 999000 ≤ s.tick - r ∧ s.tick - r ≤ 1001000

theorem edgeClass_regular_iff {s : State} : edgeClass s.tru.edgeRef s.tick = .regular ↔ s.EdgeRegular := by
  unfold edgeClass State.EdgeRegular
  cases s.tru.edgeRef with
  | none => simp
  | some r =>
    dsimp only
    split <;> simp_all

theorem edgeClass_irregular_iff {s : State} :
    edgeClass s.tru.edgeRef s.tick = .irregular ↔ s.tru.edgeRef ≠ none ∧ ¬ s.EdgeRegular := by
  unfold edgeClass State.EdgeRegular
  cases s.tru.edgeRef with
  | none => simp
  | some r =>
    dsimp only
    split <;> simp_all

/-- An edge of a part that takes events: what it does in every state, and then its lock state's rule. -/
theorem exec_ppsEdge {s : State} (ho : s.operating = true) {regular irregular : Bool} (hr : regular = true ↔ s.EdgeRegular)
    (hi : irregular = true ↔ s.tru.edgeRef ≠ none ∧ ¬ s.EdgeRegular) :
    exec .ppsEdge s = .next (edgeByState (edgeClass s.tru.edgeRef s.tick) s.time.buffer (edgeTaken regular irregular s)) := by
  have hregular : decide (edgeClass s.tru.edgeRef s.tick = .regular) = regular :=
    Bool.eq_iff_iff.2 (decide_eq_true_iff.trans (edgeClass_regular_iff.trans hr.symm))
  have hirregular : decide (edgeClass s.tru.edgeRef s.tick = .irregular) = irregular :=
    Bool.eq_iff_iff.2 (decide_eq_true_iff.trans (edgeClass_irregular_iff.trans hi.symm))
  simp only [exec, execPpsEdge, whileOperating_pos ho, ppsEdge_eq, hregular, hirregular]

theorem exec_ppsEdge_regular {s : State} (ho : s.operating = true) (h : s.EdgeRegular) :
    exec .ppsEdge s = .next (edgeByState .regular s.time.buffer (edgeTaken true false s)) := by
  rw [exec_ppsEdge ho (iff_of_true rfl h) (irregular := false) (by simp [h]), edgeClass_regular_iff.2 h]

theorem exec_ppsEdge_irregular {s : State} (ho : s.operating = true) (hn : s.tru.edgeRef ≠ none) (h : ¬ s.EdgeRegular) :
    exec .ppsEdge s = .next (edgeByState .irregular s.time.buffer (edgeTaken false true s)) := by
  rw [exec_ppsEdge ho (regular := false) (by simp [h]) (iff_of_true rfl ⟨hn, h⟩), edgeClass_irregular_iff.2 ⟨hn, h⟩]

/-! ### The rule of each lock state (R111 to R116) -/

theorem edgeByState_acquiring {s : State} (h : s.tru.state = .acquiring) (c : EdgeClass) (m : Option TimeMsg) :
    edgeByState c m s = edgeAcquiring c m s := by simp only [edgeByState, h]

theorem edgeByState_locked {s : State} {mp : Mapping} (h : s.tru.state = .locked) (hm : s.tru.mapping = some mp) (c : EdgeClass)
    (m : Option TimeMsg) : edgeByState c m s = if c = .regular then regularLocked mp m s else s := by simp only [edgeByState, h, hm]

theorem edgeByState_holdover {s : State} {mp : Mapping} (h : s.tru.state = .holdover) (hm : s.tru.mapping = some mp) (c : EdgeClass)
    (m : Option TimeMsg) : edgeByState c m s =
      if c = .regular then regularHoldover mp m s else { s with tru := { s.tru with edgeRef := some s.tick } } := by
  simp only [edgeByState, h, hm]

/-- The streak goes on at a regular edge whose label follows (R111). -/
theorem nextStreak_follows {t : Tru} {label : Nat} (hs : t.streak ≠ 0) (hl : label = t.streakLabel + 1) :
    t.nextStreak .regular label = t.streak + 1 := if_pos ⟨rfl, hs, hl⟩

theorem confirms_iff {t : Tru} {label : Nat} : t.confirms label = true ↔ ∃ p, t.mismatch = some p ∧ label = p + 1 := by
  simp [Tru.confirms, Option.any_eq_true]

/-- Settles O34: the label of the edge, and what the streak becomes under it. -/
theorem acquisitionStreak : Obligations.AcquisitionStreak := by
  unfold Obligations.AcquisitionStreak
  intro s ho hstate regular isRegular isIrregular hr hi t
  obtain ⟨htru, htick, -⟩ := edgeTaken_fields isRegular isIrregular s
  have edge : exec .ppsEdge s = .next (edgeAcquiring (edgeClass s.tru.edgeRef s.tick) s.time.buffer t) := by
    rw [exec_ppsEdge ho hr hi, edgeByState_acquiring (htru ▸ hstate)]
  refine ⟨fun hb => ?_, fun m hb => ⟨fun hn => ?_, fun hreg h1 hl => ?_, fun hreg h2 hl => ?_⟩⟩ <;> rw [edge, hb]
  · rw [edgeAcquiring, htru, htick]
  · have hbreak : s.tru.nextStreak (edgeClass s.tru.edgeRef s.tick) m.label = 1 :=
      if_neg fun h => hn ⟨hr.2 (edgeClass_regular_iff.1 h.1), h.2⟩
    rw [edgeAcquiring, htru, htick, hbreak, if_neg (by decide)]
  · have hnext : s.tru.nextStreak .regular m.label = 2 := by rw [nextStreak_follows (by omega) hl, h1]
    rw [edgeClass_regular_iff.2 (hr.1 hreg), edgeAcquiring, htru, htick, hnext, if_neg (by decide)]
  · have hnext : s.tru.nextStreak .regular m.label = 3 := by rw [nextStreak_follows (by omega) hl, h2]
    rw [edgeClass_regular_iff.2 (hr.1 hreg), edgeAcquiring, htru, htick, hnext, if_pos rfl]
    rfl

/-! ### LOCKED and HOLDOVER under the unit as an edge finds it -/

section
variable {u : State} {t : Tru} {now : Nat} {was : Option Nat} (htru : u.tru = t) (htick : u.tick = now)
include htru htick

theorem renew_eq (label : Nat) (mismatch : Option Nat) (msg : Option MsgQuality) (hwas : u.refNow = was) :
    renew label mismatch msg u = epochJump was { u with tru := { t with
      edgeRef := some now, mapping := some ⟨label, now⟩, watchdog := some (now + 1001000), mismatch := mismatch, lastMsg := msg } } := by
  subst htru htick hwas
  rfl

theorem holdoverReturn_eq (label : Nat) (msg : Option MsgQuality) (hwas : u.refNow = was) :
    holdoverReturn label msg u = epochJump was { u with tru := t.lock label now msg } := by
  subst htru htick hwas
  rfl

theorem referenceStep_eq (m : TimeMsg) : referenceStep m u = flushStep (report .steps
    { u with tru := t.lock m.label now (some m.source), strobe := { u.strobe with lastPulsed := none } }) := by
  subst htru htick
  rfl

/-- A regular edge in LOCKED: renewed, stepped, or renewed with its label pending (R112, R113, R115). -/
theorem regularLocked_eq (mp : Mapping) :
    regularLocked mp none u = renew (mp.flywheel now) none t.lastMsg u ∧
    ∀ m, regularLocked mp (some m) u =
      if m.label = mp.flywheel now then renew (mp.flywheel now) none (some m.source) u
      else if ∃ p, t.mismatch = some p ∧ m.label = p + 1 then referenceStep m u
      else renew (mp.flywheel now) (some m.label) t.lastMsg u := by
  subst htru htick
  exact ⟨rfl, fun m => if_congr Iff.rfl rfl (if_congr confirms_iff rfl rfl)⟩

/-- A regular edge in HOLDOVER: a return, a step, or a label left pending (R113, R115, R116). -/
theorem regularHoldover_eq (mp : Mapping) :
    regularHoldover mp none u = holdoverReturn (mp.flywheel now) t.lastMsg u ∧
    ∀ m, regularHoldover mp (some m) u =
      if m.label = mp.flywheel now then holdoverReturn (mp.flywheel now) (some m.source) u
      else if ∃ p, t.mismatch = some p ∧ m.label = p + 1 then referenceStep m u
      else { u with tru := { t with edgeRef := some now, mismatch := some m.label } } := by
  subst htru htick
  exact ⟨rfl, fun m => if_congr Iff.rfl rfl (if_congr confirms_iff rfl rfl)⟩

end

/-- Settles O35: a regular edge by its label and the pending one; any other is counted. -/
theorem lockedEdges : Obligations.LockedEdges := by
  unfold Obligations.LockedEdges
  intro s mp r ho hstate hmap href fly renewed
  have locked (c : EdgeClass) (a b : Bool) : edgeByState c s.time.buffer (edgeTaken a b s) =
      if c = .regular then regularLocked mp s.time.buffer (edgeTaken a b s) else edgeTaken a b s :=
    edgeByState_locked (by simpa using hstate) (by simpa using hmap) _ _
  obtain ⟨htru, htick, -, -, -, hwas⟩ := edgeTaken_fields true false s
  obtain ⟨unlabelled, labelled⟩ := regularLocked_eq htru htick mp
  have renews (mismatch : Option Nat) (msg : Option MsgQuality) :
      renew (mp.flywheel s.tick) mismatch msg (edgeTaken true false s) = renewed mismatch msg := renew_eq htru htick _ _ _ hwas
  refine ⟨fun hw => ?_, fun hlow hhigh => ?_⟩
  · have hn : ¬ s.EdgeRegular := fun ⟨x, hx, hin⟩ => hw (Option.some.inj (href.symm.trans hx) ▸ hin)
    rw [exec_ppsEdge_irregular ho (by simp [href]) hn, locked, if_neg (by decide)]
  · rw [exec_ppsEdge_regular ho ⟨r, href, hlow, hhigh⟩, locked, if_pos rfl]
    refine ⟨fun hb => ?_, fun m hb => ?_⟩ <;> rw [hb]
    · rw [unlabelled, renews]
    · rw [labelled]
      refine ⟨fun (hl : _ = mp.flywheel s.tick) => ?_, fun (hl : _ ≠ mp.flywheel s.tick) hp => ?_,
        fun p (hl : _ ≠ mp.flywheel s.tick) hp hc => ?_⟩
      · rw [if_pos hl, renews]
      · rw [if_neg hl, if_neg fun ⟨p, hp', hc⟩ => hp p hp' hc, renews]
      · rw [if_neg hl, if_pos ⟨p, hp, hc⟩, referenceStep_eq htru htick]
        rfl

/-- Settles O36: any edge becomes the reference; a regular one by its label and the pending one. -/
theorem holdoverEdges : Obligations.HoldoverEdges := by
  unfold Obligations.HoldoverEdges
  intro s mp ho hstate hmap regular fly locked
  have held (c : EdgeClass) (a b : Bool) : edgeByState c s.time.buffer (edgeTaken a b s) =
      if c = .regular then regularHoldover mp s.time.buffer (edgeTaken a b s)
      else { edgeTaken a b s with tru := { (edgeTaken a b s).tru with edgeRef := some (edgeTaken a b s).tick } } :=
    edgeByState_holdover (by simpa using hstate) (by simpa using hmap) _ _
  obtain ⟨htru, htick, -, -, -, hwas⟩ := edgeTaken_fields true false s
  obtain ⟨unlabelled, labelled⟩ := regularHoldover_eq htru htick mp
  have returns (msg : Option MsgQuality) : holdoverReturn (mp.flywheel s.tick) msg (edgeTaken true false s) =
      epochJump s.refNow { edgeTaken true false s with tru := locked fly msg } := holdoverReturn_eq htru htick _ _ hwas
  refine ⟨fun r href hn => ?_, fun hreg => ?_⟩
  · obtain ⟨htru', htick', -⟩ := edgeTaken_fields false true s
    rw [exec_ppsEdge_irregular ho (by simp [href]) hn, held, if_neg (by decide), htru', htick']
  · rw [exec_ppsEdge_regular ho hreg, held, if_pos rfl]
    refine ⟨fun hb => ?_, fun m hb => ?_⟩ <;> rw [hb]
    · rw [unlabelled, returns]
    · rw [labelled]
      refine ⟨fun (hl : _ = mp.flywheel s.tick) => ?_, fun (hl : _ ≠ mp.flywheel s.tick) hp => ?_,
        fun p (hl : _ ≠ mp.flywheel s.tick) hp hc => ?_⟩
      · rw [if_pos hl, returns]
      · rw [if_neg hl, if_neg fun ⟨p, hp', hc⟩ => hp p hp' hc]
      · rw [if_neg hl, if_pos ⟨p, hp, hc⟩, referenceStep_eq htru htick]
        rfl

end Sys2Proof.Machine
end

