-- ==== Sys2Proof/Proofs/Holdover.lean ====
section
/-! PROOFS. The edge watchdog and the holdover limit, the clock quality, and reference now (R114, R117 to R119, R122). -/

namespace Sys2Proof.Machine

theorem watchdogDue_of_expired {s : State} {w : Nat} (hl : s.tru.state = .locked) (hw : s.tru.watchdog = some w) (h : w ≤ s.tick) :
    s.watchdogDue = true := by simp [State.watchdogDue, hl, hw, h]

/-- The limit is over once the holdover time counted from the entry has reached it (R117). -/
theorem holdoverOver_iff {s : State} {e : Nat} (hh : s.tru.state = .holdover) (he : s.tru.holdEntry = some e) :
    s.holdoverOver = true ↔ s.table.params.holdoverS * 1000000 ≤ s.tick - e := by
  simp [State.holdoverOver, State.holdoverTime, hh, he]

/-- At the entry the holdover time is 0, so that only a limit of 0 is reached (R114, R117). -/
theorem enterHoldover_eq (s : State) : enterHoldover s =
    (let entered := { s with tru := { s.tru with state := .holdover, watchdog := none, holdEntry := some s.tick, mismatch := none } }
     if s.table.params.holdoverS = 0 then dropMapping entered else entered) := by
  have limit : s.table.params.holdoverS * 1000000 ≤ s.tick - s.tick ↔ s.table.params.holdoverS = 0 := by omega
  exact if_congr ((holdoverOver_iff rfl rfl).trans limit) rfl rfl

/-- Settles O37: each passage once it is due, each state's clock quality, and reference now by the mapping. -/
theorem holdoverAndClockQuality : Obligations.HoldoverAndClockQuality := by
  unfold Obligations.HoldoverAndClockQuality
  refine ⟨fun s ho => ⟨fun w hl hw hle => ?_, fun e hh he hle => ?_⟩, fun s m hm => ?_, fun s => ⟨fun hn => ?_, fun m hm => ?_⟩⟩
  · have expired : exec .edgeWatchdogExpiry s = .next (enterHoldover s) := by
      simp only [exec, execEdgeWatchdogExpiry, whileOperating_pos ho, if_pos (watchdogDue_of_expired hl hw hle)]
    rw [expired, enterHoldover_eq]
    exact ⟨fun hpos => by rw [if_neg (Nat.ne_of_gt hpos)], fun hzero => by rw [if_pos hzero]; rfl⟩
  · have expired := (holdoverOver_iff hh he).2 (by omega)
    simp only [exec, execHoldoverLimitReached, whileOperating_pos ho, if_pos expired]
    rfl
  · intro q
    have last : s.tru.lastQuality = q := by simp [Tru.lastQuality, MsgQuality.value, hm, q]
    unfold State.clockQuality
    refine ⟨fun h => ?_, fun h => ?_, fun e h he => ?_⟩ <;> rw [h] <;> dsimp only
    · exact last
    · rw [last, State.holdoverTime, he]
      rfl
  · rw [State.refNow, hn]
    rfl
  · rw [State.refNow, hm]
    rfl

end Sys2Proof.Machine
end

