-- ==== Sys2Proof/Proofs/TimeCharacters.lean ====
section
/-! PROOFS. Characters of the TIME line and the message they make (R104 to R106). -/

namespace Sys2Proof.Machine

/-! ### The receiver (R104, R106) -/

/-- A character of an earlier line period, or begun before the line was high again, is not taken (R104, R106). -/
theorem exec_timeCharacter_untaken {s : State} {c : TimeChar}
    (h : c.period ≠ s.time.period ∨ (s.time.waitHigh = true ∧ c.sawHigh = false)) : exec (.timeCharacter c) s = .next s := by
  have untaken : ¬ s.takesChar c = true := by
    rcases h with h | ⟨hw, hs⟩
    · simp [State.takesChar, h]
    · simp [State.takesChar, hw, hs]
  simp only [exec, execTimeCharacter, if_neg untaken, whileOperating, ite_self]

theorem exec_timeCharacter_taken {s : State} {c : TimeChar} (ho : s.operating = true) (hp : c.period = s.time.period)
    (hw : s.time.waitHigh = true → c.sawHigh = true) : exec (.timeCharacter c) s = .next (receiveChar c s) := by
  have taken : s.takesChar c = true := by
    cases hwait : s.time.waitHigh <;> simp_all [State.takesChar]
  simp only [exec, execTimeCharacter, if_pos taken, whileOperating_pos ho]

/-- The state in which a character without a framing error reaches the assembler. -/
def State.lineHigh (s : State) : State := { s with time := { s.time with waitHigh := false } }

theorem receiveChar_framing {c : TimeChar} (h : c.stopBit = false) (s : State) :
    receiveChar c s = report .timeFraming { s with time := { s.time with chars := [], waitHigh := true } } := by
  simp [receiveChar, h]

theorem receiveChar_parity {c : TimeChar} {s : State} (h : c.stopBit = true) (hp : charParityGood c s.table.params.parity = false) :
    receiveChar c s = report .timeParity (setChars [] s.lineHigh) := by
  simp [receiveChar, h, hp, State.lineHigh]

theorem receiveChar_good {c : TimeChar} {s : State} (h : c.stopBit = true) (hp : charParityGood c s.table.params.parity = true) :
    receiveChar c s = deliver c.data s.lineHigh := by
  simp [receiveChar, h, hp, State.lineHigh]

/-! ### The assembler (R105) -/

theorem deliver_between {s : State} {b : Byte} (hc : s.time.chars = []) (hb : b ≠ startChar) : deliver b s = s := by
  rw [deliver, if_pos (List.isEmpty_iff.2 hc), if_neg hb]

theorem deliver_start {s : State} {b : Byte} (hc : s.time.chars = []) (hb : b = startChar) : deliver b s = setChars [b] s := by
  rw [deliver, if_pos (List.isEmpty_iff.2 hc), if_pos hb]

theorem deliver_restart {s : State} {b : Byte} (hc : s.time.chars ≠ []) (hb : b = startChar) :
    deliver b s = report .timeFraming (setChars [b] s) := by
  rw [deliver, if_neg (mt List.isEmpty_iff.1 hc), if_pos hb]

theorem deliver_misfit {s : State} {b : Byte} (hc : s.time.chars ≠ []) (hb : b ≠ startChar)
    (hf : fitsPosition (s.time.chars.length + 1) b = false) : deliver b s = report .timeFraming (setChars [] s) := by
  rw [deliver, if_neg (mt List.isEmpty_iff.1 hc), if_neg hb, if_neg (by simp [hf])]

theorem deliver_fits {s : State} {b : Byte} (hc : s.time.chars ≠ []) (hb : b ≠ startChar)
    (hf : fitsPosition (s.time.chars.length + 1) b = true) :
    deliver b s = if s.time.chars.length = 13 then completeMessage (s.time.chars ++ [b]) s else setChars (s.time.chars ++ [b]) s := by
  rw [deliver, if_neg (mt List.isEmpty_iff.1 hc), if_neg hb, if_pos hf]
  exact if_congr (by omega) rfl rfl

theorem isDigitUpTo_iff {top : Nat} {b : Byte} : isDigitUpTo top b = true ↔ 0x30 ≤ b.toNat ∧ b.toNat ≤ 0x30 + top := by
  simp [isDigitUpTo]

/-- The table of R105: ten digits of the second, a quality digit, the source state and the end character. -/
theorem fitsPosition_iff (b : Byte) :
    (∀ i, 2 ≤ i → i ≤ 11 → (fitsPosition i b = true ↔ 0x30 ≤ b.toNat ∧ b.toNat ≤ 0x39)) ∧
      (fitsPosition 12 b = true ↔ 0x30 ≤ b.toNat ∧ b.toNat ≤ 0x37) ∧
      (fitsPosition 13 b = true ↔ b = 0x4C#8 ∨ b = 0x48#8) ∧ (fitsPosition 14 b = true ↔ b = 0x3E#8) := by
  refine ⟨fun i _ hi => ?_, isDigitUpTo_iff, ?_, ?_⟩
  · rw [fitsPosition, if_pos hi]
    exact isDigitUpTo_iff
  · simp [fitsPosition]
  · simp [fitsPosition]

/-! ### A whole message (R105, R106) -/

/-- Ten characters that spell decimal digits, and the second that they name. -/
def digitChars (ds : Fin 10 → Fin 10) : List Byte := List.ofFn fun i => BitVec.ofNat 8 (0x30 + (ds i).val)

def secondOf (ds : Fin 10 → Fin 10) : Nat := (List.ofFn fun i => (ds i).val).foldl (fun acc d => acc * 10 + d) 0

theorem digitsValue_digitChars (ds : Fin 10 → Fin 10) : digitsValue (digitChars ds) = secondOf ds := by
  have chars : digitChars ds = (List.ofFn ds).map fun d => BitVec.ofNat 8 (0x30 + d.val) := by rw [List.map_ofFn]; rfl
  have values : (List.ofFn fun i => (ds i).val) = (List.ofFn ds).map Fin.val := by rw [List.map_ofFn]; rfl
  have digit : ∀ d : Fin 10, (BitVec.ofNat 8 (0x30 + d.val)).toNat - 0x30 = d.val := by decide
  rw [digitsValue, secondOf, chars, values, List.foldl_map, List.foldl_map]
  simp only [digit]

/-- The thirteen characters that stand before the end character. -/
def messageChars (ds : Fin 10 → Fin 10) (quality : Fin 8) (holdover : Bool) : List Byte :=
  0x3C#8 :: digitChars ds ++ [BitVec.ofNat 8 (0x30 + quality.val), if holdover then 0x48#8 else 0x4C#8]

theorem messageChars_length (ds : Fin 10 → Fin 10) (quality : Fin 8) (holdover : Bool) :
    (messageChars ds quality holdover).length = 13 := by simp [messageChars, digitChars]

/-- A message read back from its characters (R105). -/
theorem messageOf_messageChars (ds : Fin 10 → Fin 10) (quality : Fin 8) (holdover : Bool) :
    messageOf (messageChars ds quality holdover ++ [endChar]) =
      { label := secondOf ds, source := { quality := quality.val, holdover := holdover } } := by
  have hlen : (digitChars ds).length = 10 := by simp [digitChars]
  have tail (i : Nat) : field (messageChars ds quality holdover ++ [endChar]) (11 + i) 1 =
      field [BitVec.ofNat 8 (0x30 + quality.val), if holdover then 0x48#8 else 0x4C#8, endChar] i 1 := by
    rw [messageChars, List.append_assoc, field_append_right _ _ _ _ (by simp [hlen])]
    simp [hlen]
  have hlabel : ((messageChars ds quality holdover ++ [endChar]).drop 1).take 10 = digitChars ds := by
    simp [messageChars, ← hlen]
  have hquality : ∀ q : Fin 8, (BitVec.ofNat 8 (0x30 + q.val)).toNat - 0x30 = q.val := by decide
  rw [messageOf, hlabel, digitsValue_digitChars, tail 0, tail 1]
  simp only [field, List.drop_zero, List.drop_succ_cons, List.take_succ_cons, List.take_zero, beNat, List.foldl_cons, List.foldl_nil,
    Nat.zero_mul, Nat.zero_add, hquality]
  cases holdover <;> rfl

/-- A completed message in the buffer, with an overrun counted when it replaces one (R106). -/
theorem bufferMessage_lineHigh (m : TimeMsg) (s : State) : bufferMessage m s.lineHigh =
    { (if s.time.buffer = none then s else report .timeOverrun s) with
      time := { s.time with chars := [], waitHigh := false, buffer := some m } } := by
  unfold bufferMessage State.lineHigh report
  cases s.time.buffer with
  | none => rfl
  | some old =>
    simp only [Option.isSome_some, if_true, reduceCtorEq, if_false]
    split <;> rfl

/-- The end character completes a message; a second past the SOE scale discards it (R105). -/
theorem deliver_endChar {s : State} {ds : Fin 10 → Fin 10} {quality : Fin 8} {holdover : Bool}
    (h : s.time.chars = messageChars ds quality holdover) : deliver endChar s =
      if 4294967295 < secondOf ds then report .timeFraming (setChars [] s)
      else bufferMessage { label := secondOf ds, source := { quality := quality.val, holdover := holdover } } s := by
  have hlen : s.time.chars.length = 13 := by rw [h, messageChars_length]
  have hne : s.time.chars ≠ [] := by rw [h]; exact List.cons_ne_nil _ _
  rw [deliver_fits hne (by decide) (by rw [hlen]; rfl), if_pos hlen, h, completeMessage, messageOf_messageChars]

/-- The end character has five ones among its bits (R104). -/
theorem endChar_parityGood {c : TimeChar} {p : Parity} (hd : c.data = endChar) (he : p = .even → c.parityBit = true)
    (ho : p = .odd → c.parityBit = false) : charParityGood c p = true := by
  cases p with
  | none => rfl
  | even => rw [charParityGood, hd, he rfl]; rfl
  | odd => rw [charParityGood, hd, ho rfl]; rfl

/-- Settles O38: the receiver's outcomes, the assembler's, the table of positions, and the end of a message. -/
theorem timeCharactersMakeMessages : Obligations.TimeCharactersMakeMessages := by
  unfold Obligations.TimeCharactersMakeMessages
  refine ⟨fun c s h => exec_timeCharacter_untaken h, fun c s ho hp hw => ?_, fitsPosition_iff,
    fun s ds quality holdover sawHigh parityBit ho hparity hw hchars => ?_⟩
  · intro parityGood at_
    have parity : parityGood = charParityGood c s.table.params.parity := by
      unfold charParityGood
      cases hpar : s.table.params.parity <;> simp only [parityGood, hpar]
    rw [exec_timeCharacter_taken ho hp hw, parity]
    refine ⟨fun hs => by rw [receiveChar_framing hs], fun hs hbad => by rw [receiveChar_parity hs hbad]; rfl, fun hs hgood => ?_⟩
    rw [receiveChar_good hs hgood]
    refine ⟨fun hc hb => ?_, fun hc hb => ?_, fun hc hb => ?_, fun hc hb hf => ?_, fun hc hb hf hl => ?_⟩
    · rw [deliver_between (s := s.lineHigh) hc hb, State.lineHigh, ← hc]
    · rw [deliver_start (s := s.lineHigh) hc hb, hb]
      rfl
    · rw [deliver_restart (s := s.lineHigh) hc hb, hb]
      rfl
    · rw [deliver_misfit (s := s.lineHigh) hc hb hf]
      rfl
    · rw [deliver_fits (s := s.lineHigh) hc hb hf, if_neg (show s.lineHigh.time.chars.length ≠ 13 from hl)]
      rfl
  · intro label c
    have hgood : charParityGood c s.table.params.parity = true :=
      endChar_parityGood rfl (fun h => by rw [h] at hparity; exact hparity) fun h => by rw [h] at hparity; exact hparity
    have ended : exec (.timeCharacter c) s = .next (deliver endChar s.lineHigh) := by
      rw [exec_timeCharacter_taken ho rfl hw, receiveChar_good rfl hgood]
      rfl
    rw [ended, deliver_endChar (s := s.lineHigh) (ds := ds) (quality := quality) (holdover := holdover) hchars]
    refine ⟨fun (hle : secondOf ds ≤ _) => ?_, fun (hlt : _ < secondOf ds) => ?_⟩
    · rw [if_neg (Nat.not_lt.2 hle), bufferMessage_lineHigh]
      rfl
    · rw [if_pos hlt]
      rfl

end Sys2Proof.Machine
end

