-- ==== Sys2Proof/Proofs/StrobePulses.lean ====
section
/-! PROOFS. STROBE pulses: their length, the EPOCH source and its jumps, PPS and EMIT (R121 to R123). -/

namespace Sys2Proof.Machine

/-! ### Ordinals that reference now has reached (R55, R122) -/

/-- The greatest ordinal reached is the one that a conversion from microseconds gives (R56, R122). -/
theorem ordinalReached_eq (rate now : Nat) : ordinalReached rate now = now * rate / 1000000 :=
  convertOrdinal_eq (r1 := 1000000) (Nat.succ_pos _) rate now

/-- The instants reached are those of the ordinals up to the greatest reached. -/
theorem instantUs_le_iff {rate : Nat} (h : 0 < rate) (e now : Nat) : instantUs rate e ≤ now ↔ e ≤ ordinalReached rate now := by
  obtain ⟨hle, hlt⟩ := ceilDiv_bounds (e * 1000000) h
  rw [ordinalReached_eq, Nat.le_div_iff_mul_le (Nat.succ_pos _), instantUs_eq h]
  constructor
  · exact fun hn => hle.trans (Nat.mul_le_mul_right rate hn)
  · intro hn
    by_contra hc
    have hsucc : (now + 1) * rate ≤ ceilDiv (e * 1000000) rate * rate := Nat.mul_le_mul_right rate (Nat.lt_of_not_le hc)
    rw [Nat.succ_mul] at hsucc
    omega

theorem gridRates_pos {rate : Nat} (h : rate ∈ gridRates) : 0 < rate := by
  revert rate
  decide

/-- The ordinal between whose instant and the next reference now stands. -/
theorem ordinalReached_unique {rate now reached : Nat} (h : rate ∈ gridRates) (hle : instantUs rate reached ≤ now)
    (hlt : now < instantUs rate (reached + 1)) : ordinalReached rate now = reached := by
  have hge := (instantUs_le_iff (gridRates_pos h) reached now).1 hle
  have hnext := mt (instantUs_le_iff (gridRates_pos h) (reached + 1) now).2 (Nat.not_le.2 hlt)
  omega

/-- Without a last pulsed ordinal the first instant at or after reference now is next due (R122). -/
theorem nextPulse_none {rate was due : Nat} (h : rate ∈ gridRates) (hdue : was ≤ instantUs rate due)
    (hfirst : ∀ e, e < due → instantUs rate e < was) : nextPulse rate was none = due := by
  have reaches (e : Nat) := instantUs_le_iff (gridRates_pos h) e was
  have hreached : instantUs rate (ordinalReached rate was) ≤ was := (reaches _).2 le_rfl
  have onInstant {e : Nat} (he : instantUs rate e = was) : ordinalReached rate was = e := he ▸ ordinalReached_instantUs h e
  have dueReached (hle : due ≤ ordinalReached rate was) : instantUs rate due = was := le_antisymm ((reaches due).2 hle) hdue
  unfold nextPulse
  dsimp only
  split
  · next hinstant =>
    have hnot : ¬ ordinalReached rate was < due := fun hlt => (hfirst _ hlt).ne hinstant
    exact onInstant (dueReached (Nat.le_of_not_lt hnot))
  · next hinstant =>
    have habove : ¬ due ≤ ordinalReached rate was := fun hle => hinstant (by rw [onInstant (dueReached hle), dueReached hle])
    have hbelow : ¬ ordinalReached rate was + 1 < due := fun hlt =>
      absurd ((reaches _).1 (hfirst _ hlt).le) (Nat.not_succ_le_self _)
    omega

/-! ### Pulses (R121) -/

/-- A pulse with its ordinal pulsed: the line is high for 10 µs from now, or as long as the pulse in progress lasts. -/
theorem strobePulse_setPulsed (e : Option Nat) (s : State) :
    strobePulse { s with strobe := { s.strobe with lastPulsed := e } } =
      { s with strobe := { s.strobe.pulsed s.tick with lastPulsed := e } } := by
  rw [strobePulse_eq]
  rfl

theorem exec_strobePulseEnd {s : State} {e : Nat} (ho : s.operating = true) (he : s.strobe.endTick = some e) : exec .strobePulseEnd s =
    .next (if e ≤ s.tick then { s with strobe := { s.strobe with endTick := none } } else s) := by
  have ended : s.strobeOver = true ↔ e ≤ s.tick := by simp [State.strobeOver, he]
  simp only [exec, execStrobePulseEnd, whileOperating_pos ho, ended]

/-! ### EPOCH pulses and jumps (R122) -/

theorem epochDue_of_epoch {s : State} {now : Nat} (hs : s.table.params.strobe = .epoch) (hn : s.refNow = some now) :
    s.epochDue = pulseDueAt s.table.params.rate now s.strobe.lastPulsed := by simp [State.epochDue, hn, hs, State.rate]

theorem exec_epochPulse_due {s : State} {e : Nat} (ho : s.operating = true) (h : s.epochDue = some e) :
    exec .epochPulse s = .next { s with strobe := { s.strobe.pulsed s.tick with lastPulsed := some e } } := by
  simp only [exec, execEpochPulse, whileOperating_pos ho, epochPulse, h, strobePulse_setPulsed]

theorem exec_epochPulse_notDue {s : State} (ho : s.operating = true) (h : s.epochDue = none) : exec .epochPulse s = .next s := by
  simp only [exec, execEpochPulse, whileOperating_pos ho, epochPulse, h]

/-- A jump pulses once where it passes the instant next due. -/
theorem epochJump_eq {s : State} {was now : Nat} (hs : s.table.params.strobe = .epoch) (hn : s.refNow = some now) :
    epochJump (some was) s =
      if was < now ∧ instantUs s.table.params.rate (nextPulse s.table.params.rate was s.strobe.lastPulsed) ≤ now then
        { s with strobe := { s.strobe.pulsed s.tick with lastPulsed := some (ordinalReached s.table.params.rate now) } }
      else s := by
  have jumps : (s.table.params.strobe == .epoch && jumpsPast s.rate was now s.strobe.lastPulsed) = true ↔
      was < now ∧ instantUs s.table.params.rate (nextPulse s.table.params.rate was s.strobe.lastPulsed) ≤ now := by
    simp only [jumpsPast, hs, beq_self_eq_true, Bool.true_and, Bool.and_eq_true, decide_eq_true_eq]
    rfl
  simp only [epochJump, hn, strobePulse_setPulsed]
  exact if_congr jumps rfl rfl

theorem epochJump_none {s : State} {was : Option Nat} (h : s.table.params.strobe ≠ .epoch ∨ was = none ∨ s.refNow = none) :
    epochJump was s = s := by
  unfold epochJump
  split
  · next hn => exact if_neg (by simp_all)
  · rfl

/-- Settles O39: the end of a pulse, the ordinal that falls due, the jump past it, and the source selected. -/
theorem strobePulses : Obligations.StrobePulses := by
  unfold Obligations.StrobePulses
  intro s rates pulse instant
  have pulsed : s.strobe.pulsed s.tick = { s.strobe with endTick := pulse } := rfl
  refine ⟨fun ho => ⟨fun e he hle => ?_, fun e he hlt => ?_, fun e now hs hn hl => ⟨fun hle => ?_, fun hlt => ?_⟩,
    fun now hs hn hl hr => ⟨fun e he => ?_, fun hne => ?_⟩, fun h => ?_⟩,
    fun was now due reached hs hn hr hnext hfirst hle hlt => ?_, fun was h => epochJump_none h, fun source => ?_⟩
  · rw [exec_strobePulseEnd ho he, if_pos hle]
  · rw [exec_strobePulseEnd ho he, if_neg (Nat.not_le.2 hlt)]
  · exact exec_epochPulse_due ho (by rw [epochDue_of_epoch hs hn, hl]; exact if_pos hle)
  · exact exec_epochPulse_notDue ho (by rw [epochDue_of_epoch hs hn, hl]; exact if_neg (Nat.not_le.2 hlt))
  · have hreached : ordinalReached s.table.params.rate now = e := he ▸ ordinalReached_instantUs hr e
    exact exec_epochPulse_due ho (by rw [epochDue_of_epoch hs hn, hl, pulseDueAt, hreached]; exact if_pos he)
  · exact exec_epochPulse_notDue ho (by rw [epochDue_of_epoch hs hn, hl]; exact if_neg (hne _))
  · refine exec_epochPulse_notDue ho ?_
    unfold State.epochDue
    rcases h with h | h
    · split
      · exact if_neg (by simpa using h)
      · rfl
    · rw [h]
  · have hdue : nextPulse s.table.params.rate was s.strobe.lastPulsed = due := by
      cases hl : s.strobe.lastPulsed with
      | none => exact nextPulse_none hr (hfirst hl).1 (hfirst hl).2
      | some e => exact (hnext e hl).symm
    rw [epochJump_eq hs hn, hdue, ordinalReached_unique hr hle hlt]
    exact ⟨fun hmoved hpast => if_pos ⟨hmoved, hpast⟩, fun h => if_neg fun hjump => by
      rcases h with h | h
      · exact absurd hjump.1 (Nat.not_lt.2 h)
      · exact absurd hjump.2 (Nat.not_le.2 h)⟩
  · rw [strobeFrom_eq, pulsed]
    split <;> rfl

end Sys2Proof.Machine
end

