-- ==== Sys2Proof/Proofs/RecordedTicks.lean ====
section
/-! SUPPORT. Which ticks a state records, that one event records no tick but the present one, and which shared operations leave the
head's decision as it stands or consider the head last (R98, R103, R125, R135, R142, R144). -/

namespace Sys2Proof.Machine

/-! ### Recorded ticks (R103, R144) -/

/-- The ticks that the unit keeps: of the mapping, of the edge reference, and of the entry into HOLDOVER. -/
def Tru.ticks (u : Tru) : List Nat := (u.mapping.map (·.tick)).toList ++ u.edgeRef.toList ++ u.holdEntry.toList

/-- The ticks that the ring keeps: of the floor, of the departures it remembers, and of the seals. -/
def Ring.ticks (r : Ring) : List Nat := r.floorTick.toList ++ r.memory.map (·.tick) ++ r.recs.filterMap (·.sealTick)

/-- Every tick from which a lateness, an interval, a holdover time or a wire time counts. -/
def State.ticks (s : State) : List Nat := s.tru.ticks ++ s.ring.ticks ++ (s.egress.tx.map (·.start)).toList

theorem State.ticksOk_iff {s : State} : s.TicksOk ↔ ∀ x ∈ s.ticks, x ≤ s.tick := by
  simp only [State.ticks, Tru.ticks, Ring.ticks, List.mem_append, Option.mem_toList, Option.map_eq_some_iff, List.mem_map,
    List.mem_filterMap]
  constructor
  · rintro ⟨mapping, edgeRef, holdEntry, floorTick, memory, seals, tx⟩ x
      (((((⟨m, hm, rfl⟩ | hx) | hx) | ((hx | ⟨m, hm, rfl⟩) | ⟨r, hr, hx⟩)) | ⟨t, ht, rfl⟩))
    exacts [mapping m hm, edgeRef x hx, holdEntry x hx, floorTick x hx, memory m hm, seals r hr x hx, tx t ht]
  · intro h
    exact ⟨fun m hm => h _ (.inl (.inl (.inl (.inl ⟨m, hm, rfl⟩)))), fun x hx => h x (.inl (.inl (.inl (.inr hx)))),
      fun x hx => h x (.inl (.inl (.inr hx))), fun x hx => h x (.inl (.inr (.inl (.inl hx)))),
      fun m hm => h _ (.inl (.inr (.inl (.inr ⟨m, hm, rfl⟩)))), fun r hr x hx => h x (.inl (.inr (.inr ⟨r, hr, hx⟩))),
      fun t ht => h _ (.inr ⟨t, ht, rfl⟩)⟩

/-- A passage in which no time passes, and which records no tick but the present one. -/
structure State.Stamps (s t : State) : Prop where
  tick : t.tick = s.tick
  ticks : ∀ x ∈ t.ticks, x = s.tick ∨ x ∈ s.ticks

theorem State.Stamps.ticksOk {s t : State} (h : s.Stamps t) (hs : s.TicksOk) : t.TicksOk := by
  rw [State.ticksOk_iff] at hs ⊢
  intro x hx
  rw [h.tick]
  rcases h.ticks x hx with rfl | hm
  · exact le_rfl
  · exact hs x hm

theorem State.Stamps.refl (s : State) : s.Stamps s := ⟨rfl, fun _ => .inr⟩

theorem State.Stamps.trans {s t u : State} (h : s.Stamps t) (h' : t.Stamps u) : s.Stamps u :=
  ⟨h'.tick.trans h.tick, fun x hx => (h'.ticks x hx).elim (fun he => .inl (he.trans h.tick)) (h.ticks x)⟩

theorem State.Stamps.ite {s t u : State} {c : Prop} [Decidable c] (ht : c → s.Stamps t) (hu : ¬ c → s.Stamps u) :
    s.Stamps (if c then t else u) := by
  split
  · next h => exact ht h
  · next h => exact hu h

/-- A passage by what it does to the unit, to the ring and to the transmission. -/
theorem State.Stamps.of_parts {s t : State} (ht : t.tick = s.tick) (hu : ∀ x ∈ t.tru.ticks, x = s.tick ∨ x ∈ s.tru.ticks)
    (hr : ∀ x ∈ t.ring.ticks, x = s.tick ∨ x ∈ s.ring.ticks)
    (he : ∀ x, t.egress.tx = some x → x.start = s.tick ∨ s.egress.tx = some x) : s.Stamps t := by
  refine ⟨ht, fun x hx => ?_⟩
  simp only [State.ticks, List.mem_append, Option.mem_toList, Option.map_eq_some_iff] at hx ⊢
  rcases hx with (hx | hx) | ⟨y, hy, rfl⟩
  · exact (hu x hx).imp_right fun h => .inl (.inl h)
  · exact (hr x hx).imp_right fun h => .inl (.inr h)
  · exact (he y hy).imp_right fun h => .inr ⟨y, h, rfl⟩

/-- A change of the unit that records at most the present tick (R111 to R117). -/
theorem setTru_stamps {s : State} {u : Tru} (h : ∀ x ∈ u.ticks, x = s.tick ∨ x ∈ s.tru.ticks) : s.Stamps { s with tru := u } :=
  .of_parts rfl h (fun _ => .inr) fun _ => .inr

/-- A passage that leaves unit and transmission as they stand. -/
theorem State.Stamps.of_ring {s t : State} (ht : t.tick = s.tick) (hu : t.tru = s.tru) (he : t.egress.tx = s.egress.tx)
    (h : ∀ x ∈ t.ring.ticks, x = s.tick ∨ x ∈ s.ring.ticks) : s.Stamps t :=
  .of_parts ht (by rw [hu]; exact fun _ => .inr) h (by rw [he]; exact fun _ => .inr)

/-- A change of the ring that records at most the present tick. -/
theorem setRing_stamps {s : State} {r : Ring} (h : ∀ x ∈ r.ticks, x = s.tick ∨ x ∈ s.ring.ticks) : s.Stamps { s with ring := r } :=
  .of_ring rfl rfl rfl h

/-- The ring's ticks under a change of the records: each seal tick is the present one or that of a record before. -/
theorem Ring.ticks_of_recs {r : Ring} {rs : List EpochRec} {now : Nat}
    (h : ∀ e ∈ rs, ∀ x, e.sealTick = some x → x = now ∨ ∃ d ∈ r.recs, d.sealTick = some x) :
    ∀ x ∈ ({ r with recs := rs } : Ring).ticks, x = now ∨ x ∈ r.ticks := by
  intro x hx
  simp only [Ring.ticks, List.mem_append, List.mem_filterMap] at hx ⊢
  rcases hx with hx | ⟨e, he, hs⟩
  · exact .inr (.inl hx)
  · exact (h e he x hs).imp_right .inr

/-! ### The head's decision (R125, R135, R142) -/

/-- An empty ring has no head that waits. -/
theorem State.headOk_of_nil {s : State} (h : s.ring.recs = []) : s.HeadOk := by
  rw [State.HeadOk, State.headMustLeave, h]

/-- A head once considered does not wait to leave (R98, R125). -/
theorem settle_headOk (s : State) : (settle s).HeadOk := settleBy_done _ s le_rfl

/-- A passage within one event that records no tick but the present one and leaves no head waiting to leave. -/
structure State.Attends (s t : State) : Prop where
  stamps : s.Stamps t
  head : s.HeadOk → t.HeadOk

theorem State.Attends.sound {s t : State} (h : s.Attends t) (hs : s.HeadOk ∧ s.TicksOk) : t.HeadOk ∧ t.TicksOk :=
  ⟨h.head hs.1, h.stamps.ticksOk hs.2⟩

theorem State.Attends.refl (s : State) : s.Attends s := ⟨.refl s, id⟩

theorem State.Attends.trans {s t u : State} (h : s.Attends t) (h' : t.Attends u) : s.Attends u :=
  ⟨h.stamps.trans h'.stamps, h'.head ∘ h.head⟩

theorem State.Attends.ite {s t u : State} {c : Prop} [Decidable c] (ht : c → s.Attends t) (hu : ¬ c → s.Attends u) :
    s.Attends (if c then t else u) := by
  split
  · next h => exact ht h
  · next h => exact hu h

/-- A passage that leaves the head and the Composer's decision on it as they stand. -/
theorem State.Attends.of_stamps {s t : State} (h : s.Stamps t) (hr : t.ring.recs = s.ring.recs) (hm : t.comp.mode = s.comp.mode)
    (hq : t.comp.quiesced = s.comp.quiesced) : s.Attends t := by
  refine ⟨h, fun hs => ?_⟩
  rw [State.HeadOk, State.headMustLeave, Composer.withholds] at hs ⊢
  rwa [hr, hm, hq]

/-- What the recorded ticks and the head's decision are read from. -/
structure Watch where
  tick : Nat
  tru : Tru
  ring : Ring
  mode : EmissionMode
  quiesced : Bool
  tx : Option Tx

def State.watch (s : State) : Watch := ⟨s.tick, s.tru, s.ring, s.comp.mode, s.comp.quiesced, s.egress.tx⟩

/-- A passage beside all of that. -/
theorem State.Attends.of_watch {s t : State} (h : t.watch = s.watch) : s.Attends t := by
  simp only [State.watch, Watch.mk.injEq] at h
  obtain ⟨htick, htru, hring, hmode, hquiesced, htx⟩ := h
  exact .of_stamps (.of_ring htick htru htx (by rw [hring]; exact fun _ => .inr)) (by rw [hring]) hmode hquiesced

/-! ### Updates beside it -/

@[simp] theorem report_watch (c : Ctr) (s : State) : (report c s).watch = s.watch := by simp [State.watch]

@[simp] theorem recordLatency_watch (w : Nat) (l : Option Nat) (s : State) : (recordLatency w l s).watch = s.watch := by
  simp [State.watch]

@[simp] theorem mapStream_watch (id : Nat) (f : StreamEntry → StreamEntry) (s : State) : (s.mapStream id f).watch = s.watch := rfl

@[simp] theorem strobePulse_watch (s : State) : (strobePulse s).watch = s.watch := by simp [State.watch]

@[simp] theorem epochJump_watch (was : Option Nat) (s : State) : (epochJump was s).watch = s.watch := by simp [State.watch]

theorem report_attends (c : Ctr) (s : State) : s.Attends (report c s) := .of_watch (report_watch c s)

/-! ### Transmissions (R151, R152) -/

/-- A grant leaves the transmission as it is, or begins one at the present tick. -/
theorem granted_tx (e : Egress) (now : Nat) (k : TxKind) : (e.granted now k).tx = e.tx ∨ ∃ f, (e.granted now k).tx = some ⟨k, f, now⟩ := by
  cases k <;> unfold Egress.granted <;> dsimp only <;> split <;> simp

theorem grant_attends (s : State) : s.Attends (grant s) := by
  refine .of_stamps (.of_parts (by simp) (fun x hx => .inr (by simpa using hx)) (fun x hx => .inr (by simpa using hx)) fun x hx => ?_)
    (by simp) (by simp) (by simp)
  unfold grant at hx
  split at hx
  · split at hx
    · next k _ =>
      rcases granted_tx s.egress s.tick k with hsame | ⟨f, hnew⟩
      · exact .inr (hsame.symm.trans hx)
      · cases hnew.symm.trans hx
        exact .inl rfl
    · exact .inr hx
  · exact .inr hx

theorem joinO_attends (f : EthFrame) (s : State) : s.Attends (joinO f s) :=
  State.Attends.trans (t := { s with egress := { s.egress with o := s.egress.o ++ [f] } }) (.of_watch rfl) (grant_attends _)

theorem joinL_attends (f : EthFrame) (s : State) : s.Attends (joinL f s) := by
  have joined : s.Attends { s with egress := { s.egress with l := s.egress.l ++ [f] } } := .of_watch rfl
  exact .ite (fun _ => joined.trans (grant_attends _)) fun _ => report_attends _ s

theorem reply_attends (re : ReplyTo) (st : Status) (bs : List Byte) (s : State) : s.Attends (reply re st bs s) :=
  State.Attends.trans (t := { s with egress := { s.egress with
    m := s.egress.m ++ [s.originate kindRply (replyBody re st bs)], reserved := s.egress.reserved - 1 } }) (.of_watch rfl) (grant_attends _)

/-! ### Sealing and re-evaluation (R94, R95) -/

theorem sealWhere_stamps (c : SealCause) (p : EpochRec → Bool) (s : State) : s.Stamps (sealWhere c p s) := by
  refine .of_ring (by simp) (by simp) (by simp) ?_
  rw [sealWhere_ring]
  refine Ring.ticks_of_recs fun e he x hx => ?_
  obtain ⟨r, hr, rfl⟩ := List.mem_map.1 he
  split at hx
  · cases hx
    exact .inl rfl
  · exact .inr ⟨r, hr, hx⟩

theorem recountAll_stamps (s : State) : s.Stamps (recountAll s) := by
  refine State.Stamps.trans (setRing_stamps (Ring.ticks_of_recs fun e he x hx => ?_)) (sealWhere_stamps _ _ _)
  obtain ⟨r, hr, rfl⟩ := List.mem_map.1 he
  split at hx <;> exact .inr ⟨r, hr, hx⟩

/-! ### The application of a commit (R181) -/

theorem dropMapping_attends (s : State) : s.Attends (dropMapping s) := by
  have dropped : s.Stamps (dropMapping s) := by
    refine .of_parts rfl (fun x hx => .inr ?_) (fun _ => .inr) fun _ => .inr
    simp only [dropMapping, forgetPulse, Tru.ticks, Option.map_none, Option.toList_none, List.nil_append, List.append_nil] at hx
    simp only [Tru.ticks, List.mem_append]
    exact .inl (.inr hx)
  exact .of_stamps dropped rfl rfl rfl

theorem commitTables_stamps (s : State) : s.Stamps (commitTables s) := by
  refine .of_ring rfl rfl rfl (Ring.ticks_of_recs fun e he x hx => ?_)
  obtain ⟨r, hr, rfl⟩ := List.mem_map.1 he
  exact .inr ⟨r, hr, hx⟩

theorem commitGrid_stamps (old : Params) (s : State) : s.Stamps (commitGrid old s) := by
  unfold commitGrid
  refine .ite (fun _ => .refl s) fun _ => .of_ring rfl rfl rfl fun x hx => .inr ?_
  simp only [Ring.ticks, List.map_nil, List.append_nil, List.mem_append] at hx ⊢
  exact hx.imp_left .inl

theorem commitReply_attends (s : State) : s.Attends (commitReply s) := by
  have applied (c : Control) : s.Attends { s with ctl := c } := .of_watch rfl
  unfold commitReply
  dsimp only
  split
  · exact (applied _).trans (reply_attends _ _ _ _)
  · exact applied _

theorem applyCommit_stamps (s : State) : s.Stamps (applyCommit s) := by
  have line (p : Params) (u : State) : u.Stamps (commitTimeLine p u) :=
    .ite (fun _ => .refl u) fun _ => .of_ring rfl rfl rfl fun _ => .inr
  have limit (p : Params) (u : State) : u.Stamps (commitHoldover p u) :=
    .ite (fun _ => (dropMapping_attends u).stamps) fun _ => .refl u
  have pulses (p : Params) (u : State) : u.Stamps (commitStrobe p u) :=
    .ite (fun _ => .refl u) fun _ => .of_ring rfl rfl rfl fun _ => .inr
  have quiesced (p : Params) (u : State) : u.Stamps (commitQuiesce p u) :=
    .of_ring (by simp) (by simp) (by simp) fun x hx => .inr (by simpa using hx)
  exact (commitTables_stamps s).trans ((commitGrid_stamps _ _).trans ((line _ _).trans ((limit _ _).trans ((pulses _ _).trans
    ((quiesced _ _).trans ((recountAll_stamps _).trans (commitReply_attends _).stamps))))))

/-- A commit that finds the ring empty leaves it empty (R179, R180). -/
theorem applyCommit_attends {s : State} (h : s.ring.recs = []) : s.Attends (applyCommit s) :=
  ⟨applyCommit_stamps s, fun _ => State.headOk_of_nil (by rw [applyCommit_recs, h, List.map_nil])⟩

/-! ### Departure, settling and flushes (R95, R98, R100, R101, R125) -/

theorem endStepDrain_stamps (s : State) : s.Stamps (endStepDrain s) := by
  refine .of_ring rfl rfl rfl fun x hx => .inr ?_
  simp only [endStepDrain, Ring.ticks, Option.toList_none, List.map_nil, List.nil_append, List.append_nil] at hx
  simp only [Ring.ticks, List.mem_append]
  exact .inr hx

/-- An empty ring prompts nothing that fills it. -/
theorem whenEmpty_attends (s : State) : s.Attends (whenEmpty s) := by
  have commits (u : State) : u.Stamps (if u.ctl.commit = .pendingDrain then applyCommit u else u) :=
    .ite (fun _ => applyCommit_stamps u) fun _ => .refl u
  have drained (b : Bool) : s.Stamps (if b then endStepDrain s else s) := .ite (fun _ => endStepDrain_stamps s) fun _ => .refl s
  have ended (u : State) : u.Stamps { u with ring := { u.ring with commitDrain := false } } := setRing_stamps fun _ => .inr
  refine ⟨.ite (fun _ => (drained _).trans ((ended _).trans (commits _))) fun _ => .refl s, fun hs => ?_⟩
  by_cases hr : s.ring.recs = []
  · exact State.headOk_of_nil (List.eq_nil_of_length_eq_zero (by rw [whenEmpty_recs_length, hr, List.length_nil]))
  · rwa [whenEmpty, if_neg (by simpa using hr)]

/-- The head's departure remembers the present tick (R73, R98). -/
theorem departed_stamps {s : State} {r : EpochRec} {rest : List EpochRec} (hr : s.ring.recs = r :: rest) (emitted : Bool) :
    s.Stamps (departed emitted r rest s) := by
  refine .of_ring (by simp [departed]) (by simp [departed]) (by simp [departed]) ?_
  rw [(departed_fields emitted r rest s).1]
  intro x hx
  simp only [leaveRing, Ring.ticks, Option.toList_some, List.singleton_append, List.mem_append, List.mem_cons, List.mem_map,
    List.mem_filterMap] at hx ⊢
  rcases hx with (rfl | ⟨m, hm, rfl⟩) | ⟨e, he, hs⟩
  · exact .inl rfl
  · rcases mem_remember _ _ m hm with rfl | hold
    · exact .inl rfl
    · exact .inr (.inl (.inr ⟨m, hold, rfl⟩))
  · exact .inr (.inr ⟨e, hr ▸ List.mem_cons_of_mem r he, hs⟩)

theorem depart_stamps (emitted : Bool) (s : State) : s.Stamps (depart emitted s) := by
  cases hr : s.ring.recs with
  | nil =>
    rw [depart, hr]
    exact .refl s
  | cons r rest =>
    have boundary (u : State) : u.Stamps (commitAtBoundary u) := .ite (fun _ => applyCommit_stamps u) fun _ => .refl u
    rw [depart_cons hr]
    exact (departed_stamps hr emitted).trans ((boundary _).trans (whenEmpty_attends _).stamps)

theorem settle_stamps (s : State) : s.Stamps (settle s) := by
  unfold settle
  generalize s.ring.recs.length = n
  induction n generalizing s with
  | zero => exact .refl s
  | succ n ih => exact .ite (fun _ => (depart_stamps false s).trans (ih _)) fun _ => .refl s

/-- The head considered last: whatever came before, none waits to leave (R125, R135, R142). -/
theorem State.Stamps.settled {s t : State} (h : s.Stamps t) : s.Attends (settle t) :=
  ⟨h.trans (settle_stamps t), fun _ => settle_headOk t⟩

/-- Every OPEN record sealed, a drain begun, the head considered, and the empty ring (R100, R101). -/
theorem flushed_attends {c : SealCause} {s : State} {r : Ring} (h : r.ticks = (sealWhere c (fun _ => true) s).ring.ticks) :
    s.Attends (whenEmpty (settle { sealWhere c (fun _ => true) s with ring := r })) :=
  ((sealWhere_stamps c (fun _ => true) s).trans (setRing_stamps (by rw [h]; exact fun _ => .inr))).settled.trans (whenEmpty_attends _)

theorem flushStep_attends (s : State) : s.Attends (flushStep s) := flushed_attends rfl

theorem flushCommit_attends (s : State) : s.Attends (flushCommit s) := flushed_attends rfl

/-! ### Streams (R37 to R44) -/

/-- A passage into or out of ACTIVE considers the head last; any other change passes it by (R42, R95). -/
theorem changeStream_attends (id : Nat) (f : StreamEntry → StreamEntry) (s : State) : s.Attends (changeStream id f s) := by
  cases he : s.stream id with
  | none =>
    rw [changeStream_unknown f he]
    exact .refl s
  | some e =>
    have mapped : s.Attends (s.mapStream id f) := .of_watch rfl
    rw [changeStream_known f he]
    exact .ite (fun _ => mapped) fun _ => mapped.trans (recountAll_stamps _).settled

theorem timeReport_attends (id : Nat) (bad : Bool) (s : State) : s.Attends (timeReport id bad s) := changeStream_attends _ _ s

theorem finishIsolating_attends (id : Nat) (s : State) : s.Attends (finishIsolating id s) := by
  unfold finishIsolating
  split
  · exact .refl s
  · exact .ite (fun _ => changeStream_attends _ _ s) fun _ => .refl s

/-! ### Placement (R27 to R29, R79) -/

/-- The records after one is put in its place: that one, and no other that was not there. -/
theorem mem_of_putRecord {e x : EpochRec} {r : Ring} (h : x ∈ putRecord e r) : x = e ∨ x ∈ r.recs := by
  have inserted (rs : List EpochRec) (hx : x ∈ insertRecord e rs) : x = e ∨ x ∈ rs := by
    induction rs with
    | nil => exact .inl (List.mem_singleton.1 hx)
    | cons d ds ih =>
      unfold insertRecord at hx
      split at hx
      · exact List.mem_cons.1 hx
      · rcases List.mem_cons.1 hx with rfl | hx
        · exact .inr List.mem_cons_self
        · exact (ih hx).imp_right (List.mem_cons_of_mem d)
  unfold putRecord at h
  split at h
  · obtain ⟨d, hd, rfl⟩ := List.mem_map.1 h
    split
    · exact .inl rfl
    · exact .inr hd
  · exact inserted r.recs h

/-- The taken record is sealed now, or its seal is that of a record of the ring (R89, R90, R92). -/
theorem takenRecord_sealTick {s : State} {o : Offer} {x : Nat} (h : (takenRecord s o).sealTick = some x) :
    x = s.tick ∨ ∃ d ∈ s.ring.recs, d.sealTick = some x := by
  rcases takenRecord_cases s o with ⟨heq, -⟩ | ⟨cause, heq⟩
  · have htarget : (targetRecord s o).sealTick = some x := by rw [heq] at h; exact h
    unfold targetRecord at htarget
    cases hf : s.ring.recordOf o.ordinal with
    | none => rw [hf] at htarget; cases htarget
    | some d => rw [hf] at htarget; exact .inr ⟨d, List.mem_of_find?_eq_some hf, htarget⟩
  · rw [heq] at h
    cases h
    exact .inl rfl

theorem accept_stamps (s : State) (o : Offer) : s.Stamps (accept s o) := by
  have put : s.Stamps { s with ring := { s.ring with recs := putRecord (takenRecord s o) s.ring } } := by
    refine setRing_stamps (Ring.ticks_of_recs fun e he x hx => ?_)
    rcases mem_of_putRecord he with rfl | hold
    · exact takenRecord_sealTick hx
    · exact .inr ⟨e, hold, hx⟩
  unfold accept
  dsimp only
  split
  · exact put.trans (State.Attends.of_watch ((report_watch _ _).trans (mapStream_watch _ _ _))).stamps
  · exact put.trans (State.Attends.of_watch (mapStream_watch _ _ _)).stamps

theorem ringEffect_stamps (a : Answer) (o : Offer) (s : State) : s.Stamps (ringEffect a o s) := by
  rw [ringEffect_eq]
  refine .ite (fun _ => accept_stamps s o) fun _ => .ite (fun _ => sealWhere_stamps _ _ s) fun _ =>
    .ite (fun _ => setRing_stamps fun x hx => ?_) fun _ => .refl s
  simp only [Ring.ticks, Option.toList_some, List.cons_append, List.nil_append, List.mem_cons, List.mem_append] at hx ⊢
  exact hx.imp_right fun h => h.imp_left .inr

theorem countAnswer_attends (a : Answer) (o : Offer) (s : State) : s.Attends (countAnswer a o s) := by
  refine .of_watch ?_
  unfold countAnswer
  dsimp only
  split
  · exact report_watch _ _
  · split
    · exact recordLatency_watch _ _ _
    · rfl

theorem handOff_attends (a : Answer) (o : Offer) (s : State) : s.Attends (handOff a o s) := by
  unfold handOff
  split
  · exact joinL_attends _ s
  · exact joinL_attends _ s
  · exact .refl s

theorem placeHeld_attends (o : Offer) (s : State) : s.Attends (placeHeld o s) := by
  have answered (a : Answer) (o' : Offer) : s.Stamps (handOff a o (countAnswer a o (ringEffect a o' s))) :=
    (ringEffect_stamps a o' s).trans ((countAnswer_attends a o _).trans (handOff_attends a o _)).stamps
  have reported (a : Answer) (u : State) : u.Attends (reportTime a o u) := .ite (fun _ => timeReport_attends _ _ u) fun _ => .refl u
  exact (answered _ _).settled.trans ((finishIsolating_attends _ _).trans (reported _ _))

theorem setAdm_attends (a : Admission) (s : State) : s.Attends { s with adm := a } := .of_watch rfl

theorem placeNext_attends (p : Port) (s : State) : s.Attends (placeNext p s) := by
  unfold placeNext
  split
  · exact .refl s
  · exact (setAdm_attends _ s).trans (.ite (fun _ => report_attends _ _) fun _ => placeHeld_attends _ _)

theorem placeAll_attends (p : Port) (n : Nat) (s : State) : s.Attends (placeAll p n s) := by
  induction n generalizing s with
  | zero => exact .refl s
  | succ n ih => exact .ite (fun _ => (placeNext_attends p s).trans (ih _)) fun _ => .refl s

/-! ### Admission (R18 to R26, R160 to R163, R171, R172) -/

theorem snapAndBuild_attends (m : Measurement) (a : ActiveSet) (c : StreamCfg) (s : State) : s.Attends (snapAndBuild m a c s) := by
  have refused (u : State) : u.Attends (refusedReport m c u) := .ite (fun _ => timeReport_attends _ _ u) fun _ => .refl u
  unfold snapAndBuild
  split
  · exact (report_attends _ s).trans (refused _)
  · exact State.Attends.trans (.of_watch (mapStream_watch _ _ s)) ((report_attends _ _).trans (refused _))
  · exact setAdm_attends _ s

theorem admitOne_attends (m : Measurement) (s : State) : s.Attends (admitOne m s) := by
  have alive : s.Attends (if m.life then lifeFrame m.id s else s) := .ite (fun _ => changeStream_attends _ _ s) fun _ => .refl s
  unfold admitOne
  split
  · exact report_attends _ s
  · exact .ite (fun _ => report_attends _ s) fun _ => .ite (fun _ => .of_watch (report_watch _ _)) fun _ =>
      alive.trans (snapAndBuild_attends _ _ _ _)

theorem ingestNext_attends (s : State) : s.Attends (ingestNext s) := by
  have ingested (f : IngestFrame) (r : WireRecord) (u : State) : u.Attends (ingestRecord f r u) :=
    .ite (fun _ => .refl u) fun _ => .ite (fun _ => report_attends _ u) fun _ => admitOne_attends _ u
  unfold ingestNext
  split
  · exact .refl s
  · next f fs _ =>
    refine (placeAll_attends f.port s.adm.offers.length s).trans ?_
    dsimp only
    split
    · exact setAdm_attends _ _
    · exact (setAdm_attends _ _).trans (ingested _ _ _)
    · exact (setAdm_attends _ _).trans (ingested _ _ _)

theorem catchUpBy_attends (p : Port) (n : Nat) (s : State) : s.Attends (catchUpBy p n s) := by
  induction n generalizing s with
  | zero => exact .refl s
  | succ n ih =>
    have step : s.Attends (catchUpStep p s) := .ite (fun _ => placeNext_attends p s) fun _ => ingestNext_attends s
    exact .ite (fun _ => step.trans (ih _)) fun _ => .refl s

theorem dispatch_attends (p : Port) (arrival : Nat) (payload : List Byte) (s : State) : s.Attends (dispatch p arrival payload s) := by
  have counted (c : Ctr) : s.Attends (report c s) := report_attends c s
  unfold dispatch
  refine .ite (fun _ => ?_) fun _ => .ite (fun _ => ?_) fun _ => .ite (fun _ => ?_) fun _ => counted _
  · split
    · exact counted _
    · exact admitOne_attends _ s
  · split
    · exact counted _
    · exact .ite (fun _ => counted _) fun _ => .ite (fun _ => .refl s) fun _ => setAdm_attends _ s
  · exact .ite (fun _ => counted _) fun _ => .ite (fun _ => counted _) fun _ => .ite (fun _ => .of_watch rfl) fun _ => counted _

theorem frameIn_attends (p : Port) (payload : List Byte) (s : State) : s.Attends (frameIn p payload s) := by
  unfold frameIn
  dsimp only
  split
  · exact (report_attends _ s).trans (report_attends _ _)
  · exact (report_attends _ s).trans (report_attends _ _)
  · exact (report_attends _ s).trans ((catchUpBy_attends p _ _).trans (dispatch_attends _ _ _ _))

end Sys2Proof.Machine
end

