-- ==== Sys2Proof/Proofs/HeadAndTicks.lean ====
section
/-! PROOFS. Every step leaves no head waiting that is to be withheld, and no recorded tick later than the present (R125, R135, R142,
R144): the commands, the edges and timers, and then every row. -/

namespace Sys2Proof.Machine

/-! ### The shared form of the commands (R173) -/

theorem checked_attends {f : CtrlFrame} {l e : Bool} {act : State → State} {s : State} (h : s.Attends (act s)) :
    s.Attends (checked f l e act s) :=
  .ite (fun _ => reply_attends _ _ _ s) fun _ => .ite (fun _ => reply_attends _ _ _ s) fun _ => h

theorem whenNoCommit_attends {f : CtrlFrame} {act : State → State} {s : State} (h : s.Attends (act s)) :
    s.Attends (whenNoCommit f act s) := .ite (fun _ => h) fun _ => reply_attends _ _ _ s

theorem executeIf_attends {p : Nat → Bool} {act : CtrlFrame → State → State} (h : ∀ f u, State.Attends u (act f u)) (s : State) :
    s.Attends (executeIf p act s) := by
  unfold executeIf
  split
  · exact .refl s
  · next f q _ =>
    have popped : s.Attends (s.popped q) := .of_watch rfl
    exact .ite (fun _ => popped.trans (h _ _)) fun _ => .refl s

theorem execute_attends {act : CtrlFrame → State → State} (h : ∀ f u, State.Attends u (act f u)) (code : Nat) (s : State) :
    s.Attends (execute code act s) := .ite (fun _ => executeIf_attends h s) fun _ => .refl s

/-- A reply after a change beside unit, ring, decision and transmission. -/
theorem replyAfter_attends {s t : State} (h : t.watch = s.watch) (re : ReplyTo) (st : Status) (bs : List Byte) :
    s.Attends (reply re st bs t) := State.Attends.trans (.of_watch h) (reply_attends re st bs t)

/-! ### Staging and COMMIT (R175 to R179) -/

theorem stageStreamAct_attends (f : CtrlFrame) (s : State) : s.Attends (stageStreamAct f s) := by
  refine checked_attends (whenNoCommit_attends (.ite (fun _ => ?_) fun _ => reply_attends _ _ _ s))
  split
  · exact replyAfter_attends (by rfl) _ _ _
  · exact reply_attends _ _ _ s

theorem unstageStreamAct_attends (f : CtrlFrame) (s : State) : s.Attends (unstageStreamAct f s) := by
  refine checked_attends (whenNoCommit_attends ?_)
  split
  · exact replyAfter_attends (by rfl) _ _ _
  · exact reply_attends _ _ _ s

theorem stageRangeAct_attends (f : CtrlFrame) (s : State) : s.Attends (stageRangeAct f s) := by
  refine checked_attends (whenNoCommit_attends ?_)
  dsimp only
  split
  · exact .ite (fun _ => replyAfter_attends (by rfl) _ _ _) fun _ => reply_attends _ _ _ s
  · exact reply_attends _ _ _ s

theorem stageParamsAct_attends (f : CtrlFrame) (s : State) : s.Attends (stageParamsAct f s) := by
  unfold stageParamsAct
  split
  · exact checked_attends (.refl s)
  · exact checked_attends (whenNoCommit_attends (.ite (fun _ => replyAfter_attends (by rfl) _ _ _) fun _ => reply_attends _ _ _ s))

theorem discardStageAct_attends (f : CtrlFrame) (s : State) : s.Attends (discardStageAct f s) :=
  checked_attends (whenNoCommit_attends (replyAfter_attends (by rfl) _ _ _))

/-- A commit that finds the ring empty applies to an empty ring, and one that needs a drain considers the head in its flush (R179). -/
theorem placeCommit_attends (re : ReplyTo) (s : State) : s.Attends (placeCommit re s) := by
  have waits (c : CommitState) : s.Attends { s with ctl := { s.ctl with commit := c, commitFor := some re } } := .of_watch rfl
  exact .ite (fun h => (waits _).trans (applyCommit_attends (List.isEmpty_iff.1 h))) fun _ =>
    .ite (fun _ => (waits _).trans (flushCommit_attends _)) fun _ => waits _

theorem commitAct_attends (f : CtrlFrame) (s : State) : s.Attends (commitAct f s) :=
  checked_attends (.ite (fun _ => reply_attends _ _ _ s) fun _ => .ite (fun _ => reply_attends _ _ _ s) fun _ => placeCommit_attends _ s)

/-! ### Short commands and reads (R39, R40, R133, R137, R138, R143, R185, R186) -/

theorem isolateAct_attends (f : CtrlFrame) (s : State) : s.Attends (isolateAct f s) := by
  have isolated (id : Nat) : s.Attends (isolateStream id s) := by
    unfold isolateStream
    split
    · exact .refl s
    · exact .ite (fun _ => .refl s) fun _ => .ite (fun _ => .of_watch rfl) fun _ => changeStream_attends _ _ s
  exact checked_attends (.ite (fun _ => (isolated _).trans (reply_attends _ _ _ _)) fun _ => reply_attends _ _ _ s)

theorem restoreAct_attends (f : CtrlFrame) (s : State) : s.Attends (restoreAct f s) :=
  checked_attends (.ite (fun _ => (changeStream_attends _ _ s).trans (reply_attends _ _ _ _)) fun _ => reply_attends _ _ _ s)

theorem setOverrides_watch (es : List OverrideEntry) (s : State) : (setOverrides es s).watch = s.watch := by
  unfold setOverrides
  dsimp only
  split <;> rfl

theorem setOverrideAct_attends (f : CtrlFrame) (s : State) : s.Attends (setOverrideAct f s) := by
  unfold setOverrideAct
  dsimp only
  split
  · exact checked_attends (.refl s)
  · refine checked_attends ?_
    split
    · exact reply_attends _ _ _ s
    · exact replyAfter_attends (setOverrides_watch _ s) _ _ _

theorem clearOverrideAct_attends (f : CtrlFrame) (s : State) : s.Attends (clearOverrideAct f s) :=
  checked_attends (.ite (fun _ => replyAfter_attends (setOverrides_watch _ s) _ _ _) fun _ => reply_attends _ _ _ s)

/-- A change of the Composer after which the head is considered (R133, R140, R143). -/
theorem settleComp_attends (c : Composer) (s : State) : s.Attends (settle { s with comp := c }) :=
  State.Stamps.settled (.of_ring rfl rfl rfl fun _ => .inr)

theorem setEmissionAct_attends (f : CtrlFrame) (s : State) : s.Attends (setEmissionAct f s) := by
  unfold setEmissionAct
  split
  · exact checked_attends (.refl s)
  · exact checked_attends ((settleComp_attends _ s).trans (reply_attends _ _ _ _))

theorem clearQuiesceAct_attends (f : CtrlFrame) (s : State) : s.Attends (clearQuiesceAct f s) :=
  checked_attends (.ite (fun _ => reply_attends _ _ _ s) fun _ => (settleComp_attends _ s).trans (reply_attends _ _ _ _))

theorem readStatusAct_attends (f : CtrlFrame) (s : State) : s.Attends (readStatusAct f s) := checked_attends (reply_attends _ _ _ s)

theorem readRangesAct_attends (f : CtrlFrame) (s : State) : s.Attends (readRangesAct f s) := checked_attends (reply_attends _ _ _ s)

theorem readStreamAct_attends (f : CtrlFrame) (s : State) : s.Attends (readStreamAct f s) := by
  refine checked_attends ?_
  split
  · exact reply_attends _ _ _ s
  · exact State.Attends.trans (.ite (fun _ => .of_watch (mapStream_watch _ _ s)) fun _ => .refl s) (reply_attends _ _ _ _)

theorem readOverridesAct_attends (f : CtrlFrame) (s : State) : s.Attends (readOverridesAct f s) :=
  checked_attends (replyAfter_attends (by rfl) _ _ _)

/-! ### The Monitor, the Profile Store and RESTART (R187, R188, R190, R195, R199) -/

theorem snapshotAct_attends (f : CtrlFrame) (s : State) : s.Attends (snapshotAct f s) := checked_attends (replyAfter_attends (by rfl) _ _ _)

theorem setCondition_attends (hold : Bool) (f : CtrlFrame) (s : State) : s.Attends (setCondition hold f s) :=
  checked_attends (replyAfter_attends (by rfl) _ _ _)

theorem saveProfileAct_attends (f : CtrlFrame) (s : State) : s.Attends (saveProfileAct f s) :=
  checked_attends (.ite (fun _ => reply_attends _ _ _ s) fun _ => .of_watch rfl)

theorem writeComplete_attends (damage : List (Nat × Byte)) (s : State) : s.Attends (writeComplete damage s) := by
  unfold writeComplete
  split
  · exact .refl s
  · dsimp only
    split
    · exact replyAfter_attends (by rfl) _ _ _
    · exact .of_watch rfl

/-- RESTART leaves the ring empty, whatever its boundary's commit decided (R102, R188). -/
theorem restartAct_attends (f : CtrlFrame) (s : State) : s.Attends (restartAct f s) := by
  have committed : s.Stamps (restartCommit s) := .ite (fun _ => (applyCommit_stamps s).trans (settle_stamps _)) fun _ => .refl s
  have discarded (u : State) : u.Stamps (ringDiscarded u) := by
    refine .of_ring (by simp) (by simp [ringDiscarded]) (by simp) ?_
    rw [(show (ringDiscarded u).ring = { u.ring with recs := [] } by simp)]
    exact Ring.ticks_of_recs (by simp)
  have emptied (u : State) : u.Attends (restartRing u) :=
    ⟨(discarded u).trans (whenEmpty_attends _).stamps, fun _ => State.headOk_of_nil (restartRing_ring u).1⟩
  have queues (u : State) : u.Attends (restartStreams (restartQueues u)) := .of_watch rfl
  have restarted : s.Attends (restartStreams (restartQueues (restartRing (restartCommit s)))) :=
    ⟨committed.trans ((emptied _).trans (queues _)).stamps, fun _ => (queues _).head (State.headOk_of_nil (restartRing_ring _).1)⟩
  exact checked_attends (restarted.trans (reply_attends _ _ _ _))

/-! ### The TIME line (R104 to R106) -/

theorem setTime_attends (l : TimeLine) (s : State) : s.Attends { s with time := l } := .of_watch rfl

theorem deliver_attends (b : Byte) (s : State) : s.Attends (deliver b s) := by
  have chars (cs : List Byte) : s.Attends (setChars cs s) := setTime_attends _ s
  have framing (cs : List Byte) : s.Attends (report .timeFraming (setChars cs s)) := (chars cs).trans (report_attends _ _)
  have completed (cs : List Byte) : s.Attends (completeMessage cs s) :=
    .ite (fun _ => framing _) fun _ =>
      State.Attends.trans (.ite (fun _ => report_attends _ s) fun _ => .refl s) (setTime_attends _ _)
  exact .ite (fun _ => .ite (fun _ => chars _) fun _ => .refl s) fun _ => .ite (fun _ => framing _) fun _ =>
    .ite (fun _ => .ite (fun _ => completed _) fun _ => chars _) fun _ => framing _

theorem receiveChar_attends (c : TimeChar) (s : State) : s.Attends (receiveChar c s) :=
  .ite (fun _ => (setTime_attends _ s).trans (report_attends _ _)) fun _ =>
    .ite (fun _ => (setTime_attends _ s).trans (deliver_attends _ _)) fun _ =>
      (setTime_attends _ s).trans ((setTime_attends _ _).trans (report_attends _ _))

/-! ### PPS edges, watchdog and pulses (R107 to R117, R122) -/

/-- A change of the unit passes the head by (R103). -/
theorem setTru_attends {s : State} {u : Tru} (h : ∀ x ∈ u.ticks, x = s.tick ∨ x ∈ s.tru.ticks) : s.Attends { s with tru := u } :=
  .of_stamps (setTru_stamps h) rfl rfl rfl

/-- A mapping and an edge reference taken at an edge are of the present tick (R108, R111, R115, R116). -/
theorem lock_attends (s : State) (label : Nat) (msg : Option MsgQuality) : s.Attends { s with tru := s.tru.lock label s.tick msg } :=
  setTru_attends fun x hx => .inl (by simpa [Tru.lock, Tru.ticks] using hx)

/-- An edge that is noted becomes the edge reference, under the mapping and the entry into HOLDOVER that stood (R111, R116). -/
theorem noteEdge_attends {s : State} {u : Tru} (he : u.edgeRef = some s.tick) (hm : u.mapping = s.tru.mapping)
    (hh : u.holdEntry = s.tru.holdEntry) : s.Attends { s with tru := u } := by
  refine setTru_attends fun x hx => ?_
  simp only [Tru.ticks, he, hm, hh, Option.toList_some, List.mem_append, List.mem_singleton] at hx ⊢
  rcases hx with (hx | rfl) | hx
  · exact .inr (.inl (.inl hx))
  · exact .inl rfl
  · exact .inr (.inr hx)

theorem edgeTaken_watch (regular irregular : Bool) (s : State) : (edgeTaken regular irregular s).watch = s.watch := by
  simp only [edgeTaken]
  split_ifs <;> simp [State.watch]

theorem epochJump_attends (was : Option Nat) (s : State) : s.Attends (epochJump was s) := .of_watch (epochJump_watch was s)

theorem forgetPulse_attends (s : State) : s.Attends (forgetPulse s) := .of_watch rfl

theorem referenceStep_attends (m : TimeMsg) (s : State) : s.Attends (referenceStep m s) :=
  (lock_attends s _ _).trans ((forgetPulse_attends _).trans ((report_attends _ _).trans (flushStep_attends _)))

theorem edgeAcquiring_attends (c : EdgeClass) (m : Option TimeMsg) (s : State) : s.Attends (edgeAcquiring c m s) := by
  unfold edgeAcquiring
  split
  · exact noteEdge_attends rfl rfl rfl
  · exact .ite (fun _ => (lock_attends s _ _).trans (forgetPulse_attends _)) fun _ => noteEdge_attends rfl rfl rfl

theorem renew_attends (label : Nat) (mismatch : Option Nat) (msg : Option MsgQuality) (s : State) :
    s.Attends (renew label mismatch msg s) := by
  refine State.Attends.trans (setTru_attends fun x hx => ?_) (epochJump_attends _ _)
  simp only [Tru.ticks, Option.map_some, Option.toList_some, List.mem_append, List.mem_singleton] at hx ⊢
  rcases hx with (rfl | rfl) | hx
  · exact .inl rfl
  · exact .inl rfl
  · exact .inr (.inr hx)

theorem edgeByState_attends (c : EdgeClass) (m : Option TimeMsg) (s : State) : s.Attends (edgeByState c m s) := by
  have returned (label : Nat) (msg : Option MsgQuality) : s.Attends (holdoverReturn label msg s) :=
    (lock_attends s _ _).trans (epochJump_attends _ _)
  unfold edgeByState
  split
  · exact edgeAcquiring_attends c m s
  · refine .ite (fun _ => ?_) fun _ => .refl s
    unfold regularLocked
    dsimp only
    split
    · exact renew_attends _ _ _ s
    · exact .ite (fun _ => renew_attends _ _ _ s) fun _ => .ite (fun _ => referenceStep_attends _ s) fun _ => renew_attends _ _ _ s
  · refine .ite (fun _ => ?_) fun _ => noteEdge_attends rfl rfl rfl
    unfold regularHoldover
    dsimp only
    split
    · exact returned _ _
    · exact .ite (fun _ => returned _ _) fun _ => .ite (fun _ => referenceStep_attends _ s) fun _ => noteEdge_attends rfl rfl rfl
  · exact .refl s

theorem ppsEdge_attends (s : State) : s.Attends (ppsEdge s) := by
  rw [ppsEdge_eq]
  exact State.Attends.trans (.of_watch (edgeTaken_watch _ _ s)) (edgeByState_attends _ _ _)

/-- HOLDOVER is entered at the present tick (R114, R117). -/
theorem enterHoldover_attends (s : State) : s.Attends (enterHoldover s) := by
  have entered : s.Attends { s with
      tru := { s.tru with state := .holdover, watchdog := none, holdEntry := some s.tick, mismatch := none } } := by
    refine setTru_attends fun x hx => ?_
    simp only [Tru.ticks, Option.toList_some, List.mem_append, List.mem_singleton] at hx ⊢
    rcases hx with hx | rfl
    · exact .inr (.inl hx)
    · exact .inl rfl
  exact .ite (fun _ => entered.trans (dropMapping_attends _)) fun _ => entered

theorem epochPulse_attends (s : State) : s.Attends (epochPulse s) := by
  unfold epochPulse
  split
  · exact .refl s
  · exact .of_watch (strobePulse_watch _)

/-! ### Timers, sets, transmissions, QUIESCE (R38, R93, R126, R132, R140, R151) -/

theorem silenceExpiry_attends (idx : Nat) (s : State) : s.Attends (silenceExpiry idx s) := by
  unfold silenceExpiry
  split
  · exact .refl s
  · exact .ite (fun _ => changeStream_attends _ _ s) fun _ => .refl s

theorem recountAt_stamps (ordinal : Nat) (s : State) : s.Stamps (recountAt ordinal s) := by
  refine setRing_stamps (Ring.ticks_of_recs fun e he x hx => ?_)
  obtain ⟨r, hr, rfl⟩ := List.mem_map.1 he
  split at hx <;> exact .inr ⟨r, hr, hx⟩

theorem expireDeadline_attends (ordinal : Nat) (s : State) : s.Attends (expireDeadline ordinal s) := by
  unfold expireDeadline
  dsimp only
  split
  · exact .refl s
  · exact .ite (fun _ => ((recountAt_stamps ordinal s).trans (sealWhere_stamps _ _ _)).settled) fun _ => .refl s

/-- A head whose set begins is to be emitted (R97, R125). -/
theorem startSet_attends {s : State} (h : s.composeDue = true) : s.Attends (startSet s) := by
  cases hr : s.ring.recs with
  | nil =>
    rw [startSet, hr]
    exact .refl s
  | cons r rest =>
    rw [startSet_cons hr]
    refine ⟨.of_ring rfl rfl rfl (Ring.ticks_of_recs fun e he x hx => ?_), fun _ => ?_⟩
    · rcases List.mem_cons.1 he with rfl | hrest
      · exact .inr ⟨r, hr ▸ List.mem_cons_self, hx⟩
      · exact .inr ⟨e, hr ▸ List.mem_cons_of_mem r hrest, hx⟩
    · have hq : s.comp.quiesced = false := by
        simp only [State.composeDue_eq, hr, List.head?_cons, Option.any_some, Bool.and_eq_true, decide_eq_true_eq] at h
        exact h.1.2.1
      simp [State.HeadOk, State.headMustLeave, hq]

theorem queueNext_attends (s : State) : s.Attends (queueNext s) := by
  unfold queueNext
  split
  · exact .refl s
  · next c p _ =>
    have advanced : s.Attends (moveRecords p.records (setAdvanced c s)) := .of_watch rfl
    have queued : s.Attends (partQueued c p s) := advanced.trans (joinO_attends _ _)
    exact .ite (fun _ => (queued.stamps.trans (depart_stamps true _)).settled) fun _ => queued

theorem endTransmission_attends (s : State) : s.Attends (endTransmission s) := by
  have ended : s.Attends { s with egress := { s.egress with tx := none } } :=
    .of_stamps (.of_parts rfl (fun _ => .inr) (fun _ => .inr) nofun) rfl rfl rfl
  unfold endTransmission
  split
  · exact .refl s
  · dsimp only
    split
    · exact ended.trans ((report_attends _ _).trans (grant_attends _))
    · exact ended.trans (grant_attends _)

theorem quiesceFall_attends (s : State) : s.Attends (quiesceFall s) :=
  .ite (fun _ => State.Stamps.settled (.of_ring rfl rfl rfl fun _ => .inr)) fun _ => .of_watch rfl

/-! ### Every row and every step -/

/-- Every row but those of supply and RESET. -/
theorem exec_attends {c : Instr} (hc : ¬ IsSupply c) (s : State) : ∃ t, exec c s = .next t ∧ s.Attends t := by
  have event {t : State} (h : s.Attends t) : s.Attends (whileOperating s t) := .ite (fun _ => h) fun _ => .refl s
  have due {t : State} {p : Bool} (h : p = true → s.Attends t) : s.Attends (whileOperating s (if p then t else s)) :=
    event (.ite h fun _ => .refl s)
  have links (l : Links) : s.Attends { s with links := l } := .of_watch rfl
  cases c with
  | powerUp _ | resetAssert | resetRelease | powerLoss => exact absurd trivial hc
  | ingressLinkUp p | ingressLinkDown p => exact ⟨_, rfl, event (links _)⟩
  | portOLinkUp => exact ⟨_, rfl, event ((links _).trans (grant_attends _))⟩
  | portOLinkDown =>
    exact ⟨_, rfl, event (.of_stamps (.of_parts rfl (fun _ => .inr) (fun _ => .inr) nofun) rfl rfl rfl)⟩
  | ingressFrameComplete p good f => exact ⟨_, rfl, event (.ite (fun _ => frameIn_attends _ _ s) fun _ => .refl s)⟩
  | asetRecordIngest => exact ⟨_, rfl, event (ingestNext_attends s)⟩
  | placement p => exact ⟨_, rfl, event (placeNext_attends p s)⟩
  | silenceTimerExpiry idx => exact ⟨_, rfl, event (silenceExpiry_attends idx s)⟩
  | deadlineExpiry ordinal => exact ⟨_, rfl, event (expireDeadline_attends ordinal s)⟩
  | composeSet => exact ⟨_, rfl, due startSet_attends⟩
  | queuePart => exact ⟨_, rfl, event (queueNext_attends s)⟩
  | commitApply =>
    refine ⟨_, rfl, due fun h => applyCommit_attends ?_⟩
    rw [State.commitDue_eq, decide_eq_true_eq] at h
    exact h.2
  | transmissionComplete => exact ⟨_, rfl, event (endTransmission_attends s)⟩
  | strobePulseEnd | elapsedFreeze => exact ⟨_, rfl, due fun _ => .of_watch rfl⟩
  | epochPulse => exact ⟨_, rfl, event (epochPulse_attends s)⟩
  | ppsEdge => exact ⟨_, rfl, event (ppsEdge_attends s)⟩
  | edgeWatchdogExpiry => exact ⟨_, rfl, due fun _ => enterHoldover_attends s⟩
  | holdoverLimitReached => exact ⟨_, rfl, due fun _ => dropMapping_attends s⟩
  | timeCharacter c => exact ⟨_, rfl, due fun _ => receiveChar_attends c s⟩
  | quiesceEvent =>
    have low : s.Attends { s with comp := { s.comp with lineLow := true } } := .of_watch rfl
    exact ⟨_, rfl, .ite (fun _ => low.trans (quiesceFall_attends _)) fun _ => low⟩
  | quiesceLineRise => exact ⟨_, rfl, .of_watch rfl⟩
  | profileWriteComplete damage => exact ⟨_, rfl, event (writeComplete_attends damage s)⟩
  | stageStream => exact ⟨_, rfl, execute_attends stageStreamAct_attends _ s⟩
  | unstageStream => exact ⟨_, rfl, execute_attends unstageStreamAct_attends _ s⟩
  | stageRange => exact ⟨_, rfl, execute_attends stageRangeAct_attends _ s⟩
  | stageParams => exact ⟨_, rfl, execute_attends stageParamsAct_attends _ s⟩
  | discardStage => exact ⟨_, rfl, execute_attends discardStageAct_attends _ s⟩
  | commit => exact ⟨_, rfl, execute_attends commitAct_attends _ s⟩
  | isolate => exact ⟨_, rfl, execute_attends isolateAct_attends _ s⟩
  | restore => exact ⟨_, rfl, execute_attends restoreAct_attends _ s⟩
  | setOverride => exact ⟨_, rfl, execute_attends setOverrideAct_attends _ s⟩
  | clearOverride => exact ⟨_, rfl, execute_attends clearOverrideAct_attends _ s⟩
  | setEmission => exact ⟨_, rfl, execute_attends setEmissionAct_attends _ s⟩
  | clearQuiesce => exact ⟨_, rfl, execute_attends clearQuiesceAct_attends _ s⟩
  | readStatus => exact ⟨_, rfl, execute_attends readStatusAct_attends _ s⟩
  | readStream => exact ⟨_, rfl, execute_attends readStreamAct_attends _ s⟩
  | readRanges => exact ⟨_, rfl, execute_attends readRangesAct_attends _ s⟩
  | readOverrides => exact ⟨_, rfl, execute_attends readOverridesAct_attends _ s⟩
  | snapshotCounters => exact ⟨_, rfl, execute_attends snapshotAct_attends _ s⟩
  | monitorRun | monitorHold => exact ⟨_, rfl, execute_attends (setCondition_attends _) _ s⟩
  | saveProfile => exact ⟨_, rfl, execute_attends saveProfileAct_attends _ s⟩
  | restart => exact ⟨_, rfl, execute_attends restartAct_attends _ s⟩
  | unknownCommand => exact ⟨_, rfl, event (executeIf_attends (fun _ _ => reply_attends _ _ _ _) s)⟩

/-- A start leaves an empty ring and records no tick (R202). -/
theorem start_headOk_ticksOk (s : State) : (start s).HeadOk ∧ (start s).TicksOk :=
  ⟨State.headOk_of_nil rfl, State.ticksOk_iff.2 nofun⟩

/-- A row leaves a part that takes events without a head that waits to leave and without a tick in the future. -/
theorem exec_headOk_ticksOk {c : Instr} {s t : State} (hs : s.operating = true → s.HeadOk ∧ s.TicksOk) (h : exec c s = .next t)
    (ht : t.operating = true) : t.HeadOk ∧ t.TicksOk := by
  by_cases hc : IsSupply c
  · cases c with
    | powerUp r => cases h; exact start_headOk_ticksOk _
    | resetRelease =>
      rcases exec_resetRelease_cases h ht with ⟨u, rfl⟩ | ⟨ho, rfl⟩
      · exact start_headOk_ticksOk u
      · exact State.Attends.sound (s := s) (.of_watch rfl) (hs ho)
    | resetAssert | powerLoss => cases h; simp [State.operating] at ht
    | _ => exact absurd hc id
  · obtain ⟨u, hu, hattends⟩ := exec_attends hc s
    cases hu.symm.trans h
    refine hattends.sound (hs (operating_of_exec ?_ ?_ h ht))
    · rintro r rfl; exact hc trivial
    · rintro rfl; exact hc trivial

/-- A tick that passes moves no head and records nothing (R103). -/
theorem ticked_headOk_ticksOk {s : State} (h : s.HeadOk ∧ s.TicksOk) (m : Monitor) :
    State.HeadOk { s with tick := s.tick + 1, mon := m } ∧ State.TicksOk { s with tick := s.tick + 1, mon := m } :=
  ⟨h.1, State.ticksOk_iff.2 fun x hx => (State.ticksOk_iff.1 h.2 x hx).trans (Nat.le_succ _)⟩

/-- Settles O59: a step is a row, or a tick that passes. -/
theorem stepsLeaveNoWithheldHeadAndNoFutureTick : Obligations.StepsLeaveNoWithheldHeadAndNoFutureTick := by
  unfold Obligations.StepsLeaveNoWithheldHeadAndNoFutureTick
  intro s t hs h ht
  have sound (ho : s.operating = true) : s.HeadOk ∧ s.TicksOk := ⟨(hs.running ho).head, (hs.running ho).ticks⟩
  rcases step_cases h with ⟨c, rest, hexec⟩ | rfl
  · have queued : s.Attends { s with pending := rest } := .of_watch rfl
    exact exec_headOk_ticksOk (fun ho => queued.sound (sound ho)) hexec ht
  · have ho : s.operating = true := by
      unfold oneTick whileOperating at ht
      split at ht <;> assumption
    rw [oneTick, whileOperating_pos ho]
    exact ticked_headOk_ticksOk (sound ho) _

end Sys2Proof.Machine
end

