-- ==== Sys2Proof/Proofs/SetRecords.lean ====
section
/-! PROOFS. Which record a stream receives in a set, before overrides and under one (R127 to R131). -/

namespace Sys2Proof.Machine

/-! ### Before overrides (R127 to R130) -/

/-- A stream without a contribution receives a record where it is expected and not ISOLATED (R127). -/
theorem plainRecord_none (a : ActiveSet) (ordinal : Nat) (e : StreamEntry) : plainRecord a ordinal e none =
    if e.state = .isolated ∨ expectedAt e.cfg.rs a.params.rate ordinal = false then none else some (missingRecord a e) := by
  by_cases hi : e.state = .isolated
  · simp [plainRecord, hi]
  · by_cases hx : expectedAt e.cfg.rs a.params.rate ordinal = true <;> simp [plainRecord, hi, hx]

/-- An ABSENT record: the stream, and nothing of it (R130). -/
def absentRecord (e : StreamEntry) : SetRecord where
  idx := e.idx
  id := e.cfg.id
  hop := 0
  status := .absent
  holdAge := 0
  content := none

theorem missingRecord_uncached {a : ActiveSet} {e : StreamEntry} (h : e.hold = none) : missingRecord a e = absentRecord e := by
  rw [missingRecord, h]
  rfl

/-- A hold cache is used while hold is allowed and the age is below the limit (R129). -/
theorem missingRecord_cached {a : ActiveSet} {e : StreamEntry} {k : Content} (h : e.hold = some k) : missingRecord a e =
    if holdAllowed a e.cfg = true ∧ e.holdAge < e.cfg.holdLimit then
      { idx := e.idx, id := e.cfg.id, hop := k.hop, status := .held, holdAge := e.holdAge + 1, content := some k }
    else absentRecord e := by
  rw [missingRecord, h]
  simp only [Bool.and_eq_true, decide_eq_true_eq]
  rfl

/-! ### Under an override in force (R131) -/

theorem streamRecord_suppress {o : Override} (h : o.action = .suppress) (a : ActiveSet) (ordinal : Nat) (e : StreamEntry)
    (c : Option Contribution) : streamRecord a ordinal e c (some o) = none := by
  simp only [streamRecord, h]

theorem streamRecord_markInvalid {o : Override} (h : o.action = .markInvalid) (a : ActiveSet) (ordinal : Nat) (e : StreamEntry) :
    streamRecord a ordinal e none (some o) = plainRecord a ordinal e none ∧
    ∀ k : Contribution, streamRecord a ordinal e (some k) (some o) =
      some (overriddenRecord e { k.content with flags := { k.content.flags with dataInvalid := true } }) := by
  simp only [streamRecord, h, implies_true, and_self]

/-- A substitute takes the place of whatever the stream would receive, where its phasor count is the expected one. -/
theorem streamRecord_substitute {o : Override} (h : o.action = .substitute) (a : ActiveSet) (ordinal : Nat) (e : StreamEntry)
    (c : Option Contribution) : streamRecord a ordinal e c (some o) =
      if o.phasors.length = e.cfg.phasors then
        (plainRecord a ordinal e c).map fun _ => overriddenRecord e (substitutedContent e o)
      else plainRecord a ordinal e c := by
  simp only [streamRecord, h]

/-- Settles O29: the record before overrides by contribution, expectation and hold cache, and then each action. -/
theorem recordsOfASet : Obligations.RecordsOfASet := by
  unfold Obligations.RecordsOfASet
  intro a ordinal e c missing plain
  have hmissing : plainRecord a ordinal e none = missing := by
    rw [plainRecord_none]
    simp only [missing]
    split
    · rfl
    · cases hk : e.hold with
      | none => rw [missingRecord_uncached hk]; rfl
      | some k =>
        rw [missingRecord_cached hk]
        dsimp only
        split <;> rfl
  have hplain : plainRecord a ordinal e c = plain := by
    cases c with
    | none => exact hmissing
    | some k => rfl
  refine ⟨hplain, fun o ho => streamRecord_suppress ho a ordinal e c, fun o ho => ?_, fun o ho => ?_⟩
  · obtain ⟨hnone, hsome⟩ := streamRecord_markInvalid ho a ordinal e
    cases c with
    | none => exact hnone.trans hmissing
    | some k => exact hsome k
  · rw [streamRecord_substitute ho, hplain]
    rfl

end Sys2Proof.Machine
end

