-- ==== Sys2Proof/Proofs/QuiesceLine.lean ====
section
/-! PROOFS. The QUIESCE line, CLEAR_QUIESCE and SET_EMISSION (R125, R133, R140, R142, R143). -/

namespace Sys2Proof.Machine

/-- A falling edge moves the line's level, and is a quiesce event while the part takes events (R140, log 34). -/
theorem exec_quiesceEvent (s : State) : exec .quiesceEvent s = .next
    (if s.operating then quiesceFall { s with comp := { s.comp with lineLow := true } }
    else { s with comp := { s.comp with lineLow := true } }) := rfl

/-- CLEAR_QUIESCE in its right form: refused while the line is low, else both indications cleared and the head considered (R143). -/
theorem clearQuiesceAct_eq {f : CtrlFrame} (h : f.args = []) (s : State) : clearQuiesceAct f s =
    if s.comp.lineLow then reply f.re .lineAsserted [] s
    else reply f.re .ok [] (settle { s with comp := { s.comp with seen := false, quiesced := false } }) := by
  rw [clearQuiesceAct, h]
  rfl

/-- A field that is one byte. -/
theorem field_singleton (b : Byte) : field [b] 0 1 = b.toNat := by simp [field, beNat]

/-- SET_EMISSION with a value of the list sets that mode (R133). -/
theorem setEmissionAct_mode {f : CtrlFrame} {b : Byte} {m : EmissionMode} (h : f.args = [b]) (hm : modeOf b.toNat = some m) (s : State) :
    setEmissionAct f s = reply f.re .ok [] (setMode m s) := by
  simp only [setEmissionAct, h, field_singleton, hm]
  rfl

/-- SET_EMISSION with any other value is refused (R12, R133). -/
theorem setEmissionAct_beyond {f : CtrlFrame} {b : Byte} (h : f.args = [b]) (hb : 2 < b.toNat) (s : State) :
    setEmissionAct f s = reply f.re .badField [] s := by
  simp only [setEmissionAct, h, field_singleton, modeOf_eq_none.2 hb]
  rfl

/-- Settles O33: the edges by their definitions, the commands by their acts. -/
theorem quiesceAndEmission : Obligations.QuiesceAndEmission := by
  unfold Obligations.QuiesceAndEmission
  refine ⟨⟨fun s ho => ?_, fun s ho => ?_, fun s => rfl, fun s f q ho hq hcode hargs => ?_⟩, fun s f q b ho hq hcode hargs => ?_⟩
  · rw [exec_quiesceEvent, if_pos ho]
    rfl
  · rw [exec_quiesceEvent, if_neg (by simp [ho])]
  · rw [exec_act (act := clearQuiesceAct) (fun _ => rfl) ho hq (congrArg _ hcode), clearQuiesceAct_eq hargs]
    rfl
  · have hexec : exec .setEmission s = .next (setEmissionAct f (s.popped q)) := exec_act (fun _ => rfl) ho hq (congrArg _ hcode)
    have set {m : EmissionMode} (hm : modeOf b.toNat = some m) :
        exec .setEmission s = .next (reply f.re .ok [] (settle { s.popped q with comp := { s.comp with mode := m } })) := by
      rw [hexec, setEmissionAct_mode hargs hm]
      rfl
    refine ⟨fun hb => set (by rw [hb]; rfl), fun hb => set (by rw [hb]; rfl), fun hb => set (by rw [hb]; rfl), fun hb => ?_⟩
    rw [hexec, setEmissionAct_beyond hargs hb]

end Sys2Proof.Machine
end

