-- ==== Sys2Proof/Proofs/Overrides.lean ====
section
/-! PROOFS. SET_OVERRIDE and CLEAR_OVERRIDE: their arguments read back, the tests in their order, and the table written (R136 to R139). -/

namespace Sys2Proof.Machine

/-! ### The override table written (R137 to R139) -/

/-- A change of the table takes effect at once while the ring is empty (R139). -/
theorem setOverrides_eq (es : List OverrideEntry) (s : State) : setOverrides es s =
    if s.ring.recs = [] then overridesIntoForce { s with comp := { s.comp with overrides := es } }
    else { s with comp := { s.comp with overrides := es } } := by
  simp only [setOverrides, List.isEmpty_iff]

/-- Of the IDs that two bytes hold, a stream can hold all but the first and the last (R33). -/
theorem validId_iff {id : Nat} (h : id < 65536) : validId id = true ↔ id ≠ 0 ∧ id ≠ 65535 := by
  simp only [validId, Bool.and_eq_true, decide_eq_true_eq]
  omega

/-! ### SET_OVERRIDE (R137) -/

/-- The arguments of SET_OVERRIDE (R174). -/
def overrideArgs (id : Nat) (sync : Bool) (o : Override) : List Byte :=
  be 2 id ++ (be 1 o.action.code ++ (onOff sync ++ (be 2 o.df.toNat ++ (be 1 o.phasors.length ++ o.phasors.flatMap phasorBytes))))

theorem overrideArgs_length (id : Nat) (sync : Bool) (o : Override) : (overrideArgs id sync o).length = 7 + 6 * o.phasors.length := by
  simp [overrideArgs, onOff, List.length_flatMap]
  omega

/-- They read back as they were written. -/
theorem overrideArgs_fields {id : Nat} {o : Override} (sync : Bool) (hid : id < 65536) (hn : o.phasors.length < 256) :
    field (overrideArgs id sync o) 0 2 = id ∧ actionOf (field (overrideArgs id sync o) 2 1) = some o.action ∧
    isOnOff (overrideArgs id sync o) 3 = true ∧ readOnOff (overrideArgs id sync o) 3 = sync ∧
    field16 (overrideArgs id sync o) 4 = o.df ∧ field (overrideArgs id sync o) 6 1 = o.phasors.length ∧
    readPhasors o.phasors.length ((overrideArgs id sync o).drop 7) = o.phasors := by
  have hdf := o.df.isLt
  have haction : o.action.code < 256 ∧ actionOf o.action.code = some o.action := by cases o.action <;> decide
  have hphasors := readPhasors_written o.phasors []
  rw [List.append_nil] at hphasors
  have hdrop : (overrideArgs id sync o).drop 7 = o.phasors.flatMap phasorBytes := by
    cases sync <;> rfl
  refine ⟨?_, ?_, ?_, ?_, ?_, ?_, by rw [hdrop, hphasors]⟩ <;>
    simp (disch := omega) only [overrideArgs, isOnOff, readOnOff, field16, field_be_skip, field_onOff_skip, field_be_append,
      field_onOff_append, Nat.reduceSub, Bool.toNat_setting, haction, decide_true, BitVec.ofNat_toNat, BitVec.setWidth_eq]

/-- SET_OVERRIDE with the arguments of an override: refused by its tests, else the table written (R137). -/
theorem setOverrideAct_written {f : CtrlFrame} {id : Nat} {sync : Bool} {o : Override} (ha : f.args = overrideArgs id sync o)
    (hid : id < 65536) (hn : o.phasors.length < 256) (s : State) : setOverrideAct f s =
      (overrideRefusal s id o).elim (reply f.re .ok [] (setOverrides (putOverride id sync o s.comp.overrides) s))
        fun st => reply f.re st [] s := by
  obtain ⟨hfield, haction, henc, hsync, hdf, hcount, hphasors⟩ := overrideArgs_fields (o := o) sync hid hn
  have hgood : (decide (7 ≤ f.args.length) && f.args.length == 7 + 6 * o.phasors.length) = true := by
    rw [ha, overrideArgs_length]
    simp
  unfold setOverrideAct
  simp only [ha] at hgood ⊢
  simp only [haction, henc, hsync, hdf, hcount, hphasors, hfield, hgood, checked_good]
  cases overrideRefusal s id o <;> rfl

/-- The tests of SET_OVERRIDE in their order: the ID, the stream of a substitute, its phasor count, and room in the table (R137). -/
theorem overrideRefusal_tests {id : Nat} (hid : id < 65536) (s : State) (o : Override) :
    let bare := id ≠ 0 ∧ id ≠ 65535
    let known := o.action = .substitute → ∃ e, s.stream id = some e
    let fits := ∀ e, o.action = .substitute → s.stream id = some e → o.phasors.length = e.cfg.phasors
    let room := (∃ x ∈ s.comp.overrides, x.id = id) ∨ s.comp.overrides.length < 16
    (¬ bare → overrideRefusal s id o = some .badField) ∧ (bare → ¬ known → overrideRefusal s id o = some .unknownStream) ∧
    (bare → known → ¬ fits → overrideRefusal s id o = some .badField) ∧
    (bare → known → fits → ¬ room → overrideRefusal s id o = some .noRoom) ∧
    (bare → known → fits → room → overrideRefusal s id o = none) := by
  intro bare known fits room
  have hbare : (!validId id) = true ↔ ¬ bare := by rw [Bool.not_eq_true', ← Bool.not_eq_true, validId_iff hid]
  have hknown : (o.action = .substitute ∧ (s.stream id).isNone = true) ↔ ¬ known := by
    simp only [known]
    cases s.stream id <;> simp
  have hfits : (o.action = .substitute ∧ (s.stream id).any (fun e => e.cfg.phasors != o.phasors.length) = true) ↔ ¬ fits := by
    simp only [fits]
    cases s.stream id with
    | none => simp
    | some e => simp [@eq_comm Nat o.phasors.length]
  have hroom : ((!s.comp.overrides.any fun e => e.id == id) = true ∧ overrideEntries ≤ s.comp.overrides.length) ↔ ¬ room := by
    simp only [room, not_or, not_lt, Bool.not_eq_true', List.any_eq_false, beq_iff_eq, not_exists, not_and]
  have passes {p q : Prop} (h : p ↔ ¬ q) (hq : q) : ¬ p := fun hp => h.1 hp hq
  unfold overrideRefusal
  refine ⟨fun hb => ?_, fun hb hk => ?_, fun hb hk hf => ?_, fun hb hk hf hr => ?_, fun hb hk hf hr => ?_⟩
  · rw [if_pos (hbare.2 hb)]
  · rw [if_neg (passes hbare hb), if_pos (hknown.2 hk)]
  · rw [if_neg (passes hbare hb), if_neg (passes hknown hk), if_pos (hfits.2 hf)]
  · rw [if_neg (passes hbare hb), if_neg (passes hknown hk), if_neg (passes hfits hf), if_pos (hroom.2 hr)]
  · rw [if_neg (passes hbare hb), if_neg (passes hknown hk), if_neg (passes hfits hf), if_neg (passes hroom hr)]

/-! ### CLEAR_OVERRIDE (R138) -/

/-- CLEAR_OVERRIDE with the arguments of an ID and a sync setting. -/
theorem clearOverrideAct_written {f : CtrlFrame} {id : Nat} {sync : Bool} (ha : f.args = be 2 id ++ onOff sync) (hid : id < 65536)
    (s : State) : clearOverrideAct f s =
      if validId id then reply f.re .ok [] (setOverrides (dropOverride id sync s.comp.overrides) s) else reply f.re .badField [] s := by
  have hargs : f.args = be 2 id ++ (onOff sync ++ []) := by rw [ha, List.append_nil]
  have hlength : f.args.length = 3 := by simp [ha, onOff]
  have henc : isOnOff f.args 2 = true ∧ readOnOff f.args 2 = sync ∧ field f.args 0 2 = id := by
    refine ⟨?_, ?_, ?_⟩ <;>
      simp (disch := omega) only [hargs, isOnOff, readOnOff, field_be_skip, field_be_append, field_onOff_append, Nat.reduceSub,
        Bool.toNat_setting, decide_true]
  obtain ⟨hon, hsync, hfield⟩ := henc
  rw [clearOverrideAct, hlength, hon, hsync, hfield]
  rfl

/-- Settles O50: changes coming into force entry by entry, then each command by its arguments and its tests. -/
theorem overridesAreSetAndCleared : Obligations.OverridesAreSetAndCleared := by
  unfold Obligations.OverridesAreSetAndCleared
  refine ⟨fun s => rfl, fun s f q o id sync ho hq hcode hid hn hargs => ?_, fun s f q id sync ho hq hcode hid hargs => ?_⟩
  · intro no bare known fits room
    have hwritten : f.args = overrideArgs id sync o := by
      rw [hargs]
      simp only [overrideArgs, List.append_assoc]
      cases o.action <;> rfl
    have hexec : exec .setOverride s = .next (setOverrideAct f (s.popped q)) := exec_act (fun _ => rfl) ho hq (congrArg _ hcode)
    have refused {st : Status} (h : overrideRefusal (s.popped q) id o = some st) : no st := by
      simp only [no]
      rw [hexec, setOverrideAct_written hwritten hid hn, h]
      rfl
    obtain ⟨hbare, hknown, hfits, hroom, hpass⟩ := overrideRefusal_tests hid (s.popped q) o
    refine ⟨fun hb => refused (hbare hb), fun hb hk => refused (hknown hb hk), fun hb hk hf => refused (hfits hb hk hf),
      fun hb hk hf hr => refused (hroom hb hk hf hr), fun hb hk hf hr => ?_⟩
    rw [hexec, setOverrideAct_written hwritten hid hn, hpass hb hk hf hr, Option.elim_none, setOverrides_eq]
    rfl
  · have hexec : exec .clearOverride s = .next (clearOverrideAct f (s.popped q)) := exec_act (fun _ => rfl) ho hq (congrArg _ hcode)
    rw [hexec, clearOverrideAct_written hargs hid]
    refine ⟨fun hv => ?_, fun h0 h1 => ?_⟩
    · rw [if_neg]
      rw [validId_iff hid]
      omega
    · rw [if_pos ((validId_iff hid).2 ⟨h0, h1⟩), setOverrides_eq]
      rfl

end Sys2Proof.Machine
end

