-- ==== Sys2Proof/Proofs/Grants.lean ====
section
/-! PROOFS. The grant of the Egress Arbiter by R152's table, with the count of R153 (R150, R152, R153). -/

namespace Sys2Proof.Machine

/-! ### Which queue the table grants (R152) -/

/-- O goes first within its burst, and beyond it where no other queue waits; then M, and L last. -/
theorem choice_eq (e : Egress) (burst : Nat) : e.choice burst =
    if e.o ≠ [] ∧ (e.grants < burst ∨ (e.m = [] ∧ e.l = [])) then some .part
    else if e.m ≠ [] then some .reply
    else if e.l ≠ [] then some .straggler
    else none := by
  unfold Egress.choice
  split
  · next ho hm hl => simp [ho, hm, hl]
  · next ho hm => simp [ho, hm]
  · next ho hm hl => simp [ho, hm, hl]
  · next ho hm hl => simp [ho, hm, hl]
  · next ho hothers =>
    have hwait : ¬ (e.m = [] ∧ e.l = []) := fun h => hothers h.1 h.2
    by_cases hm : e.m = []
    · have hl : e.l ≠ [] := fun hl => hwait ⟨hm, hl⟩
      simp [ho, hm, hl]
    · simp [ho, hm]

/-- With O's burst used up, or nothing in O, another queue that waits is granted: M before L. -/
theorem choice_beyondBurst {e : Egress} {burst : Nat} (hwait : ¬ (e.m = [] ∧ e.l = [])) (hturn : e.o = [] ∨ burst ≤ e.grants) :
    e.choice burst = if e.m ≠ [] then some .reply else some .straggler := by
  have hpart : ¬ (e.o ≠ [] ∧ (e.grants < burst ∨ (e.m = [] ∧ e.l = []))) := by
    rintro ⟨ho, hburst | hnothing⟩
    · exact hturn.elim ho (Nat.not_le.2 hburst)
    · exact hwait hnothing
  rw [choice_eq, if_neg hpart]
  split_ifs with hm hl
  · rfl
  · rfl
  · exact absurd ⟨not_ne_iff.1 hm, not_ne_iff.1 hl⟩ hwait

theorem choice_eq_none {e : Egress} {burst : Nat} : e.choice burst = none ↔ e.o = [] ∧ e.m = [] ∧ e.l = [] := by
  rw [choice_eq]
  split_ifs with hpart hreply hstraggler
  · simp [hpart.1]
  · simp [hreply]
  · simp [hstraggler]
  · rw [not_ne_iff] at hreply hstraggler
    simpa [hreply, hstraggler] using hpart

/-! ### The grant (R150, R152, R153) -/

/-- Port O, UP and without a transmission, grants what the table chooses. -/
theorem grant_of_choice {s : State} {k : TxKind} (hup : s.links.o = .up) (htx : s.egress.tx = none)
    (hk : s.egress.choice s.table.params.burst = some k) : grant s = { s with egress := s.egress.granted s.tick k } := by
  simp [grant, hup, htx, hk]

theorem grant_of_nothingWaits {s : State} (h : s.egress.o = [] ∧ s.egress.m = [] ∧ s.egress.l = []) : grant s = s := by
  simp [grant, choice_eq_none.2 h]

/-- Settles O8, row by row of the table. -/
theorem grantFollowsTheTable : Obligations.GrantFollowsTheTable := by
  unfold Obligations.GrantFollowsTheTable
  refine fun s => ⟨?_, fun hup htx => ⟨fun f o ho hturn => ?_, fun f m hm hturn => ?_, fun f l hl hm hturn => ?_⟩⟩
  · rintro (hdown | htx | hnothing)
    · exact grant_busy (.inl hdown)
    · exact grant_busy (.inr (Option.isSome_iff_ne_none.1 htx))
    · exact grant_of_nothingWaits hnothing
  · have hk : s.egress.choice s.table.params.burst = some .part := by
      rw [choice_eq, if_pos ⟨by simp [ho], hturn⟩]
    rw [grant_of_choice hup htx hk, Egress.granted, ho]
  · have hk : s.egress.choice s.table.params.burst = some .reply := by
      rw [choice_beyondBurst (by simp [hm]) hturn, if_pos (by simp [hm])]
    rw [grant_of_choice hup htx hk, Egress.granted, hm]
  · have hk : s.egress.choice s.table.params.burst = some .straggler := by
      rw [choice_beyondBurst (by simp [hl]) hturn, if_neg (by simp [hm])]
    rw [grant_of_choice hup htx hk, Egress.granted, hl]

end Sys2Proof.Machine
end

