-- ==== Sys2Proof/Proofs/Reservations.lean ====
section
/-! SUPPORT. The account of queues, reservations and unanswered commands within an event, and which shared operations keep it (R139 to
R153, R172, R173, R199). -/

namespace Sys2Proof.Machine

/-! ### The account (R146 to R148, R152, R153, R172, R173, R199) -/

/-- What the account is read from: Port O's link, the Egress Arbiter, the command queue, the commit with whom it answers, and the Profile
Store. -/
structure Ledger where
  port : Link
  egress : Egress
  queue : List CtrlFrame
  commit : CommitState
  commitFor : Option ReplyTo
  store : ProfileStore

def State.ledger (s : State) : Ledger := ⟨s.links.o, s.egress, s.ctl.queue, s.ctl.commit, s.ctl.commitFor, s.store⟩

/-- The commands that wait for execution, for a commit or for the end of a write. -/
def Ledger.unanswered (g : Ledger) : Nat := g.queue.length + held g.commitFor + held g.store.saveFor

/-- The queues within their capacities, and a reservation for each unanswered command and for each of the `owed` commands that an event
has taken off the queue and not yet answered. -/
structure Ledger.Fits (g : Ledger) (owed : Nat) : Prop where
  o : g.egress.o.length ≤ oCapacity
  l : g.egress.l.length ≤ lCapacity
  m : g.egress.mOccupancy ≤ mCapacity
  queue : g.queue.length ≤ queueCapacity
  grants : g.egress.grants ≤ 255
  reserved : g.egress.reserved = g.unanswered + owed
  save : g.store.saveFor.isSome = true ↔ g.store.writing.isSome = true
  writing : g.store.state = .writing ↔ g.store.writing.isSome = true

/-- A port that could send has nothing waiting (R152). -/
def Ledger.Idle (g : Ledger) : Prop := g.port = .up → g.egress.tx = none → g.egress.o = [] ∧ g.egress.l = [] ∧ g.egress.m = []

/-- A commit that waits, and no other, has someone to answer (R179, R181). -/
def Ledger.Named (g : Ledger) : Prop := g.commitFor.isSome = true ↔ g.commit ≠ .none

structure Ledger.Accounted (g : Ledger) (owed : Nat) : Prop where
  fits : g.Fits owed
  idle : g.Idle
  named : g.Named

/-- Between events no reply is owed. -/
theorem State.queuesOk_iff {s : State} : s.QueuesOk ↔ s.ledger.Accounted 0 :=
  ⟨fun h => ⟨⟨h.o, h.l, h.m, h.queue, h.grants, h.reserved, h.save, h.writing⟩, h.idle, h.commit⟩,
    fun h => ⟨h.fits.o, h.fits.l, h.fits.m, h.fits.queue, h.fits.grants, h.fits.reserved, h.named, h.fits.save, h.fits.writing,
      h.idle⟩⟩

/-- A command passes between the queue, the commit, and the event that owes its reply; its reservation stands. -/
theorem Ledger.Fits.moved {g h : Ledger} {n k : Nat} (hg : g.Fits n) (he : h.egress = g.egress) (hs : h.store = g.store)
    (hq : h.queue.length ≤ queueCapacity) (hu : h.unanswered + k = g.unanswered + n) : h.Fits k where
  o := he ▸ hg.o
  l := he ▸ hg.l
  m := he ▸ hg.m
  queue := hq
  grants := he ▸ hg.grants
  reserved := by rw [he, hg.reserved, hu]
  save := hs ▸ hg.save
  writing := hs ▸ hg.writing

/-! ### Frames that leave their queues (R142, R147, R149, R152) -/

/-- No queue longer, the reservations as they stand, and the grant count within its limit. -/
structure Egress.Shrinks (e f : Egress) : Prop where
  o : f.o.length ≤ e.o.length
  l : f.l.length ≤ e.l.length
  m : f.m.length ≤ e.m.length
  reserved : f.reserved = e.reserved
  grants : f.grants ≤ max e.grants 255

theorem Egress.Shrinks.refl (e : Egress) : e.Shrinks e := ⟨le_rfl, le_rfl, le_rfl, rfl, le_max_left _ _⟩

/-- The parts that wait are discarded (R142, R147). -/
theorem partsDiscarded_shrinks (e : Egress) : e.Shrinks { e with o := [] } := ⟨Nat.zero_le _, le_rfl, le_rfl, rfl, le_max_left _ _⟩

theorem Ledger.Fits.shrunk {g : Ledger} {n : Nat} (h : g.Fits n) {e : Egress} (he : g.egress.Shrinks e) (p : Link) :
    Ledger.Fits { g with port := p, egress := e } n where
  o := he.o.trans h.o
  l := he.l.trans h.l
  m := by
    have hm := h.m
    have hshrinks := he.m
    simp only [Egress.mOccupancy, he.reserved] at hm ⊢
    omega
  queue := h.queue
  grants := he.grants.trans (max_le h.grants le_rfl)
  reserved := he.reserved.trans h.reserved
  save := h.save
  writing := h.writing

/-- Where nothing waits, nothing waits after frames have left. -/
theorem Ledger.Idle.shrunk {g : Ledger} (h : g.Idle) {e : Egress} (he : g.egress.Shrinks e) (htx : e.tx = g.egress.tx) :
    Ledger.Idle { g with egress := e } := by
  intro hup hnone
  obtain ⟨ho, hl, hm⟩ := h hup (htx.symm.trans hnone)
  exact ⟨List.length_eq_zero_iff.1 (by simpa [ho] using he.o), List.length_eq_zero_iff.1 (by simpa [hl] using he.l),
    List.length_eq_zero_iff.1 (by simpa [hm] using he.m)⟩

/-! ### The grant (R152, R153) -/

theorem granted_shrinks (e : Egress) (now : Nat) (k : TxKind) : e.Shrinks (e.granted now k) := by
  cases k <;> unfold Egress.granted <;> dsimp only <;> split <;> next hq => constructor <;> simp [hq]

/-- What the table chooses goes into transmission. -/
theorem granted_tx_of_choice {e : Egress} {burst now : Nat} {k : TxKind} (h : e.choice burst = some k) :
    (e.granted now k).tx ≠ none := by
  rw [choice_eq] at h
  split_ifs at h with hpart hreply hstraggler
  · obtain ⟨f, o, ho⟩ := List.exists_cons_of_ne_nil hpart.1
    cases h
    simp [Egress.granted, ho]
  · obtain ⟨f, m, hm⟩ := List.exists_cons_of_ne_nil hreply
    cases h
    simp [Egress.granted, hm]
  · obtain ⟨f, l, hl⟩ := List.exists_cons_of_ne_nil hstraggler
    cases h
    simp [Egress.granted, hl]

theorem grant_shrinks (s : State) : s.egress.Shrinks (grant s).egress := by
  unfold grant
  split
  · split
    · exact granted_shrinks _ _ _
    · exact .refl _
  · exact .refl _

theorem grant_ledger (s : State) : (grant s).ledger = { s.ledger with egress := (grant s).egress } := by simp [State.ledger]

/-- After a grant was decided, a port that could send has nothing to send. -/
theorem grant_idle (s : State) : (grant s).ledger.Idle := by
  intro hup htx
  rw [grant_ledger] at hup
  rw [show (grant s).ledger.egress = (grant s).egress from rfl] at htx ⊢
  cases hnone : s.egress.tx with
  | some x =>
    rw [grant_busy (.inr (by simp [hnone])), hnone] at htx
    cases htx
  | none =>
    cases hk : s.egress.choice s.table.params.burst with
    | none =>
      obtain ⟨ho, hm, hl⟩ := choice_eq_none.1 hk
      rw [grant_of_nothingWaits ⟨ho, hm, hl⟩]
      exact ⟨ho, hl, hm⟩
    | some k =>
      rw [grant_of_choice hup hnone hk] at htx
      exact absurd htx (granted_tx_of_choice hk)

/-- A grant decided last settles the account of the port. -/
theorem grant_accounted {s : State} {n : Nat} (hf : s.ledger.Fits n) (hn : s.ledger.Named) : (grant s).ledger.Accounted n :=
  ⟨grant_ledger s ▸ hf.shrunk (grant_shrinks s) s.ledger.port, grant_idle s, by rw [grant_ledger]; exact hn⟩

/-! ### Passages that keep the account -/

/-- A passage within one event after which as many replies are owed as before. -/
def State.KeepsQueues (s t : State) : Prop := ∀ n, s.ledger.Accounted n → t.ledger.Accounted n

theorem State.KeepsQueues.refl (s : State) : s.KeepsQueues s := fun _ h => h

theorem State.KeepsQueues.trans {s t u : State} (h : s.KeepsQueues t) (h' : t.KeepsQueues u) : s.KeepsQueues u :=
  fun n hs => h' n (h n hs)

theorem State.KeepsQueues.ite {s t u : State} {c : Prop} [Decidable c] (ht : c → s.KeepsQueues t) (hu : ¬ c → s.KeepsQueues u) :
    s.KeepsQueues (if c then t else u) := by
  split
  · next h => exact ht h
  · next h => exact hu h

/-- A passage beside all that the account is read from. -/
theorem State.KeepsQueues.of_ledger {s t : State} (h : t.ledger = s.ledger) : s.KeepsQueues t := fun n hs => by rwa [h]

/-- Frames that leave their queues, with the transmission as it stands. -/
theorem State.KeepsQueues.of_shrinks {s : State} {e : Egress} (h : s.egress.Shrinks e) (htx : e.tx = s.egress.tx) :
    s.KeepsQueues { s with egress := e } :=
  fun _ hs => ⟨hs.fits.shrunk h s.links.o, hs.idle.shrunk h htx, hs.named⟩

/-- A grant decided after Port O's link has changed, or after frames have left (R150, R151). -/
theorem State.KeepsQueues.granted {s t : State} {e : Egress} {p : Link} (h : s.egress.Shrinks e)
    (ht : t.ledger = { s.ledger with port := p, egress := e }) : s.KeepsQueues (grant t) :=
  fun _ hs => grant_accounted (ht ▸ hs.fits.shrunk h p) (by rw [ht]; exact hs.named)

/-- A passage that answers one command whose reply is owed. -/
def State.Answers (s t : State) : Prop := ∀ n, s.ledger.Accounted (n + 1) → t.ledger.Accounted n

theorem State.KeepsQueues.answers {s t u : State} (h : s.KeepsQueues t) (h' : t.Answers u) : s.Answers u :=
  fun n hs => h' n (h (n + 1) hs)

theorem State.Answers.ite {s t u : State} {c : Prop} [Decidable c] (ht : c → s.Answers t) (hu : ¬ c → s.Answers u) :
    s.Answers (if c then t else u) := by
  split
  · next h => exact ht h
  · next h => exact hu h

/-! ### Joins and replies (R13, R146 to R148) -/

theorem joinO_keepsQueues {s : State} (h : s.egress.o.length < oCapacity) (f : EthFrame) : s.KeepsQueues (joinO f s) :=
  fun _ hs => grant_accounted { hs.fits with o := by simpa [State.ledger] using Nat.succ_le_of_lt h } hs.named

theorem joinL_keepsQueues (f : EthFrame) (s : State) : s.KeepsQueues (joinL f s) := by
  refine .ite (fun hroom n hs => ?_) fun _ => .of_ledger (by simp [State.ledger])
  exact grant_accounted { hs.fits with l := by simpa [State.ledger] using Nat.succ_le_of_lt hroom } hs.named

/-- A reply takes the place of its reservation in M (R148). -/
theorem reply_accounted {s : State} {n : Nat} (hf : s.ledger.Fits (n + 1)) (hn : s.ledger.Named) (re : ReplyTo) (st : Status)
    (bs : List Byte) : (reply re st bs s).ledger.Accounted n := by
  have hreserved : s.egress.reserved = s.ledger.unanswered + n + 1 := hf.reserved
  refine grant_accounted { hf with m := ?_, reserved := ?_ } hn
  · have hm : s.egress.reserved + s.egress.m.length ≤ mCapacity := hf.m
    simp only [State.ledger, Egress.mOccupancy, List.length_append, List.length_singleton]
    omega
  · exact (congrArg (· - 1) hreserved).trans rfl

theorem reply_answers (re : ReplyTo) (st : Status) (bs : List Byte) (s : State) : s.Answers (reply re st bs s) :=
  fun _ hs => reply_accounted hs.fits hs.named re st bs

/-- A reply after a change beside the account. -/
theorem replyAfter_answers {s t : State} (h : t.ledger = s.ledger) (re : ReplyTo) (st : Status) (bs : List Byte) :
    s.Answers (reply re st bs t) := (State.KeepsQueues.of_ledger h).answers (reply_answers re st bs t)

theorem discardParts_keepsQueues (s : State) : s.KeepsQueues (discardParts s) :=
  .of_shrinks (partsDiscarded_shrinks s.egress) rfl

/-! ### Updates beside the account -/

@[simp] theorem report_ledger (c : Ctr) (s : State) : (report c s).ledger = s.ledger := by simp [State.ledger]

@[simp] theorem recordLatency_ledger (w : Nat) (l : Option Nat) (s : State) : (recordLatency w l s).ledger = s.ledger := by
  simp [State.ledger]

@[simp] theorem mapStream_ledger (id : Nat) (f : StreamEntry → StreamEntry) (s : State) : (s.mapStream id f).ledger = s.ledger := rfl

@[simp] theorem strobePulse_ledger (s : State) : (strobePulse s).ledger = s.ledger := by simp [State.ledger]

@[simp] theorem epochJump_ledger (was : Option Nat) (s : State) : (epochJump was s).ledger = s.ledger := by simp [State.ledger]

@[simp] theorem sealWhere_ledger (c : SealCause) (p : EpochRec → Bool) (s : State) : (sealWhere c p s).ledger = s.ledger := by
  simp [State.ledger]

@[simp] theorem recountAll_ledger (s : State) : (recountAll s).ledger = s.ledger := by simp [State.ledger]

theorem report_keepsQueues (c : Ctr) (s : State) : s.KeepsQueues (report c s) := .of_ledger (report_ledger c s)

/-! ### The application of a commit (R181) -/

/-- Before its reply a commit moves nothing of the account but the parts that QUIESCE_ENABLE discards (R141, R142). -/
theorem committing_ledger (s : State) : (committing s).ledger = s.ledger ∨ (committing s).ledger = (discardParts s).ledger := by
  simp only [committing, commitQuiesce_eq]
  split
  · exact .inr (by simp [State.ledger, discardParts])
  · exact .inl (by simp [State.ledger])

/-- The commit answers whom it names, and none waits from then on (R181). That a commit waits is not asked: a COMMIT that finds the ring
empty applies before it has waited (R179). -/
theorem commitReply_accounted {s : State} {n : Nat} (hf : s.ledger.Fits n) (hi : s.ledger.Idle) : (commitReply s).ledger.Accounted n := by
  cases hre : s.ctl.commitFor with
  | none =>
    rw [commitReply_none hre]
    refine ⟨hf.moved rfl rfl hf.queue ?_, hi, by simp [Ledger.Named, State.ledger]⟩
    simp [Ledger.unanswered, State.ledger, hre]
  | some re =>
    rw [commitReply_some hre]
    apply reply_accounted
    · refine hf.moved rfl rfl hf.queue ?_
      simp [Ledger.unanswered, State.ledger, hre, held]
      omega
    · simp [Ledger.Named, State.ledger]

theorem applyCommit_accounted {s : State} {n : Nat} (hf : s.ledger.Fits n) (hi : s.ledger.Idle) : (applyCommit s).ledger.Accounted n := by
  rw [applyCommit_eq]
  rcases committing_ledger s with h | h <;> apply commitReply_accounted <;> rw [recountAll_ledger, h]
  · exact hf
  · exact hi
  · exact hf.shrunk (partsDiscarded_shrinks s.egress) s.links.o
  · exact hi.shrunk (partsDiscarded_shrinks s.egress) rfl

theorem applyCommit_keepsQueues (s : State) : s.KeepsQueues (applyCommit s) := fun _ hs => applyCommit_accounted hs.fits hs.idle

/-! ### Departure, settling and flushes (R95, R98, R100, R101, R125) -/

theorem drainsEnded_ledger (s : State) : (drainsEnded s).ledger = s.ledger := by
  unfold drainsEnded
  dsimp only
  split <;> rfl

theorem whenEmpty_keepsQueues (s : State) : s.KeepsQueues (whenEmpty s) := by
  by_cases hr : s.ring.recs = []
  · have ended : s.KeepsQueues (drainsEnded s) := .of_ledger (drainsEnded_ledger s)
    rw [whenEmpty_nil hr]
    exact .ite (fun _ => ended.trans (applyCommit_keepsQueues _)) fun _ => ended
  · rw [whenEmpty, if_neg (by simpa using hr)]
    exact .refl s

theorem departed_ledger (emitted : Bool) (r : EpochRec) (rest : List EpochRec) (s : State) :
    (departed emitted r rest s).ledger = s.ledger := by simp [departed, State.ledger]

theorem depart_keepsQueues (emitted : Bool) (s : State) : s.KeepsQueues (depart emitted s) := by
  cases hr : s.ring.recs with
  | nil =>
    rw [depart, hr]
    exact .refl s
  | cons r rest =>
    have boundary (u : State) : u.KeepsQueues (commitAtBoundary u) := .ite (fun _ => applyCommit_keepsQueues u) fun _ => .refl u
    rw [depart_cons hr]
    exact State.KeepsQueues.trans (.of_ledger (departed_ledger emitted r rest s)) ((boundary _).trans (whenEmpty_keepsQueues _))

theorem settle_keepsQueues (s : State) : s.KeepsQueues (settle s) := by
  unfold settle
  generalize s.ring.recs.length = n
  induction n generalizing s with
  | zero => exact .refl s
  | succ n ih => exact .ite (fun _ => (depart_keepsQueues false s).trans (ih _)) fun _ => .refl s

/-- The head considered after a change beside the account. -/
theorem State.KeepsQueues.settled {s t : State} (h : t.ledger = s.ledger) : s.KeepsQueues (settle t) :=
  (State.KeepsQueues.of_ledger h).trans (settle_keepsQueues t)

/-- Every OPEN record sealed, a drain begun, the head considered, and the empty ring (R100, R101). -/
theorem flushed_keepsQueues (c : SealCause) (r : Ring) (s : State) :
    s.KeepsQueues (whenEmpty (settle { sealWhere c (fun _ => true) s with ring := r })) := by
  have sealed : s.KeepsQueues { sealWhere c (fun _ => true) s with ring := r } := .of_ledger (sealWhere_ledger c _ s)
  exact sealed.trans ((settle_keepsQueues _).trans (whenEmpty_keepsQueues _))

theorem flushStep_keepsQueues (s : State) : s.KeepsQueues (flushStep s) := flushed_keepsQueues _ _ s

theorem flushCommit_keepsQueues (s : State) : s.KeepsQueues (flushCommit s) := flushed_keepsQueues _ _ s

/-! ### Streams (R37 to R44) -/

theorem changeStream_keepsQueues (id : Nat) (f : StreamEntry → StreamEntry) (s : State) : s.KeepsQueues (changeStream id f s) := by
  cases he : s.stream id with
  | none =>
    rw [changeStream_unknown f he]
    exact .refl s
  | some e =>
    rw [changeStream_known f he]
    exact .ite (fun _ => .of_ledger rfl) fun _ => .settled (recountAll_ledger _)

theorem timeReport_keepsQueues (id : Nat) (bad : Bool) (s : State) : s.KeepsQueues (timeReport id bad s) := changeStream_keepsQueues _ _ s

theorem finishIsolating_keepsQueues (id : Nat) (s : State) : s.KeepsQueues (finishIsolating id s) := by
  unfold finishIsolating
  split
  · exact .refl s
  · exact .ite (fun _ => changeStream_keepsQueues _ _ s) fun _ => .refl s

/-! ### Placement (R27 to R29, R79) -/

theorem ringEffect_ledger (a : Answer) (o : Offer) (s : State) : (ringEffect a o s).ledger = s.ledger := by
  unfold ringEffect
  split
  · unfold accept
    dsimp only
    split
    · exact report_ledger _ _
    · rfl
  · exact sealWhere_ledger _ _ s
  · rfl
  · rfl

theorem countAnswer_ledger (a : Answer) (o : Offer) (s : State) : (countAnswer a o s).ledger = s.ledger := by
  unfold countAnswer
  dsimp only
  split
  · exact report_ledger _ _
  · split
    · exact recordLatency_ledger _ _ _
    · rfl

theorem handOff_keepsQueues (a : Answer) (o : Offer) (s : State) : s.KeepsQueues (handOff a o s) := by
  unfold handOff
  split
  · exact joinL_keepsQueues _ s
  · exact joinL_keepsQueues _ s
  · exact .refl s

theorem placeHeld_keepsQueues (o : Offer) (s : State) : s.KeepsQueues (placeHeld o s) := by
  have answered (a : Answer) (o' : Offer) : s.KeepsQueues (countAnswer a o (ringEffect a o' s)) :=
    .of_ledger ((countAnswer_ledger _ _ _).trans (ringEffect_ledger _ _ s))
  have reported (a : Answer) (u : State) : u.KeepsQueues (reportTime a o u) :=
    .ite (fun _ => timeReport_keepsQueues _ _ u) fun _ => .refl u
  exact (answered _ _).trans ((handOff_keepsQueues _ o _).trans ((settle_keepsQueues _).trans
    ((finishIsolating_keepsQueues _ _).trans (reported _ _))))

theorem setAdm_keepsQueues (a : Admission) (s : State) : s.KeepsQueues { s with adm := a } := .of_ledger rfl

theorem placeNext_keepsQueues (p : Port) (s : State) : s.KeepsQueues (placeNext p s) := by
  unfold placeNext
  split
  · exact .refl s
  · exact (setAdm_keepsQueues _ s).trans (.ite (fun _ => report_keepsQueues _ _) fun _ => placeHeld_keepsQueues _ _)

theorem placeAll_keepsQueues (p : Port) (n : Nat) (s : State) : s.KeepsQueues (placeAll p n s) := by
  induction n generalizing s with
  | zero => exact .refl s
  | succ n ih => exact .ite (fun _ => (placeNext_keepsQueues p s).trans (ih _)) fun _ => .refl s

/-! ### Admission (R18 to R26, R160 to R163, R171, R172) -/

theorem snapAndBuild_keepsQueues (m : Measurement) (a : ActiveSet) (c : StreamCfg) (s : State) :
    s.KeepsQueues (snapAndBuild m a c s) := by
  have refused (u : State) : u.KeepsQueues (refusedReport m c u) := .ite (fun _ => timeReport_keepsQueues _ _ u) fun _ => .refl u
  unfold snapAndBuild
  split
  · exact (report_keepsQueues _ s).trans (refused _)
  · exact State.KeepsQueues.trans (.of_ledger (mapStream_ledger _ _ s)) ((report_keepsQueues _ _).trans (refused _))
  · exact setAdm_keepsQueues _ s

theorem admitOne_keepsQueues (m : Measurement) (s : State) : s.KeepsQueues (admitOne m s) := by
  have alive : s.KeepsQueues (if m.life then lifeFrame m.id s else s) := .ite (fun _ => changeStream_keepsQueues _ _ s) fun _ => .refl s
  unfold admitOne
  split
  · exact report_keepsQueues _ s
  · exact .ite (fun _ => report_keepsQueues _ s) fun _ => .ite (fun _ => .of_ledger (report_ledger _ _)) fun _ =>
      alive.trans (snapAndBuild_keepsQueues _ _ _ _)

theorem ingestNext_keepsQueues (s : State) : s.KeepsQueues (ingestNext s) := by
  have ingested (f : IngestFrame) (r : WireRecord) (u : State) : u.KeepsQueues (ingestRecord f r u) :=
    .ite (fun _ => .refl u) fun _ => .ite (fun _ => report_keepsQueues _ u) fun _ => admitOne_keepsQueues _ u
  unfold ingestNext
  split
  · exact .refl s
  · next f fs _ =>
    refine (placeAll_keepsQueues f.port s.adm.offers.length s).trans ?_
    dsimp only
    split
    · exact setAdm_keepsQueues _ _
    · exact (setAdm_keepsQueues _ _).trans (ingested _ _ _)
    · exact (setAdm_keepsQueues _ _).trans (ingested _ _ _)

theorem catchUpBy_keepsQueues (p : Port) (n : Nat) (s : State) : s.KeepsQueues (catchUpBy p n s) := by
  induction n generalizing s with
  | zero => exact .refl s
  | succ n ih =>
    have step : s.KeepsQueues (catchUpStep p s) := .ite (fun _ => placeNext_keepsQueues p s) fun _ => ingestNext_keepsQueues s
    exact .ite (fun _ => step.trans (ih _)) fun _ => .refl s

/-- A control frame that is accepted reserves the place of its reply in M (R172). -/
theorem acceptControl_keepsQueues (origin : Nat) (body : List Byte) (s : State) : s.KeepsQueues (acceptControl origin body s) := by
  refine .ite (fun _ => report_keepsQueues _ s) fun _ => .ite (fun hroom n hs => ?_) fun _ => report_keepsQueues _ s
  obtain ⟨hqueue, hm⟩ := hroom
  refine ⟨{ hs.fits with m := ?_, queue := ?_, reserved := ?_ }, hs.idle, hs.named⟩
  · simp only [State.ledger, Egress.mOccupancy] at hm ⊢
    omega
  · simpa [State.ledger] using Nat.succ_le_of_lt hqueue
  · have hreserved := hs.fits.reserved
    simp only [Ledger.unanswered, State.ledger, List.length_append, List.length_singleton] at hreserved ⊢
    omega

theorem dispatch_keepsQueues (p : Port) (arrival : Nat) (payload : List Byte) (s : State) :
    s.KeepsQueues (dispatch p arrival payload s) := by
  have counted (c : Ctr) : s.KeepsQueues (report c s) := report_keepsQueues c s
  unfold dispatch
  refine .ite (fun _ => ?_) fun _ => .ite (fun _ => ?_) fun _ => .ite (fun _ => ?_) fun _ => counted _
  · split
    · exact counted _
    · exact admitOne_keepsQueues _ s
  · split
    · exact counted _
    · exact .ite (fun _ => counted _) fun _ => .ite (fun _ => .refl s) fun _ => setAdm_keepsQueues _ s
  · exact .ite (fun _ => counted _) fun _ => acceptControl_keepsQueues _ _ s

theorem frameIn_keepsQueues (p : Port) (payload : List Byte) (s : State) : s.KeepsQueues (frameIn p payload s) := by
  unfold frameIn
  dsimp only
  split
  · exact (report_keepsQueues _ s).trans (report_keepsQueues _ _)
  · exact (report_keepsQueues _ s).trans (report_keepsQueues _ _)
  · exact (report_keepsQueues _ s).trans ((catchUpBy_keepsQueues p _ _).trans (dispatch_keepsQueues _ _ _ _))

end Sys2Proof.Machine
end

