-- ==== Sys2Proof/Proofs/QueueSteps.lean ====
section
/-! PROOFS. Every step keeps the queues within their capacities, a reservation for each unanswered command, and nothing waiting at an idle
port (R146 to R148, R152, R153, R172): the commands with their one reply each, the other events, and then every row. -/

namespace Sys2Proof.Machine

/-! ### The shared form of the commands (R173) -/

/-- A command taken off the queue is owed its reply. -/
theorem popped_accounted {s : State} {f : CtrlFrame} {q : List CtrlFrame} {n : Nat} (hq : s.ctl.queue = f :: q)
    (hs : s.ledger.Accounted n) : (s.popped q).ledger.Accounted (n + 1) := by
  have hlength : s.ledger.queue.length = q.length + 1 := by rw [State.ledger, hq, List.length_cons]
  refine ⟨hs.fits.moved rfl rfl ?_ ?_, hs.idle, hs.named⟩
  · have hroom := hs.fits.queue
    rw [hlength] at hroom
    exact (Nat.le_succ _).trans hroom
  · simp only [Ledger.unanswered, hlength]
    simp [State.ledger]
    omega

theorem executeIf_keepsQueues {p : Nat → Bool} {act : CtrlFrame → State → State} (h : ∀ f u, State.Answers u (act f u))
    (s : State) : s.KeepsQueues (executeIf p act s) := by
  unfold executeIf
  split
  · exact .refl s
  · next f q hq => exact .ite (fun _ n hs => h f (s.popped q) n (popped_accounted hq hs)) fun _ => .refl s

theorem execute_keepsQueues {act : CtrlFrame → State → State} (h : ∀ f u, State.Answers u (act f u)) (code : Nat) (s : State) :
    s.KeepsQueues (execute code act s) := .ite (fun _ => executeIf_keepsQueues h s) fun _ => .refl s

/-- A refusal is a reply, and so the act has to answer only where it is reached. -/
theorem checked_answers {f : CtrlFrame} {l e : Bool} {act : State → State} {s : State} (h : e = true → s.Answers (act s)) :
    s.Answers (checked f l e act s) :=
  .ite (fun _ => reply_answers _ _ _ s) fun _ => .ite (fun _ => reply_answers _ _ _ s) fun he => h (by simpa using he)

theorem whenNoCommit_answers {f : CtrlFrame} {act : State → State} {s : State} (h : s.Answers (act s)) :
    s.Answers (whenNoCommit f act s) := .ite (fun _ => h) fun _ => reply_answers _ _ _ s

/-! ### Staging and COMMIT (R175 to R179) -/

theorem stageStreamAct_answers (f : CtrlFrame) (s : State) : s.Answers (stageStreamAct f s) := by
  refine checked_answers fun _ => whenNoCommit_answers (.ite (fun _ => ?_) fun _ => reply_answers _ _ _ s)
  split
  · exact replyAfter_answers (by rfl) _ _ _
  · exact reply_answers _ _ _ s

theorem unstageStreamAct_answers (f : CtrlFrame) (s : State) : s.Answers (unstageStreamAct f s) := by
  refine checked_answers fun _ => whenNoCommit_answers ?_
  split
  · exact replyAfter_answers (by rfl) _ _ _
  · exact reply_answers _ _ _ s

theorem stageRangeAct_answers (f : CtrlFrame) (s : State) : s.Answers (stageRangeAct f s) := by
  refine checked_answers fun _ => whenNoCommit_answers ?_
  dsimp only
  split
  · exact .ite (fun _ => replyAfter_answers (by rfl) _ _ _) fun _ => reply_answers _ _ _ s
  · exact reply_answers _ _ _ s

theorem stageParamsAct_answers (f : CtrlFrame) (s : State) : s.Answers (stageParamsAct f s) := by
  unfold stageParamsAct
  split
  · exact checked_answers nofun
  · exact checked_answers fun _ => whenNoCommit_answers
      (.ite (fun _ => replyAfter_answers (by rfl) _ _ _) fun _ => reply_answers _ _ _ s)

theorem discardStageAct_answers (f : CtrlFrame) (s : State) : s.Answers (discardStageAct f s) :=
  checked_answers fun _ => whenNoCommit_answers (replyAfter_answers (by rfl) _ _ _)

/-- A valid COMMIT is answered at once, or leaves its reservation to the commit that it places (R148, R179). -/
theorem placeCommit_answers {s : State} (hc : s.ctl.commit = .none) (re : ReplyTo) : s.Answers (placeCommit re s) := by
  intro n hs
  have hnobody : s.ctl.commitFor = none := by simpa [Ledger.Named, State.ledger, hc] using hs.named
  have placed (c : CommitState) : Ledger.Fits { s.ledger with commit := c, commitFor := some re } n := by
    refine hs.fits.moved rfl rfl hs.fits.queue ?_
    simp [Ledger.unanswered, State.ledger, hnobody, held]
    omega
  have waits (c : CommitState) (hwaits : c ≠ .none) :
      (State.ledger { s with ctl := { s.ctl with commit := c, commitFor := some re } }).Accounted n :=
    ⟨placed c, hs.idle, by simpa [Ledger.Named, State.ledger] using hwaits⟩
  unfold placeCommit
  dsimp only
  split
  · exact applyCommit_accounted (placed s.ctl.commit) hs.idle
  · split
    · exact flushCommit_keepsQueues _ n (waits .pendingDrain (by decide))
    · exact waits .pendingBoundary (by decide)

theorem commitAct_answers (f : CtrlFrame) (s : State) : s.Answers (commitAct f s) :=
  checked_answers fun _ => .ite (fun _ => reply_answers _ _ _ s) fun hc => .ite (fun _ => reply_answers _ _ _ s) fun _ =>
    placeCommit_answers (not_ne_iff.1 hc) _

/-! ### Short commands and reads (R39, R40, R133, R137, R138, R143, R185, R186) -/

theorem isolateAct_answers (f : CtrlFrame) (s : State) : s.Answers (isolateAct f s) := by
  have isolated (id : Nat) : s.KeepsQueues (isolateStream id s) := by
    unfold isolateStream
    split
    · exact .refl s
    · exact .ite (fun _ => .refl s) fun _ => .ite (fun _ => .of_ledger rfl) fun _ => changeStream_keepsQueues _ _ s
  exact checked_answers fun _ => .ite (fun _ => (isolated _).answers (reply_answers _ _ _ _)) fun _ => reply_answers _ _ _ s

theorem restoreAct_answers (f : CtrlFrame) (s : State) : s.Answers (restoreAct f s) :=
  checked_answers fun _ => .ite (fun _ => (changeStream_keepsQueues _ _ s).answers (reply_answers _ _ _ _)) fun _ =>
    reply_answers _ _ _ s

theorem setOverrides_ledger (es : List OverrideEntry) (s : State) : (setOverrides es s).ledger = s.ledger := by
  unfold setOverrides
  dsimp only
  split <;> rfl

theorem setOverrideAct_answers (f : CtrlFrame) (s : State) : s.Answers (setOverrideAct f s) := by
  unfold setOverrideAct
  dsimp only
  split
  · exact checked_answers nofun
  · refine checked_answers fun _ => ?_
    split
    · exact reply_answers _ _ _ s
    · exact replyAfter_answers (setOverrides_ledger _ s) _ _ _

theorem clearOverrideAct_answers (f : CtrlFrame) (s : State) : s.Answers (clearOverrideAct f s) :=
  checked_answers fun _ => .ite (fun _ => replyAfter_answers (setOverrides_ledger _ s) _ _ _) fun _ => reply_answers _ _ _ s

/-- A change of the Composer after which the head is considered, and its reply (R133, R143). -/
theorem replySettled_answers (c : Composer) (s : State) (re : ReplyTo) (st : Status) (bs : List Byte) :
    s.Answers (reply re st bs (settle { s with comp := c })) := by
  have settled : s.KeepsQueues (settle { s with comp := c }) := .settled rfl
  exact settled.answers (reply_answers re st bs _)

theorem setEmissionAct_answers (f : CtrlFrame) (s : State) : s.Answers (setEmissionAct f s) := by
  unfold setEmissionAct
  split
  · exact checked_answers nofun
  · exact checked_answers fun _ => replySettled_answers _ s _ _ _

theorem clearQuiesceAct_answers (f : CtrlFrame) (s : State) : s.Answers (clearQuiesceAct f s) :=
  checked_answers fun _ => .ite (fun _ => reply_answers _ _ _ s) fun _ => replySettled_answers _ s _ _ _

theorem readStatusAct_answers (f : CtrlFrame) (s : State) : s.Answers (readStatusAct f s) :=
  checked_answers fun _ => reply_answers _ _ _ s

theorem readRangesAct_answers (f : CtrlFrame) (s : State) : s.Answers (readRangesAct f s) :=
  checked_answers fun _ => reply_answers _ _ _ s

theorem readStreamAct_answers (f : CtrlFrame) (s : State) : s.Answers (readStreamAct f s) := by
  refine checked_answers fun _ => ?_
  split
  · exact reply_answers _ _ _ s
  · exact State.KeepsQueues.answers (.ite (fun _ => .of_ledger (mapStream_ledger _ _ s)) fun _ => .refl s) (reply_answers _ _ _ _)

theorem readOverridesAct_answers (f : CtrlFrame) (s : State) : s.Answers (readOverridesAct f s) :=
  checked_answers fun _ => replyAfter_answers (by rfl) _ _ _

/-! ### The Monitor, the Profile Store and RESTART (R187, R188, R190, R195, R199) -/

theorem snapshotAct_answers (f : CtrlFrame) (s : State) : s.Answers (snapshotAct f s) :=
  checked_answers fun _ => replyAfter_answers (by rfl) _ _ _

theorem setCondition_answers (hold : Bool) (f : CtrlFrame) (s : State) : s.Answers (setCondition hold f s) :=
  checked_answers fun _ => replyAfter_answers (by rfl) _ _ _

/-- A write that begins takes over the reservation of its SAVE_PROFILE (R148, R199). -/
theorem beginWrite_answers {s : State} (h : s.store.state ≠ .writing) (re : ReplyTo) : s.Answers (beginWrite re s) := by
  intro n hs
  have hidle : ¬ s.store.writing.isSome = true := fun hw => h (hs.fits.writing.2 hw)
  have hnobody : s.store.saveFor = none := Option.not_isSome_iff_eq_none.1 fun hf => hidle (hs.fits.save.1 hf)
  have hreserved := hs.fits.reserved
  refine ⟨{ hs.fits with reserved := ?_, save := ?_, writing := ?_ }, hs.idle, hs.named⟩
  · simp [Ledger.unanswered, State.ledger, beginWrite, hnobody, held] at hreserved ⊢
    omega
  · simp [State.ledger, beginWrite]
  · simp [State.ledger, beginWrite]

theorem saveProfileAct_answers (f : CtrlFrame) (s : State) : s.Answers (saveProfileAct f s) :=
  checked_answers fun _ => .ite (fun _ => reply_answers _ _ _ s) fun h => beginWrite_answers h _

/-- A write that ends owes the reply of its SAVE_PROFILE (R199). -/
theorem endWrite_accounted {s : State} {n : Nat} {re : ReplyTo} (hre : s.store.saveFor = some re) (hs : s.ledger.Accounted n)
    (bs : List Byte) : (endWrite bs s).ledger.Accounted (n + 1) := by
  have hreserved := hs.fits.reserved
  refine ⟨{ hs.fits with reserved := ?_, save := ?_, writing := ?_ }, hs.idle, hs.named⟩
  · simp [Ledger.unanswered, State.ledger, endWrite, hre, held] at hreserved ⊢
    omega
  · simp [State.ledger, endWrite]
  · simp only [State.ledger, endWrite]
    split <;> simp

theorem writeComplete_keepsQueues (damage : List (Nat × Byte)) (s : State) : s.KeepsQueues (writeComplete damage s) := by
  unfold writeComplete
  split
  · exact .refl s
  · next i hi =>
    intro n hs
    obtain ⟨re, hre⟩ := Option.isSome_iff_exists.1 (hs.fits.save.2 (by simp [State.ledger, hi]))
    simp only [show s.store.saveFor = some re from hre]
    exact reply_answers _ _ _ _ n (endWrite_accounted hre hs _)

/-- RESTART answers a commit that it applies, and then its own command (R180, R188). -/
theorem restartAct_answers (f : CtrlFrame) (s : State) : s.Answers (restartAct f s) := by
  have committed : s.KeepsQueues (restartCommit s) :=
    .ite (fun _ => (applyCommit_keepsQueues s).trans (settle_keepsQueues _)) fun _ => .refl s
  have emptied (u : State) : u.KeepsQueues (restartRing u) := by
    have discarded : u.KeepsQueues (ringDiscarded u) := .of_ledger (by simp [State.ledger])
    exact discarded.trans (whenEmpty_keepsQueues _)
  have queues (u : State) : u.KeepsQueues (restartQueues u) :=
    .of_shrinks ⟨Nat.zero_le _, Nat.zero_le _, le_rfl, rfl, le_max_left _ _⟩ rfl
  have streams (u : State) : u.KeepsQueues (restartStreams u) := .of_ledger rfl
  exact checked_answers fun _ => (committed.trans ((emptied _).trans ((queues _).trans (streams _)))).answers (reply_answers _ _ _ _)

/-! ### The TIME line, PPS edges, watchdog and pulses (R104 to R117, R122) -/

@[simp] theorem setChars_ledger (cs : List Byte) (s : State) : (setChars cs s).ledger = s.ledger := rfl

@[simp] theorem completeMessage_ledger (cs : List Byte) (s : State) : (completeMessage cs s).ledger = s.ledger := by
  unfold completeMessage bufferMessage
  dsimp only
  split
  · exact report_ledger _ _
  · split
    · exact report_ledger _ s
    · rfl

theorem deliver_ledger (b : Byte) (s : State) : (deliver b s).ledger = s.ledger := by
  unfold deliver
  split_ifs <;> simp

theorem receiveChar_ledger (c : TimeChar) (s : State) : (receiveChar c s).ledger = s.ledger := by
  unfold receiveChar
  dsimp only
  split_ifs
  · exact report_ledger _ _
  · exact deliver_ledger _ _
  · exact report_ledger _ _

theorem edgeTaken_ledger (regular irregular : Bool) (s : State) : (edgeTaken regular irregular s).ledger = s.ledger := by
  simp only [edgeTaken]
  split_ifs <;> simp [State.ledger]

theorem referenceStep_keepsQueues (m : TimeMsg) (s : State) : s.KeepsQueues (referenceStep m s) := by
  have locked : s.KeepsQueues (forgetPulse { s with tru := s.tru.lock m.label s.tick (some m.source) }) := .of_ledger rfl
  exact locked.trans ((report_keepsQueues _ _).trans (flushStep_keepsQueues _))

theorem edgeAcquiring_ledger (c : EdgeClass) (m : Option TimeMsg) (s : State) : (edgeAcquiring c m s).ledger = s.ledger := by
  unfold edgeAcquiring
  split
  · rfl
  · split <;> rfl

/-- An edge reaches the account only with a confirmed step (R100, R115). -/
theorem edgeByState_keepsQueues (c : EdgeClass) (m : Option TimeMsg) (s : State) : s.KeepsQueues (edgeByState c m s) := by
  have renewed (label : Nat) (mismatch : Option Nat) (msg : Option MsgQuality) : s.KeepsQueues (renew label mismatch msg s) :=
    .of_ledger (epochJump_ledger _ _)
  have returned (label : Nat) (msg : Option MsgQuality) : s.KeepsQueues (holdoverReturn label msg s) :=
    .of_ledger (epochJump_ledger _ _)
  unfold edgeByState
  split
  · exact .of_ledger (edgeAcquiring_ledger c m s)
  · refine .ite (fun _ => ?_) fun _ => .refl s
    unfold regularLocked
    dsimp only
    split
    · exact renewed _ _ _
    · exact .ite (fun _ => renewed _ _ _) fun _ => .ite (fun _ => referenceStep_keepsQueues _ s) fun _ => renewed _ _ _
  · refine .ite (fun _ => ?_) fun _ => .of_ledger rfl
    unfold regularHoldover
    dsimp only
    split
    · exact returned _ _
    · exact .ite (fun _ => returned _ _) fun _ => .ite (fun _ => referenceStep_keepsQueues _ s) fun _ => .of_ledger rfl
  · exact .refl s

theorem ppsEdge_keepsQueues (s : State) : s.KeepsQueues (ppsEdge s) := by
  rw [ppsEdge_eq]
  exact State.KeepsQueues.trans (.of_ledger (edgeTaken_ledger _ _ s)) (edgeByState_keepsQueues _ _ _)

theorem enterHoldover_ledger (s : State) : (enterHoldover s).ledger = s.ledger := by
  unfold enterHoldover
  dsimp only
  split <;> rfl

theorem epochPulse_ledger (s : State) : (epochPulse s).ledger = s.ledger := by
  unfold epochPulse
  split
  · rfl
  · exact strobePulse_ledger _

/-! ### Timers, sets, transmissions, QUIESCE (R38, R93, R126, R132, R140, R151) -/

theorem silenceExpiry_keepsQueues (idx : Nat) (s : State) : s.KeepsQueues (silenceExpiry idx s) := by
  unfold silenceExpiry
  split
  · exact .refl s
  · exact .ite (fun _ => changeStream_keepsQueues _ _ s) fun _ => .refl s

theorem expireDeadline_keepsQueues (ordinal : Nat) (s : State) : s.KeepsQueues (expireDeadline ordinal s) := by
  unfold expireDeadline
  dsimp only
  split
  · exact .refl s
  · exact .ite (fun _ => .settled (sealWhere_ledger _ _ (recountAt ordinal s))) fun _ => .refl s

theorem startSet_ledger (s : State) : (startSet s).ledger = s.ledger := by
  unfold startSet
  split <;> rfl

/-- A part is due only with a free O slot (R97). -/
theorem partDue_room {s : State} {c : Composition} {p : SetPart} (h : s.partDue = some (c, p)) : s.egress.o.length < oCapacity := by
  unfold State.partDue at h
  split at h
  · split_ifs at h with hroom
    simp only [Bool.and_eq_true, decide_eq_true_eq] at hroom
    exact hroom.2
  · cases h

theorem queueNext_keepsQueues (s : State) : s.KeepsQueues (queueNext s) := by
  cases hdue : s.partDue with
  | none =>
    rw [queueNext, hdue]
    exact .refl s
  | some cp =>
    obtain ⟨c, p⟩ := cp
    have hroom := partDue_room hdue
    have moved : s.KeepsQueues (moveRecords p.records (setAdvanced c s)) := .of_ledger rfl
    have queued : s.KeepsQueues (partQueued c p s) :=
      moved.trans (joinO_keepsQueues (s := moveRecords p.records (setAdvanced c s)) hroom _)
    rw [queueNext_due hdue]
    exact .ite (fun _ => queued.trans ((depart_keepsQueues true _).trans (settle_keepsQueues _))) fun _ => queued

/-- A port without its transmission holds no frame more (R150, R151). -/
theorem txEnded_shrinks (e : Egress) : e.Shrinks { e with tx := none } := ⟨le_rfl, le_rfl, le_rfl, rfl, le_max_left _ _⟩

theorem endTransmission_keepsQueues (s : State) : s.KeepsQueues (endTransmission s) := by
  unfold endTransmission
  split
  · exact .refl s
  · dsimp only
    split
    · exact .granted (p := s.links.o) (txEnded_shrinks s.egress) (report_ledger _ _)
    · exact .granted (p := s.links.o) (txEnded_shrinks s.egress) rfl

/-- A port that comes UP grants at once; one that goes DOWN has no transmission, and what waits may wait (R150). -/
theorem portOLink_keepsQueues (s : State) :
    s.KeepsQueues (grant { s with links := { s.links with o := .up } }) ∧
    s.KeepsQueues { s with links := { s.links with o := .down }, egress := { s.egress with tx := none } } :=
  ⟨.granted (.refl s.egress) rfl,
    fun _ hs => ⟨hs.fits.shrunk (txEnded_shrinks s.egress) .down, nofun, hs.named⟩⟩

theorem quiesceFall_keepsQueues (s : State) : s.KeepsQueues (quiesceFall s) := by
  have latched (c : Composer) : s.KeepsQueues { s with comp := c } := .of_ledger rfl
  exact .ite (fun _ => (latched _).trans ((discardParts_keepsQueues _).trans (settle_keepsQueues _))) fun _ => latched _

/-! ### Every row and every step -/

/-- Every row but those of supply and RESET. -/
theorem exec_keepsQueues {c : Instr} (hc : ¬ IsSupply c) (s : State) : ∃ t, exec c s = .next t ∧ s.KeepsQueues t := by
  have event {t : State} (h : s.KeepsQueues t) : s.KeepsQueues (whileOperating s t) := .ite (fun _ => h) fun _ => .refl s
  have due {t : State} {p : Bool} (h : s.KeepsQueues t) : s.KeepsQueues (whileOperating s (if p then t else s)) :=
    event (.ite (fun _ => h) fun _ => .refl s)
  cases c with
  | powerUp _ | resetAssert | resetRelease | powerLoss => exact absurd trivial hc
  | ingressLinkUp p | ingressLinkDown p => exact ⟨_, rfl, event (.of_ledger (by cases p <;> rfl))⟩
  | portOLinkUp => exact ⟨_, rfl, event (portOLink_keepsQueues s).1⟩
  | portOLinkDown => exact ⟨_, rfl, event (portOLink_keepsQueues s).2⟩
  | ingressFrameComplete p good f => exact ⟨_, rfl, event (.ite (fun _ => frameIn_keepsQueues _ _ s) fun _ => .refl s)⟩
  | asetRecordIngest => exact ⟨_, rfl, event (ingestNext_keepsQueues s)⟩
  | placement p => exact ⟨_, rfl, event (placeNext_keepsQueues p s)⟩
  | silenceTimerExpiry idx => exact ⟨_, rfl, event (silenceExpiry_keepsQueues idx s)⟩
  | deadlineExpiry ordinal => exact ⟨_, rfl, event (expireDeadline_keepsQueues ordinal s)⟩
  | composeSet => exact ⟨_, rfl, due (.of_ledger (startSet_ledger s))⟩
  | queuePart => exact ⟨_, rfl, event (queueNext_keepsQueues s)⟩
  | commitApply => exact ⟨_, rfl, due (applyCommit_keepsQueues s)⟩
  | transmissionComplete => exact ⟨_, rfl, event (endTransmission_keepsQueues s)⟩
  | strobePulseEnd | elapsedFreeze | holdoverLimitReached => exact ⟨_, rfl, due (.of_ledger rfl)⟩
  | epochPulse => exact ⟨_, rfl, event (.of_ledger (epochPulse_ledger s))⟩
  | ppsEdge => exact ⟨_, rfl, event (ppsEdge_keepsQueues s)⟩
  | edgeWatchdogExpiry => exact ⟨_, rfl, due (.of_ledger (enterHoldover_ledger s))⟩
  | timeCharacter c => exact ⟨_, rfl, due (.of_ledger (receiveChar_ledger c s))⟩
  | quiesceEvent =>
    have low : s.KeepsQueues { s with comp := { s.comp with lineLow := true } } := .of_ledger rfl
    exact ⟨_, rfl, .ite (fun _ => low.trans (quiesceFall_keepsQueues _)) fun _ => low⟩
  | quiesceLineRise => exact ⟨_, rfl, .of_ledger rfl⟩
  | profileWriteComplete damage => exact ⟨_, rfl, event (writeComplete_keepsQueues damage s)⟩
  | stageStream => exact ⟨_, rfl, execute_keepsQueues stageStreamAct_answers _ s⟩
  | unstageStream => exact ⟨_, rfl, execute_keepsQueues unstageStreamAct_answers _ s⟩
  | stageRange => exact ⟨_, rfl, execute_keepsQueues stageRangeAct_answers _ s⟩
  | stageParams => exact ⟨_, rfl, execute_keepsQueues stageParamsAct_answers _ s⟩
  | discardStage => exact ⟨_, rfl, execute_keepsQueues discardStageAct_answers _ s⟩
  | commit => exact ⟨_, rfl, execute_keepsQueues commitAct_answers _ s⟩
  | isolate => exact ⟨_, rfl, execute_keepsQueues isolateAct_answers _ s⟩
  | restore => exact ⟨_, rfl, execute_keepsQueues restoreAct_answers _ s⟩
  | setOverride => exact ⟨_, rfl, execute_keepsQueues setOverrideAct_answers _ s⟩
  | clearOverride => exact ⟨_, rfl, execute_keepsQueues clearOverrideAct_answers _ s⟩
  | setEmission => exact ⟨_, rfl, execute_keepsQueues setEmissionAct_answers _ s⟩
  | clearQuiesce => exact ⟨_, rfl, execute_keepsQueues clearQuiesceAct_answers _ s⟩
  | readStatus => exact ⟨_, rfl, execute_keepsQueues readStatusAct_answers _ s⟩
  | readStream => exact ⟨_, rfl, execute_keepsQueues readStreamAct_answers _ s⟩
  | readRanges => exact ⟨_, rfl, execute_keepsQueues readRangesAct_answers _ s⟩
  | readOverrides => exact ⟨_, rfl, execute_keepsQueues readOverridesAct_answers _ s⟩
  | snapshotCounters => exact ⟨_, rfl, execute_keepsQueues snapshotAct_answers _ s⟩
  | monitorRun | monitorHold => exact ⟨_, rfl, execute_keepsQueues (setCondition_answers _) _ s⟩
  | saveProfile => exact ⟨_, rfl, execute_keepsQueues saveProfileAct_answers _ s⟩
  | restart => exact ⟨_, rfl, execute_keepsQueues restartAct_answers _ s⟩
  | unknownCommand => exact ⟨_, rfl, event (executeIf_keepsQueues (fun _ _ => reply_answers _ _ _ _) s)⟩

/-- A start empties every queue and ends what waited for an answer (R202). -/
theorem start_queuesOk (s : State) : (start s).QueuesOk := by
  constructor <;> simp [start, Egress.mOccupancy, held]
  split <;> simp

/-- A row leaves the queues and reservations of a part that takes events in order. -/
theorem exec_queuesOk {c : Instr} {s t : State} (hs : s.operating = true → s.QueuesOk) (h : exec c s = .next t)
    (ht : t.operating = true) : t.QueuesOk := by
  by_cases hc : IsSupply c
  · cases c with
    | powerUp r => cases h; exact start_queuesOk _
    | resetRelease =>
      rcases exec_resetRelease_cases h ht with ⟨u, rfl⟩ | ⟨ho, rfl⟩
      · exact start_queuesOk u
      · have account : s.ledger.Accounted 0 := State.queuesOk_iff.1 (hs ho)
        exact State.queuesOk_iff.2 account
    | resetAssert | powerLoss => cases h; simp [State.operating] at ht
    | _ => exact absurd hc id
  · obtain ⟨u, hu, hkeeps⟩ := exec_keepsQueues hc s
    cases hu.symm.trans h
    refine State.queuesOk_iff.2 (hkeeps 0 (State.queuesOk_iff.1 (hs (operating_of_exec ?_ ?_ h ht))))
    · rintro r rfl; exact hc trivial
    · rintro rfl; exact hc trivial

/-- Settles O55: a step is a row, or a tick that passes the account by. -/
theorem stepsKeepQueuesAndReservations : Obligations.StepsKeepQueuesAndReservations := by
  unfold Obligations.StepsKeepQueuesAndReservations
  intro s t hs h ht
  have account (ho : s.operating = true) : s.ledger.Accounted 0 := State.queuesOk_iff.1 (hs.running ho).queues
  rcases step_cases h with ⟨c, rest, hexec⟩ | rfl
  · exact exec_queuesOk (s := { s with pending := rest }) (fun ho => State.queuesOk_iff.2 (account ho)) hexec ht
  · have ho : s.operating = true := by
      unfold oneTick whileOperating at ht
      split at ht <;> assumption
    rw [oneTick, whileOperating_pos ho]
    exact State.queuesOk_iff.2 (account ho)

end Sys2Proof.Machine
end

