-- ==== Sys2Proof/Proofs/ParamsAndCommit.lean ====
section
/-! PROOFS. STAGE_PARAMS by its arguments read back and their ranges, and COMMIT by its refusals and the ring (R158, R173, R174, R177,
R179, R183). -/

namespace Sys2Proof.Machine

/-! ### STAGE_PARAMS (R177) -/

/-- Whether each number of a parameter block fits the bytes that R174 gives it. -/
def Params.Fits (p : Params) : Prop :=
  p.rate < 256 ∧ p.budgetMs < 65536 ∧ p.aheadMs < 65536 ∧ p.region < 256 ∧ p.burst < 256 ∧ p.holdoverS < 65536 ∧ p.baud < 65536 ∧
    p.tqMax < 256 ∧ p.widthMs < 256

/-- A block that fits its bytes reads back as it was written, its values in R177's ranges or not. -/
theorem readParams_paramBytes {p : Params} (h : p.Fits) : readParams (paramBytes p) = some p := by
  obtain ⟨hrate, hbudget, hahead, hregion, hburst, hholdover, hbaud, htq, hwidth⟩ := h
  have hbase : p.base.code < 256 := by cases p.base <;> decide
  have hparity : p.parity.code < 256 := by cases p.parity <;> decide
  have hstrobe : p.strobe.code < 256 := by cases p.strobe <;> decide
  have htype := p.payloadType.isLt
  rw [← List.append_nil (paramBytes p)]
  simp (disch := omega) only [readParams, readOnOff, isOnOff, field16, paramBytes, List.append_assoc, field_be_skip, field_onOff_skip,
    field_be_append, field_onOff_append, Nat.reduceSub, Bool.toNat_setting, deadlineBaseOf_code, parityOf_code, strobeOf_code,
    Option.bind_eq_bind, Option.bind_some, decide_true, Bool.and_self, if_true, BitVec.ofNat_toNat, BitVec.setWidth_eq]

/-- STAGE_PARAMS with the arguments of a block: the whole block written, or nothing (R177). -/
theorem stageParamsAct_written {f : CtrlFrame} {s : State} {p : Params} (hc : s.ctl.commit = .none) (ha : f.args = paramBytes p)
    (hfits : p.Fits) : stageParamsAct f s =
      if p.inRange then reply f.re .ok [] (s.stage { s.ctl.staged with params := p }) else reply f.re .badField [] s := by
  have hread : readParams f.args = some p := by rw [ha, readParams_paramBytes hfits]
  have hl : f.args.length = 20 := by rw [ha, paramBytes_length]
  rw [stageParamsAct, hread, hl]
  exact checked_staging hc _

/-- Settles O46: the block read back from its arguments, and its ranges, of which the two upper bounds 255 are those of a byte. -/
theorem stageParamsWritesTheBlock : Obligations.StageParamsWritesTheBlock := by
  unfold Obligations.StageParamsWritesTheBlock
  intro s f q p ho hq hcode hc _ ha hrate hbudget hahead hregion hburst hholdover hbaud htq hwidth accepted
  have hfits : p.Fits := ⟨hrate, hbudget, hahead, hregion, hburst, hholdover, hbaud, htq, hwidth⟩
  have hargs : f.args = paramBytes p := ha
  have hin : p.inRange = true ↔ accepted := by
    have hburst' : p.burst ≤ 255 := Nat.le_of_lt_succ hburst
    have hwidth' : p.widthMs ≤ 255 := Nat.le_of_lt_succ hwidth
    simp only [Params.inRange_iff, accepted, hburst', hwidth', true_and, and_true]
  have hexec : exec .stageParams s = .next (stageParamsAct f (s.popped q)) := exec_act (fun _ => rfl) ho hq (congrArg _ hcode)
  rw [hexec, stageParamsAct_written (s := s.popped q) hc hargs hfits]
  refine ⟨fun hacc => ?_, fun hn => ?_⟩
  · rw [if_pos (hin.2 hacc)]
    rfl
  · rw [if_neg (mt hin.1 hn)]

/-! ### COMMIT (R179, R183) -/

/-- A commit drains the ring exactly when it changes the grid rate or the deadline base (R179). -/
theorem needsDrain_iff {s : State} : s.needsDrain = true ↔
    s.ctl.staged.params.rate ≠ s.table.params.rate ∨ s.ctl.staged.params.base ≠ s.table.params.base := by
  simp only [State.needsDrain, State.rate, Bool.or_eq_true, bne_iff_ne]

/-- A valid commit at an empty ring is applied in the event of its COMMIT. -/
theorem placeCommit_empty {s : State} (re : ReplyTo) (h : s.ring.recs = []) :
    placeCommit re s = applyCommit { s with ctl := { s.ctl with commitFor := some re } } :=
  if_pos (List.isEmpty_iff.2 h)

/-- With records in the ring it waits, for the ring flushed when it changes the grid. -/
theorem placeCommit_waits {s : State} (re : ReplyTo) (h : s.ring.recs ≠ []) :
    placeCommit re s =
      if s.needsDrain then flushCommit { s with ctl := { s.ctl with commitFor := some re, commit := .pendingDrain } }
      else { s with ctl := { s.ctl with commitFor := some re, commit := .pendingBoundary } } :=
  if_neg (mt List.isEmpty_iff.1 h)

/-- COMMIT without arguments: its two refusals in their order, then its place. -/
theorem commitAct_noArgs {f : CtrlFrame} (hl : f.args = []) (s : State) :
    commitAct f s =
      if s.ctl.commit ≠ .none then reply f.re .busy [] s
      else if s.ctl.staged.params.region = 31 then reply f.re .badField [] s
      else placeCommit f.re s := by
  rw [commitAct, hl]
  rfl

/-- Settles O47: the refusals in their order, then the ring, then what the commit changes. -/
theorem commitIsPlacedByTheRing : Obligations.CommitIsPlacedByTheRing := by
  unfold Obligations.CommitIsPlacedByTheRing
  intro s f q ho hq hcode hl u changes
  have hexec : exec .commit s = .next (commitAct f (s.popped q)) := exec_act (fun _ => rfl) ho hq (congrArg _ hcode)
  have hchanges : (s.popped q).needsDrain = true ↔ changes := needsDrain_iff
  have hcommit : (s.popped q).ctl.commit = s.ctl.commit := rfl
  have hstaged : (s.popped q).ctl.staged = s.ctl.staged := rfl
  rw [hexec, commitAct_noArgs hl, hcommit, hstaged]
  refine ⟨fun hp => ?_, fun hc hr => ?_, fun hc hr => ?_⟩
  · rw [if_pos hp]
  · rw [if_neg (not_not.2 hc), if_pos hr]
  · rw [if_neg (not_not.2 hc), if_neg hr]
    refine ⟨fun hempty => ?_, fun hheld hsame => ?_, fun hheld hch => ?_⟩
    · rw [placeCommit_empty (s := s.popped q) f.re hempty]
    · rw [placeCommit_waits (s := s.popped q) f.re hheld, if_neg (mt hchanges.1 hsame)]
    · rw [placeCommit_waits (s := s.popped q) f.re hheld, if_pos (hchanges.2 hch)]

end Sys2Proof.Machine
end

/-! PROOFS. What reports and latencies count, ELAPSED and its freeze, and the Monitor's three commands (R189 to R193, R195, R196). -/

namespace Sys2Proof.Machine

/-! ### When the Monitor counts (R190, R192) -/

/-- It counts in RUN while no freeze stands. -/
theorem Monitor.counting_of_run {m : Monitor} (hrun : m.hold = false) (hfree : m.frozen = false) : m.counting = true := by
  rw [Monitor.counting, hrun, hfree]
  rfl

theorem Monitor.counting_of_stopped {m : Monitor} (h : m.hold = true ∨ m.frozen = true) : m.counting = false := by
  obtain hhold | hfrozen := h
  · rw [Monitor.counting, hhold]
    rfl
  · rw [Monitor.counting, hfrozen]
    exact Bool.and_false _

/-! ### Reports (R189) -/

/-- A report that counts raises the counter at its position. -/
theorem report_of_counting {s : State} (h : s.mon.counting = true) (c : Ctr) :
    report c s = { s with mon := { s.mon with counters := s.mon.counters.set c.pos (satInc s.mon.counters[c.pos]) } } := if_pos h

theorem report_of_not_counting {s : State} (h : s.mon.counting = false) (c : Ctr) : report c s = s :=
  if_neg (Bool.eq_false_iff.1 h)

theorem report_counter_same {s : State} (h : s.mon.counting = true) (c : Ctr) :
    (report c s).mon.counters[c.pos] = satInc s.mon.counters[c.pos] := by
  rw [report_of_counting h]
  exact Vector.getElem_set_self c.pos.isLt

theorem report_counter_other {s : State} (h : s.mon.counting = true) {c d : Ctr} (hne : d ≠ c) :
    (report c s).mon.counters[d.pos] = s.mon.counters[d.pos] := by
  have hpos : c.pos.val ≠ d.pos.val := fun e => Ctr.pos_ne hne (Fin.ext e.symm)
  rw [report_of_counting h]
  exact Vector.getElem_set_ne c.pos.isLt d.pos.isLt hpos

/-- The last of several reports may as well be taken apart as the first. -/
theorem reportMany_succ (c : Ctr) (n : Nat) (s : State) : reportMany c (n + 1) s = report c (reportMany c n s) := by
  induction n generalizing s with
  | zero => rfl
  | succ n ih => exact ih (report c s)

/-! ### The latency histogram (R193) -/

/-- The bin of a latency: its whole milliseconds over the width, and all from 15 widths on in the last bin. -/
def latencyBin (w us : Nat) : Fin 16 := Fin.ofNat 16 (min 15 (us / 1000 / w))

theorem latencyBin_val (w us : Nat) : (latencyBin w us).val = min 15 (us / 1000 / w) :=
  Nat.mod_eq_of_lt (Nat.lt_succ_of_le (Nat.min_le_left _ _))

theorem recordLatency_early {s : State} (h : s.mon.counting = true) (w : Nat) :
    recordLatency w none s = { s with mon := { s.mon with early := satInc s.mon.early } } := if_pos h

theorem recordLatency_binned {s : State} (h : s.mon.counting = true) (w us : Nat) :
    recordLatency w (some us) s =
      { s with mon := { s.mon with bins := s.mon.bins.set (latencyBin w us) (satInc s.mon.bins[latencyBin w us]) } } := if_pos h

theorem recordLatency_of_not_counting {s : State} (h : s.mon.counting = false) (w : Nat) (l : Option Nat) :
    recordLatency w l s = s := if_neg (Bool.eq_false_iff.1 h)

/-- A latency raises its own bin and leaves the others. -/
theorem recordLatency_bin {s : State} (h : s.mon.counting = true) (w us : Nat) (i : Fin 16) :
    (recordLatency w (some us) s).mon.bins[i] =
      if i.val = min 15 (us / 1000 / w) then satInc s.mon.bins[i] else s.mon.bins[i] := by
  rw [recordLatency_binned h, ← latencyBin_val]
  split
  · next hi =>
    obtain rfl : i = latencyBin w us := Fin.ext hi
    exact Vector.getElem_set_self (latencyBin w us).isLt
  · next hi => exact Vector.getElem_set_ne (latencyBin w us).isLt i.isLt (Ne.symm hi)

/-! ### ELAPSED and its freeze (R191, R192) -/

theorem elapsed_eq_top_iff {m : Monitor} : m.elapsed = Word.top ↔ m.elapsed.toNat = 4294967295 := BitVec.toNat_inj.symm

/-- A counting Monitor below its largest ELAPSED: the remainder runs to 999 and carries into ELAPSED. -/
theorem Monitor.advance_of_counting {m : Monitor} (h : m.counting = true) (hlt : m.elapsed.toNat < 4294967295) :
    m.advance = if m.remainder + 1 ≥ 1000 then { m with remainder := 0, elapsed := m.elapsed + 1 }
      else { m with remainder := m.remainder + 1 } := by
  have hne : (m.elapsed != Word.top) = true := bne_iff_ne.2 (mt elapsed_eq_top_iff.1 hlt.ne)
  rw [Monitor.advance, h, hne]
  rfl

theorem Monitor.advance_of_stopped {m : Monitor} (h : m.counting = false ∨ m.elapsed.toNat = 4294967295) : m.advance = m := by
  refine if_neg fun hadv => ?_
  obtain ⟨hcount, hne⟩ := Bool.and_eq_true_iff.1 hadv
  obtain hidle | htop := h
  · exact Bool.eq_false_iff.1 hidle hcount
  · exact bne_iff_ne.1 hne (elapsed_eq_top_iff.2 htop)

/-- One tick of counting time is one µs of ELAPSED and its remainder together. -/
theorem Monitor.advance_counts {m : Monitor} (h : m.counting = true) (hlt : m.elapsed.toNat < 4294967295) (hr : m.remainder < 1000) :
    m.advance.elapsed.toNat * 1000 + m.advance.remainder = m.elapsed.toNat * 1000 + m.remainder + 1 ∧ m.advance.remainder < 1000 ∧
      m.advance = { m with elapsed := m.advance.elapsed, remainder := m.advance.remainder } := by
  rw [Monitor.advance_of_counting h hlt]
  split
  · next hcarry =>
    have hsucc : (m.elapsed + 1).toNat = m.elapsed.toNat + 1 := by bv_omega
    refine ⟨?_, Nat.zero_lt_succ _, rfl⟩
    simp only [hsucc]
    omega
  · next hbelow => exact ⟨(Nat.add_assoc _ _ _).symm, Nat.lt_of_not_le hbelow, rfl⟩

/-- The freeze, at the largest ELAPSED. -/
theorem exec_elapsedFreeze {s : State} (ho : s.operating = true) (htop : s.mon.elapsed = 0xFFFFFFFF#32)
    (hfree : s.mon.frozen = false) :
    exec .elapsedFreeze s = .next { s with mon := { s.mon with frozen := true, remainder := 0 } } := by
  have hdue : s.mon.freezeDue = true := (Monitor.freezeDue_eq s.mon).trans (decide_eq_true ⟨htop, hfree⟩)
  exact congrArg Host.Outcome.next ((whileOperating_pos ho _).trans (if_pos hdue))

/-- Settles O40: reports, the positions, the histogram, and ELAPSED with its freeze. -/
theorem monitorCounts : Obligations.MonitorCounts := by
  unfold Obligations.MonitorCounts
  refine ⟨fun c s => ⟨fun hrun hfree => ?_, fun h => report_of_not_counting (Monitor.counting_of_stopped h) c, rfl,
    fun n => reportMany_succ c n s⟩, ⟨satInc_toNat, rfl⟩, fun w us s _ => ⟨fun hrun hfree => ?_,
    fun h l => recordLatency_of_not_counting (Monitor.counting_of_stopped h) w l⟩,
    fun m hr => ⟨fun hrun hfree hlt => Monitor.advance_counts (Monitor.counting_of_run hrun hfree) hlt hr, fun h => ?_⟩,
    fun s => exec_elapsedFreeze⟩
  · have hcount := Monitor.counting_of_run hrun hfree
    refine ⟨?_, (congrArg BitVec.toNat (report_counter_same hcount c)).trans (satInc_toNat _),
      fun d hne => report_counter_other hcount hne⟩
    rw [report_of_counting hcount]
  · have hcount := Monitor.counting_of_run hrun hfree
    refine ⟨recordLatency_early hcount w, ?_, recordLatency_bin hcount w us⟩
    rw [recordLatency_binned hcount]
  · exact Monitor.advance_of_stopped ((or_assoc.2 h).imp_left Monitor.counting_of_stopped)

/-! ### SNAPSHOT_COUNTERS, MONITOR_RUN and MONITOR_HOLD (R190, R195, R196) -/

/-- SNAPSHOT_COUNTERS in its right form: the counts as they stood, and a cleared Monitor (R195). -/
theorem snapshotAct_noArgs {f : CtrlFrame} (hl : f.args = []) (s : State) :
    snapshotAct f s = reply f.re .ok (snapshotBytes s.mon s.table.params.widthMs) { s with mon := s.mon.cleared } := by
  rw [snapshotAct, hl]
  rfl

/-- MONITOR_RUN or MONITOR_HOLD in its right form: the former condition, and the new one set (R190). -/
theorem setCondition_noArgs {f : CtrlFrame} (hl : f.args = []) (hold : Bool) (s : State) :
    setCondition hold f s = reply f.re .ok (onOff s.mon.hold) { s with mon := { s.mon with hold := hold } } := by
  rw [setCondition, hl]
  rfl

/-- Settles O41: each command is its row of the queue's head, in its right form. -/
theorem monitorCommands : Obligations.MonitorCommands := by
  unfold Obligations.MonitorCommands
  intro s f q ho hq hl
  refine ⟨fun hc => ?_, fun hc => ?_, fun hc => ?_⟩
  · rw [exec_act (act := snapshotAct) (fun _ => rfl) ho hq (congrArg _ hc), snapshotAct_noArgs hl]
    rfl
  · rw [exec_act (act := setCondition false) (fun _ => rfl) ho hq (congrArg _ hc), setCondition_noArgs hl]
    rfl
  · rw [exec_act (act := setCondition true) (fun _ => rfl) ho hq (congrArg _ hc), setCondition_noArgs hl]
    rfl

end Sys2Proof.Machine

/-! PROOFS. What the NODE strap's readings give (R201), and the soundness of a start and of the state after reset (R202, R203). -/

namespace Sys2Proof.Machine

/-! ### The NODE strap (R201) -/

/-- Every reading taken as a direct tie selects the bench. -/
theorem strap_of_tie {r : StrapReading} (h : strapCondition r = none) : strapCode r = 0 ∧ strapBench r = true := by
  simp [strapCode, strapBench, h]

/-- Every reading taken as a resistor gives its code, off the bench. -/
theorem strap_of_code {r : StrapReading} {i : Fin 8} (h : strapCondition r = some i) : strapCode r = i.val ∧ strapBench r = false := by
  simp [strapCode, strapBench, h]

theorem strapCode_of_bench {r : StrapReading} (h : strapBench r = true) : strapCode r = 0 :=
  (strap_of_tie (Option.isNone_iff_eq_none.1 h)).1

/-- Power-up senses the strap; the start leaves what was sensed (R201, R202). -/
theorem powerUp_power {r : StrapReading} {s t : State} (h : exec (.powerUp r) s = .next t) :
    t.power.strapCode = strapCode r ∧ t.power.bench = strapBench r := by
  cases (exec_powerUp_eq r s).symm.trans h
  exact ⟨rfl, rfl⟩

/-- Settles O5: each reading is one of the nine conditions, and which one fixes the strap code and the bench mode. -/
theorem strapReadingsGiveTheirCodes : Obligations.StrapReadingsGiveTheirCodes := by
  unfold Obligations.StrapReadingsGiveTheirCodes
  intro r s t h
  obtain ⟨hcode, hbench⟩ := powerUp_power h
  rw [hcode, hbench]
  refine ⟨fun hb => by rw [strapCode_of_bench hb, Nat.add_zero], ?_⟩
  cases r with
  | tie => exact strap_of_tie rfl
  | belowLowest =>
    cases hfree : Config.strapBelowLowest with
    | none => exact .inl (strap_of_tie hfree)
    | some i =>
      obtain ⟨hi, hoff⟩ := strap_of_code (r := .belowLowest) hfree
      exact .inr ⟨hi ▸ Nat.le_of_lt_succ i.isLt, hoff⟩
  | nominal i => exact strap_of_code rfl
  | between i at_ =>
    cases at_ with
    | nearerLower => exact strap_of_code (i := i.castSucc) rfl
    | midpoint | nearerHigher => exact strap_of_code (i := i.succ) rfl
  | aboveHighest => exact strap_of_code (i := 7) rfl

/-! ### The start and the reset (R202, R203) -/

/-- What holds of a part that takes events, from the joint invariants that the rows keep. -/
theorem State.Sound.of_parts {s : State} (htime : s.Timed) (hqueues : s.QueuesOk) (hring : s.RingSound) (hkept : s.Kept)
    (hwatch : s.HeadOk ∧ s.TicksOk) : s.Sound := by
  obtain ⟨time, monitor⟩ := State.timed_iff.1 htime
  obtain ⟨ring, lists, counts⟩ := State.ringSound_iff.1 hring
  obtain ⟨tables, overrides⟩ := hkept
  obtain ⟨head, ticks⟩ := hwatch
  exact { time, queues := hqueues, ring, tables, overrides, lists, counts, head, ticks, monitor }

/-- The state after reset is a start without an image, but for the TIME line's period, which no invariant speaks of (log 25). -/
theorem reset_eq_start : State.reset = { start State.reset with time := State.reset.time } := rfl

/-- A start leaves every block sound, whatever TIME line with a message in progress of at most 13 characters stands beside it. -/
theorem start_sound (s : State) {l : TimeLine} (h : l.chars.length ≤ 13) : State.Sound { start s with time := l } := by
  have account : (start s).ledger.Accounted 0 := State.queuesOk_iff.1 (start_queuesOk s)
  exact .of_parts (setTime_keepsTime h _ (start_timed s)) (State.queuesOk_iff.2 account)
    (State.PassesBy.sound (s := start s) (.of_ctl rfl rfl rfl rfl) (start_ringSound s))
    ((start_kept s).of_same rfl rfl rfl rfl id)
    (State.Attends.sound (setTime_attends l _) (start_headOk_ticksOk s))

theorem reset_sound : State.reset.Sound := reset_eq_start ▸ start_sound State.reset (Nat.zero_le 13)

/-- Settles O53: no write is under way after reset, and every block is sound. -/
theorem resetMeetsTheInvariants : Obligations.ResetMeetsTheInvariants := by
  unfold Obligations.ResetMeetsTheInvariants
  exact ⟨.of_idle rfl, fun _ => reset_sound⟩

end Sys2Proof.Machine

/-! PROOFS. What a step does while commands wait (log 2). -/

namespace Sys2Proof.Machine

/-- While commands wait, a step is the front one's row, on the part with only the others still waiting (log 2). -/
theorem step_of_pending_cons {s : State} {c : Instr} {rest : List Instr} (h : s.pending = c :: rest) :
    step s = exec c { s with pending := rest } := by
  rw [step, h]

/-- Settles O1: the queue put in place is the queue the step reads, and the rest replaces it. -/
theorem stepRunsTheFrontCommand : Obligations.StepRunsTheFrontCommand := by
  unfold Obligations.StepRunsTheFrontCommand
  intro c rest s
  exact step_of_pending_cons (s := { s with pending := c :: rest }) rfl

end Sys2Proof.Machine
